-- ==== Sys2Proof/Word.lean ====
section
/-! DEFINITION. The words of the stream: bytes and marker codes, and the natural-number division of the spec (R9). -/

namespace Sys2Proof

/-- One raw byte of the input stream (10_state.md R21: each 0..255). -/
abbrev Byte := BitVec 8

/-- A marker code, `0xFF00 | c` with `c` the second byte (30_encoding.md R94). -/
abbrev Marker := BitVec 16

/-- `ceil(a / b)` for naturals, `b > 0`: `(a + b - 1) div b` (00_scope.md R9). -/
def ceilDiv (a b : Nat) : Nat := (a + b - 1) / b

end Sys2Proof
end

