-- ==== Sys2Proof/Syntax.lean ====
section
/-! DEFINITION. The instruction set: one constructor per row of opcode_table.json (30_encoding.md R127), that is one per
kind of stream token and per form of entropy-coded symbol. A row that covers an aligned range of marker codes carries the
low bits of the code. -/

namespace Sys2Proof

/-- The tokens of the byte level (30_encoding.md R91, R95) and the symbols of the bit level (R112, R113). -/
inductive Instr where
  /-- DATA: a data byte `b`, `b` not `0xFF` (R91). -/
  | data (b : BitVec 8)
  /-- STUFFED: `0xFF 0x00`, the data byte `0xFF` (R91). -/
  | stuffed
  /-- TEM: `FF01`. -/
  | tem
  /-- RES_02_03 .. RES_80_BF: reserved codes, skipped as segments. -/
  | res02 (n : BitVec 1)
  | res04 (n : BitVec 2)
  | res08 (n : BitVec 3)
  | res10 (n : BitVec 4)
  | res20 (n : BitVec 5)
  | res40 (n : BitVec 6)
  | res80 (n : BitVec 6)
  /-- The frame markers (R95, R106). -/
  | sof0
  | sof1
  | sof2
  | sof3
  | sof5
  | sof6
  | sof7
  | sof9
  | sof10
  | sof11
  | sof13
  | sof14
  | sof15
  /-- DHT: `FFC4` (R101). -/
  | dht
  /-- JPG: `FFC8`, skipped. -/
  | jpg
  /-- DAC: `FFCC` (R105). -/
  | dac
  /-- RSTn: `FFD0 + n` (R108). -/
  | rst (n : BitVec 3)
  /-- SOI: `FFD8`. -/
  | soi
  /-- EOI: `FFD9`. -/
  | eoi
  /-- SOS: `FFDA` (R107). -/
  | sos
  /-- DQT: `FFDB` (R100). -/
  | dqt
  /-- DNL: `FFDC` (R103). -/
  | dnl
  /-- DRI: `FFDD` (R102). -/
  | dri
  /-- DHP: `FFDE`, skipped. -/
  | dhp
  /-- EXP: `FFDF`, skipped. -/
  | exp
  /-- APPn: `FFE0 + n`, skipped (R104). -/
  | app (n : BitVec 4)
  /-- JPG0_7, JPG8_11, JPG12_13: `FFF0` .. `FFFD`, skipped. -/
  | jpg0 (n : BitVec 3)
  | jpg8 (n : BitVec 2)
  | jpg12 (n : BitVec 1)
  /-- COM: `FFFE`, skipped (R104). -/
  | com
  /-- MFFFF: `FFFF`, skipped (U5). -/
  | mffff
  /-- DC_SIZE: the size symbol `T` of a DC item (R112). -/
  | dcSize (t : BitVec 8)
  /-- EOB: an AC symbol of size 0 and run `r` below 15 (R113, U4). -/
  | eob (r : BitVec 4)
  /-- ZRL: the AC symbol `0xF0` (R113). -/
  | zrl
  /-- AC_COEF: an AC symbol of run `r` and size `s`, `s` not 0 (R113). -/
  | acCoef (r s : BitVec 4)
  deriving DecidableEq, Repr

/-- The three places an instruction can be read from: a token of the byte level, or a Huffman symbol in DC or in AC
position of a data unit (30_encoding.md R90, R127). -/
inductive Level where
  | token
  | dc
  | ac
  deriving DecidableEq, Repr

/-- The level an instruction belongs to. -/
def Instr.level : Instr → Level
  | .data _ | .stuffed | .tem | .res02 _ | .res04 _ | .res08 _ | .res10 _ | .res20 _ | .res40 _ | .res80 _
  | .sof0 | .sof1 | .sof2 | .sof3 | .sof5 | .sof6 | .sof7 | .sof9 | .sof10 | .sof11 | .sof13 | .sof14 | .sof15
  | .dht | .jpg | .dac | .rst _ | .soi | .eoi | .sos | .dqt | .dnl | .dri | .dhp | .exp | .app _
  | .jpg0 _ | .jpg8 _ | .jpg12 _ | .com | .mffff => .token
  | .dcSize _ => .dc
  | .eob _ | .zrl | .acCoef _ _ => .ac

end Sys2Proof
end

