-- ==== Sys2Proof/WellFormed.lean ====
section
/-! DEFINITION. Which terms of Instr are instructions of the stream language. Most rows fix every bit that is not an
operand, and the operand's type has exactly the row's bits; three rows exclude a value. -/

namespace Sys2Proof

/-- * DATA: `b ≠ 0xFF`, for `0xFF` opens a stuffed byte or a marker (30_encoding.md R91).
* EOB: run 15 with size 0 is ZRL (R113).
* AC_COEF: size 0 is EOB or ZRL (R113). -/
def Instr.wellFormed : Instr → Bool
  | .data b => b != 0xFF#8
  | .eob r => r != 15#4
  | .acCoef _ s => s != 0#4
  | .stuffed | .tem | .res02 _ | .res04 _ | .res08 _ | .res10 _ | .res20 _ | .res40 _ | .res80 _
  | .sof0 | .sof1 | .sof2 | .sof3 | .sof5 | .sof6 | .sof7 | .sof9 | .sof10 | .sof11 | .sof13 | .sof14 | .sof15
  | .dht | .jpg | .dac | .rst _ | .soi | .eoi | .sos | .dqt | .dnl | .dri | .dhp | .exp | .app _
  | .jpg0 _ | .jpg8 _ | .jpg12 _ | .com | .mffff | .dcSize _ | .zrl => true

end Sys2Proof
end

