-- ==== Sys2Proof/Decode.lean ====
section
/-! DEFINITION. Reading instructions from bytes and writing them back (30_encoding.md R90 to R96, R112, R113, R127): the
token recogniser `peekToken` (40_bytestream.md R141), the marker map (R95), the symbol readers, and the encoder. -/

namespace Sys2Proof

/-- What stands next in the stream (40_bytestream.md R141). `byte b n`: the data byte `b`, `n` raw bytes long. -/
inductive Token where
  | exhausted
  | byte (b : Byte) (rawLen : Nat)
  | marker (m : Marker)
  deriving DecidableEq, Repr

/-- The marker whose second byte is `c`: `0xFF00 | c` (30_encoding.md R94). -/
def markerOf (c : Byte) : Marker := 0xFF#8 ++ c

/-- The second byte of a marker code. -/
def markerLow (m : Marker) : Byte := m.extractLsb' 0 8

/-- The two bytes of a marker, first `0xFF` (30_encoding.md R91, 20_memory.md R63). -/
def markerBytes (m : Marker) : List Byte := [m.extractLsb' 8 8, m.extractLsb' 0 8]

/-- `peekToken()` over the bytes from `POS` on (40_bytestream.md R141, 30_encoding.md R91). A `0xFF` that is the last
byte is exhausted, for its kind cannot be known. -/
def peekToken : List Byte → Token
  | [] => .exhausted
  | [b] => if b = 0xFF#8 then .exhausted else .byte b 1
  | b :: c :: _ =>
    if b ≠ 0xFF#8 then .byte b 1
    else if c = 0#8 then .byte 0xFF#8 2
    else .marker (markerOf c)

/-- The marker map of 30_encoding.md R95 by second byte: the row of opcode_table.json whose fixed bits `c` has. The code
`00` is no marker (it is the stuffed byte). -/
def instrOfCode (c : Byte) : Option Instr :=
  if c = 0x00#8 then none
  else if c = 0x01#8 then some .tem
  else if c &&& 0xFE#8 = 0x02#8 then some (.res02 (c.extractLsb' 0 1))
  else if c &&& 0xFC#8 = 0x04#8 then some (.res04 (c.extractLsb' 0 2))
  else if c &&& 0xF8#8 = 0x08#8 then some (.res08 (c.extractLsb' 0 3))
  else if c &&& 0xF0#8 = 0x10#8 then some (.res10 (c.extractLsb' 0 4))
  else if c &&& 0xE0#8 = 0x20#8 then some (.res20 (c.extractLsb' 0 5))
  else if c &&& 0xC0#8 = 0x40#8 then some (.res40 (c.extractLsb' 0 6))
  else if c &&& 0xC0#8 = 0x80#8 then some (.res80 (c.extractLsb' 0 6))
  else if c = 0xC0#8 then some .sof0
  else if c = 0xC1#8 then some .sof1
  else if c = 0xC2#8 then some .sof2
  else if c = 0xC3#8 then some .sof3
  else if c = 0xC4#8 then some .dht
  else if c = 0xC5#8 then some .sof5
  else if c = 0xC6#8 then some .sof6
  else if c = 0xC7#8 then some .sof7
  else if c = 0xC8#8 then some .jpg
  else if c = 0xC9#8 then some .sof9
  else if c = 0xCA#8 then some .sof10
  else if c = 0xCB#8 then some .sof11
  else if c = 0xCC#8 then some .dac
  else if c = 0xCD#8 then some .sof13
  else if c = 0xCE#8 then some .sof14
  else if c = 0xCF#8 then some .sof15
  else if c &&& 0xF8#8 = 0xD0#8 then some (.rst (c.extractLsb' 0 3))
  else if c = 0xD8#8 then some .soi
  else if c = 0xD9#8 then some .eoi
  else if c = 0xDA#8 then some .sos
  else if c = 0xDB#8 then some .dqt
  else if c = 0xDC#8 then some .dnl
  else if c = 0xDD#8 then some .dri
  else if c = 0xDE#8 then some .dhp
  else if c = 0xDF#8 then some .exp
  else if c &&& 0xF0#8 = 0xE0#8 then some (.app (c.extractLsb' 0 4))
  else if c &&& 0xF8#8 = 0xF0#8 then some (.jpg0 (c.extractLsb' 0 3))
  else if c &&& 0xFC#8 = 0xF8#8 then some (.jpg8 (c.extractLsb' 0 2))
  else if c &&& 0xFE#8 = 0xFC#8 then some (.jpg12 (c.extractLsb' 0 1))
  else if c = 0xFE#8 then some .com
  else some .mffff

/-- Why bytes give no instruction. -/
inductive Reject where
  /-- The bytes end before a whole token or symbol (30_encoding.md R91: none, stream exhausted). -/
  | exhausted
  /-- The second byte `00` where a marker code is looked up (30_encoding.md R95: not a marker). -/
  | notAMarker
  deriving DecidableEq, Repr

/-- A DC symbol is the size `T`, any byte (30_encoding.md R112). -/
def decodeDcSymbol (b : Byte) : Instr := .dcSize b

/-- An AC symbol is run and size, the run in the high nibble (30_encoding.md R113). -/
def decodeAcSymbol (b : Byte) : Instr :=
  let r := b.extractLsb' 4 4
  let s := b.extractLsb' 0 4
  if s = 0#4 then (if r = 15#4 then .zrl else .eob r) else .acCoef r s

/-- The token at the head of the bytes, and the bytes after it (30_encoding.md R91, R95). -/
def decodeToken (bytes : List Byte) : Except Reject (Instr × List Byte) :=
  match peekToken bytes with
  | .exhausted => .error .exhausted
  | .byte b n => if n = 2 then .ok (.stuffed, bytes.drop 2) else .ok (.data b, bytes.drop 1)
  | .marker m =>
    match instrOfCode (markerLow m) with
    | some i => .ok (i, bytes.drop 2)
    | none => .error .notAMarker

/-- The decoder, total on any bytes: at the byte level a token, at the bit level a decoded symbol byte (R90, R127). -/
def decode : Level → List Byte → Except Reject (Instr × List Byte)
  | .token, bytes => decodeToken bytes
  | .dc, b :: rest => .ok (decodeDcSymbol b, rest)
  | .ac, b :: rest => .ok (decodeAcSymbol b, rest)
  | .dc, [] => .error .exhausted
  | .ac, [] => .error .exhausted

/-! ## The encoder -/

/-- The second byte of a marker instruction (30_encoding.md R95); `none` for what is no marker. -/
def Instr.markerCode : Instr → Option Byte
  | .tem => some 0x01#8
  | .res02 n => some (0b0000001#7 ++ n)
  | .res04 n => some (0b000001#6 ++ n)
  | .res08 n => some (0b00001#5 ++ n)
  | .res10 n => some (0b0001#4 ++ n)
  | .res20 n => some (0b001#3 ++ n)
  | .res40 n => some (0b01#2 ++ n)
  | .res80 n => some (0b10#2 ++ n)
  | .sof0 => some 0xC0#8
  | .sof1 => some 0xC1#8
  | .sof2 => some 0xC2#8
  | .sof3 => some 0xC3#8
  | .sof5 => some 0xC5#8
  | .sof6 => some 0xC6#8
  | .sof7 => some 0xC7#8
  | .sof9 => some 0xC9#8
  | .sof10 => some 0xCA#8
  | .sof11 => some 0xCB#8
  | .sof13 => some 0xCD#8
  | .sof14 => some 0xCE#8
  | .sof15 => some 0xCF#8
  | .dht => some 0xC4#8
  | .jpg => some 0xC8#8
  | .dac => some 0xCC#8
  | .rst n => some (0b11010#5 ++ n)
  | .soi => some 0xD8#8
  | .eoi => some 0xD9#8
  | .sos => some 0xDA#8
  | .dqt => some 0xDB#8
  | .dnl => some 0xDC#8
  | .dri => some 0xDD#8
  | .dhp => some 0xDE#8
  | .exp => some 0xDF#8
  | .app n => some (0xE#4 ++ n)
  | .jpg0 n => some (0b11110#5 ++ n)
  | .jpg8 n => some (0b111110#6 ++ n)
  | .jpg12 n => some (0b1111110#7 ++ n)
  | .com => some 0xFE#8
  | .mffff => some 0xFF#8
  | .data _ | .stuffed | .dcSize _ | .eob _ | .zrl | .acCoef _ _ => none

/-- The bytes of an instruction: a token's raw bytes (30_encoding.md R91), a symbol's byte (R112, R113). -/
def encode : Instr → List Byte
  | .data b => [b]
  | .stuffed => [0xFF#8, 0x00#8]
  | .dcSize t => [t]
  | .eob r => [r ++ 0#4]
  | .zrl => [0xF0#8]
  | .acCoef r s => [r ++ s]
  | i =>
    match i.markerCode with
    | some c => [0xFF#8, c]
    | none => []

/-! ## The host's numbering of a row's bits -/

/-- The raw bytes of a table word (opcode_table.json numbers a row's bits as one number per 16-bit word, the word's first
byte the more significant): the first word is the marker, a further word follows it, each big-endian (20_memory.md R63). -/
def tableWordBytes (nbits w : Nat) : List Byte :=
  if nbits ≤ 8 then [BitVec.ofNat 8 w]
  else if nbits ≤ 16 then [BitVec.ofNat 8 (w / 256), BitVec.ofNat 8 w]
  else [BitVec.ofNat 8 (w / 256), BitVec.ofNat 8 w, BitVec.ofNat 8 (w / 16777216), BitVec.ofNat 8 (w / 65536)]

/-- The level a table word is read at: a word of two bytes and more is a token. Five rows have one byte (DATA, DC_SIZE,
EOB, ZRL, AC_COEF) and which of them a byte is depends on the sequencer, not on the byte; a one-byte word is read as a
symbol in AC position, where three of the five stand and are told apart (DESIGN CHOICE, log 10). -/
def tableWordLevel (nbits : Nat) : Level := if nbits ≤ 8 then .ac else .token

/-- The instruction the decoder reads from a word of the opcode table. -/
def decodeTableWord (nbits w : Nat) : Option Instr :=
  match decode (tableWordLevel nbits) (tableWordBytes nbits w) with
  | .ok (i, _) => some i
  | .error _ => none

end Sys2Proof
end

