-- ==== Sys2Proof/Config.lean ====
section
/-! DEFINITION. The run parameters of 00_scope.md R8 (what the source leaves to the implementation), their used values,
and the one free value of the spec. -/

namespace Sys2Proof

/-- `TABLE_PERSIST` (D8): how tables defined before one scan reach later scans. OPEN. -/
inductive TablePersist where
  | cumulative
  | framePlusCurrent
  deriving DecidableEq, Repr

/-- `IDCT_INT` (D20): how the real inverse-DCT value becomes an integer. OPEN. -/
inductive IdctInt where
  | trunc
  | nearest
  | envelope
  deriving DecidableEq, Repr

/-- `SEG_READ_MODE` (D3): whether `readBytes` and `readUint16` undo byte stuffing. -/
inductive SegReadMode where
  | raw
  | token
  deriving DecidableEq, Repr

/-- The parameters of a run (00_scope.md R8). They are no registers (10_state.md R20): the state carries them, no step
writes them, so a statement about every state holds for every value of every parameter (log 3). -/
structure Params where
  tablePersist : TablePersist
  idctInt      : IdctInt
  ncompMax     : Nat
  huffvalMax   : Nat
  dcsizeMax    : Nat
  segReadMode  : SegReadMode
  precisions   : List Nat
  sofAccept    : List Marker
  auxRecord    : Bool
  deriving DecidableEq, Repr

namespace Config

/-- The used values of 00_scope.md R8 and of the parameter table of 92_eei_decisions.md. -/
def params : Params where
  tablePersist := .cumulative
  idctInt      := .trunc
  ncompMax     := 4
  huffvalMax   := 256
  dcsizeMax    := 16
  segReadMode  := .raw
  precisions   := [8]
  sofAccept    := [0xFFC0#16, 0xFFC1#16]
  auxRecord    := true

/-- FREE VALUE (45_scan_engine.md R260, U3): under `IDCT_INT = ENVELOPE` a non-integer real value may become the integer
just above it (`true`) or just below it (`false`). One bit per sample, numbered by a counter of the state (log 5). -/
opaque envelopeUp : Nat → Bool

end Config

end Sys2Proof
end

