-- ==== Sys2Proof/Machine/State.lean ====
section
/-! DEFINITION. The state of the CORE (10_state.md): every register, table, snapshot and port history the spec names, as
plain data, with the run parameters of R20; the errors; the reset state (R45). -/

namespace Sys2Proof.Machine

/-- `STATE` (10_state.md R30). -/
inductive SeqState where
  | awaitSOI
  | frameTables
  | awaitingSOS
  | scanHeader
  | decodingMCUs
  | restartBoundary
  | scanComplete
  | done
  | error
  deriving DecidableEq, Repr

/-- The ten errors (60_exceptions.md R320). -/
inductive ErrKind where
  | streamExhausted
  | unexpectedByte
  | unexpectedMarker
  | malformedSegment
  | unsupportedFeature
  | huffmanDecodeFailure
  | restartSequenceError
  | bindFailure
  | coefficientOverrun
  | capacityExceeded
  deriving DecidableEq, Repr

/-- Which loop of a data unit reads the next symbol: the DC step (45_scan_engine.md R253) or the AC step (R255). The
model's own field (log 6). -/
inductive UnitPos where
  | dc
  | ac
  deriving DecidableEq, Repr

/-- A component of the frame header (10_state.md R35). -/
structure FrameComp where
  id : BitVec 8
  h  : BitVec 4
  v  : BitVec 4
  tq : BitVec 8
  /-- derived width `ceil(X * H / Hmax)` -/
  width  : Nat
  /-- derived height `ceil(Y * V / Vmax)` -/
  height : Nat
  deriving DecidableEq, Repr

/-- `FH`, the frame header (10_state.md R35). -/
structure FrameHeader where
  sof  : BitVec 16
  p    : BitVec 8
  y    : BitVec 16
  x    : BitVec 16
  nf   : BitVec 8
  comp : List FrameComp
  hmax : BitVec 4
  vmax : BitVec 4
  deriving DecidableEq, Repr

/-- A component of the scan header (10_state.md R36). -/
structure ScanComp where
  cs : BitVec 8
  td : BitVec 4
  ta : BitVec 4
  deriving DecidableEq, Repr

/-- `SH`, the scan header (10_state.md R36). -/
structure ScanHeader where
  ns   : BitVec 8
  comp : List ScanComp
  ss   : BitVec 8
  se   : BitVec 8
  ah   : BitVec 4
  al   : BitVec 4
  deriving DecidableEq, Repr

/-- A QuantizationTable (10_state.md R38): `q` in zig-zag order. -/
structure QuantTable where
  pq : BitVec 1
  tq : BitVec 2
  q  : List Nat
  deriving DecidableEq, Repr

/-- A HuffmanTable (10_state.md R39). `bits`, `mincode`, `maxcode`, `valptr` are indexed by length: position `l - 1` for
length `l`. `mincode` and `valptr` of a length with no codes hold no value (log 12). -/
structure HuffTable where
  tc       : BitVec 1
  th       : BitVec 2
  bits     : List Nat
  n        : Nat
  huffval  : List Byte
  huffsize : List Nat
  huffcode : List Nat
  mincode  : List (Option Nat)
  maxcode  : List Int
  valptr   : List (Option Nat)
  deriving DecidableEq, Repr

/-- Four table slots, ids 0..3; `none` is NONE (10_state.md R40, 00_scope.md R13). -/
structure Slots (α : Type) where
  s0 : Option α
  s1 : Option α
  s2 : Option α
  s3 : Option α
  deriving DecidableEq, Repr

/-- A MiscTables snapshot (10_state.md R40): `quant[0..3]`, `huff[0][0..3]` (DC), `huff[1][0..3]` (AC), `interval`
(-1 = unset). -/
structure MiscTables where
  quant    : Slots QuantTable
  dc       : Slots HuffTable
  ac       : Slots HuffTable
  interval : Int
  deriving DecidableEq, Repr

/-- All four slots NONE. -/
def Slots.empty {α : Type} : Slots α := ⟨none, none, none, none⟩

/-- `EMPTY` (42_tablestore.md R176). -/
def MiscTables.empty : MiscTables := ⟨Slots.empty, Slots.empty, Slots.empty, -1⟩

/-- `BIND[j]` (10_state.md R37): the tables are copies. -/
structure Binding where
  id     : BitVec 8
  h      : BitVec 4
  v      : BitVec 4
  width  : Nat
  height : Nat
  units  : Nat
  q      : QuantTable
  dc     : HuffTable
  ac     : HuffTable
  deriving DecidableEq, Repr

/-- A record of `OUT` (20_memory.md R72). -/
structure OutRec where
  scan    : Nat
  cid     : BitVec 8
  samples : List Nat
  deriving DecidableEq, Repr

/-- A record of `AUX` (20_memory.md R73). -/
structure AuxRec where
  marker : BitVec 16
  bytes  : List Byte
  deriving DecidableEq, Repr

/-- The state of the CORE (10_state.md R20), with the run parameters. -/
structure State where
  /-- the parameters of 00_scope.md R8 -/
  params    : Params
  /-- `IN` (R21) -/
  input     : List Byte
  /-- `POS` (R21) -/
  pos       : Nat
  /-- `LASTPOS`, `PB_ARMED` (R23) -/
  lastpos   : Nat
  pbArmed   : Bool
  /-- `BITBUF`, `BITCNT` (R24) -/
  bitbuf    : BitVec 8
  bitcnt    : Nat
  /-- `CODE`, `LEN` (R25) -/
  code      : Nat
  len       : Nat
  /-- `PRED` (R26) -/
  pred      : List Int
  /-- `ZZ`, `DQ`, `NAT`, `SAMP`, `K` (R27) -/
  zz        : List Int
  dq        : List Int
  nat       : List Int
  samp      : List Nat
  k         : Nat
  /-- `RI`, `RSTEXP`, `MCU_IN_INT`, `MCU_DONE`, `ATB` (R28) -/
  ri        : Int
  rstexp    : BitVec 3
  mcuInInt  : Nat
  mcuDone   : Nat
  atb       : Bool
  /-- `CUR_J`, `CUR_U` (R29) -/
  curJ      : Nat
  curU      : Nat
  /-- the model's own: the loop of the data unit that reads next (log 6) -/
  unitPos   : UnitPos
  /-- `STATE` (R30) -/
  st        : SeqState
  /-- `ERR_CODE`, `ERR_MARKER`, `ERR_POS`, `ERR_STATE` (R31) -/
  errCode   : BitVec 4
  errMarker : BitVec 16
  errPos    : Nat
  errState  : BitVec 4
  /-- `PENDMK_V`, `PENDMK` (R32) -/
  pendmkV   : Bool
  pendmk    : BitVec 16
  /-- `DNL_SEEN`, `DNL_NL` (R33) -/
  dnlSeen   : Bool
  dnlNl     : BitVec 16
  /-- `SCAN_IDX` (R34) -/
  scanIdx   : Nat
  /-- `LASTMK` (R47) -/
  lastmk    : BitVec 16
  /-- `FH_V`, `FH` (R35) -/
  fhV       : Bool
  fh        : FrameHeader
  /-- `SH` (R36) -/
  sh        : ScanHeader
  /-- `NBIND`, `BIND`, `MCUCOUNT` (R37) -/
  nbind     : Nat
  bind      : List Binding
  mcuCount  : Nat
  /-- `BASE`, `OVL`, `EFF` (R40) -/
  base      : MiscTables
  ovl       : MiscTables
  eff       : MiscTables
  /-- `OUT`, `AUX` (R46) -/
  out       : List OutRec
  aux       : List AuxRec
  /-- the model's own: free values used so far (log 5) -/
  freeCtr   : Nat
  deriving DecidableEq, Repr

/-- The model's stops. The spec's errors are no faults: they are taken by `trapEntry` and give a next state. Each fault
below is met only in states no run from reset reaches (log 11), so each is SAFE. -/
inductive Fault where
  /-- A token executed in `ScanHeader` or `ScanComplete`, where the sequencer reads no token. Raised by the meanings of
  tokens. Safe. -/
  | noTokenWanted
  /-- An entropy symbol executed outside `DecodingMCUs`, or a DC symbol in AC position or the reverse. Raised by the
  meanings of symbols. Safe. -/
  | symbolOutOfPlace
  /-- `BIND[CUR_J]` read though no binding was made (10_state.md R44). Raised by the symbol decode and the symbols. Safe. -/
  | unbound
  /-- `FH` read while `FH_V = 0` (10_state.md R44). Raised by the scan header and by the level shift. Safe. -/
  | noFrameHeader
  /-- A Huffman table that no DHT segment built: `mincode`, `valptr` or a value missing at the matching length
  (43_huffman_decode.md R213). Raised by the symbol decode. Safe. -/
  | tableNotBuilt
  deriving DecidableEq, Repr

/-- Refusals. No arm of exec refuses; the constructor is the host's. -/
inductive Refusal where
  /-- An instruction with no meaning yet. Raised by no arm. Safe. -/
  | notModelled (mnemonic : String)
  deriving DecidableEq, Repr

/-- What one operation of the sequencer gives. -/
abbrev StepOutcome := Host.Outcome State Fault Refusal

/-- A Block of 64 zeros (00_scope.md R14). -/
def zeroBlock : List Int := List.replicate 64 0

/-- The reset state (10_state.md R45, 70_reset_and_hazards.md R361). A register R45 calls unspecified is zero (DESIGN
CHOICE, log 4); the input is empty until a stream is loaded (log 2); the parameters have their used values (log 3). -/
def State.reset : State where
  params    := Config.params
  input     := []
  pos       := 0
  lastpos   := 0
  pbArmed   := false
  bitbuf    := 0#8
  bitcnt    := 0
  code      := 0
  len       := 0
  pred      := [0, 0, 0, 0]
  zz        := zeroBlock
  dq        := zeroBlock
  nat       := zeroBlock
  samp      := List.replicate 64 0
  k         := 0
  ri        := 0
  rstexp    := 0#3
  mcuInInt  := 0
  mcuDone   := 0
  atb       := false
  curJ      := 0
  curU      := 0
  unitPos   := .dc
  st        := .awaitSOI
  errCode   := 0#4
  errMarker := 0#16
  errPos    := 0
  errState  := 0#4
  pendmkV   := false
  pendmk    := 0#16
  dnlSeen   := false
  dnlNl     := 0#16
  scanIdx   := 0
  lastmk    := 0#16
  fhV       := false
  fh        := ⟨0#16, 0#8, 0#16, 0#16, 0#8, [], 0#4, 0#4⟩
  sh        := ⟨0#8, [], 0#8, 0#8, 0#4, 0#4⟩
  nbind     := 0
  bind      := []
  mcuCount  := 0
  base      := MiscTables.empty
  ovl       := MiscTables.empty
  eff       := MiscTables.empty
  out       := []
  aux       := []
  freeCtr   := 0

/-- The reset state over a new input (70_reset_and_hazards.md R361): how a program, a byte stream, is loaded (log 2). -/
def State.load (bytes : List Byte) : State := { State.reset with input := bytes }

end Sys2Proof.Machine
end

