-- ==== Sys2Proof/Machine/Operands.lean ====
section
/-! DEFINITION. Operand forms and value functions of the stream (30_encoding.md): packed nibbles (R93), the marker catalog
(R94, R95), `extend` (R118), `padding` (R120), the zig-zag permutation (R122), slots. -/

namespace Sys2Proof.Machine

/-- The first-named field of a packed byte (30_encoding.md R93). -/
def highNibble (b : Byte) : BitVec 4 := b.extractLsb' 4 4

/-- The second-named field of a packed byte (30_encoding.md R93). -/
def lowNibble (b : Byte) : BitVec 4 := b.extractLsb' 0 4

/-- `rstIndex(m)`: `m & 7` for `FFD0 ≤ m ≤ FFD7`, else none (30_encoding.md R94: -1). -/
def rstIndex (m : Marker) : Option (BitVec 3) :=
  if 0xFFD0 ≤ m.toNat ∧ m.toNat ≤ 0xFFD7 then some (m.extractLsb' 0 3) else none

/-- `isFrame(m)`: second byte `C0..CF` except `C4`, `C8`, `CC` (30_encoding.md R95). -/
def isFrame (m : Marker) : Bool :=
  decide (0xFFC0 ≤ m.toNat) && decide (m.toNat ≤ 0xFFCF) && m != 0xFFC4#16 && m != 0xFFC8#16 && m != 0xFFCC#16

/-- `extend(v, t)`, `t ≥ 1` (30_encoding.md R118). -/
def extend (v t : Nat) : Int :=
  if v < 2 ^ (t - 1) then (v : Int) + (-(2 ^ t : Int)) + 1 else (v : Int)

/-- `padding(unit, n)`: the least multiple of `unit` not below `n` (30_encoding.md R120). -/
def padding (unit n : Nat) : Nat := ceilDiv n unit * unit

/-- `ZIGZAG[k]`, `k = 0..63` (30_encoding.md R122). -/
def zigzag : List Nat :=
  [0, 1, 8, 16, 9, 2, 3, 10] ++
  [17, 24, 32, 25, 18, 11, 4, 5] ++
  [12, 19, 26, 33, 40, 48, 41, 34] ++
  [27, 20, 13, 6, 7, 14, 21, 28] ++
  [35, 42, 49, 56, 57, 50, 43, 36] ++
  [29, 22, 15, 23, 30, 37, 44, 51] ++
  [58, 59, 52, 45, 38, 31, 39, 46] ++
  [53, 60, 61, 54, 47, 55, 62, 63]

/-- The table in slot `t` (20_memory.md R70, R71). -/
def slotGet {α : Type} (s : Slots α) (t : BitVec 2) : Option α :=
  if t = 0#2 then s.s0 else if t = 1#2 then s.s1 else if t = 2#2 then s.s2 else s.s3

/-- The slots with `x` stored whole in slot `t` (20_memory.md R70). -/
def slotSet {α : Type} (s : Slots α) (t : BitVec 2) (x : α) : Slots α :=
  if t = 0#2 then { s with s0 := some x }
  else if t = 1#2 then { s with s1 := some x }
  else if t = 2#2 then { s with s2 := some x }
  else { s with s3 := some x }

/-- The table in the slot a header field names; a field above 3 names no slot (44_headers.md R231, R232). -/
def slotAt {α : Type} (s : Slots α) (t : Nat) : Option α :=
  if t > 3 then none else slotGet s (BitVec.ofNat 2 t)

/-- Write entry `j` of a register array held as a list; the entries past its end are `fill` until written (`PRED`,
10_state.md R26). -/
def arraySet {α : Type} (fill : α) (l : List α) (j : Nat) (x : α) : List α :=
  if j < l.length then l.set j x else l ++ List.replicate (j - l.length) fill ++ [x]

/-- An array entry by code length `1..16` (10_state.md R39). -/
def byLength {α : Type} (l : List α) (len : Nat) : Option α := if len = 0 then none else l[len - 1]?

end Sys2Proof.Machine
end

