-- ==== Sys2Proof/Machine/Flags.lean ====
section
/-! DEFINITION. The CORE has no condition codes or arithmetic flags (10_state.md R42): no operation computes one. What is
flag-like is status: the numbers of `STATE` (R30) and `ERR_CODE` (60_exceptions.md R321), the wires `done` and `error`, and
the status port (20_memory.md R74). `ATB`, `PB_ARMED`, `PENDMK_V`, `DNL_SEEN`, `FH_V` are set and cleared by the
operations whose rules say so. -/

namespace Sys2Proof.Machine

/-- The number of a sequencer state (10_state.md R30, D35). -/
def SeqState.code : SeqState → BitVec 4
  | .awaitSOI => 0#4
  | .frameTables => 1#4
  | .awaitingSOS => 2#4
  | .scanHeader => 3#4
  | .decodingMCUs => 4#4
  | .restartBoundary => 5#4
  | .scanComplete => 6#4
  | .done => 7#4
  | .error => 8#4

/-- The code of an error (60_exceptions.md R321). -/
def ErrKind.code : ErrKind → BitVec 4
  | .streamExhausted => 1#4
  | .unexpectedByte => 2#4
  | .unexpectedMarker => 3#4
  | .malformedSegment => 4#4
  | .unsupportedFeature => 5#4
  | .huffmanDecodeFailure => 6#4
  | .restartSequenceError => 7#4
  | .bindFailure => 8#4
  | .coefficientOverrun => 9#4
  | .capacityExceeded => 10#4

/-- The wire `done` (20_memory.md R74). -/
def doneWire (s : State) : Bool := decide (s.st = .done)

/-- The wire `error` (20_memory.md R74). -/
def errorWire (s : State) : Bool := decide (s.st = .error)

/-- What the host reads on the status port (20_memory.md R74). -/
structure Status where
  state     : BitVec 4
  errCode   : BitVec 4
  errMarker : BitVec 16
  errPos    : Nat
  errState  : BitVec 4
  scanIdx   : Nat
  mcuCount  : Nat
  mcuDone   : Nat
  dnlSeen   : Bool
  dnlNl     : BitVec 16
  fhV       : Bool
  fh        : FrameHeader
  done      : Bool
  error     : Bool
  deriving DecidableEq, Repr

/-- Reading the status port has no effect on the block (20_memory.md R74). -/
def status (s : State) : Status where
  state     := s.st.code
  errCode   := s.errCode
  errMarker := s.errMarker
  errPos    := s.errPos
  errState  := s.errState
  scanIdx   := s.scanIdx
  mcuCount  := s.mcuCount
  mcuDone   := s.mcuDone
  dnlSeen   := s.dnlSeen
  dnlNl     := s.dnlNl
  fhV       := s.fhV
  fh        := s.fh
  done      := doneWire s
  error     := errorWire s

end Sys2Proof.Machine
end

