-- ==== Sys2Proof/Machine/Ops.lean ====
section
/-! DEFINITION. The shared operations: the result of an operation (00_scope.md R12), raw and token reads and pushback
(20_memory.md R62 to R68, 40_bytestream.md), the bit reader (41_bitreader.md), the ports (20_memory.md R72, R73), taking
an error (60_exceptions.md R335) and reset (70_reset_and_hazards.md R361). -/

namespace Sys2Proof.Machine

/-- The two non-error conditions (41_bitreader.md R163). -/
inductive Signal where
  | endOfScan
  | markerFound (m : Marker)
  deriving DecidableEq, Repr

/-- The info of a raise that has one: the marker it is about (60_exceptions.md R325, R328, R334) or the byte
(R326). -/
inductive Info where
  | marker (m : Marker)
  | byte (b : Byte)
  deriving DecidableEq, Repr

/-- How an operation stops short (00_scope.md R11, R12): `raise E(info)`, `signal S`, or a fault of the model (log 11). -/
inductive Stop where
  | raise (e : ErrKind) (info : Option Info)
  | signal (g : Signal)
  | fault (f : Fault)
  deriving DecidableEq, Repr

/-- The result of an operation (00_scope.md R12), with the state it leaves. A stop keeps the effects that came before it
(60_exceptions.md R336). -/
inductive Res (α : Type) where
  | ok (a : α) (s : State)
  | stop (c : Stop) (s : State)
  deriving DecidableEq, Repr

/-- One operation after another: a stop ends the caller too (00_scope.md R11). -/
def Res.bind {α β : Type} (r : Res α) (f : α → State → Res β) : Res β :=
  match r with
  | .ok a s => f a s
  | .stop c s => .stop c s

/-- `raise E(info)` (00_scope.md R11). -/
def raise {α : Type} (e : ErrKind) (info : Option Info) (s : State) : Res α := .stop (.raise e info) s

/-! ## Reads of the input stream -/

/-- `N` (10_state.md R21). -/
def inputLen (s : State) : Nat := s.input.length

/-- The bytes from `POS` on. -/
def remaining (s : State) : List Byte := s.input.drop s.pos

/-- The effect of every StreamExhausted: `POS <- N`, then the raise (D5). -/
def exhausted {α : Type} (s : State) : Res α := raise .streamExhausted none { s with pos := inputLen s }

/-- `raw(n)` (20_memory.md R62): fewer than `n` bytes left is `POS + n > N`, and `raw(0)` always answers. It clears
`PB_ARMED`, and so does `raw(0)`: R62 says of it both that it changes nothing and, as a raw read, that it clears `PB_ARMED`
(DESIGN CHOICE, log 21; `readBytes`, its one caller, has cleared the bit by then, 40_bytestream.md R147). -/
def raw (n : Nat) (s : State) : Res (List Byte) :=
  if (remaining s).length < n then exhausted { s with pbArmed := false }
  else .ok ((remaining s).take n) { s with pos := s.pos + n, pbArmed := false }

/-- The effect of a successful `readByte` on a token of `rawLen` raw bytes (40_bytestream.md R142). -/
def consumeByte (rawLen : Nat) (s : State) : State :=
  { s with lastpos := s.pos, pbArmed := true, pos := s.pos + rawLen }

/-- The effect of a successful `readMarker` (40_bytestream.md R143). -/
def consumeMarker (m : Marker) (s : State) : State :=
  { s with lastpos := s.pos, pbArmed := true, pos := s.pos + 2, lastmk := m }

/-- `readByte()` (40_bytestream.md R142). -/
def readByte (s : State) : Res Byte :=
  match peekToken (remaining s) with
  | .exhausted => exhausted s
  | .marker m => raise .unexpectedMarker (some (.marker m)) s
  | .byte b n => .ok b (consumeByte n s)

/-- `readMarker()` (40_bytestream.md R143). -/
def readMarker (s : State) : Res Marker :=
  match peekToken (remaining s) with
  | .exhausted => exhausted s
  | .byte b _ => raise .unexpectedByte (some (.byte b)) s
  | .marker m => .ok m (consumeMarker m s)

/-- `unread()` (40_bytestream.md R146). No rule of the CORE calls it. -/
def unread (s : State) : State := if s.pbArmed then { s with pos := s.lastpos, pbArmed := false } else s

/-- `n` tokens by `readByte` (40_bytestream.md R147, TOKEN mode). -/
def readByteTimes : Nat → State → Res (List Byte)
  | 0, s => .ok [] s
  | n + 1, s => (readByte s).bind fun b s => (readByteTimes n s).bind fun bs s => .ok (b :: bs) s

/-- The result with `PB_ARMED` cleared: an `unread` after `readBytes` has no effect, in either read mode
(40_bytestream.md R146, 10_state.md R23; log 8). -/
def Res.disarm {α : Type} : Res α → Res α
  | .ok a s => .ok a { s with pbArmed := false }
  | .stop c s => .stop c { s with pbArmed := false }

/-- `readBytes(n)` (40_bytestream.md R147). -/
def readBytes (n : Nat) (s : State) : Res (List Byte) :=
  match s.params.segReadMode with
  | .raw => raw n s
  | .token => (readByteTimes n { s with pbArmed := false }).disarm

/-- A one-byte field: `[b] := readBytes(1)`. -/
def readField (s : State) : Res Byte :=
  (readBytes 1 s).bind fun l s => .ok (l.getD 0 0#8) s

/-- A big-endian 16-bit value from its two bytes (20_memory.md R63). -/
def be16 (hi lo : Byte) : BitVec 16 := hi ++ lo

/-- `readUint16()` (40_bytestream.md R148): `256·hi + lo`. -/
def readUint16 (s : State) : Res (BitVec 16) :=
  (readBytes 2 s).bind fun l s => .ok (be16 (l.getD 0 0#8) (l.getD 1 0#8)) s

/-! ## The bit reader -/

/-- `readDNLbody()` (41_bitreader.md R164). -/
def readDNLbody (s : State) : Res Unit :=
  (readUint16 s).bind fun ld s =>
    if ld ≠ 4#16 then raise .malformedSegment none s
    else (readUint16 s).bind fun nl s => .ok () { s with dnlSeen := true, dnlNl := nl }

/-- The byte branch of `refill()` (41_bitreader.md R161): the byte is read and loaded. -/
def loadByte (b : Byte) (rawLen : Nat) (s : State) : State :=
  { consumeByte rawLen s with bitbuf := b, bitcnt := 8 }

/-- The marker branch of `refill()` (41_bitreader.md R161): the marker is consumed; a DNL segment is parsed and ends the
scan, any other marker waits in `PENDMK`. -/
def markerInEntropy {α : Type} (m : Marker) (s : State) : Res α :=
  let s := consumeMarker m s
  if m = 0xFFDC#16 then (readDNLbody s).bind fun _ s => .stop (.signal .endOfScan) s
  else .stop (.signal (.markerFound m)) { s with pendmk := m, pendmkV := true }

/-- `refill()` (41_bitreader.md R161), called when `BITCNT = 0`. -/
def refill (s : State) : Res Unit :=
  match peekToken (remaining s) with
  | .exhausted => exhausted s
  | .byte b n => .ok () (loadByte b n s)
  | .marker m => markerInEntropy m s

/-- The delivery of bit 7 of `BITBUF` (41_bitreader.md R162). -/
def deliverBit (s : State) : Res Bool :=
  .ok s.bitbuf.msb { s with bitbuf := s.bitbuf <<< 1, bitcnt := s.bitcnt - 1 }

/-- `nextBit()` (41_bitreader.md R162). -/
def nextBit (s : State) : Res Bool :=
  if s.bitcnt = 0 then (refill s).bind fun _ s => deliverBit s else deliverBit s

/-- `n` further bits below those of `v` (41_bitreader.md R167). -/
def receiveInto : Nat → Nat → State → Res Nat
  | 0, v, s => .ok v s
  | n + 1, v, s => (nextBit s).bind fun b s => receiveInto n (2 * v + b.toNat) s

/-- `receive(n)` (41_bitreader.md R167). -/
def receive (n : Nat) (s : State) : Res Nat := receiveInto n 0 s

/-- `discardBits()` (41_bitreader.md R166). -/
def discardBits (s : State) : State := { s with bitcnt := 0 }

/-! ## The ports -/

/-- `emit OUT(r)` (20_memory.md R72). -/
def emitOut (r : OutRec) (s : State) : State := { s with out := s.out ++ [r] }

/-- `emit AUX(r)` (20_memory.md R73); dropped when the parameter `AUX_RECORD` drops the port (D9). -/
def emitAux (r : AuxRec) (s : State) : State := if s.params.auxRecord then { s with aux := s.aux ++ [r] } else s

/-! ## Errors, the end of an operation, reset -/

/-- The marker an error latches: that of its info, else `LASTMK` (60_exceptions.md R335). -/
def errorMarker (info : Option Info) (lastmk : Marker) : Marker :=
  match info with
  | some (.marker m) => m
  | some (.byte _) => lastmk
  | none => lastmk

/-- `trapEntry(E, info)` (60_exceptions.md R335). There is no return from it (R337): only `hostReset` leaves `Error`. -/
def trapEntry (e : ErrKind) (info : Option Info) (s : State) : State :=
  { s with
    errCode := e.code
    errMarker := errorMarker info s.lastmk
    errPos := s.pos
    errState := s.st.code
    st := .error }

/-- What `runScan` does with a signal (45_scan_engine.md R270, R277): the scan is complete, but for a marker inside an
MCU. -/
def scanSignal (g : Signal) (s : State) : State :=
  match g with
  | .endOfScan => { s with st := .scanComplete }
  | .markerFound m => if s.atb then { s with st := .scanComplete } else trapEntry .unexpectedMarker (some (.marker m)) s

/-- The end of what the sequencer was doing: a raise reaches `run()` and is taken (46_top_level.md R302), a signal reaches
`runScan` (45_scan_engine.md R270). -/
def settle (r : Res Unit) : StepOutcome :=
  match r with
  | .ok _ s => .next s
  | .stop (.raise e info) s => .next (trapEntry e info s)
  | .stop (.signal g) s => .next (scanSignal g s)
  | .stop (.fault f) _ => .fault f

/-- Reset, applied by the host in any state: the reset values over a new input (70_reset_and_hazards.md R361, R372); the
parameters of the block stay. -/
def hostReset (bytes : List Byte) (s : State) : State := { State.load bytes with params := s.params }

end Sys2Proof.Machine
end

