-- ==== Sys2Proof/Machine/Tables.lean ====
section
/-! DEFINITION. The TableStore (42_tablestore.md): the segment readers, the canonical Huffman builder, the cascade. Each
reader is entered after its marker has been consumed. -/

namespace Sys2Proof.Machine

/-- `readLength()` (42_tablestore.md R175). -/
def readLength (s : State) : Res Nat :=
  (readUint16 s).bind fun l s => if l.toNat < 2 then raise .malformedSegment none s else .ok l.toNat s

/-- A store into the snapshot of `REGION`: `BASE` in `FrameTables`, `OVL` in `AwaitingSOS` (20_memory.md R70). -/
def regionUpdate (f : MiscTables → MiscTables) (s : State) : State :=
  if s.st = .frameTables then { s with base := f s.base } else { s with ovl := f s.ovl }

/-- `QT[t] <- tbl`, `t = tbl.Tq` (20_memory.md R70). -/
def storeQuant (q : QuantTable) (m : MiscTables) : MiscTables := { m with quant := slotSet m.quant q.tq q }

/-- `HT[c][t] <- tbl`, `c = tbl.Tc`, `t = tbl.Th` (20_memory.md R70). -/
def storeHuff (h : HuffTable) (m : MiscTables) : MiscTables :=
  if h.tc = 0#1 then { m with dc := slotSet m.dc h.th h } else { m with ac := slotSet m.ac h.th h }

/-! ## DQT -/

/-- `n` entries of a quantization table, of one byte or of two (42_tablestore.md R180). -/
def readEntries (wide : Bool) : Nat → State → Res (List Nat)
  | 0, s => .ok [] s
  | n + 1, s =>
    (if wide then (readUint16 s).bind fun q s => .ok q.toNat s else (readField s).bind fun q s => .ok q.toNat s).bind
      fun q s => (readEntries wide n s).bind fun qs s => .ok (q :: qs) s

/-- The table loop of `readDQT()` (42_tablestore.md R180), `rem` bytes of the segment left. Every turn lowers `rem`, so
`rem` turns suffice. -/
def readDQTLoop : Nat → Nat → State → Res Unit
  | 0, _, s => .ok () s
  | fuel + 1, rem, s =>
    if rem = 0 then .ok () s
    else
      (readField s).bind fun b s =>
        let pq := highNibble b
        let tq := lowNibble b
        if pq.toNat > 1 ∨ tq.toNat > 3 then raise .malformedSegment none s
        else
          let need := 1 + 64 * (1 + pq.toNat)
          if rem < need then raise .malformedSegment none s
          else
            (readEntries (pq != 0#4) 64 s).bind fun q s =>
              readDQTLoop fuel (rem - need)
                (regionUpdate (storeQuant ⟨pq.setWidth 1, tq.setWidth 2, q⟩) s)

/-- `readDQT()` (42_tablestore.md R180, R181). -/
def readDQT (s : State) : Res Unit := (readLength s).bind fun l s => readDQTLoop (l - 2) (l - 2) s

/-! ## The canonical Huffman builder (R188) -/

/-- HUFFSIZE: each length `l`, counted from `first`, as often as its count says. -/
def huffSizes : Nat → List Nat → List Nat
  | _, [] => []
  | first, b :: bs => List.replicate b first ++ huffSizes (first + 1) bs

/-- HUFFCODE: one code a symbol, counting up within a length and shifted left once per length step (R188, G12). `si` is the
length of the code before, `code` the next code of that length. -/
def huffCodes : Nat → Nat → List Nat → List Nat
  | _, _, [] => []
  | si, code, l :: ls =>
    let c := code * 2 ^ (l - si)
    c :: huffCodes l (c + 1) ls

/-- HUFFCODE from the first symbol on: the first code is 0 (R188). -/
def assignCodes (sizes : List Nat) : List Nat := huffCodes (sizes.headD 0) 0 sizes

/-- The three arrays of one code length (R188). -/
structure LengthEntry where
  mincode : Option Nat
  maxcode : Int
  valptr  : Option Nat
  deriving DecidableEq, Repr

/-- The arrays by length (R188 step 3), `p` codes being of shorter lengths. -/
def lengthEntries (codes : List Nat) : Nat → List Nat → List LengthEntry
  | _, [] => []
  | p, b :: bs =>
    (if b = 0 then ⟨none, -1, none⟩ else ⟨codes[p]?, ((codes.getD (p + b - 1) 0 : Nat) : Int), some p⟩)
      :: lengthEntries codes (p + b) bs

/-- `buildHuffman(Tc, Th, bits, huffval)` (42_tablestore.md R188). No check that the counts form a prefix code (R189). -/
def buildHuffman (tc : BitVec 1) (th : BitVec 2) (bits : List Nat) (huffval : List Byte) : HuffTable :=
  let sizes := huffSizes 1 bits
  let codes := assignCodes sizes
  let entries := lengthEntries codes 0 bits
  { tc, th, bits
    n        := bits.sum
    huffval
    huffsize := sizes
    huffcode := codes
    mincode  := entries.map LengthEntry.mincode
    maxcode  := entries.map LengthEntry.maxcode
    valptr   := entries.map LengthEntry.valptr }

/-! ## DHT -/

/-- The table loop of `readDHT()` (42_tablestore.md R185), `rem` bytes of the segment left. -/
def readDHTLoop : Nat → Nat → State → Res Unit
  | 0, _, s => .ok () s
  | fuel + 1, rem, s =>
    if rem = 0 then .ok () s
    else if rem < 17 then raise .malformedSegment none s
    else
      (readField s).bind fun b s =>
        let tc := highNibble b
        let th := lowNibble b
        if tc.toNat > 1 ∨ th.toNat > 3 then raise .malformedSegment none s
        else
          (readBytes 16 s).bind fun counts s =>
            let bits := counts.map BitVec.toNat
            let n := bits.sum
            if n > s.params.huffvalMax then raise .capacityExceeded none s
            else if rem < 17 + n then raise .malformedSegment none s
            else
              (readBytes n s).bind fun huffval s =>
                readDHTLoop fuel (rem - (17 + n))
                  (regionUpdate (storeHuff (buildHuffman (tc.setWidth 1) (th.setWidth 2) bits huffval)) s)

/-- `readDHT()` (42_tablestore.md R185, R186, R187). -/
def readDHT (s : State) : Res Unit := (readLength s).bind fun l s => readDHTLoop (l - 2) (l - 2) s

/-! ## DRI, skipped segments -/

/-- `readDRI()` (42_tablestore.md R192). -/
def readDRI (s : State) : Res Unit :=
  (readUint16 s).bind fun lr s =>
    if lr ≠ 4#16 then raise .malformedSegment none s
    else (readUint16 s).bind fun ri s =>
      .ok () (regionUpdate (fun m => { m with interval := (ri.toNat : Int) }) s)

/-- `skipSegment(m)` (42_tablestore.md R195). -/
def skipSegment (m : Marker) (s : State) : Res Unit :=
  (readLength s).bind fun l s => (readBytes (l - 2) s).bind fun bytes s => .ok () (emitAux ⟨m, bytes⟩ s)

/-! ## The cascade -/

/-- Slot by slot, a populated slot of `other` overrides (42_tablestore.md R200). -/
def cascadeSlots {α : Type} (base other : Slots α) : Slots α :=
  ⟨other.s0.orElse fun _ => base.s0, other.s1.orElse fun _ => base.s1,
   other.s2.orElse fun _ => base.s2, other.s3.orElse fun _ => base.s3⟩

/-- `cascade(base, other)` (42_tablestore.md R200). -/
def cascade (base other : MiscTables) : MiscTables where
  quant    := cascadeSlots base.quant other.quant
  dc       := cascadeSlots base.dc other.dc
  ac       := cascadeSlots base.ac other.ac
  interval := if other.interval ≠ -1 then other.interval else base.interval

end Sys2Proof.Machine
end

