-- ==== Sys2Proof/Machine/Headers.lean ====
section
/-! DEFINITION. The HeaderParser (44_headers.md): frame header, scan header, component binding. -/

namespace Sys2Proof.Machine

/-! ## The frame header (R221, R222) -/

/-- The component entries of `readFrameHeader` (44_headers.md R221), derived sizes still 0. -/
def readFrameComps : Nat → State → Res (List FrameComp)
  | 0, s => .ok [] s
  | n + 1, s =>
    (readBytes 3 s).bind fun l s =>
      let hv := l.getD 1 0#8
      let c : FrameComp := ⟨l.getD 0 0#8, highNibble hv, lowNibble hv, l.getD 2 0#8, 0, 0⟩
      if c.h = 0#4 ∨ c.v = 0#4 then raise .malformedSegment none s
      else (readFrameComps n s).bind fun cs s => .ok (c :: cs) s

/-- The larger of two 4-bit factors. -/
def maxFactor (a b : BitVec 4) : BitVec 4 := if a.toNat < b.toNat then b else a

/-- `Hmax` or `Vmax` (44_headers.md R221). -/
def maxFactors (l : List (BitVec 4)) : BitVec 4 := l.foldl maxFactor 0#4

/-- A component with its derived sizes (44_headers.md R221). -/
def deriveSize (x y : BitVec 16) (hmax vmax : BitVec 4) (c : FrameComp) : FrameComp :=
  { c with
    width  := ceilDiv (x.toNat * c.h.toNat) hmax.toNat
    height := ceilDiv (y.toNat * c.v.toNat) vmax.toNat }

/-- The header made of its fields (44_headers.md R221). -/
def frameHeaderOf (m : Marker) (p : Byte) (y x : BitVec 16) (nf : Byte) (comps : List FrameComp) : FrameHeader :=
  let hmax := maxFactors (comps.map FrameComp.h)
  let vmax := maxFactors (comps.map FrameComp.v)
  ⟨m, p, y, x, nf, comps.map (deriveSize x y hmax vmax), hmax, vmax⟩

/-- `readFrameHeader(m)` (44_headers.md R221, R222). The info of UnsupportedFeature is the marker (60_exceptions.md R328).
`FH` is written only when the whole header parses. -/
def readFrameHeader (m : Marker) (s : State) : Res Unit :=
  (readUint16 s).bind fun lf s =>
  (readField s).bind fun p s =>
  (readUint16 s).bind fun y s =>
  (readUint16 s).bind fun x s =>
  (readField s).bind fun nf s =>
    if nf.toNat < 1 ∨ lf.toNat ≠ 8 + 3 * nf.toNat then raise .malformedSegment none s
    else if nf.toNat > s.params.ncompMax then raise .capacityExceeded none s
    else if p.toNat ∉ s.params.precisions then raise .unsupportedFeature (some (.marker m)) s
    else
      (readFrameComps nf.toNat s).bind fun comps s =>
        .ok () { s with fh := frameHeaderOf m p y x nf comps, fhV := true }

/-! ## The scan header (R226, R227) -/

/-- The component entries of `readScanHeader` (44_headers.md R226). -/
def readScanComps : Nat → State → Res (List ScanComp)
  | 0, s => .ok [] s
  | n + 1, s =>
    (readBytes 2 s).bind fun l s =>
      let t := l.getD 1 0#8
      (readScanComps n s).bind fun cs s => .ok (⟨l.getD 0 0#8, highNibble t, lowNibble t⟩ :: cs) s

/-- `readScanHeader()` (44_headers.md R226, R227). -/
def readScanHeader (s : State) : Res Unit :=
  (readUint16 s).bind fun ls s =>
  (readField s).bind fun ns s =>
    if ns.toNat < 1 ∨ ls.toNat ≠ 6 + 2 * ns.toNat then raise .malformedSegment none s
    else if ns.toNat > s.params.ncompMax then raise .capacityExceeded none s
    else
      (readScanComps ns.toNat s).bind fun comps s =>
      (readBytes 3 s).bind fun l s =>
        let a := l.getD 2 0#8
        .ok () { s with sh := ⟨ns, comps, l.getD 0 0#8, l.getD 1 0#8, highNibble a, lowNibble a⟩ }

/-! ## Binding (R231, R232) -/

/-- The binding of one selector, or none when R231 raises BindFailure for it: the first component with that id, its
quantization slot, its DC and AC slots. -/
def bindOne (fh : FrameHeader) (eff : MiscTables) (sc : ScanComp) : Option Binding :=
  match fh.comp.find? (fun c => c.id == sc.cs) with
  | none => none
  | some f =>
    match slotAt eff.quant f.tq.toNat, slotAt eff.dc sc.td.toNat, slotAt eff.ac sc.ta.toNat with
    | some q, some dc, some ac => some ⟨f.id, f.h, f.v, f.width, f.height, f.h.toNat * f.v.toNat, q, dc, ac⟩
    | _, _, _ => none

/-- `BIND[j] <- b`, `j` at most the entries written so far. -/
def bindSet (l : List Binding) (j : Nat) (b : Binding) : List Binding := l.take j ++ [b] ++ l.drop (j + 1)

/-- The selector loop of `bindComponents()` from scan component `j` on (44_headers.md R231): the first failure wins, the
entries bound before it stay written. -/
def bindLoop : Nat → List ScanComp → State → Res Unit
  | _, [], s => .ok () s
  | j, sc :: scs, s =>
    match bindOne s.fh s.eff sc with
    | none => raise .bindFailure none s
    | some b => bindLoop (j + 1) scs { s with bind := bindSet s.bind j b }

/-- The MCU count of one component of an interleaved scan (44_headers.md R231). -/
def interleavedCount (b : Binding) : Nat :=
  (padding (8 * b.h.toNat) b.width / (8 * b.h.toNat)) * (padding (8 * b.v.toNat) b.height / (8 * b.v.toNat))

/-- `MCUCOUNT` of a scan of several components: the common count, none when the counts differ (44_headers.md R231, R233). -/
def commonCount (bs : List Binding) : Option Nat :=
  match bs.map interleavedCount with
  | [] => none
  | n :: ns => if ns.all (· == n) then some n else none

/-- `bindComponents()` (44_headers.md R231, R232). -/
def bindComponents (s : State) : Res Unit :=
  (bindLoop 0 s.sh.comp s).bind fun _ s =>
    let s := { s with nbind := s.sh.ns.toNat }
    if s.nbind = 1 then
      match s.bind with
      | [] => raise .bindFailure none s
      | b :: bs =>
        .ok () { s with bind := { b with units := 1 } :: bs, mcuCount := ceilDiv b.width 8 * ceilDiv b.height 8 }
    else
      match commonCount (s.bind.take s.nbind) with
      | none => raise .bindFailure none s
      | some n => .ok () { s with mcuCount := n }

end Sys2Proof.Machine
end

