-- ==== Sys2Proof/Machine/Idct.lean ====
section
/-! DEFINITION. The inverse DCT in exact arithmetic (45_scan_engine.md R259, R260; 30_encoding.md R123). The basis entries
`A[u][x] = ± cos(k π / 16) / 2` are irrational, but all lie in one field: with `C1 = 2 cos(π/4)`, `C2 = 2 cos(π/8)`,
`C3 = 2 cos(π/16)` we have `C1² = 2`, `C2² = 2 + C1`, `C3² = 2 + C2`, and every `2 cos(k π / 16)` is a sum of products of
these with integer coefficients. So `16 · REAL[n]` is kept as such a sum of integers, with no rounding, and its sign is
decided exactly (log 9). -/

namespace Sys2Proof.Machine

/-- `r + s·C1`, `C1 = √2`. -/
structure Q1 where
  r : Int
  s : Int
  deriving DecidableEq, Repr

/-- `r + s·C2`, `C2 = √(2 + √2)`. -/
structure Q2 where
  r : Q1
  s : Q1
  deriving DecidableEq, Repr

/-- `r + s·C3`, `C3 = √(2 + √(2 + √2))`. -/
structure Q3 where
  r : Q2
  s : Q2
  deriving DecidableEq, Repr

def Q1.zero : Q1 := ⟨0, 0⟩
def Q1.add (a b : Q1) : Q1 := ⟨a.r + b.r, a.s + b.s⟩
def Q1.sub (a b : Q1) : Q1 := ⟨a.r - b.r, a.s - b.s⟩
def Q1.scale (n : Int) (a : Q1) : Q1 := ⟨n * a.r, n * a.s⟩
/-- `C1² = 2`. -/
def Q1.mul (a b : Q1) : Q1 := ⟨a.r * b.r + 2 * (a.s * b.s), a.r * b.s + a.s * b.r⟩
/-- `(2 + C1)·a`. -/
def Q1.timesC2sq (a : Q1) : Q1 := ⟨2 * a.r + 2 * a.s, a.r + 2 * a.s⟩

def Q2.zero : Q2 := ⟨Q1.zero, Q1.zero⟩
def Q2.add (a b : Q2) : Q2 := ⟨a.r.add b.r, a.s.add b.s⟩
def Q2.sub (a b : Q2) : Q2 := ⟨a.r.sub b.r, a.s.sub b.s⟩
def Q2.scale (n : Int) (a : Q2) : Q2 := ⟨a.r.scale n, a.s.scale n⟩
/-- `C2² = 2 + C1`. -/
def Q2.mul (a b : Q2) : Q2 := ⟨(a.r.mul b.r).add (a.s.mul b.s).timesC2sq, (a.r.mul b.s).add (a.s.mul b.r)⟩
/-- `(2 + C2)·a`. -/
def Q2.timesC3sq (a : Q2) : Q2 := ⟨(a.r.scale 2).add a.s.timesC2sq, a.r.add (a.s.scale 2)⟩

def Q3.zero : Q3 := ⟨Q2.zero, Q2.zero⟩
def Q3.add (a b : Q3) : Q3 := ⟨a.r.add b.r, a.s.add b.s⟩
def Q3.sub (a b : Q3) : Q3 := ⟨a.r.sub b.r, a.s.sub b.s⟩
def Q3.scale (n : Int) (a : Q3) : Q3 := ⟨a.r.scale n, a.s.scale n⟩
/-- `C3² = 2 + C2`. -/
def Q3.mul (a b : Q3) : Q3 := ⟨(a.r.mul b.r).add (a.s.mul b.s).timesC3sq, (a.r.mul b.s).add (a.s.mul b.r)⟩
/-- The integer `n`. -/
def Q3.ofInt (n : Int) : Q3 := ⟨⟨⟨n, 0⟩, Q1.zero⟩, Q2.zero⟩

/-- The sign (-1, 0, 1) of `a + c·b`, `c > 0` real, from the signs of `a`, of `b` and of `a² - c²·b²`. -/
def signOfSum (sa sb sDiff : Int) : Int :=
  if sa = 0 then sb else if sb = 0 then sa else if sa = sb then sa else sa * sDiff

def Q1.sign (a : Q1) : Int := signOfSum a.r.sign a.s.sign (a.r * a.r - 2 * (a.s * a.s)).sign
def Q2.sign (a : Q2) : Int := signOfSum a.r.sign a.s.sign ((a.r.mul a.r).sub (a.s.mul a.s).timesC2sq).sign
def Q3.sign (a : Q3) : Int := signOfSum a.r.sign a.s.sign ((a.r.mul a.r).sub (a.s.mul a.s).timesC3sq).sign

/-- A natural at least as large as the value's size: each `C` is below 2. -/
def Q1.bound (a : Q1) : Nat := a.r.natAbs + 2 * a.s.natAbs
def Q2.bound (a : Q2) : Nat := a.r.bound + 2 * a.s.bound
def Q3.bound (a : Q3) : Nat := a.r.bound + 2 * a.s.bound

/-! ## The basis (30_encoding.md R123) -/

/-- `4·c[k] = 2 cos(k π / 16)` for `k = 1..7`: `cos 3t = cos t (2 cos 2t - 1)`, `cos 5t = cos t (2 cos 4t - 2 cos 2t + 1)`,
`cos 6t = cos 2t (2 cos 4t - 1)`, `cos 7t = cos t (2 cos 6t - 2 cos 4t + 2 cos 2t - 1)`. -/
def twiceCos : Nat → Q3
  | 1 => ⟨Q2.zero, ⟨⟨1, 0⟩, ⟨0, 0⟩⟩⟩
  | 2 => ⟨⟨⟨0, 0⟩, ⟨1, 0⟩⟩, Q2.zero⟩
  | 3 => ⟨Q2.zero, ⟨⟨-1, 0⟩, ⟨1, 0⟩⟩⟩
  | 4 => ⟨⟨⟨0, 1⟩, ⟨0, 0⟩⟩, Q2.zero⟩
  | 5 => ⟨Q2.zero, ⟨⟨1, 1⟩, ⟨-1, 0⟩⟩⟩
  | 6 => ⟨⟨⟨0, 0⟩, ⟨-1, 1⟩⟩, Q2.zero⟩
  | 7 => ⟨Q2.zero, ⟨⟨-1, -1⟩, ⟨0, 1⟩⟩⟩
  | _ => Q3.zero

/-- The sign and `k` of `A[u][x] = ± c[k]`, row `u`, column `x`, as 30_encoding.md R123 prints them. -/
def basisIndex : List (List Int) :=
  [[4, 4, 4, 4, 4, 4, 4, 4],
   [1, 3, 5, 7, -7, -5, -3, -1],
   [2, 6, -6, -2, -2, -6, 6, 2],
   [3, -7, -1, -5, 5, 1, 7, -3],
   [4, -4, -4, 4, 4, -4, -4, 4],
   [5, -1, 7, 3, -3, -7, 1, -5],
   [6, -2, 2, -6, -6, 2, -2, 6],
   [7, -5, 3, -1, 1, -3, 5, -7]]

/-- `4·A[u][x]`. -/
def basis4 (u x : Nat) : Q3 :=
  let i := (basisIndex.getD u []).getD x 0
  (twiceCos i.natAbs).scale i.sign

/-! ## The transform (R259) -/

/-- `Σ_{i < n} f i`. -/
def sumQ3 (f : Nat → Q3) : Nat → Q3
  | 0 => Q3.zero
  | n + 1 => (sumQ3 f n).add (f n)

/-- `4·Σ_u A[u][x]·NAT[8v + u]`: the one-dimensional transform of row `v`, at column `x`. -/
def idctRow (nat : List Int) (v x : Nat) : Q3 := sumQ3 (fun u => (basis4 u x).scale (nat.getD (8 * v + u) 0)) 8

/-- The rows transformed: `rows[v][x]`. -/
def idctRows (nat : List Int) : List (List Q3) :=
  (List.range 8).map fun v => (List.range 8).map fun x => idctRow nat v x

/-- `16·REAL[8y + x] = Σ_v 4·A[v][y]·(4·Σ_u A[u][x]·NAT[8v + u])` (R259, computed separably). -/
def idct16 (rows : List (List Q3)) (y x : Nat) : Q3 :=
  sumQ3 (fun v => (basis4 v y).mul ((rows.getD v []).getD x Q3.zero)) 8

/-! ## Conversion to an integer (R260) -/

/-- Bisection: the integer `n` with `lo ≤ n`, `16·n ≤ q` and `q < 16·(n + 1)`, when `16·lo ≤ q < 16·hi`. -/
def floorSearch (q : Q3) : Nat → Int → Int → Int
  | 0, lo, _ => lo
  | fuel + 1, lo, hi =>
    if hi - lo ≤ 1 then lo
    else
      let mid := (lo + hi) / 2
      if 0 ≤ (q.sub (Q3.ofInt (16 * mid))).sign then floorSearch q fuel mid hi else floorSearch q fuel lo mid

/-- `floor(q / 16)`. -/
def floor16 (q : Q3) : Int :=
  let b : Nat := q.bound / 16 + 1
  floorSearch q (Nat.log2 (2 * b) + 1) (-(b : Int)) b

def Q3.neg (q : Q3) : Q3 := q.scale (-1)

/-- `toInt(q / 16)` (R260). TRUNC drops the fraction toward zero; NEAREST rounds halves away from zero; ENVELOPE is any
integer within 1 of the value: the value itself if it is an integer, else the integer below or above it, which of the two
being the free value `up` (log 5). -/
def toInt (mode : IdctInt) (up : Bool) (q : Q3) : Int :=
  match mode with
  | .trunc => if 0 ≤ q.sign then floor16 q else - floor16 q.neg
  | .nearest => if 0 ≤ q.sign then floor16 (q.add (Q3.ofInt 8)) else - floor16 (q.neg.add (Q3.ofInt 8))
  | .envelope =>
    let t := floor16 q
    if (q.sub (Q3.ofInt (16 * t))).sign = 0 then t else if up then t + 1 else t

/-- Level shift and clamp (R261), `s = 2^(P-1)`. -/
def levelShift (p : Nat) (t : Int) : Nat :=
  let s : Int := 2 ^ (p - 1)
  if t ≤ -s then 0 else if s ≤ t then (2 * s - 1).toNat else (t + s).toNat

/-- The 64 samples of a block `NAT` in natural order (R259 to R261); `ctr` numbers the free values. -/
def samples (mode : IdctInt) (p ctr : Nat) (nat : List Int) : List Nat :=
  let rows := idctRows nat
  (List.range 64).map fun n => levelShift p (toInt mode (Config.envelopeUp (ctr + n)) (idct16 rows (n / 8) (n % 8)))

/-! ## Dequantizer and un-zig-zag -/

/-- `DQ[k] = ZZ[k] × q[k]` (R257). -/
def dequantize (zz : List Int) (q : List Nat) : List Int := List.zipWith (fun (z : Int) (m : Nat) => z * (m : Int)) zz q

/-- `NAT[ZIGZAG[k]] <- DQ[k]`, `k = 0..63` (R258). The permutation reaches every place, so what the block held before does
not matter and the stores start from a block of zeros. -/
def unZigzag (dq : List Int) : List Int :=
  (zigzag.zip dq).foldl (fun m p => m.set p.1 p.2) zeroBlock

end Sys2Proof.Machine
end

