-- ==== Sys2Proof/Machine/Scan.lean ====
section
/-! DEFINITION. The HuffmanCodec (43_huffman_decode.md) and the shared operations of the ScanEngine (45_scan_engine.md):
scan start, MCU and data-unit control, the end of a data unit, the restart boundary. The MCU loop (R263, R270) is unrolled
into steps of one symbol: `CUR_J`, `CUR_U` (10_state.md R29), `K` and `unitPos` (log 6) say where it stands. -/

namespace Sys2Proof.Machine

/-! ## Symbol decode -/

/-- The entry of a table for a code of length `len` that is not above `maxcode[len]` (43_huffman_decode.md R211). -/
def tableSymbol (t : HuffTable) (code len : Nat) (s : State) : Res Byte :=
  match (byLength t.mincode len).join, (byLength t.valptr len).join with
  | some mn, some vp =>
    if code < mn then .stop (.fault .tableNotBuilt) s
    else
      match t.huffval[vp + (code - mn)]? with
      | some b => .ok b s
      | none => .stop (.fault .tableNotBuilt) s
  | _, _ => .stop (.fault .tableNotBuilt) s

/-- The loop of `decode(table)` (43_huffman_decode.md R211, R212). `LEN` passes 16 after at most 17 turns. -/
def decodeLoop (t : HuffTable) : Nat → State → Res Byte
  | 0, s => raise .huffmanDecodeFailure none s
  | fuel + 1, s =>
    (nextBit s).bind fun b s =>
      let s := { s with code := 2 * s.code + b.toNat, len := s.len + 1 }
      if s.len > 16 then raise .huffmanDecodeFailure none s
      else if (s.code : Int) ≤ (byLength t.maxcode s.len).getD (-1) then tableSymbol t s.code s.len s
      else decodeLoop t fuel s

/-- `CODE <- 0; LEN <- 0`, the first act of `decode` (43_huffman_decode.md R211). -/
def beginDecode (s : State) : State := { s with code := 0, len := 0 }

/-- `decode(table)` (43_huffman_decode.md R211). -/
def decodeSymbol (t : HuffTable) (s : State) : Res Byte := decodeLoop t 17 (beginDecode s)

/-- `BIND[CUR_J]`. -/
def currentBinding (s : State) : Option Binding := if s.curJ < s.nbind then s.bind[s.curJ]? else none

/-! ## MCU control -/

/-- The start of `dataUnit` (45_scan_engine.md R252): the coefficients are cleared and a DC symbol is next. -/
def beginUnit (s : State) : State := { s with zz := zeroBlock, unitPos := .dc }

/-- The start of an MCU attempt (45_scan_engine.md R270, R263): `ATB <- 1`, first unit of the first component. -/
def beginMCU (s : State) : State := beginUnit { s with atb := true, curJ := 0, curU := 0 }

/-- `PRED[j] <- 0` for `j < NBIND` (45_scan_engine.md R271, R279). -/
def clearPred (s : State) : State := { s with pred := List.replicate s.nbind 0 ++ s.pred.drop s.nbind }

/-- `scanStart()` (45_scan_engine.md R271). -/
def scanStart (s : State) : State :=
  { discardBits (clearPred s) with rstexp := 0#3, mcuInInt := 0, mcuDone := 0, ri := s.eff.interval }

/-- The first acts of `restartBoundary()`, before its marker is read (45_scan_engine.md R279). -/
def enterBoundary (s : State) : State :=
  { discardBits (clearPred s) with mcuInInt := 0, st := .restartBoundary }

/-- An MCU is complete (45_scan_engine.md R270): count it, then the restart boundary if `RI > 0` MCUs are done, else the
next MCU attempt. -/
def mcuCompleted (s : State) : State :=
  let s := { s with mcuInInt := s.mcuInInt + 1, mcuDone := s.mcuDone + 1 }
  if 0 < s.ri ∧ (s.mcuInInt : Int) = s.ri then enterBoundary s else beginMCU s

/-- The order of data units in an MCU (45_scan_engine.md R263): the next unit of the component, the next component, or the
end of the MCU. -/
def nextUnit (b : Binding) (s : State) : State :=
  if s.curU + 1 < b.units then beginUnit { s with curU := s.curU + 1 }
  else if s.curJ + 1 < s.nbind then beginUnit { s with curJ := s.curJ + 1, curU := 0 }
  else mcuCompleted s

/-- How many free values a data unit uses (log 5). -/
def freeUsed (mode : IdctInt) : Nat := if mode = .envelope then 64 else 0

/-- The steps of `dataUnit` after its entropy decode (45_scan_engine.md R257 to R262). -/
def finishUnit (b : Binding) (s : State) : State :=
  let dq := dequantize s.zz b.q.q
  let nat := unZigzag dq
  let samp := samples s.params.idctInt s.fh.p.toNat s.freeCtr nat
  emitOut ⟨s.scanIdx, b.id, samp⟩
    { s with dq := dq, nat := nat, samp := samp, freeCtr := s.freeCtr + freeUsed s.params.idctInt }

/-- The end of a data unit: dequantize to emit, then the next unit. The level shift reads `FH.P`. -/
def completeUnit (b : Binding) (s : State) : Res Unit :=
  if s.fhV then .ok () (nextUnit b (finishUnit b s)) else .stop (.fault .noFrameHeader) s

/-! ## The restart boundary -/

/-- The marker at a restart boundary (45_scan_engine.md R279): the expected RSTn continues the scan, another RSTn is the
error, any other marker ends the scan and waits in `PENDMK`. -/
def boundaryMarker (m : Marker) (s : State) : Res Unit :=
  match rstIndex m with
  | some n =>
    if n ≠ s.rstexp then raise .restartSequenceError (some (.marker m)) s
    else .ok () (beginMCU { s with rstexp := s.rstexp + 1#3, st := .decodingMCUs })
  | none => .ok () { s with pendmk := m, pendmkV := true, st := .scanComplete }

/-! ## From the scan header to the first MCU, and after the scan -/

/-- The work of state `ScanHeader` (46_top_level.md R296, 45_scan_engine.md R270): parse, cascade, bind, start. -/
def scanHeaderPhase (s : State) : Res Unit :=
  if !s.fhV then .stop (.fault .noFrameHeader) s
  else
    (readScanHeader s).bind fun _ s =>
    (bindComponents { s with eff := cascade s.base s.ovl }).bind fun _ s =>
      .ok () (beginMCU { scanStart s with st := .decodingMCUs })

/-- `afterScan()` (46_top_level.md R300). -/
def afterScan (s : State) : State :=
  { s with
    base := if s.params.tablePersist = .cumulative then s.eff else s.base
    ovl := MiscTables.empty
    scanIdx := s.scanIdx + 1
    st := .awaitingSOS }

end Sys2Proof.Machine
end

