-- ==== Sys2Proof/Machine/Sequencer.lean ====
section
/-! DEFINITION. What a token does in each state of the sequencer (46_top_level.md), shared by the meanings of the tokens. -/

namespace Sys2Proof.Machine

/-- `nextMarker()` when the marker is `m` (46_top_level.md R293): a pending marker was consumed before, a fresh one is read
now. -/
def nextMarker (m : Marker) (s : State) : State :=
  if s.pendmkV then { s with pendmkV := false } else consumeMarker m s

/-- `AwaitSOI` (46_top_level.md R292), the marker consumed. -/
def awaitSOIMarker (m : Marker) (s : State) : Res Unit :=
  if m ≠ 0xFFD8#16 then raise .unexpectedMarker (some (.marker m)) s
  else .ok () { s with base := MiscTables.empty, st := .frameTables }

/-- A marker executed in state `STATE`: at `AwaitSOI` (R292), in a header region by its row of R294, in entropy-coded data
as what ends it (41_bitreader.md R161; `decode` has just set `CODE` and `LEN` to 0, log 7), at a restart boundary
(45_scan_engine.md R279). In `Done` and `Error` nothing happens (R301). `row` is the marker's row of R294. -/
def dispatchMarker (m : Marker) (row : State → Res Unit) (s : State) : StepOutcome :=
  match s.st with
  | .awaitSOI => settle (awaitSOIMarker m (consumeMarker m s))
  | .frameTables => settle (row (nextMarker m s))
  | .awaitingSOS => settle (row (nextMarker m s))
  | .decodingMCUs => settle (markerInEntropy m (beginDecode s))
  | .restartBoundary => settle (boundaryMarker m (consumeMarker m s))
  | .scanHeader => .fault .noTokenWanted
  | .scanComplete => .fault .noTokenWanted
  | .done => .next s
  | .error => .next s

/-- A data byte executed in state `STATE`: where a marker is wanted it is UnexpectedByte and is not consumed
(40_bytestream.md R143), in entropy-coded data it refills the bit buffer (41_bitreader.md R161). -/
def dispatchByte (b : Byte) (rawLen : Nat) (s : State) : StepOutcome :=
  match s.st with
  | .awaitSOI => settle (raise .unexpectedByte (some (.byte b)) s)
  | .frameTables => settle (raise .unexpectedByte (some (.byte b)) s)
  | .awaitingSOS => settle (raise .unexpectedByte (some (.byte b)) s)
  | .restartBoundary => settle (raise .unexpectedByte (some (.byte b)) s)
  | .decodingMCUs => .next (loadByte b rawLen (beginDecode s))
  | .scanHeader => .fault .noTokenWanted
  | .scanComplete => .fault .noTokenWanted
  | .done => .next s
  | .error => .next s

/-! ## Rows of the dispatch table (R294) -/

/-- A row that refuses the marker in every header region (46_top_level.md R299). -/
def refuseRow (m : Marker) (s : State) : Res Unit := raise .unexpectedMarker (some (.marker m)) s

/-- The row of a frame marker (46_top_level.md R295). -/
def frameRow (m : Marker) (s : State) : Res Unit :=
  if s.st = .frameTables then
    if m ∉ s.params.sofAccept then raise .unsupportedFeature (some (.marker m)) s
    else (readFrameHeader m s).bind fun _ s => .ok () { s with ovl := MiscTables.empty, st := .awaitingSOS }
  else raise .unexpectedMarker (some (.marker m)) s

/-- The row of SOS (46_top_level.md R296). -/
def sosRow (m : Marker) (s : State) : Res Unit :=
  if s.st = .frameTables then raise .unexpectedMarker (some (.marker m)) s
  else scanHeaderPhase { s with st := .scanHeader }

/-- The row of EOI (46_top_level.md R298). -/
def eoiRow (m : Marker) (s : State) : Res Unit :=
  if s.st = .frameTables then raise .unexpectedMarker (some (.marker m)) s else .ok () { s with st := .done }

/-- The row of DAC (42_tablestore.md R196): refused at once. -/
def dacRow (m : Marker) (s : State) : Res Unit := raise .unsupportedFeature (some (.marker m)) s

end Sys2Proof.Machine
end

