-- ==== Sys2Proof/Machine/ControlMarkers.lean ====
section
/-! DEFINITION. The meanings of the markers that steer the sequencer: SOI, EOI, TEM, RSTn, SOS (46_top_level.md,
45_scan_engine.md R279). -/

namespace Sys2Proof.Machine

/-- SOI, code `D8`: the first token of a stream (46_top_level.md R292), refused later (R299). -/
def execSoi (s : State) : StepOutcome := dispatchMarker 0xFFD8#16 (refuseRow 0xFFD8#16) s

/-- EOI, code `D9` (46_top_level.md R298). -/
def execEoi (s : State) : StepOutcome := dispatchMarker 0xFFD9#16 (eoiRow 0xFFD9#16) s

/-- TEM, code `01` (46_top_level.md R299). -/
def execTem (s : State) : StepOutcome := dispatchMarker 0xFF01#16 (refuseRow 0xFF01#16) s

/-- RSTn, codes `D0` to `D7`: legal at a restart boundary only (45_scan_engine.md R279, 46_top_level.md R299). -/
def execRst (n : BitVec 3) (s : State) : StepOutcome :=
  dispatchMarker (markerOf (0b11010#5 ++ n)) (refuseRow (markerOf (0b11010#5 ++ n))) s

/-- SOS, code `DA`: the scan header, binding and scan start (46_top_level.md R296). -/
def execSos (s : State) : StepOutcome := dispatchMarker 0xFFDA#16 (sosRow 0xFFDA#16) s

end Sys2Proof.Machine
end

