-- ==== Sys2Proof/Machine/DataTokens.lean ====
section
/-! DEFINITION. The meanings of the data tokens DATA and STUFFED (40_bytestream.md R141, R142; 41_bitreader.md R161). -/

namespace Sys2Proof.Machine

/-- DATA: one raw byte, the data byte `b`. -/
def execData (b : BitVec 8) (s : State) : StepOutcome := dispatchByte b 1 s

/-- STUFFED: two raw bytes, the data byte `0xFF`. -/
def execStuffed (s : State) : StepOutcome := dispatchByte 0xFF#8 2 s

end Sys2Proof.Machine
end

