-- ==== Sys2Proof/Machine/EntropySymbols.lean ====
section
/-! DEFINITION. The meanings of the entropy-coded symbols (45_scan_engine.md R253, R255): each with its extra bits, the symbol
itself already decoded. -/

namespace Sys2Proof.Machine

/-- A symbol executed at its place `p` of a data unit; elsewhere the sequencer reads no such symbol. `Done` and `Error` do
nothing (46_top_level.md R301). -/
def symbolAt (p : UnitPos) (body : State → Res Unit) (s : State) : StepOutcome :=
  match s.st with
  | .decodingMCUs => if s.unitPos = p then settle (body s) else .fault .symbolOutOfPlace
  | .done => .next s
  | .error => .next s
  | .awaitSOI => .fault .symbolOutOfPlace
  | .frameTables => .fault .symbolOutOfPlace
  | .awaitingSOS => .fault .symbolOutOfPlace
  | .scanHeader => .fault .symbolOutOfPlace
  | .restartBoundary => .fault .symbolOutOfPlace
  | .scanComplete => .fault .symbolOutOfPlace

/-- The DC difference of `t` extra bits of value `v` (30_encoding.md R112). -/
def dcDiff (v t : Nat) : Int := if t = 0 then 0 else extend v t

/-- The DC step after its symbol `t` is decoded (45_scan_engine.md R253), then `K <- 1` (R255). -/
def dcStep (t : Nat) (s : State) : Res Unit :=
  let s := { s with atb := false }
  if t > s.params.dcsizeMax then raise .capacityExceeded none s
  else
    (receive t s).bind fun v s =>
      let p := s.pred.getD s.curJ 0 + dcDiff v t
      .ok () { s with pred := arraySet 0 s.pred s.curJ p, zz := s.zz.set 0 p, k := 1, unitPos := .ac }

/-- The end of the AC step of the current component (45_scan_engine.md R255, R256): the data unit is complete. -/
def endOfBlock (s : State) : Res Unit :=
  match currentBinding s with
  | none => .stop (.fault .unbound) s
  | some b => completeUnit b s

/-- The ZRL branch (45_scan_engine.md R255): 16 positions are skipped. -/
def zrlStep (s : State) : Res Unit :=
  let s := { s with k := s.k + 16 }
  if s.k > 63 then raise .coefficientOverrun none s else .ok () s

/-- The coefficient branch (45_scan_engine.md R255): `r` positions are skipped, then one coefficient of `z` extra bits is
stored; at index 63 the block is complete (R256). -/
def coefStep (r z : Nat) (s : State) : Res Unit :=
  let s := { s with k := s.k + r }
  if s.k > 63 then raise .coefficientOverrun none s
  else
    (receive z s).bind fun v s =>
      let s := { s with zz := s.zz.set s.k (extend v z) }
      if s.k = 63 then endOfBlock s else .ok () { s with k := s.k + 1 }

/-- DC_SIZE: the symbol `T` in DC position and its `T` extra bits (45_scan_engine.md R253). -/
def execDcSize (t : BitVec 8) (s : State) : StepOutcome := symbolAt .dc (dcStep t.toNat) s

/-- EOB: size 0 with a run below 15 ends the block, whatever the run (45_scan_engine.md R255, U4). -/
def execEob (_r : BitVec 4) (s : State) : StepOutcome := symbolAt .ac endOfBlock s

/-- ZRL: size 0 with run 15 (45_scan_engine.md R255). -/
def execZrl (s : State) : StepOutcome := symbolAt .ac zrlStep s

/-- AC_COEF: run `r`, size `z` and its extra bits (45_scan_engine.md R255). -/
def execAcCoef (r z : BitVec 4) (s : State) : StepOutcome := symbolAt .ac (coefStep r.toNat z.toNat) s

end Sys2Proof.Machine
end

