-- ==== Sys2Proof/Machine/FrameHeaders.lean ====
section
/-! DEFINITION. The meanings of the frame markers SOFn (44_headers.md R221, 46_top_level.md R295): those in `SOF_ACCEPT` open
the frame header, the others are refused. -/

namespace Sys2Proof.Machine

/-- A frame marker, second byte `c` (46_top_level.md R294, R295). -/
def frameMarker (c : Byte) (s : State) : StepOutcome := dispatchMarker (markerOf c) (frameRow (markerOf c)) s

/-- SOF0, code `C0`: baseline DCT; accepted by the used `SOF_ACCEPT` (D14). -/
def execSof0 (s : State) : StepOutcome := frameMarker 0xC0#8 s

/-- SOF1, code `C1`: extended sequential DCT, Huffman; accepted by the used `SOF_ACCEPT` (D14). -/
def execSof1 (s : State) : StepOutcome := frameMarker 0xC1#8 s

/-- SOF2, code `C2`: progressive DCT, Huffman; not in the used `SOF_ACCEPT`: UnsupportedFeature (D14). -/
def execSof2 (s : State) : StepOutcome := frameMarker 0xC2#8 s

/-- SOF3, code `C3`: lossless, Huffman; not in the used `SOF_ACCEPT`: UnsupportedFeature (D14). -/
def execSof3 (s : State) : StepOutcome := frameMarker 0xC3#8 s

/-- SOF5, code `C5`: differential sequential, Huffman; not in the used `SOF_ACCEPT`: UnsupportedFeature (D14). -/
def execSof5 (s : State) : StepOutcome := frameMarker 0xC5#8 s

/-- SOF6, code `C6`: differential progressive, Huffman; not in the used `SOF_ACCEPT`: UnsupportedFeature (D14). -/
def execSof6 (s : State) : StepOutcome := frameMarker 0xC6#8 s

/-- SOF7, code `C7`: differential lossless, Huffman; not in the used `SOF_ACCEPT`: UnsupportedFeature (D14). -/
def execSof7 (s : State) : StepOutcome := frameMarker 0xC7#8 s

/-- SOF9, code `C9`: extended sequential, arithmetic; not in the used `SOF_ACCEPT`: UnsupportedFeature (D14). -/
def execSof9 (s : State) : StepOutcome := frameMarker 0xC9#8 s

/-- SOF10, code `CA`: progressive, arithmetic; not in the used `SOF_ACCEPT`: UnsupportedFeature (D14). -/
def execSof10 (s : State) : StepOutcome := frameMarker 0xCA#8 s

/-- SOF11, code `CB`: lossless, arithmetic; not in the used `SOF_ACCEPT`: UnsupportedFeature (D14). -/
def execSof11 (s : State) : StepOutcome := frameMarker 0xCB#8 s

/-- SOF13, code `CD`: differential sequential, arithmetic; not in the used `SOF_ACCEPT`: UnsupportedFeature (D14). -/
def execSof13 (s : State) : StepOutcome := frameMarker 0xCD#8 s

/-- SOF14, code `CE`: differential progressive, arithmetic; not in the used `SOF_ACCEPT`: UnsupportedFeature (D14). -/
def execSof14 (s : State) : StepOutcome := frameMarker 0xCE#8 s

/-- SOF15, code `CF`: differential lossless, arithmetic; not in the used `SOF_ACCEPT`: UnsupportedFeature (D14). -/
def execSof15 (s : State) : StepOutcome := frameMarker 0xCF#8 s

end Sys2Proof.Machine
end

