-- ==== Sys2Proof/Machine/SkippedSegments.lean ====
section
/-! DEFINITION. The meanings of the skipped markers (30_encoding.md R95, R104; 42_tablestore.md R195): in a header
region the segment is read over and recorded on the auxiliary port. -/

namespace Sys2Proof.Machine

/-- A marker whose row of R294 is `skipSegment(m)` (42_tablestore.md R195). -/
def skippedMarker (c : Byte) (s : State) : StepOutcome := dispatchMarker (markerOf c) (skipSegment (markerOf c)) s

/-- RES_02_03, codes `02`, `03`. -/
def execRes02 (n : BitVec 1) (s : State) : StepOutcome := skippedMarker (0b0000001#7 ++ n) s

/-- RES_04_07, codes `04` to `07`. -/
def execRes04 (n : BitVec 2) (s : State) : StepOutcome := skippedMarker (0b000001#6 ++ n) s

/-- RES_08_0F, codes `08` to `0F`. -/
def execRes08 (n : BitVec 3) (s : State) : StepOutcome := skippedMarker (0b00001#5 ++ n) s

/-- RES_10_1F, codes `10` to `1F`. -/
def execRes10 (n : BitVec 4) (s : State) : StepOutcome := skippedMarker (0b0001#4 ++ n) s

/-- RES_20_3F, codes `20` to `3F`. -/
def execRes20 (n : BitVec 5) (s : State) : StepOutcome := skippedMarker (0b001#3 ++ n) s

/-- RES_40_7F, codes `40` to `7F`. -/
def execRes40 (n : BitVec 6) (s : State) : StepOutcome := skippedMarker (0b01#2 ++ n) s

/-- RES_80_BF, codes `80` to `BF`. -/
def execRes80 (n : BitVec 6) (s : State) : StepOutcome := skippedMarker (0b10#2 ++ n) s

/-- JPG, code `C8`. -/
def execJpg (s : State) : StepOutcome := skippedMarker 0xC8#8 s

/-- DHP, code `DE`. -/
def execDhp (s : State) : StepOutcome := skippedMarker 0xDE#8 s

/-- EXP, code `DF`. -/
def execExp (s : State) : StepOutcome := skippedMarker 0xDF#8 s

/-- APPn, codes `E0` to `EF`. -/
def execApp (n : BitVec 4) (s : State) : StepOutcome := skippedMarker (0xE#4 ++ n) s

/-- JPG0_7, codes `F0` to `F7`. -/
def execJpg0 (n : BitVec 3) (s : State) : StepOutcome := skippedMarker (0b11110#5 ++ n) s

/-- JPG8_11, codes `F8` to `FB`. -/
def execJpg8 (n : BitVec 2) (s : State) : StepOutcome := skippedMarker (0b111110#6 ++ n) s

/-- JPG12_13, codes `FC`, `FD`. -/
def execJpg12 (n : BitVec 1) (s : State) : StepOutcome := skippedMarker (0b1111110#7 ++ n) s

/-- COM, code `FE`. -/
def execCom (s : State) : StepOutcome := skippedMarker 0xFE#8 s

/-- MFFFF, code `FF`: `0xFF 0xFF` is the marker `0xFFFF` (40_bytestream.md R141, U5). -/
def execMffff (s : State) : StepOutcome := skippedMarker 0xFF#8 s

end Sys2Proof.Machine
end

