-- ==== Sys2Proof/Machine/TableSegments.lean ====
section
/-! DEFINITION. The meanings of the table segments DQT, DHT, DRI, of DNL and of DAC (42_tablestore.md, 41_bitreader.md R164). -/

namespace Sys2Proof.Machine

/-- DQT, code `DB` (42_tablestore.md R180, R181). -/
def execDqt (s : State) : StepOutcome := dispatchMarker 0xFFDB#16 readDQT s

/-- DHT, code `C4` (42_tablestore.md R185 to R188). -/
def execDht (s : State) : StepOutcome := dispatchMarker 0xFFC4#16 readDHT s

/-- DRI, code `DD` (42_tablestore.md R192). -/
def execDri (s : State) : StepOutcome := dispatchMarker 0xFFDD#16 readDRI s

/-- DNL, code `DC`: in a header region its segment is parsed and nothing else changes (46_top_level.md R297); in
entropy-coded data it ends the scan (41_bitreader.md R161, R164); at a restart boundary it ends the scan and waits
(45_scan_engine.md R279). -/
def execDnl (s : State) : StepOutcome := dispatchMarker 0xFFDC#16 readDNLbody s

/-- DAC, code `CC`: arithmetic coding is refused at once (42_tablestore.md R196). -/
def execDac (s : State) : StepOutcome := dispatchMarker 0xFFCC#16 (dacRow 0xFFCC#16) s

end Sys2Proof.Machine
end

