-- ==== Sys2Proof/Machine/Dispatch.lean ====
section
/-! DEFINITION. One arm per row of the opcode table. -/

namespace Sys2Proof.Machine

def exec (i : Instr) (s : State) : Host.Outcome State Fault Refusal :=
  match i with
  | .data b => Sys2Proof.Machine.execData b s
  | .stuffed => Sys2Proof.Machine.execStuffed s
  | .tem => Sys2Proof.Machine.execTem s
  | .res02 n => Sys2Proof.Machine.execRes02 n s
  | .res04 n => Sys2Proof.Machine.execRes04 n s
  | .res08 n => Sys2Proof.Machine.execRes08 n s
  | .res10 n => Sys2Proof.Machine.execRes10 n s
  | .res20 n => Sys2Proof.Machine.execRes20 n s
  | .res40 n => Sys2Proof.Machine.execRes40 n s
  | .res80 n => Sys2Proof.Machine.execRes80 n s
  | .sof0 => Sys2Proof.Machine.execSof0 s
  | .sof1 => Sys2Proof.Machine.execSof1 s
  | .sof2 => Sys2Proof.Machine.execSof2 s
  | .sof3 => Sys2Proof.Machine.execSof3 s
  | .sof5 => Sys2Proof.Machine.execSof5 s
  | .sof6 => Sys2Proof.Machine.execSof6 s
  | .sof7 => Sys2Proof.Machine.execSof7 s
  | .sof9 => Sys2Proof.Machine.execSof9 s
  | .sof10 => Sys2Proof.Machine.execSof10 s
  | .sof11 => Sys2Proof.Machine.execSof11 s
  | .sof13 => Sys2Proof.Machine.execSof13 s
  | .sof14 => Sys2Proof.Machine.execSof14 s
  | .sof15 => Sys2Proof.Machine.execSof15 s
  | .dht => Sys2Proof.Machine.execDht s
  | .jpg => Sys2Proof.Machine.execJpg s
  | .dac => Sys2Proof.Machine.execDac s
  | .rst n => Sys2Proof.Machine.execRst n s
  | .soi => Sys2Proof.Machine.execSoi s
  | .eoi => Sys2Proof.Machine.execEoi s
  | .sos => Sys2Proof.Machine.execSos s
  | .dqt => Sys2Proof.Machine.execDqt s
  | .dnl => Sys2Proof.Machine.execDnl s
  | .dri => Sys2Proof.Machine.execDri s
  | .dhp => Sys2Proof.Machine.execDhp s
  | .exp => Sys2Proof.Machine.execExp s
  | .app n => Sys2Proof.Machine.execApp n s
  | .jpg0 n => Sys2Proof.Machine.execJpg0 n s
  | .jpg8 n => Sys2Proof.Machine.execJpg8 n s
  | .jpg12 n => Sys2Proof.Machine.execJpg12 n s
  | .com => Sys2Proof.Machine.execCom s
  | .mffff => Sys2Proof.Machine.execMffff s
  | .dcSize t => Sys2Proof.Machine.execDcSize t s
  | .eob r => Sys2Proof.Machine.execEob r s
  | .zrl => Sys2Proof.Machine.execZrl s
  | .acCoef r z => Sys2Proof.Machine.execAcCoef r z s

end Sys2Proof.Machine
end

