-- ==== Sys2Proof/Machine/Fetch.lean ====
section
/-! DEFINITION. What the sequencer reads next (46_top_level.md R293, R302; 10_state.md R22): a token at `POS` or the pending
marker at the byte level, a Huffman symbol of the bound table at the bit level. And its inverse for the host: a word of the
opcode table placed where the next step reads it. -/

namespace Sys2Proof.Machine

/-- What a step does: run an instruction in a state, or an act of the sequencer that reads no instruction (the end of input,
a symbol that does not decode, `afterScan`, nothing at all). -/
inductive Fetched where
  | instr (i : Instr) (s : State)
  | noInstr (r : Res Unit)
  deriving DecidableEq, Repr

/-- The token among `bytes`, to be executed in `s`. -/
def fetchFrom (bytes : List Byte) (s : State) : Fetched :=
  match decode .token bytes with
  | .ok (i, _) => .instr i s
  | .error _ => .noInstr (exhausted s)

/-- The Huffman symbol at the bit position, by the table of the current component for the loop that reads
(45_scan_engine.md R253, R255). -/
def fetchSymbol (s : State) : Fetched :=
  match currentBinding s with
  | none => .noInstr (.stop (.fault .unbound) s)
  | some b =>
    match s.unitPos with
    | .dc =>
      match decodeSymbol b.dc s with
      | .ok sym s => .instr (decodeDcSymbol sym) s
      | .stop c s => .noInstr (.stop c s)
    | .ac =>
      match decodeSymbol b.ac s with
      | .ok sym s => .instr (decodeAcSymbol sym) s
      | .stop c s => .noInstr (.stop c s)

/-- What comes next, by state. In `DecodingMCUs` with the bit buffer empty `decode` begins with a refill, so the token at
`POS` comes next (41_bitreader.md R161, R162; log 1). A pending marker comes before the stream (46_top_level.md R293). -/
def fetch (s : State) : Fetched :=
  match s.st with
  | .awaitSOI => fetchFrom (remaining s) s
  | .frameTables => fetchFrom (if s.pendmkV then markerBytes s.pendmk else remaining s) s
  | .awaitingSOS => fetchFrom (if s.pendmkV then markerBytes s.pendmk else remaining s) s
  | .restartBoundary => fetchFrom (remaining s) s
  | .decodingMCUs =>
    if s.bitcnt = 0 then
      match peekToken (remaining s) with
      | .exhausted => .noInstr (exhausted (beginDecode s))
      | _ => fetchFrom (remaining s) s
    else fetchSymbol s
  | .scanHeader => .noInstr (scanHeaderPhase s)
  | .scanComplete => .noInstr (.ok () (afterScan s))
  | .done => .noInstr (.ok () s)
  | .error => .noInstr (.ok () s)

/-! ## Placing a word of the opcode table (log 10, log 17) -/

/-- The input with `bytes` written from `POS` on. -/
def inputWith (bytes : List Byte) (s : State) : List Byte :=
  s.input.take s.pos ++ List.replicate (s.pos - s.input.length) 0#8 ++ bytes ++ s.input.drop (s.pos + bytes.length)

/-- The state with a token placed at `POS`, in a state that reads tokens from there: a state that reads none becomes
`AwaitSOI`, a pending marker is dropped, and so are bits not yet delivered in a scan. -/
def placeToken (bytes : List Byte) (s : State) : State :=
  let s := { s with input := inputWith bytes s, pendmkV := false }
  match s.st with
  | .awaitSOI => s
  | .frameTables => s
  | .awaitingSOS => s
  | .restartBoundary => s
  | .decodingMCUs => { s with bitcnt := 0 }
  | .scanHeader => { s with st := .awaitSOI }
  | .scanComplete => { s with st := .awaitSOI }
  | .done => { s with st := .awaitSOI }
  | .error => { s with st := .awaitSOI }

/-- A Huffman table whose one code word, the bit 0, is the symbol `b`. -/
def oneSymbolTable (tc : BitVec 1) (b : Byte) : HuffTable := buildHuffman tc 0#2 (1 :: List.replicate 15 0) [b]

/-- The state inside a scan of one component whose next code word is the AC symbol `b`, the extra bits being 0. -/
def placeSymbol (b : Byte) (s : State) : State :=
  { s with
    input := inputWith [0#8, 0#8] s
    st := .decodingMCUs
    unitPos := .ac
    k := max s.k 1
    curJ := 0
    curU := 0
    nbind := 1
    bind := [⟨1#8, 1#4, 1#4, 8, 8, 1, ⟨0#1, 0#2, List.replicate 64 0⟩, oneSymbolTable 0#1 b, oneSymbolTable 1#1 b⟩]
    bitbuf := 0#8
    bitcnt := 8
    fhV := true
    fh := if s.fhV then s.fh else { s.fh with p := 8#8 } }

/-- The state with a word of the opcode table placed where the next step reads it. -/
def placeTableWord (nbits w : Nat) (s : State) : State :=
  match tableWordLevel nbits with
  | .token => placeToken (tableWordBytes nbits w) s
  | .dc => placeSymbol (BitVec.ofNat 8 w) s
  | .ac => placeSymbol (BitVec.ofNat 8 w) s

end Sys2Proof.Machine
end

