-- ==== Sys2Proof/Machine/Step.lean ====
section
/-! DEFINITION. One step of `run()` (46_top_level.md R290, R302): what `fetch` finds is executed. -/

namespace Sys2Proof.Machine

def step (s : State) : Host.Outcome State Fault Refusal :=
  match fetch s with
  | .instr i s' => exec i s'
  | .noInstr r => settle r

/-- The word of an opcode-table row stored where the next step fetches (logs 2, 10, 17). -/
def State.withFetchWord (s : State) (nbits w : Nat) : State := placeTableWord nbits w s

end Sys2Proof.Machine
end

