-- ==== Sys2Proof/Machine/ImageAssembler.lean ====
section
/-! DEFINITION. The ImageAssembler, the sink of the output port (47_image_assembler.md). It is outside the CORE (00_scope.md
R5) and changes no state of it: a pure function of `FH`, of the records of `OUT` and of `ns`, which says of each scan index
how many components the scan had (`Ns`; the records do not say, R314). Its choices are those of log 19. -/

namespace Sys2Proof.Machine

/-- `B_c[0], B_c[1], …`: the records of component `cid`, in emission order (47_image_assembler.md R310). -/
def componentRecords (cid : BitVec 8) (out : List OutRec) : List OutRec := out.filter fun r => r.cid == cid

/-! ## Placement (R311, R314) -/

/-- `mcusPerRow` (47_image_assembler.md R311). -/
def mcusPerRow (fh : FrameHeader) : Nat := ceilDiv fh.x.toNat (8 * fh.hmax.toNat)

/-- `mcuRows` (47_image_assembler.md R312). -/
def mcuRows (fh : FrameHeader) : Nat := ceilDiv fh.y.toNat (8 * fh.vmax.toNat)

/-- Where block `n` of a component goes in an interleaved scan: `(x, y)` of its top left sample (47_image_assembler.md
R311). Of a frame with `X = 0` or `Y = 0` no block is placed (`blockCapacity` is 0, and `assemble` refuses the frame as
93_implementation_defined.md U8 advises; DESIGN CHOICE, log 19), so what the division by `mcusPerRow = 0` gives is not
used. -/
def interleavedOrigin (fh : FrameHeader) (c : FrameComp) (n : Nat) : Nat × Nat :=
  let h := c.h.toNat
  let v := c.v.toNat
  let m := n / (h * v)
  let u := n % (h * v)
  ((m % mcusPerRow fh) * 8 * h + 8 * (u % h), (m / mcusPerRow fh) * 8 * v + 8 * (u / h))

/-- Where block `n` of a scan of this component alone goes (47_image_assembler.md R314). -/
def soloOrigin (c : FrameComp) (n : Nat) : Nat × Nat :=
  ((n % ceilDiv c.width 8) * 8, (n / ceilDiv c.width 8) * 8)

/-- How many blocks of the component a scan of `ns` components has places for: `H·V` in each MCU of the frame
(47_image_assembler.md R311, R312), or the component's own blocks (R314). -/
def blockCapacity (ns : Nat) (fh : FrameHeader) (c : FrameComp) : Nat :=
  if ns = 1 then ceilDiv c.width 8 * ceilDiv c.height 8
  else mcusPerRow fh * mcuRows fh * (c.h.toNat * c.v.toNat)

/-- Where block `n` of a scan of `ns` components goes; a surplus block has no place (93_implementation_defined.md U18). -/
def blockOrigin (ns : Nat) (fh : FrameHeader) (c : FrameComp) (n : Nat) : Option (Nat × Nat) :=
  if n < blockCapacity ns fh c then some (if ns = 1 then soloOrigin c n else interleavedOrigin fh c n) else none

/-- A block at its place: `(x, y)` of its top left sample. -/
structure PlacedBlock where
  x : Nat
  y : Nat
  samples : List Nat
  deriving DecidableEq, Repr

/-- The sample `(x, y)` of the plane is one of the block. -/
def PlacedBlock.covers (b : PlacedBlock) (x y : Nat) : Bool :=
  decide (b.x ≤ x ∧ x < b.x + 8 ∧ b.y ≤ y ∧ y < b.y + 8)

/-- `plane_c[y][x] := blk.samples[8·by + bx]`, row-major inside the block (47_image_assembler.md R311). -/
def PlacedBlock.sample (b : PlacedBlock) (x y : Nat) : Option Nat := b.samples[8 * (y - b.y) + (x - b.x)]?

/-- The record's block at its place. Its number counts the component's records of the same scan before it: `before`. -/
def placeRecord (ns : Nat → Nat) (fh : FrameHeader) (c : FrameComp) (before : List OutRec) (r : OutRec) :
    Option PlacedBlock :=
  (blockOrigin (ns r.scan) fh c (before.countP fun q => q.scan == r.scan)).map fun o => ⟨o.1, o.2, r.samples⟩

/-- The component's records, those after `before`, at their places, in emission order. -/
def placeRecords (ns : Nat → Nat) (fh : FrameHeader) (c : FrameComp) : List OutRec → List OutRec → List PlacedBlock
  | _, [] => []
  | before, r :: rs => (placeRecord ns fh c before r).toList ++ placeRecords ns fh c (r :: before) rs

/-- `plane_c[y][x]` after the component's records are placed: the block placed there last has it (47_image_assembler.md
R311); none where no block was placed. -/
def planeSample (ns : Nat → Nat) (fh : FrameHeader) (c : FrameComp) (recs : List OutRec) (x y : Nat) : Option Nat :=
  ((placeRecords ns fh c [] recs).reverse.find? fun b => b.covers x y).bind fun b => b.sample x y

/-! ## Planes, crop, image (R310, R312, R313, R315) -/

/-- The size of a component's plane, width and height (47_image_assembler.md R312). -/
def planeSize (fh : FrameHeader) (c : FrameComp) : Nat × Nat :=
  (padding (8 * fh.hmax.toNat) fh.x.toNat * c.h.toNat / fh.hmax.toNat,
   padding (8 * fh.vmax.toNat) fh.y.toNat * c.v.toNat / fh.vmax.toNat)

/-- The plane of one component: its padded size and its samples, row by row (47_image_assembler.md R312), and the crop
rectangle `(0, 0)` to `(cropWidth, cropHeight)` exclusive (R313). -/
structure ComponentPlane where
  id         : BitVec 8
  width      : Nat
  height     : Nat
  rows       : List (List (Option Nat))
  cropWidth  : Nat
  cropHeight : Nat
  deriving DecidableEq, Repr

/-- The plane of component `c`, from its records. -/
def componentPlane (ns : Nat → Nat) (fh : FrameHeader) (c : FrameComp) (recs : List OutRec) : ComponentPlane where
  id         := c.id
  width      := (planeSize fh c).1
  height     := (planeSize fh c).2
  rows       := (List.range (planeSize fh c).2).map fun y =>
    (List.range (planeSize fh c).1).map fun x => planeSample ns fh c recs x y
  cropWidth  := c.width
  cropHeight := c.height

/-- The plane cut to its crop rectangle (47_image_assembler.md R313). -/
def ComponentPlane.cropped (p : ComponentPlane) : List (List (Option Nat)) :=
  (p.rows.take p.cropHeight).map fun row => row.take p.cropWidth

/-- What the sink gives: the planes, and the frame's crop rectangle `(0, 0)` to `(cropWidth, cropHeight)` exclusive in
full-resolution coordinates (47_image_assembler.md R310, R313). -/
structure AssembledImage where
  cropWidth  : Nat
  cropHeight : Nat
  planes     : List ComponentPlane
  deriving DecidableEq, Repr

/-- The image of the frame, every component's plane filled (47_image_assembler.md R315); none for a frame with `X = 0` or
`Y = 0`, which the sink refuses (93_implementation_defined.md U8; log 19). -/
def assemble (ns : Nat → Nat) (fh : FrameHeader) (out : List OutRec) : Option AssembledImage :=
  if fh.x = 0#16 ∨ fh.y = 0#16 then none
  else some {
    cropWidth  := fh.x.toNat
    cropHeight := fh.y.toNat
    planes     := fh.comp.map fun c => componentPlane ns fh c (componentRecords c.id out) }

end Sys2Proof.Machine
end

