-- ==== Sys2Proof/Safety.lean ====
section
/-! DEFINITION. The terms claims are written in: the terminal states, the bytes of a segment as the stream holds them, the
bits ahead of the bit reader, the registers no rule reads before writing them, and the invariant of the machine. A safe
run is one whose every step answers a next state. -/

namespace Sys2Proof.Machine

/-! ## Where the sequencer stands -/

/-- `Done` or `Error` (46_top_level.md R301). -/
def State.terminal (s : State) : Prop := s.st = .done ∨ s.st = .error

/-- A header region: `FrameTables` or `AwaitingSOS` (00_scope.md R15). -/
def State.inHeader (s : State) : Prop := s.st = .frameTables ∨ s.st = .awaitingSOS

/-- The frame header has been read: every state from `AwaitingSOS` to `ScanComplete` (10_state.md R30). -/
def SeqState.afterFrame : SeqState → Bool
  | .awaitingSOS | .scanHeader | .decodingMCUs | .restartBoundary | .scanComplete => true
  | .awaitSOI | .frameTables | .done | .error => false

/-- A scan is being decoded. -/
def SeqState.inScan : SeqState → Bool
  | .decodingMCUs | .restartBoundary => true
  | .awaitSOI | .frameTables | .awaitingSOS | .scanHeader | .scanComplete | .done | .error => false

/-- The latched error registers and `STATE` after an error is taken (60_exceptions.md R335), all else unchanged. -/
def State.latched (code : BitVec 4) (marker : Marker) (s : State) : State :=
  { s with errCode := code, errMarker := marker, errPos := s.pos, errState := s.st.code, st := .error }

/-- The markers whose handling in a header region is to skip their segment (30_encoding.md R95). -/
def isSkipped : Instr → Bool
  | .res02 _ | .res04 _ | .res08 _ | .res10 _ | .res20 _ | .res40 _ | .res80 _ | .jpg | .dhp | .exp | .app _ | .jpg0 _
  | .jpg8 _ | .jpg12 _ | .com | .mffff => true
  | .data _ | .stuffed | .tem | .sof0 | .sof1 | .sof2 | .sof3 | .sof5 | .sof6 | .sof7 | .sof9 | .sof10 | .sof11 | .sof13
  | .sof14 | .sof15 | .dht | .dac | .rst _ | .soi | .eoi | .sos | .dqt | .dnl | .dri | .dcSize _ | .eob _ | .zrl
  | .acCoef _ _ => false

/-- The state an operation leaves, however it ends. -/
def Res.final {α : Type} : Res α → State
  | .ok _ s => s
  | .stop _ s => s

/-! ## The bytes of a segment -/

/-- The two bytes of a 16-bit value, the more significant first (20_memory.md R63). -/
def bytes16 (w : BitVec 16) : List Byte := [w.extractLsb' 8 8, w.extractLsb' 0 8]

/-- The bytes with every `0xFF` stuffed (30_encoding.md R91). -/
def stuffBytes : List Byte → List Byte
  | [] => []
  | b :: l => if b = 0xFF#8 then 0xFF#8 :: 0x00#8 :: stuffBytes l else b :: stuffBytes l

/-- How the stream holds the bytes of a segment under `SEG_READ_MODE` (20_memory.md R67): as they are, or stuffed. -/
def segmentRaw (mode : SegReadMode) (l : List Byte) : List Byte :=
  match mode with
  | .raw => l
  | .token => stuffBytes l

/-- The segment bytes `l` come next. -/
def State.ahead (s : State) (l : List Byte) : Prop := segmentRaw s.params.segReadMode l <+: remaining s

/-- The input ends inside the segment bytes `l`: what is left of it begins them and is not all of them. -/
def State.cutShort (s : State) (l : List Byte) : Prop :=
  remaining s <+: segmentRaw s.params.segReadMode l ∧ remaining s ≠ segmentRaw s.params.segReadMode l

/-- The outcome is StreamExhausted, latched with `POS = N` over the registers of `s`, `LASTMK` as marker, `PB_ARMED` being 0
(20_memory.md R62, 60_exceptions.md R324, R335; in TOKEN mode log 8). `LASTPOS`, not read while `PB_ARMED` is 0, moves in
TOKEN mode only. -/
def endsExhausted (s : State) (r : StepOutcome) : Prop :=
  ∃ last, (s.params.segReadMode = .raw → last = s.lastpos) ∧
    r = .next (State.latched 1#4 s.lastmk { s with pos := s.input.length, pbArmed := false, lastpos := last })

/-- The state after the segment bytes `l` are read: `POS` is past them, `PB_ARMED` is 0; in TOKEN mode `LASTPOS`, which is
not read while `PB_ARMED` is 0, is where the last of them began (10_state.md R23, 40_bytestream.md R147). -/
def afterBytes (l : List Byte) (s : State) : State :=
  { s with
    pos := s.pos + (segmentRaw s.params.segReadMode l).length
    pbArmed := false
    lastpos := if s.params.segReadMode = .raw ∨ l = [] then s.lastpos
      else s.pos + (segmentRaw s.params.segReadMode l.dropLast).length }

/-- The layout of a quantization table (30_encoding.md R100): `Pq Tq`, then 64 entries of one byte or of two. -/
def quantBytes (t : QuantTable) : List Byte :=
  ((0#3 ++ t.pq) ++ (0#2 ++ t.tq) : BitVec 8) ::
    t.q.flatMap fun e => if t.pq = 0#1 then [BitVec.ofNat 8 e] else bytes16 (BitVec.ofNat 16 e)

/-- 64 entries, each of the width `Pq` says (10_state.md R38). -/
def QuantTable.good (t : QuantTable) : Prop :=
  t.q.length = 64 ∧ ∀ e ∈ t.q, e < if t.pq = 0#1 then 2 ^ 8 else 2 ^ 16

/-- What a DHT segment gives of one table (30_encoding.md R101). -/
structure HuffSpec where
  tc      : BitVec 1
  th      : BitVec 2
  counts  : List Byte
  huffval : List Byte
  deriving DecidableEq, Repr

/-- `Tc Th`, `BITS`, `HUFFVAL` (30_encoding.md R101). -/
def HuffSpec.bytes (h : HuffSpec) : List Byte :=
  ((0#3 ++ h.tc) ++ (0#2 ++ h.th) : BitVec 8) :: (h.counts ++ h.huffval)

/-- The counts as numbers. -/
def HuffSpec.bits (h : HuffSpec) : List Nat := h.counts.map BitVec.toNat

/-- 16 counts, as many values as they add up to. -/
def HuffSpec.good (h : HuffSpec) : Prop := h.counts.length = 16 ∧ h.huffval.length = h.bits.sum

/-- The table the builder makes of it (42_tablestore.md R188). -/
def HuffSpec.table (h : HuffSpec) : HuffTable := buildHuffman h.tc h.th h.bits h.huffval

/-- A component of a frame header (30_encoding.md R106): `C`, `H V`, `Tq`. -/
def FrameComp.bytes (c : FrameComp) : List Byte := [c.id, c.h ++ c.v, c.tq]

/-- The body of a SOFn segment (30_encoding.md R106). -/
def frameBytes (p : Byte) (y x : BitVec 16) (comps : List FrameComp) : List Byte :=
  bytes16 (BitVec.ofNat 16 (8 + 3 * comps.length)) ++ [p] ++ bytes16 y ++ bytes16 x ++
    [BitVec.ofNat 8 comps.length] ++ comps.flatMap FrameComp.bytes

/-- The body of an SOS segment (30_encoding.md R107). -/
def scanBytes (comps : List ScanComp) (ss se : Byte) (ah al : BitVec 4) : List Byte :=
  bytes16 (BitVec.ofNat 16 (6 + 2 * comps.length)) ++ [BitVec.ofNat 8 comps.length] ++
    comps.flatMap (fun c => [c.cs, c.td ++ c.ta]) ++ [ss, se, ah ++ al]

/-! ## The bits ahead -/

/-- The bits of a byte, the most significant first (20_memory.md R64). -/
def byteBits (b : Byte) : List Bool :=
  [b.getLsbD 7, b.getLsbD 6, b.getLsbD 5, b.getLsbD 4, b.getLsbD 3, b.getLsbD 2, b.getLsbD 1, b.getLsbD 0]

/-- The bits of the data bytes up to the next marker or the end of input (41_bitreader.md R169). -/
def dataBits : List Byte → List Bool
  | [] => []
  | [b] => if b = 0xFF#8 then [] else byteBits b
  | b :: c :: l =>
    if b ≠ 0xFF#8 then byteBits b ++ dataBits (c :: l)
    else if c = 0x00#8 then byteBits 0xFF#8 ++ dataBits l
    else []

/-- The bits `nextBit` delivers, in order, before anything but a data byte is met: what is left of `BITBUF`, then the data
bytes from `POS` on. -/
def State.bitsAhead (s : State) : List Bool := (byteBits s.bitbuf).take s.bitcnt ++ dataBits (remaining s)

/-- `u` is `s` after the bits `l` were delivered: they were the next ones, what was pulled from the stream is the bytes that
hold them, one data byte at a time, and only the stream position and the bit buffer moved (41_bitreader.md R162, R169). -/
structure BitsTaken (l : List Bool) (s u : State) : Prop where
  ahead : s.bitsAhead = l ++ u.bitsAhead
  forward : s.pos ≤ u.pos
  bytes : (byteBits s.bitbuf).take s.bitcnt ++ dataBits ((remaining s).take (u.pos - s.pos)) =
    l ++ (byteBits u.bitbuf).take u.bitcnt
  count : if l = [] then u = s else u.bitcnt ≤ 7
  keep : u = { s with
    pos := u.pos, lastpos := u.lastpos, pbArmed := u.pbArmed, bitbuf := u.bitbuf, bitcnt := u.bitcnt }

/-- The natural a bit string writes, the first bit the most significant (41_bitreader.md R167). -/
def bitsValue (l : List Bool) : Nat := l.foldl (fun v b => 2 * v + b.toNat) 0

/-- The `n`-bit string of a natural, the most significant bit first (42_tablestore.md R188). -/
def codeBits : Nat → Nat → List Bool
  | 0, _ => []
  | n + 1, v => codeBits n (v / 2) ++ [decide (v % 2 = 1)]

/-! ## Binding and the end of a data unit -/

/-- What `bindComponents` binds to the selector `sc` of a scan of `n` components (44_headers.md R231): the first component
with that id, the tables of its slots. -/
def Binds (fh : FrameHeader) (eff : MiscTables) (n : Nat) (sc : ScanComp) (b : Binding) : Prop :=
  ∃ (i : Nat) (f : FrameComp) (q : QuantTable) (dc ac : HuffTable), fh.comp[i]? = some f ∧ f.id = sc.cs ∧ (∀ i' < i, ∀ f', fh.comp[i']? = some f' → f'.id ≠ sc.cs) ∧
    f.tq.toNat ≤ 3 ∧ sc.td.toNat ≤ 3 ∧ sc.ta.toNat ≤ 3 ∧
    slotGet eff.quant (f.tq.setWidth 2) = some q ∧ slotGet eff.dc (sc.td.setWidth 2) = some dc ∧
    slotGet eff.ac (sc.ta.setWidth 2) = some ac ∧
    b = ⟨f.id, f.h, f.v, f.width, f.height, if n = 1 then 1 else f.h.toNat * f.v.toNat, q, dc, ac⟩

/-- `MCUCOUNT` of a scan of the components `bs` (44_headers.md R231, R233). -/
def scanMcuCount (fh : FrameHeader) (bs : List Binding) : Nat :=
  match bs with
  | [b] => ceilDiv b.width 8 * ceilDiv b.height 8
  | _ => ceilDiv fh.x.toNat (8 * fh.hmax.toNat) * ceilDiv fh.y.toNat (8 * fh.vmax.toNat)

/-- The state after a data unit is emitted: the pipeline buffers, the record, and the place of the next unit, next
component or next MCU; after `RI` MCUs the restart boundary (45_scan_engine.md R262, R263, R270, R279). -/
def State.unitEnds (s : State) (b : Binding) (dq nat : List Int) (samp : List Nat) : State :=
  let u : State := { s with
    dq := dq, nat := nat, samp := samp
    out := s.out ++ [⟨s.scanIdx, b.id, samp⟩]
    freeCtr := s.freeCtr + if s.params.idctInt = .envelope then 64 else 0 }
  if s.curU + 1 < b.units then { u with curU := s.curU + 1, zz := zeroBlock, unitPos := .dc }
  else if s.curJ + 1 < s.nbind then { u with curJ := s.curJ + 1, curU := 0, zz := zeroBlock, unitPos := .dc }
  else if 0 < s.ri ∧ (s.mcuInInt : Int) + 1 = s.ri then
    { u with
      mcuDone := s.mcuDone + 1, mcuInInt := 0, bitcnt := 0, st := .restartBoundary
      pred := List.replicate s.nbind 0 ++ s.pred.drop s.nbind }
  else
    { u with
      mcuDone := s.mcuDone + 1, mcuInInt := s.mcuInInt + 1, atb := true, curJ := 0, curU := 0, zz := zeroBlock
      unitPos := .dc }

/-- The data unit ends as 45_scan_engine.md R257 to R262 say: `DQ` is the product with the table of `b`, `NAT` its natural
order, the samples are those of `NAT`. -/
def UnitDone (s : State) (b : Binding) (t : State) : Prop :=
  ∃ dq nat, dq.length = 64 ∧ nat.length = 64 ∧
    (∀ k < 64, dq.getD k 0 = s.zz.getD k 0 * ((b.q.q.getD k 0 : Nat) : Int) ∧ nat.getD (zigzag.getD k 0) 0 = dq.getD k 0) ∧
    t = s.unitEnds b dq nat (samples s.params.idctInt s.fh.p.toNat s.freeCtr nat)

/-! ## The invariant -/

/-- A Huffman table the builder made (10_state.md R39, 42_tablestore.md R188). -/
def HuffTable.good (h : HuffTable) : Prop :=
  h = buildHuffman h.tc h.th h.bits h.huffval ∧ h.bits.length = 16 ∧ h.huffval.length = h.bits.sum

/-- A snapshot holds whole tables, each in its own slot, and an interval of 16 bits or none (10_state.md R38 to R40). -/
structure MiscTables.Good (m : MiscTables) : Prop where
  quant : ∀ t x, slotGet m.quant t = some x → x.tq = t ∧ x.good
  dc : ∀ t x, slotGet m.dc t = some x → x.tc = 0#1 ∧ x.th = t ∧ x.good
  ac : ∀ t x, slotGet m.ac t = some x → x.tc = 1#1 ∧ x.th = t ∧ x.good
  interval : -1 ≤ m.interval ∧ m.interval ≤ 65535

/-- `Hmax` of the factors: the largest (44_headers.md R221). -/
def isMax (m : BitVec 4) (l : List (BitVec 4)) : Prop := m ∈ l ∧ ∀ a ∈ l, a.toNat ≤ m.toNat

/-- A frame header that a SOFn segment wrote (10_state.md R35, 44_headers.md R221). -/
structure FrameHeader.Good (params : Params) (f : FrameHeader) : Prop where
  sof : f.sof ∈ params.sofAccept
  precision : f.p.toNat ∈ params.precisions
  count : f.comp.length = f.nf.toNat ∧ 1 ≤ f.nf.toNat ∧ f.nf.toNat ≤ params.ncompMax
  factors : ∀ c ∈ f.comp, c.h ≠ 0#4 ∧ c.v ≠ 0#4
  hmax : isMax f.hmax (f.comp.map FrameComp.h)
  vmax : isMax f.vmax (f.comp.map FrameComp.v)
  sizes : ∀ c ∈ f.comp, c.width = ceilDiv (f.x.toNat * c.h.toNat) f.hmax.toNat ∧
    c.height = ceilDiv (f.y.toNat * c.v.toNat) f.vmax.toNat

/-- A binding of the scan being decoded (10_state.md R37): a component of the frame and copies of whole tables. -/
structure Binding.Good (fh : FrameHeader) (nbind : Nat) (b : Binding) : Prop where
  comp : ∃ c ∈ fh.comp, c.id = b.id ∧ c.h = b.h ∧ c.v = b.v ∧ c.width = b.width ∧ c.height = b.height
  units : b.units = if nbind = 1 then 1 else b.h.toNat * b.v.toNat
  quant : b.q.good
  dc : b.dc.good
  ac : b.ac.good

/-- The invariant. Every clause is a rule of the spec about its state, or what keeps the model's faults out of reach
(log 11). -/
structure State.Inv (s : State) : Prop where
  /-- every precision admitted is a precision (00_scope.md R8: 1 ≤ P ≤ 16) -/
  params : ∀ p ∈ s.params.precisions, 1 ≤ p ∧ p ≤ 16
  /-- `POS` never exceeds `N` (20_memory.md R66) -/
  pos : s.pos ≤ s.input.length
  /-- `0 ≤ BITCNT ≤ 8` always (41_bitreader.md R169) -/
  bitcnt : s.bitcnt ≤ 8
  /-- `LEN` and `K` stay in their ranges (10_state.md R25, R27) -/
  len : s.len ≤ 17
  k : s.k ≤ 79
  /-- the block buffers hold 64 values (10_state.md R27) -/
  blocks : s.zz.length = 64 ∧ s.dq.length = 64 ∧ s.nat.length = 64 ∧ s.samp.length = 64
  /-- a pending marker is a marker, the last one read, and waits only for the sequencer (10_state.md R32, R47) -/
  pending : s.pendmkV = true → (∃ c, c ≠ 0#8 ∧ s.pendmk = markerOf c ∧ s.lastmk = s.pendmk) ∧
    (s.st = .scanComplete ∨ s.st = .awaitingSOS ∨ s.st = .error)
  /-- no error is latched before one is taken, and then its code is one of the ten (10_state.md R31, 60_exceptions.md R321) -/
  errors : if s.st = .error then 1 ≤ s.errCode.toNat ∧ s.errCode.toNat ≤ 10 ∧ s.errPos = s.pos ∧ s.errState ≠ 8#4
    else s.errCode = 0#4 ∧ s.errMarker = 0#16 ∧ s.errPos = 0 ∧ s.errState = 0#4
  /-- the tables are whole (10_state.md R38 to R40) -/
  base : s.base.Good
  ovl : s.ovl.Good
  eff : s.eff.Good
  /-- the frame header is held from `AwaitingSOS` on and not before (10_state.md R30, R35) -/
  held : s.st.afterFrame = true → s.fhV = true
  notHeld : s.st = .awaitSOI ∨ s.st = .frameTables → s.fhV = false
  header : s.fhV = true → s.fh.Good s.params
  /-- inside a scan every component is bound (10_state.md R37) -/
  bound : s.st.inScan = true → s.sh.ns.toNat = s.nbind ∧ 1 ≤ s.nbind ∧ s.nbind ≤ s.bind.length ∧
    s.nbind ≤ s.params.ncompMax ∧ (∀ b ∈ s.bind.take s.nbind, b.Good s.fh s.nbind) ∧ -1 ≤ s.ri ∧ s.ri ≤ 65535
  /-- the place inside the MCU (10_state.md R29), and `ATB` only before its first symbol (45_scan_engine.md R274) -/
  place : s.st = .decodingMCUs → s.curJ < s.nbind ∧
    (∀ b, currentBinding s = some b → s.curU < b.units) ∧
    (s.unitPos = .ac → 1 ≤ s.k ∧ s.k ≤ 63) ∧ (s.atb = true → s.unitPos = .dc ∧ s.curJ = 0 ∧ s.curU = 0) ∧
    (0 < s.ri → (s.mcuInInt : Int) < s.ri)
  /-- at a restart boundary and after a scan no bit is left, and the marker that ended the scan waits or was a DNL
  (45_scan_engine.md R278, R279) -/
  boundary : s.st = .restartBoundary → s.bitcnt = 0 ∧ 0 < s.ri ∧ s.mcuInInt = 0
  complete : s.st = .scanComplete → s.bitcnt = 0 ∧ (s.pendmkV = true ∨ s.dnlSeen = true)
  /-- every record emitted is of a scan so far and holds 64 samples of `P` bits (20_memory.md R72) -/
  records : ∀ r ∈ s.out, r.scan ≤ s.scanIdx ∧ r.samples.length = 64 ∧ s.fhV = true ∧
    ∀ v ∈ r.samples, v < 2 ^ s.fh.p.toNat

end Sys2Proof.Machine
end

