-- ==== Sys2Proof/Certificates/Slice0/Obligations.lean ====
section
/-! DEFINITION. The statements for the provers, in the order of OBLIGATIONS.json. Each docstring names the rules of spec/ it
formalises. `State.latched code marker s` is `s` with the error registers written as 60_exceptions.md R335 says;
`s.ahead l` says that the segment bytes `l` come next, and `afterBytes l s` is `s` after they are read. -/

open Sys2Proof Sys2Proof.Machine

/-! ## Encoding -/

/-- Decoding the bytes of a well-formed instruction gives it back, with every operand, and consumes exactly its bytes
(30_encoding.md R91, R95, R112, R113). -/
def Obligations.DecodeInvertsEncode : Prop :=
  ∀ (i : Instr) (rest : List Byte), i.wellFormed = true → decode i.level (encode i ++ rest) = .ok (i, rest)

/-- What the decoder answers is a well-formed instruction of the level asked for, and the bytes it consumed are its own: no
other bytes decode to it (30_encoding.md R91, R95, R112, R113). -/
def Obligations.DecodeIsFaithful : Prop :=
  ∀ (level : Level) (bytes : List Byte) (i : Instr) (rest : List Byte), decode level bytes = .ok (i, rest) →
    i.wellFormed = true ∧ i.level = level ∧ bytes = encode i ++ rest

/-- The token formats, and that every nonzero second byte is a marker with an instruction (30_encoding.md R91). -/
def Obligations.TokenFormats : Prop :=
  (∀ (b : Byte) (rest : List Byte), b ≠ 0xFF#8 →
    peekToken (b :: rest) = .byte b 1 ∧ decode .token (b :: rest) = .ok (.data b, rest)) ∧
  (∀ rest : List Byte,
    peekToken (0xFF#8 :: 0x00#8 :: rest) = .byte 0xFF#8 2 ∧ decode .token (0xFF#8 :: 0x00#8 :: rest) = .ok (.stuffed, rest)) ∧
  (∀ (c : Byte) (rest : List Byte), c ≠ 0x00#8 →
    peekToken (0xFF#8 :: c :: rest) = .marker (0xFF#8 ++ c) ∧
    ∃ i, decode .token (0xFF#8 :: c :: rest) = .ok (i, rest) ∧ i.markerCode = some c) ∧
  (peekToken [0xFF#8] = .exhausted ∧ decode .token [0xFF#8] = .error .exhausted) ∧
  peekToken [] = .exhausted ∧ decode .token [] = .error .exhausted

/-- The functions of the marker catalog (30_encoding.md R94, R95), and that the marker map gives the frame markers and
the restart markers exactly where they say so. -/
def Obligations.MarkerCatalog : Prop :=
  (∀ m : Marker, rstIndex m = if 0xFFD0 ≤ m.toNat ∧ m.toNat ≤ 0xFFD7 then some ((m &&& 7#16).setWidth 3) else none) ∧
  (∀ c : Byte, isFrame (markerOf c) = true ↔
    0xC0 ≤ c.toNat ∧ c.toNat ≤ 0xCF ∧ c ≠ 0xC4#8 ∧ c ≠ 0xC8#8 ∧ c ≠ 0xCC#8) ∧
  (∀ c : Byte, isFrame (markerOf c) = true ↔
    instrOfCode c ∈ [some .sof0, some .sof1, some .sof2, some .sof3, some .sof5, some .sof6, some .sof7, some .sof9,
      some .sof10, some .sof11, some .sof13, some .sof14, some .sof15]) ∧
  (∀ (c : Byte) (n : BitVec 3), rstIndex (markerOf c) = some n ↔ instrOfCode c = some (.rst n))

/-- Words written out from the spec's encodings decode to what they stand for (30_encoding.md R91, R95, R112, R113). -/
def Obligations.SampleWords : Prop :=
  decode .token [0x41#8] = .ok (.data 0x41#8, []) ∧
  decode .token [0xFF#8, 0x00#8, 0xD9#8] = .ok (.stuffed, [0xD9#8]) ∧
  decode .token [0xFF#8, 0xD8#8] = .ok (.soi, []) ∧
  decode .token [0xFF#8, 0xD5#8] = .ok (.rst 5#3, []) ∧
  decode .token [0xFF#8, 0xDB#8, 0x00#8] = .ok (.dqt, [0x00#8]) ∧
  decode .token [0xFF#8, 0xC4#8] = .ok (.dht, []) ∧
  decode .token [0xFF#8, 0xC0#8] = .ok (.sof0, []) ∧
  decode .token [0xFF#8, 0xDA#8] = .ok (.sos, []) ∧
  decode .token [0xFF#8, 0xEE#8] = .ok (.app 14#4, []) ∧
  decode .token [0xFF#8, 0xFF#8, 0xD9#8] = .ok (.mffff, [0xD9#8]) ∧
  decode .dc [0x0B#8] = .ok (.dcSize 11#8, []) ∧
  decode .ac [0x00#8] = .ok (.eob 0#4, []) ∧
  decode .ac [0xE0#8] = .ok (.eob 14#4, []) ∧
  decode .ac [0xF0#8] = .ok (.zrl, []) ∧
  decode .ac [0x31#8] = .ok (.acCoef 3#4 1#4, [])

/-! ## The byte stream -/

/-- The five properties of the byte stream (40_bytestream.md R149). -/
def Obligations.ByteStreamProperties : Prop :=
  ∀ s : State, s.pos ≤ s.input.length →
    -- (a) POS never decreases except in `unread`, and then to a value it held before
    (s.pos ≤ (readByte s).final.pos ∧ s.pos ≤ (readMarker s).final.pos ∧ (∀ n, s.pos ≤ (readBytes n s).final.pos) ∧
      s.pos ≤ (readUint16 s).final.pos ∧ (∀ b t, readByte s = .ok b t → (unread t).pos = s.pos) ∧
      (∀ m t, readMarker s = .ok m t → (unread t).pos = s.pos)) ∧
    -- (b) a failed read of the wrong-kind sort leaves all state unchanged
    ((∀ m, peekToken (remaining s) = .marker m → readByte s = .stop (.raise .unexpectedMarker (some (.marker m))) s) ∧
      (∀ b n, peekToken (remaining s) = .byte b n → readMarker s = .stop (.raise .unexpectedByte (some (.byte b))) s)) ∧
    -- (c) after any StreamExhausted, POS = N
    ((∀ i t, readByte s = .stop (.raise .streamExhausted i) t → t.pos = s.input.length) ∧
      (∀ i t, readMarker s = .stop (.raise .streamExhausted i) t → t.pos = s.input.length) ∧
      (∀ n i t, readBytes n s = .stop (.raise .streamExhausted i) t → t.pos = s.input.length) ∧
      (∀ i t, readUint16 s = .stop (.raise .streamExhausted i) t → t.pos = s.input.length)) ∧
    -- (d) `readByte` never returns while the next token is a marker
    (∀ b t m, readByte s = .ok b t → peekToken (remaining s) ≠ .marker m) ∧
    -- (e) exactly one of the two succeeds unless the stream is exhausted
    (peekToken (remaining s) ≠ .exhausted →
      ((∃ b t, readByte s = .ok b t) ∧ ¬∃ m t, readMarker s = .ok m t) ∨
      ((∃ m t, readMarker s = .ok m t) ∧ ¬∃ b t, readByte s = .ok b t))

/-- Pushback gives back the token just read, once (40_bytestream.md R146). It has no effect a second time, after reset,
after `readBytes` or `readUint16`, whether they succeed or fail, or after a failed `readByte` or `readMarker` that followed
no successful one; a failed one leaves `PB_ARMED` and `LASTPOS` as they were (R142, R143). That it has none after
`readBytes` and `readUint16` in TOKEN mode too is the model's reading (DEDUCED, log 8). -/
def Obligations.Unread : Prop :=
  (∀ s : State, unread s = if s.pbArmed = true then { s with pos := s.lastpos, pbArmed := false } else s) ∧
  (∀ (s t : State) (b : Byte), readByte s = .ok b t →
    (unread t).pos = s.pos ∧ peekToken (remaining (unread t)) = peekToken (remaining s) ∧ unread (unread t) = unread t) ∧
  (∀ (s t : State) (m : Marker), readMarker s = .ok m t →
    (unread t).pos = s.pos ∧ peekToken (remaining (unread t)) = peekToken (remaining s) ∧ unread (unread t) = unread t) ∧
  (∀ (s : State) (n : Nat), unread (readBytes n s).final = (readBytes n s).final) ∧
  (∀ s : State, unread (readUint16 s).final = (readUint16 s).final) ∧
  (∀ (s t : State) (c : Stop), readByte s = .stop c t ∨ readMarker s = .stop c t →
    t.pbArmed = s.pbArmed ∧ t.lastpos = s.lastpos ∧ (s.pbArmed = false → unread t = t)) ∧
  unread State.reset = State.reset

/-- The raw read (20_memory.md R62), `readBytes` in RAW mode (40_bytestream.md R147), and the big-endian 16-bit read (R148).
That `raw(0)` clears `PB_ARMED` is the model's choice (log 21). -/
def Obligations.RawReads : Prop :=
  (∀ (n : Nat) (s : State), s.pos ≤ s.input.length →
    raw n s = if s.pos + n > s.input.length
      then .stop (.raise .streamExhausted none) { s with pos := s.input.length, pbArmed := false }
      else .ok ((s.input.drop s.pos).take n) { s with pos := s.pos + n, pbArmed := false }) ∧
  (∀ s : State, raw 0 s = .ok [] { s with pbArmed := false }) ∧
  (∀ (n : Nat) (s : State), s.params.segReadMode = .raw → readBytes n s = raw n s) ∧
  (∀ (s t : State) (l : List Byte), readBytes 2 s = .ok l t →
    ∃ hi lo w, l = [hi, lo] ∧ readUint16 s = .ok w t ∧ w.toNat = 256 * hi.toNat + lo.toNat) ∧
  (∀ (s t : State) (c : Stop), readUint16 s = .stop c t ↔ readBytes 2 s = .stop c t)

/-- The two read modes give the same bytes at the same position when none of them is `0xFF` (20_memory.md R67). -/
def Obligations.ReadModesAgree : Prop :=
  ∀ (s : State) (n : Nat) (mode : SegReadMode), n ≤ (remaining s).length →
    (∀ b ∈ (remaining s).take n, b ≠ 0xFF#8) →
    ∃ last, readBytes n { s with params := { s.params with segReadMode := mode } } =
      .ok ((remaining s).take n) { s with
        params := { s.params with segReadMode := mode }, pos := s.pos + n, pbArmed := false, lastpos := last }

/-! ## The bit reader -/

/-- `nextBit` and `receive` deliver the bits ahead, the first the most significant, and change nothing else
(41_bitreader.md R162, R167, R169). -/
def Obligations.ReceiveDeliversBits : Prop :=
  ∀ (s : State) (l rest : List Bool), s.bitcnt ≤ 8 → s.bitsAhead = l ++ rest →
    (∃ u, receive l.length s = .ok (bitsValue l) u ∧ BitsTaken l s u) ∧ bitsValue l < 2 ^ l.length ∧
    ∀ b l', l = b :: l' → ∃ u, nextBit s = .ok b u ∧ BitsTaken [b] s u

/-- When the bits run out, `receive` has taken them all and ends as the refill it then needs ends
(41_bitreader.md R167, R162). -/
def Obligations.ReceiveRunsOut : Prop :=
  ∀ (s : State) (n : Nat), s.bitcnt ≤ 8 → s.bitsAhead.length < n →
    ∃ u, BitsTaken s.bitsAhead s u ∧ u.bitcnt = 0 ∧ ∃ c t, refill u = .stop c t ∧ receive n s = .stop c t

/-- The refill that meets no data byte: the end of input, a DNL segment, whole or cut short, another marker (41_bitreader.md
R161, R164). The marker is consumed; `BITBUF` and `BITCNT` are unchanged. -/
def Obligations.RefillStops : Prop :=
  ∀ s : State,
    (peekToken (remaining s) = .exhausted →
      refill s = .stop (.raise .streamExhausted none) { s with pos := s.input.length }) ∧
    (∀ m, peekToken (remaining s) = .marker m → m ≠ 0xFFDC#16 →
      refill s = .stop (.signal (.markerFound m))
        { s with lastpos := s.pos, pbArmed := true, pos := s.pos + 2, lastmk := m, pendmk := m, pendmkV := true }) ∧
    (peekToken (remaining s) = .marker 0xFFDC#16 → ∀ ld nl,
      let u : State := { s with lastpos := s.pos, pbArmed := true, pos := s.pos + 2, lastmk := 0xFFDC#16 }
      (ld ≠ 4#16 → u.ahead (bytes16 ld) → refill s = .stop (.raise .malformedSegment none) (afterBytes (bytes16 ld) u)) ∧
      (u.cutShort (bytes16 ld) ∨ u.cutShort (bytes16 4#16 ++ bytes16 nl) →
        ∃ last, (s.params.segReadMode = .raw → last = u.lastpos) ∧
          refill s = .stop (.raise .streamExhausted none)
            { u with pos := s.input.length, pbArmed := false, lastpos := last }) ∧
      (u.ahead (bytes16 4#16 ++ bytes16 nl) →
        refill s = .stop (.signal .endOfScan)
          { afterBytes (bytes16 4#16 ++ bytes16 nl) u with dnlSeen := true, dnlNl := nl }))

/-! ## A step -/

/-- A step runs the decoded instruction: the token at `POS` where the sequencer reads tokens, the pending marker before it
in a header region, the Huffman symbol inside entropy-coded data (46_top_level.md R293, 30_encoding.md R90,
45_scan_engine.md R253, R255). How much one step does is the model's choice (log 1). -/
def Obligations.StepRunsDecoded : Prop :=
  (∀ (s : State) (i : Instr) (rest : List Byte),
    s.st = .awaitSOI ∨ s.st = .restartBoundary ∨ (s.st = .decodingMCUs ∧ s.bitcnt = 0) ∨
      (s.inHeader ∧ s.pendmkV = false) →
    decode .token (remaining s) = .ok (i, rest) → step s = exec i s) ∧
  (∀ (s : State) (i : Instr) (c : Byte), s.inHeader → s.pendmkV = true → s.pendmk = markerOf c →
    instrOfCode c = some i → step s = exec i s) ∧
  (∀ (s t : State) (b : Binding) (sym : Byte) (i : Instr), s.st = .decodingMCUs → s.bitcnt ≠ 0 →
    currentBinding s = some b →
    (s.unitPos = .dc → decodeSymbol b.dc s = .ok sym t → decode .dc [sym] = .ok (i, []) → step s = exec i t) ∧
    (s.unitPos = .ac → decodeSymbol b.ac s = .ok sym t → decode .ac [sym] = .ok (i, []) → step s = exec i t))

/-- Where a token is wanted and the input ends, a lone final `0xFF` included, StreamExhausted is latched with `POS = N`
(60_exceptions.md R324, 40_bytestream.md R141). -/
def Obligations.InputEnds : Prop :=
  (∀ l : List Byte, peekToken l = .exhausted ↔ l = [] ∨ l = [0xFF#8]) ∧
  (∀ s : State, (s.inHeader ∧ s.pendmkV = false) ∨ s.st = .awaitSOI ∨ s.st = .restartBoundary →
    peekToken (remaining s) = .exhausted → step s = .next (State.latched 1#4 s.lastmk { s with pos := s.input.length })) ∧
  (∀ s : State, s.st = .decodingMCUs → s.bitcnt = 0 → peekToken (remaining s) = .exhausted →
    step s = .next (State.latched 1#4 s.lastmk { s with pos := s.input.length, code := 0, len := 0 }))

/-- `afterScan` (46_top_level.md R300). -/
def Obligations.AfterScan : Prop :=
  ∀ s : State, s.st = .scanComplete →
    step s = .next { s with
      base := if s.params.tablePersist = .cumulative then s.eff else s.base
      ovl := MiscTables.empty
      scanIdx := s.scanIdx + 1
      st := .awaitingSOS }

/-- `Done` and `Error` are terminal: nothing is read, nothing changes, whatever is executed (46_top_level.md R301). -/
def Obligations.TerminalStates : Prop :=
  ∀ s : State, s.terminal → step s = .next s ∧ ∀ i : Instr, exec i s = .next s

/-! ## The sequencer -/

/-- `AwaitSOI` (46_top_level.md R292): SOI opens the frame-level header region with empty tables, anything else is fatal. -/
def Obligations.AwaitSoi : Prop :=
  ∀ s : State, s.st = .awaitSOI →
    exec .soi s = .next { s with
      lastpos := s.pos, pbArmed := true, pos := s.pos + 2, lastmk := 0xFFD8#16
      base := MiscTables.empty, st := .frameTables } ∧
    (∀ (i : Instr) (c : Byte), i.markerCode = some c → c ≠ 0xD8#8 →
      exec i s = .next (State.latched 3#4 (markerOf c)
        { s with lastpos := s.pos, pbArmed := true, pos := s.pos + 2, lastmk := markerOf c })) ∧
    (∀ b : Byte, exec (.data b) s = .next (State.latched 2#4 s.lastmk s)) ∧
    exec .stuffed s = .next (State.latched 2#4 s.lastmk s) ∧
    (peekToken (remaining s) = .exhausted →
      step s = .next (State.latched 1#4 s.lastmk { s with pos := s.input.length }))

/-- DATA and STUFFED: where a marker is required they are UnexpectedByte and nothing is consumed (60_exceptions.md R326);
in entropy-coded data they fill the bit buffer (41_bitreader.md R161), the symbol decode they are pulled for having set
`CODE` and `LEN` to 0 (log 7); in a terminal state nothing happens. -/
def Obligations.DataTokens : Prop :=
  ∀ (s : State) (b : Byte),
    (s.st = .awaitSOI ∨ s.inHeader ∨ s.st = .restartBoundary →
      exec (.data b) s = .next (State.latched 2#4 s.lastmk s) ∧ exec .stuffed s = .next (State.latched 2#4 s.lastmk s)) ∧
    (s.st = .decodingMCUs →
      exec (.data b) s = .next { s with
        lastpos := s.pos, pbArmed := true, pos := s.pos + 1, bitbuf := b, bitcnt := 8, code := 0, len := 0 } ∧
      exec .stuffed s = .next { s with
        lastpos := s.pos, pbArmed := true, pos := s.pos + 2, bitbuf := 0xFF#8, bitcnt := 8, code := 0, len := 0 }) ∧
    (s.terminal → exec (.data b) s = .next s ∧ exec .stuffed s = .next s)

/-- A marker where entropy-coded data is wanted: at an MCU boundary it ends the scan and waits, inside an MCU it is
UnexpectedMarker, and a DNL segment ends the scan anywhere, unless it is malformed or cut short (45_scan_engine.md R277
(a), (b), (c)). Nothing but the stream position, the pending marker, the line count and the scratch registers of `decode` (log 7) changes. -/
def Obligations.MarkerInEntropyData : Prop :=
  ∀ (i : Instr) (c : Byte) (s : State), i.markerCode = some c → s.st = .decodingMCUs →
    let u : State := { s with
      lastpos := s.pos, pbArmed := true, pos := s.pos + 2, lastmk := markerOf c, code := 0, len := 0 }
    (c ≠ 0xDC#8 → s.atb = true →
      exec i s = .next { u with pendmk := markerOf c, pendmkV := true, st := .scanComplete }) ∧
    (c ≠ 0xDC#8 → s.atb = false →
      exec i s = .next (State.latched 3#4 (markerOf c) { u with pendmk := markerOf c, pendmkV := true })) ∧
    (c = 0xDC#8 → ∀ ld nl,
      (u.ahead (bytes16 4#16 ++ bytes16 nl) →
        exec i s = .next { afterBytes (bytes16 4#16 ++ bytes16 nl) u with
          dnlSeen := true, dnlNl := nl, st := .scanComplete }) ∧
      (ld ≠ 4#16 → u.ahead (bytes16 ld) →
        exec i s = .next (State.latched 4#4 0xFFDC#16 (afterBytes (bytes16 ld) u))) ∧
      (u.cutShort (bytes16 ld) ∨ u.cutShort (bytes16 4#16 ++ bytes16 nl) → endsExhausted u (exec i s)))

/-- The restart boundary (45_scan_engine.md R279): on entry the predictors and the bit buffer are cleared; the expected
RSTn starts the next interval, another RSTn is RestartSequenceError, any other marker ends the scan and waits, a data byte
or the end of input is fatal. -/
def Obligations.RestartBoundary : Prop :=
  (∀ s : State, (∀ j < s.nbind, (enterBoundary s).pred[j]? = some 0) ∧ (enterBoundary s).bitcnt = 0 ∧
    (enterBoundary s).mcuInInt = 0 ∧ (enterBoundary s).st = .restartBoundary) ∧
  ∀ s : State, s.st = .restartBoundary →
    (∀ n : BitVec 3,
      let u : State := { s with
        lastpos := s.pos, pbArmed := true, pos := s.pos + 2, lastmk := markerOf (0b11010#5 ++ n) }
      (n = s.rstexp →
        exec (.rst n) s = .next { u with
          rstexp := BitVec.ofNat 3 ((n.toNat + 1) % 8), st := .decodingMCUs
          atb := true, curJ := 0, curU := 0, zz := zeroBlock, unitPos := .dc }) ∧
      (n ≠ s.rstexp → exec (.rst n) s = .next (State.latched 7#4 (markerOf (0b11010#5 ++ n)) u))) ∧
    (∀ (i : Instr) (c : Byte), i.markerCode = some c → (∀ n, i ≠ .rst n) →
      exec i s = .next { s with
        lastpos := s.pos, pbArmed := true, pos := s.pos + 2, lastmk := markerOf c
        pendmk := markerOf c, pendmkV := true, st := .scanComplete }) ∧
    (∀ b : Byte, exec (.data b) s = .next (State.latched 2#4 s.lastmk s)) ∧
    exec .stuffed s = .next (State.latched 2#4 s.lastmk s) ∧
    (peekToken (remaining s) = .exhausted →
      step s = .next (State.latched 1#4 s.lastmk { s with pos := s.input.length }))

/-- The markers refused in a header region: TEM, SOI, RSTn (46_top_level.md R299), DAC before its length is read
(42_tablestore.md R196), a frame marker that is not accepted or comes second (R295), SOS and EOI before a frame header
(R296, R298). Only the marker is consumed. -/
def Obligations.HeaderRefusals : Prop :=
  ∀ s : State, s.inHeader →
    exec .tem s = .next (State.latched 3#4 0xFF01#16 (nextMarker 0xFF01#16 s)) ∧
    exec .soi s = .next (State.latched 3#4 0xFFD8#16 (nextMarker 0xFFD8#16 s)) ∧
    (∀ n : BitVec 3, exec (.rst n) s =
      .next (State.latched 3#4 (markerOf (0b11010#5 ++ n)) (nextMarker (markerOf (0b11010#5 ++ n)) s))) ∧
    exec .dac s = .next (State.latched 5#4 0xFFCC#16 (nextMarker 0xFFCC#16 s)) ∧
    (s.st = .frameTables →
      exec .eoi s = .next (State.latched 3#4 0xFFD9#16 (nextMarker 0xFFD9#16 s)) ∧
      exec .sos s = .next (State.latched 3#4 0xFFDA#16 (nextMarker 0xFFDA#16 s))) ∧
    (∀ (i : Instr) (c : Byte), i.markerCode = some c → isFrame (markerOf c) = true →
      (s.st = .frameTables → markerOf c ∉ s.params.sofAccept →
        exec i s = .next (State.latched 5#4 (markerOf c) (nextMarker (markerOf c) s))) ∧
      (s.st = .awaitingSOS →
        exec i s = .next (State.latched 3#4 (markerOf c) (nextMarker (markerOf c) s))))

/-- EOI after a frame header ends the decode and reads nothing more (46_top_level.md R298); before one it is refused. -/
def Obligations.EoiEndsDecode : Prop :=
  ∀ s : State,
    (s.st = .awaitingSOS → exec .eoi s = .next { nextMarker 0xFFD9#16 s with st := .done }) ∧
    (s.st = .frameTables → exec .eoi s = .next (State.latched 3#4 0xFFD9#16 (nextMarker 0xFFD9#16 s)))

/-! ## Headers -/

/-- A frame header whose marker is accepted and whose fields pass the checks is stored with its derived sizes, and the
scan-level header region begins (44_headers.md R221, 46_top_level.md R295). -/
def Obligations.FrameHeaderStored : Prop :=
  ∀ (i : Instr) (c : Byte) (s : State) (p : Byte) (y x : BitVec 16) (comps : List FrameComp) (hmax vmax : BitVec 4),
    i.markerCode = some c → isFrame (markerOf c) = true → s.st = .frameTables → markerOf c ∈ s.params.sofAccept →
    1 ≤ comps.length → comps.length ≤ 255 → comps.length ≤ s.params.ncompMax → p.toNat ∈ s.params.precisions →
    (∀ k ∈ comps, k.h ≠ 0#4 ∧ k.v ≠ 0#4) →
    isMax hmax (comps.map FrameComp.h) → isMax vmax (comps.map FrameComp.v) →
    (nextMarker (markerOf c) s).ahead (frameBytes p y x comps) →
    exec i s = .next { afterBytes (frameBytes p y x comps) (nextMarker (markerOf c) s) with
      fh := ⟨markerOf c, p, y, x, BitVec.ofNat 8 comps.length,
        comps.map fun k => { k with
          width := ceilDiv (x.toNat * k.h.toNat) hmax.toNat, height := ceilDiv (y.toNat * k.v.toNat) vmax.toNat },
        hmax, vmax⟩
      fhV := true
      ovl := MiscTables.empty
      st := .awaitingSOS }

/-- The frame-header checks, in their order: the length, the capacity, the precision, then each component's factors; and
the header cut short, at any byte a check does not come before. Nothing is stored (44_headers.md R221, R222,
60_exceptions.md R324; the info of UnsupportedFeature is the marker, R328). -/
def Obligations.FrameHeaderRefused : Prop :=
  ∀ (i : Instr) (c : Byte) (s : State) (lf : BitVec 16) (p : Byte) (y x : BitVec 16) (nf : Byte),
    i.markerCode = some c → isFrame (markerOf c) = true → s.st = .frameTables → markerOf c ∈ s.params.sofAccept →
    let u := nextMarker (markerOf c) s
    let fields := bytes16 lf ++ [p] ++ bytes16 y ++ bytes16 x ++ [nf]
    (u.cutShort fields → endsExhausted u (exec i s)) ∧
    (u.ahead fields →
      (nf.toNat < 1 ∨ lf.toNat ≠ 8 + 3 * nf.toNat →
        exec i s = .next (State.latched 4#4 u.lastmk (afterBytes fields u))) ∧
      (1 ≤ nf.toNat → lf.toNat = 8 + 3 * nf.toNat →
        (nf.toNat > s.params.ncompMax → exec i s = .next (State.latched 10#4 u.lastmk (afterBytes fields u))) ∧
        (nf.toNat ≤ s.params.ncompMax →
          (p.toNat ∉ s.params.precisions → exec i s = .next (State.latched 5#4 (markerOf c) (afterBytes fields u))) ∧
          (p.toNat ∈ s.params.precisions → ∀ (comps : List FrameComp) (k : FrameComp),
            let body := fields ++ comps.flatMap FrameComp.bytes ++ k.bytes
            comps.length < nf.toNat → (∀ k ∈ comps, k.h ≠ 0#4 ∧ k.v ≠ 0#4) →
            (k.h = 0#4 ∨ k.v = 0#4 → u.ahead body → exec i s = .next (State.latched 4#4 u.lastmk (afterBytes body u))) ∧
            (u.cutShort body → endsExhausted u (exec i s))))))

/-- SOS after a frame header: the scan header is stored, the tables in force are the cascade, every selector is bound, and
the scan starts at its first MCU with cleared predictors (46_top_level.md R296, 44_headers.md R226, R231,
45_scan_engine.md R271). -/
def Obligations.ScanStarts : Prop :=
  ∀ (s : State) (comps : List ScanComp) (ss se : Byte) (ah al : BitVec 4) (bs : List Binding),
    s.st = .awaitingSOS → s.fhV = true → s.fh.Good s.params →
    1 ≤ comps.length → comps.length ≤ 255 → comps.length ≤ s.params.ncompMax →
    List.Forall₂ (Binds s.fh (cascade s.base s.ovl) comps.length) comps bs →
    (nextMarker 0xFFDA#16 s).ahead (scanBytes comps ss se ah al) →
    exec .sos s = .next { afterBytes (scanBytes comps ss se ah al) (nextMarker 0xFFDA#16 s) with
      sh := ⟨BitVec.ofNat 8 comps.length, comps, ss, se, ah, al⟩
      eff := cascade s.base s.ovl
      nbind := comps.length
      bind := bs ++ s.bind.drop comps.length
      mcuCount := scanMcuCount s.fh bs
      pred := List.replicate comps.length 0 ++ s.pred.drop comps.length
      bitcnt := 0, rstexp := 0#3, mcuInInt := 0, mcuDone := 0
      ri := (cascade s.base s.ovl).interval
      atb := true, curJ := 0, curU := 0, zz := zeroBlock, unitPos := .dc
      st := .decodingMCUs }

/-- The scan-header checks, in their order (44_headers.md R226, R227), the header cut short (60_exceptions.md R324), and
BindFailure for the first selector that binds to nothing (R231, R232), with `ERR_MARKER = 0xFFDA`. `STATE` is `ScanHeader`
by then; `SH` is written only whole. -/
def Obligations.ScanHeaderRefused : Prop :=
  ∀ s : State, s.st = .awaitingSOS → s.fhV = true →
    let u := nextMarker 0xFFDA#16 s
    (s.Inv → (s.pendmkV = true → s.pendmk = 0xFFDA#16) → u.lastmk = 0xFFDA#16) ∧
    (∀ (ls : BitVec 16) (ns : Byte), u.cutShort (bytes16 ls ++ [ns]) →
      endsExhausted { u with st := .scanHeader } (exec .sos s)) ∧
    (∀ (comps : List ScanComp) (ss se : Byte) (ah al : BitVec 4), 1 ≤ comps.length → comps.length ≤ 255 →
      comps.length ≤ s.params.ncompMax → u.cutShort (scanBytes comps ss se ah al) →
      endsExhausted { u with st := .scanHeader } (exec .sos s)) ∧
    (∀ (ls : BitVec 16) (ns : Byte), u.ahead (bytes16 ls ++ [ns]) →
      (ns.toNat < 1 ∨ ls.toNat ≠ 6 + 2 * ns.toNat →
        exec .sos s = .next (State.latched 4#4 u.lastmk { afterBytes (bytes16 ls ++ [ns]) u with st := .scanHeader })) ∧
      (1 ≤ ns.toNat → ls.toNat = 6 + 2 * ns.toNat → ns.toNat > s.params.ncompMax →
        exec .sos s = .next (State.latched 10#4 u.lastmk { afterBytes (bytes16 ls ++ [ns]) u with st := .scanHeader }))) ∧
    (∀ (pre post : List ScanComp) (bad : ScanComp) (ss se : Byte) (ah al : BitVec 4) (bs : List Binding),
      let comps := pre ++ bad :: post
      comps.length ≤ 255 → comps.length ≤ s.params.ncompMax →
      List.Forall₂ (Binds s.fh (cascade s.base s.ovl) 0) pre bs →
      (¬∃ b, Binds s.fh (cascade s.base s.ovl) 0 bad b) →
      u.ahead (scanBytes comps ss se ah al) →
      exec .sos s = .next (State.latched 8#4 u.lastmk { afterBytes (scanBytes comps ss se ah al) u with
        st := .scanHeader
        sh := ⟨BitVec.ofNat 8 comps.length, comps, ss, se, ah, al⟩
        eff := cascade s.base s.ovl
        bind := bs ++ s.bind.drop pre.length }))

/-- The derived sizes give every component the same number of MCUs, so the comparison of the bind never fails
(44_headers.md R223, R233). -/
def Obligations.McuCountsAgree : Prop :=
  ∀ (params : Params) (f : FrameHeader), f.Good params → ∀ c ∈ f.comp,
    ceilDiv c.width (8 * c.h.toNat) = ceilDiv f.x.toNat (8 * f.hmax.toNat) ∧
    ceilDiv c.height (8 * c.v.toNat) = ceilDiv f.y.toNat (8 * f.vmax.toNat) ∧
    padding (8 * c.h.toNat) c.width / (8 * c.h.toNat) * (padding (8 * c.v.toNat) c.height / (8 * c.v.toNat)) =
      ceilDiv f.x.toNat (8 * f.hmax.toNat) * ceilDiv f.y.toNat (8 * f.vmax.toNat)

/-! ## Tables -/

/-- DQT stores each table of its segment whole in the slot it names, in the snapshot of the region, the later one winning
(42_tablestore.md R180, 20_memory.md R70). -/
def Obligations.DqtStores : Prop :=
  (∀ (s : State) (tables : List QuantTable), s.inHeader → (∀ t ∈ tables, t.good) →
    2 + (tables.flatMap quantBytes).length < 65536 →
    let body := bytes16 (BitVec.ofNat 16 (2 + (tables.flatMap quantBytes).length)) ++ tables.flatMap quantBytes
    let store := fun m : MiscTables => tables.foldl (fun m t => storeQuant t m) m
    (nextMarker 0xFFDB#16 s).ahead body →
    exec .dqt s = .next { afterBytes body (nextMarker 0xFFDB#16 s) with
      base := if s.st = .frameTables then store s.base else s.base
      ovl := if s.st = .frameTables then s.ovl else store s.ovl }) ∧
  (∀ (m : MiscTables) (tables : List QuantTable) (t : BitVec 2),
    let m' := tables.foldl (fun m t => storeQuant t m) m
    slotGet m'.quant t = ((tables.reverse.find? fun q => q.tq == t).or (slotGet m.quant t)) ∧
    m'.dc = m.dc ∧ m'.ac = m.ac ∧ m'.interval = m.interval)

/-- The DQT checks (42_tablestore.md R175, R180, R181): a length below 2; then, before any entry of a table is read, its
precision, its slot, and that it fits the declared length; and the segment cut short: in its length, before the first byte
of a table, inside a table (60_exceptions.md R324). The tables before it stay stored (20_memory.md R70). -/
def Obligations.DqtRefused : Prop :=
  ∀ (s : State) (lq : BitVec 16), s.inHeader →
    let u := nextMarker 0xFFDB#16 s
    (lq.toNat < 2 → u.ahead (bytes16 lq) → exec .dqt s = .next (State.latched 4#4 u.lastmk (afterBytes (bytes16 lq) u))) ∧
    (u.cutShort (bytes16 lq) → endsExhausted u (exec .dqt s)) ∧
    (∀ (tables : List QuantTable) (l : List Byte), (∀ t ∈ tables, t.good) →
      let start := bytes16 lq ++ tables.flatMap quantBytes
      2 + (tables.flatMap quantBytes).length < lq.toNat →
      l.length = 1 ∨ (∃ next : QuantTable, next.good ∧ l = quantBytes next ∧
        2 + (tables.flatMap quantBytes).length + l.length ≤ lq.toNat) →
      u.ahead start → u.cutShort (start ++ l) →
      endsExhausted (regionUpdate (fun m => tables.foldl (fun m t => storeQuant t m) m) u) (exec .dqt s)) ∧
    (∀ (tables : List QuantTable) (b : Byte), (∀ t ∈ tables, t.good) →
      let body := bytes16 lq ++ tables.flatMap quantBytes ++ [b]
      let left := lq.toNat - 2 - (tables.flatMap quantBytes).length
      2 + (tables.flatMap quantBytes).length < lq.toNat →
      (b >>> 4).toNat > 1 ∨ (b &&& 15#8).toNat > 3 ∨ left < 1 + 64 * (1 + (b >>> 4).toNat) →
      u.ahead body →
      exec .dqt s = .next (State.latched 4#4 u.lastmk
        (regionUpdate (fun m => tables.foldl (fun m t => storeQuant t m) m) (afterBytes body u))))

/-- DHT stores each table it builds whole in the slot it names, in the snapshot of the region, the later one winning
(42_tablestore.md R185, 20_memory.md R70). -/
def Obligations.DhtStores : Prop :=
  (∀ (s : State) (tables : List HuffSpec), s.inHeader →
    (∀ t ∈ tables, t.good ∧ t.bits.sum ≤ s.params.huffvalMax) →
    2 + (tables.flatMap HuffSpec.bytes).length < 65536 →
    let body := bytes16 (BitVec.ofNat 16 (2 + (tables.flatMap HuffSpec.bytes).length)) ++ tables.flatMap HuffSpec.bytes
    let store := fun m : MiscTables => tables.foldl (fun m t => storeHuff t.table m) m
    (nextMarker 0xFFC4#16 s).ahead body →
    exec .dht s = .next { afterBytes body (nextMarker 0xFFC4#16 s) with
      base := if s.st = .frameTables then store s.base else s.base
      ovl := if s.st = .frameTables then s.ovl else store s.ovl }) ∧
  (∀ (m : MiscTables) (tables : List HuffSpec) (t : BitVec 2),
    let m' := tables.foldl (fun m t => storeHuff t.table m) m
    slotGet m'.dc t = (((tables.reverse.find? fun h => h.tc == 0#1 && h.th == t).map HuffSpec.table).or (slotGet m.dc t)) ∧
    slotGet m'.ac t = (((tables.reverse.find? fun h => h.tc == 1#1 && h.th == t).map HuffSpec.table).or (slotGet m.ac t)) ∧
    m'.quant = m.quant ∧ m'.interval = m.interval)

/-- The DHT checks, in their order (42_tablestore.md R185, R186, R187): fewer than 17 bytes left; class and slot; the
capacity; that the values fit the declared length; and, between them, the segment cut short: in its length, before the
first byte of a table, in its counts, in its values (60_exceptions.md R324). The tables before it stay stored (20_memory.md
R70). -/
def Obligations.DhtRefused : Prop :=
  ∀ (s : State) (lh : BitVec 16), s.inHeader →
    let u := nextMarker 0xFFC4#16 s
    (lh.toNat < 2 → u.ahead (bytes16 lh) → exec .dht s = .next (State.latched 4#4 u.lastmk (afterBytes (bytes16 lh) u))) ∧
    (u.cutShort (bytes16 lh) → endsExhausted u (exec .dht s)) ∧
    (∀ tables : List HuffSpec, (∀ t ∈ tables, t.good ∧ t.bits.sum ≤ s.params.huffvalMax) →
      let start := bytes16 lh ++ tables.flatMap HuffSpec.bytes
      let left := lh.toNat - 2 - (tables.flatMap HuffSpec.bytes).length
      let stop := fun (code : BitVec 4) (body : List Byte) => exec .dht s = .next (State.latched code u.lastmk
        (regionUpdate (fun m => tables.foldl (fun m t => storeHuff t.table m) m) (afterBytes body u)))
      let runsOut := endsExhausted (regionUpdate (fun m => tables.foldl (fun m t => storeHuff t.table m) m) u) (exec .dht s)
      2 + (tables.flatMap HuffSpec.bytes).length < lh.toNat →
      (left < 17 → u.ahead start → stop 4#4 start) ∧
      (17 ≤ left → u.ahead start → ∀ b : Byte,
        (u.cutShort (start ++ [b]) → runsOut) ∧
        ((b >>> 4).toNat > 1 ∨ (b &&& 15#8).toNat > 3 → u.ahead (start ++ [b]) → stop 4#4 (start ++ [b])) ∧
        ((b >>> 4).toNat ≤ 1 → (b &&& 15#8).toNat ≤ 3 → ∀ counts : List Byte, counts.length = 16 →
          (u.cutShort (start ++ [b] ++ counts) → runsOut) ∧
          (u.ahead (start ++ [b] ++ counts) →
            ((counts.map BitVec.toNat).sum > s.params.huffvalMax → stop 10#4 (start ++ [b] ++ counts)) ∧
            ((counts.map BitVec.toNat).sum ≤ s.params.huffvalMax →
              (left < 17 + (counts.map BitVec.toNat).sum → stop 4#4 (start ++ [b] ++ counts)) ∧
              (17 + (counts.map BitVec.toNat).sum ≤ left → ∀ vals : List Byte,
                vals.length = (counts.map BitVec.toNat).sum → u.cutShort (start ++ [b] ++ counts ++ vals) → runsOut))))))

/-- DRI stores the interval of the region (42_tablestore.md R192); DNL in a header region latches the line count and
nothing else (46_top_level.md R297, 41_bitreader.md R164). A length other than 4 is MalformedSegment; a segment cut short is
StreamExhausted and nothing is stored. -/
def Obligations.DriAndDnl : Prop :=
  ∀ (s : State) (len v : BitVec 16), s.inHeader →
    (let u := nextMarker 0xFFDD#16 s
     (u.ahead (bytes16 4#16 ++ bytes16 v) →
        exec .dri s = .next { afterBytes (bytes16 4#16 ++ bytes16 v) u with
          base := if s.st = .frameTables then { s.base with interval := (v.toNat : Int) } else s.base
          ovl := if s.st = .frameTables then s.ovl else { s.ovl with interval := (v.toNat : Int) } }) ∧
     (len ≠ 4#16 → u.ahead (bytes16 len) →
        exec .dri s = .next (State.latched 4#4 u.lastmk (afterBytes (bytes16 len) u))) ∧
     (u.cutShort (bytes16 len) ∨ u.cutShort (bytes16 4#16 ++ bytes16 v) → endsExhausted u (exec .dri s))) ∧
    (let u := nextMarker 0xFFDC#16 s
     (u.ahead (bytes16 4#16 ++ bytes16 v) →
        exec .dnl s = .next { afterBytes (bytes16 4#16 ++ bytes16 v) u with dnlSeen := true, dnlNl := v }) ∧
     (len ≠ 4#16 → u.ahead (bytes16 len) →
        exec .dnl s = .next (State.latched 4#4 u.lastmk (afterBytes (bytes16 len) u))) ∧
     (u.cutShort (bytes16 len) ∨ u.cutShort (bytes16 4#16 ++ bytes16 v) → endsExhausted u (exec .dnl s)))

/-- Every skipped marker: its segment is read over and recorded on the auxiliary port, and nothing else changes
(42_tablestore.md R195); a length below 2 is MalformedSegment (R175); a segment cut short is StreamExhausted and nothing is
recorded (60_exceptions.md R324). -/
def Obligations.SkippedSegments : Prop :=
  ∀ (i : Instr) (c : Byte) (s : State), isSkipped i = true → i.markerCode = some c → s.inHeader →
    let u := nextMarker (markerOf c) s
    (∀ bytes : List Byte, 2 + bytes.length < 65536 →
      let body := bytes16 (BitVec.ofNat 16 (2 + bytes.length)) ++ bytes
      u.ahead body →
      exec i s = .next { afterBytes body u with
        aux := if s.params.auxRecord = true then s.aux ++ [⟨markerOf c, bytes⟩] else s.aux }) ∧
    (∀ len : BitVec 16, len.toNat < 2 → u.ahead (bytes16 len) →
      exec i s = .next (State.latched 4#4 u.lastmk (afterBytes (bytes16 len) u))) ∧
    (∀ len : BitVec 16, u.cutShort (bytes16 len) → endsExhausted u (exec i s)) ∧
    (∀ (len : BitVec 16) (bytes : List Byte), 2 + bytes.length = len.toNat → u.cutShort (bytes16 len ++ bytes) →
      endsExhausted u (exec i s))

/-- The cascade (42_tablestore.md R200): slot by slot and whole, with `EMPTY` neutral on both sides, and associative. -/
def Obligations.Cascade : Prop :=
  (∀ (b o : MiscTables) (t : BitVec 2),
    slotGet (cascade b o).quant t = (if slotGet o.quant t ≠ none then slotGet o.quant t else slotGet b.quant t) ∧
    slotGet (cascade b o).dc t = (if slotGet o.dc t ≠ none then slotGet o.dc t else slotGet b.dc t) ∧
    slotGet (cascade b o).ac t = (if slotGet o.ac t ≠ none then slotGet o.ac t else slotGet b.ac t) ∧
    (cascade b o).interval = if o.interval ≠ -1 then o.interval else b.interval) ∧
  (∀ m : MiscTables, cascade m MiscTables.empty = m ∧ cascade MiscTables.empty m = m) ∧
  ∀ a b c : MiscTables, cascade (cascade a b) c = cascade a (cascade b c)

/-! ## Huffman tables -/

/-- The canonical builder (42_tablestore.md R188) and what follows of its tables (R189 (a), (b)). Lists by length hold
length `l` at place `l - 1`. -/
def Obligations.BuildHuffman : Prop :=
  ∀ (tc : BitVec 1) (th : BitVec 2) (bits : List Nat) (huffval : List Byte), bits.length = 16 →
    huffval.length = bits.sum →
    let h := buildHuffman tc th bits huffval
    (h.tc = tc ∧ h.th = th ∧ h.bits = bits ∧ h.n = bits.sum ∧ h.huffval = huffval) ∧
    -- HUFFSIZE: each length as often as its count, in rising order
    (h.huffsize.length = bits.sum ∧ ∀ i j, j < bits.getD i 0 → h.huffsize[(bits.take i).sum + j]? = some (i + 1)) ∧
    -- HUFFCODE: from 0, counting up, shifted left once per length step
    (h.huffcode.length = bits.sum ∧ (0 < bits.sum → h.huffcode[0]? = some 0) ∧
      ∀ k a b c, h.huffsize[k]? = some a → h.huffsize[k + 1]? = some b → h.huffcode[k]? = some c →
        h.huffcode[k + 1]? = some ((c + 1) * 2 ^ (b - a))) ∧
    -- the arrays by length
    (∀ i < 16,
      (bits.getD i 0 = 0 → h.maxcode[i]? = some (-1)) ∧
      (bits.getD i 0 ≠ 0 → ∃ mn mx, h.valptr[i]? = some (some (bits.take i).sum) ∧
        h.huffcode[(bits.take i).sum]? = some mn ∧ h.mincode[i]? = some (some mn) ∧
        h.huffcode[(bits.take i).sum + bits.getD i 0 - 1]? = some mx ∧ h.maxcode[i]? = some (mx : Int) ∧
        mx = mn + bits.getD i 0 - 1 ∧
        (∀ j < bits.getD i 0, h.huffcode[(bits.take i).sum + j]? = some (mn + j)) ∧
        ((bits.take i).sum = 0 → mn = 0) ∧
        ∀ i' < i, bits.getD i' 0 ≠ 0 → (∀ j, i' < j → j < i → bits.getD j 0 = 0) →
          ∃ mx', h.maxcode[i']? = some ((mx' : Nat) : Int) ∧ mn = (mx' + 1) * 2 ^ (i - i')))

/-- `decode` is the inverse of the code assignment (43_huffman_decode.md R214): for counts that do not over-subscribe the
code space, the code word of entry `k` decodes to `huffval[k]` and exactly its bits are consumed. -/
def Obligations.DecodeInvertsCodes : Prop :=
  ∀ (tc : BitVec 1) (th : BitVec 2) (bits : List Nat) (huffval : List Byte), bits.length = 16 →
    huffval.length = bits.sum →
    ((List.range 16).map fun i => bits.getD i 0 * 2 ^ (15 - i)).sum ≤ 2 ^ 16 →
    let h := buildHuffman tc th bits huffval
    ∀ (k size code : Nat) (v : Byte), h.huffsize[k]? = some size → h.huffcode[k]? = some code → huffval[k]? = some v →
    ∀ (s : State) (rest : List Bool), s.bitcnt ≤ 8 → s.bitsAhead = codeBits size code ++ rest →
      ∃ u, BitsTaken (codeBits size code) s u ∧ decodeSymbol h s = .ok v { u with code := code, len := size }

/-- HuffmanDecodeFailure comes after the 17th bit, when no code word begins the bits ahead; when they run out before, the
decode ends as the refill it then needs ends (43_huffman_decode.md R212). -/
def Obligations.DecodeFails : Prop :=
  ∀ (tc : BitVec 1) (th : BitVec 2) (bits : List Nat) (huffval : List Byte), bits.length = 16 →
    huffval.length = bits.sum →
    let h := buildHuffman tc th bits huffval
    ∀ (s : State) (l : List Bool), s.bitcnt ≤ 8 →
      (∀ k size code : Nat, h.huffsize[k]? = some size → h.huffcode[k]? = some code → ¬codeBits size code <+: l) →
      (∀ rest, l.length = 17 → s.bitsAhead = l ++ rest →
        ∃ u, BitsTaken l s u ∧
          decodeSymbol h s = .stop (.raise .huffmanDecodeFailure none) { u with code := bitsValue l, len := 17 }) ∧
      (l.length < 17 → s.bitsAhead = l →
        ∃ u c t, BitsTaken l s u ∧ u.bitcnt = 0 ∧
          refill { u with code := bitsValue l, len := l.length } = .stop c t ∧ decodeSymbol h s = .stop c t)

/-- What `decode` answers is an entry of the table, `CODE` and `LEN` its code word; the arrays of an unused length are
never read and no entry is missing (43_huffman_decode.md R213). -/
def Obligations.DecodeAnswersEntries : Prop :=
  ∀ (h : HuffTable) (s : State), h.good →
    (∀ (v : Byte) (t : State), decodeSymbol h s = .ok v t →
      ∃ k : Nat, h.huffval[k]? = some v ∧ h.huffsize[k]? = some t.len ∧ h.huffcode[k]? = some t.code) ∧
    ∀ f t, decodeSymbol h s ≠ .stop (.fault f) t

/-! ## Entropy-coded symbols -/

/-- The value functions: `extend` (30_encoding.md R118), `padding` (R120), the level shift (45_scan_engine.md R261). -/
def Obligations.ValueFunctions : Prop :=
  (∀ v t : Nat, 1 ≤ t → v < 2 ^ t →
    extend v t = (if v < 2 ^ (t - 1) then (v : Int) + (-(2 ^ t : Int)) + 1 else v) ∧ extend v t ≠ 0 ∧
    ((-(2 ^ t - 1 : Int) ≤ extend v t ∧ extend v t ≤ -(2 ^ (t - 1) : Int)) ∨
      ((2 ^ (t - 1) : Int) ≤ extend v t ∧ extend v t ≤ 2 ^ t - 1))) ∧
  (∀ unit n : Nat, 1 ≤ unit → unit ∣ padding unit n ∧ n ≤ padding unit n ∧ (∀ m, unit ∣ m → n ≤ m → padding unit n ≤ m) ∧
    padding unit n = ceilDiv n unit * unit) ∧
  (∀ (p : Nat) (t : Int), 1 ≤ p →
    (levelShift p t : Int) = (if t ≤ -(2 ^ (p - 1) : Int) then 0 else if (2 ^ (p - 1) : Int) ≤ t then 2 * 2 ^ (p - 1) - 1
      else t + 2 ^ (p - 1)) ∧ levelShift p t < 2 ^ p)

/-- DC_SIZE (45_scan_engine.md R253): the size symbol and its extra bits give the difference; predictor and coefficient 0
become the sum, and the AC step is next. A size above the limit is CapacityExceeded and no bit is read. -/
def Obligations.DcStep : Prop :=
  ∀ (s : State) (t : BitVec 8), s.st = .decodingMCUs → s.unitPos = .dc →
    (s.params.dcsizeMax < t.toNat → exec (.dcSize t) s = .next (State.latched 10#4 s.lastmk { s with atb := false })) ∧
    (∀ l rest : List Bool, t.toNat ≤ s.params.dcsizeMax → s.bitcnt ≤ 8 → l.length = t.toNat → s.bitsAhead = l ++ rest →
      let p : Int := s.pred.getD s.curJ 0 + if t = 0#8 then 0 else extend (bitsValue l) t.toNat
      ∃ u pred', BitsTaken l s u ∧ (∀ j, pred'.getD j 0 = if j = s.curJ then p else s.pred.getD j 0) ∧
        exec (.dcSize t) s = .next { u with
          atb := false, pred := pred', zz := s.zz.set 0 p, k := 1, unitPos := .ac })

/-- EOB, whatever its run: the data unit is complete, it is dequantized, put in natural order, transformed and emitted,
and the place moves on (45_scan_engine.md R255 to R263, R270). -/
def Obligations.EobStep : Prop :=
  ∀ (s : State) (r : BitVec 4) (b : Binding), s.st = .decodingMCUs → s.unitPos = .ac → s.fhV = true →
    currentBinding s = some b → s.zz.length = 64 → b.q.q.length = 64 →
    ∃ t, exec (.eob r) s = .next t ∧ UnitDone s b t

/-- ZRL and AC_COEF (45_scan_engine.md R255, R256): the index moves on, a coefficient is stored at it, index 63 completes
the data unit, and an index past 63 is CoefficientOverrun with no extra bit read. -/
def Obligations.AcStep : Prop :=
  ∀ s : State, s.st = .decodingMCUs → s.unitPos = .ac →
    (s.k + 16 ≤ 63 → exec .zrl s = .next { s with k := s.k + 16 }) ∧
    (63 < s.k + 16 → exec .zrl s = .next (State.latched 9#4 s.lastmk { s with k := s.k + 16 })) ∧
    ∀ r z : BitVec 4,
      (63 < s.k + r.toNat →
        exec (.acCoef r z) s = .next (State.latched 9#4 s.lastmk { s with k := s.k + r.toNat })) ∧
      ∀ l rest : List Bool, s.bitcnt ≤ 8 → l.length = z.toNat → s.bitsAhead = l ++ rest →
        let zz := s.zz.set (s.k + r.toNat) (extend (bitsValue l) z.toNat)
        (s.k + r.toNat < 63 →
          ∃ u, BitsTaken l s u ∧ exec (.acCoef r z) s = .next { u with zz := zz, k := s.k + r.toNat + 1 }) ∧
        (s.k + r.toNat = 63 → ∀ b, s.fhV = true → currentBinding s = some b → s.zz.length = 64 → b.q.q.length = 64 →
          ∃ u t, BitsTaken l s u ∧ exec (.acCoef r z) s = .next t ∧ UnitDone { u with zz := zz, k := 63 } b t)

/-- Extra bits that are not all there: the symbol ends with the end of input, with the marker met inside the MCU
(UnexpectedMarker) or with a DNL segment, which completes the scan unless it is malformed or cut short (45_scan_engine.md
R277 (b), (c), 60_exceptions.md R336). The predictor and the coefficients are not updated. -/
def Obligations.SymbolCutShort : Prop :=
  ∀ s : State, s.st = .decodingMCUs → s.bitcnt ≤ 8 →
    ∃ u, BitsTaken s.bitsAhead s u ∧ u.bitcnt = 0 ∧
      ∀ (i : Instr) (k : Nat),
        ((∃ t : BitVec 8, i = .dcSize t ∧ s.unitPos = .dc ∧ k = s.k ∧ t.toNat ≤ s.params.dcsizeMax ∧
            s.bitsAhead.length < t.toNat) ∨
          (∃ r z : BitVec 4, i = .acCoef r z ∧ s.unitPos = .ac ∧ s.atb = false ∧ k = s.k + r.toNat ∧ k ≤ 63 ∧
            s.bitsAhead.length < z.toNat)) →
        let v : State := { u with atb := false, k := k }
        (peekToken (remaining u) = .exhausted →
          exec i s = .next (State.latched 1#4 s.lastmk { v with pos := s.input.length })) ∧
        (∀ m, peekToken (remaining u) = .marker m → m ≠ 0xFFDC#16 →
          exec i s = .next (State.latched 3#4 m
            { v with lastpos := u.pos, pbArmed := true, pos := u.pos + 2, lastmk := m, pendmk := m, pendmkV := true })) ∧
        (peekToken (remaining u) = .marker 0xFFDC#16 → ∀ ld nl,
          let w : State := { v with lastpos := u.pos, pbArmed := true, pos := u.pos + 2, lastmk := 0xFFDC#16 }
          (w.ahead (bytes16 4#16 ++ bytes16 nl) →
            exec i s = .next { afterBytes (bytes16 4#16 ++ bytes16 nl) w with
              dnlSeen := true, dnlNl := nl, st := .scanComplete }) ∧
          (ld ≠ 4#16 → w.ahead (bytes16 ld) →
            exec i s = .next (State.latched 4#4 0xFFDC#16 (afterBytes (bytes16 ld) w))) ∧
          (w.cutShort (bytes16 ld) ∨ w.cutShort (bytes16 4#16 ++ bytes16 nl) → endsExhausted w (exec i s)))

/-- A symbol that does not decode: an error is latched; a DNL segment or a marker at an MCU boundary completes the scan,
a marker inside an MCU is UnexpectedMarker (45_scan_engine.md R270, R277, 43_huffman_decode.md R211). -/
def Obligations.SymbolNotDecoded : Prop :=
  ∀ (s t : State) (b : Binding) (c : Stop), s.st = .decodingMCUs → s.bitcnt ≠ 0 → currentBinding s = some b →
    decodeSymbol (if s.unitPos = .dc then b.dc else b.ac) s = .stop c t →
    (∀ e i, c = .raise e i → step s = .next (State.latched e.code (errorMarker i t.lastmk) t)) ∧
    (c = .signal .endOfScan → step s = .next { t with st := .scanComplete }) ∧
    (∀ m, c = .signal (.markerFound m) →
      step s = .next (if s.atb = true then { t with st := .scanComplete } else State.latched 3#4 m t))

/-- The zig-zag permutation is a permutation of 0..63 and is the walk along the anti-diagonals, on even ones the row falls, on
odd ones it rises (30_encoding.md R122). -/
def Obligations.ZigzagOrder : Prop :=
  zigzag.length = 64 ∧ List.Perm zigzag (List.range 64) ∧
  zigzag = (List.range 15).flatMap fun d =>
    ((if d % 2 = 0 then (List.range (d + 1)).reverse else List.range (d + 1)).filter fun row =>
      decide (row < 8 ∧ d - row < 8)).map fun row => 8 * row + (d - row)

/-- The samples are the level-shifted integers of the real inverse DCT of `NAT` (45_scan_engine.md R259, R260, R261), the
basis being `A[u][x] = C(u)/2 · cos((2x+1)uπ/16)` (30_encoding.md R123): toward zero, to the nearest, or any integer
within 1. -/
def Obligations.InverseDct : Prop :=
  ∀ (nat : List Int) (p ctr x y : Nat), nat.length = 64 → x < 8 → y < 8 →
    let real : ℝ := ∑ v ∈ Finset.range 8, ∑ u ∈ Finset.range 8,
      ((if u = 0 then 1 / √2 else 1) / 2 * Real.cos ((2 * x + 1) * u * Real.pi / 16)) *
      ((if v = 0 then 1 / √2 else 1) / 2 * Real.cos ((2 * y + 1) * v * Real.pi / 16)) * (nat.getD (8 * v + u) 0 : ℝ)
    (samples .trunc p ctr nat)[8 * y + x]? =
      some (levelShift p (if 0 ≤ real then ⌊real⌋ else -⌊-real⌋)) ∧
    (samples .nearest p ctr nat)[8 * y + x]? =
      some (levelShift p (if 0 ≤ real then ⌊real + 1 / 2⌋ else -⌊-real + 1 / 2⌋)) ∧
    ∃ t : ℤ, |(t : ℝ) - real| < 1 ∧ (samples .envelope p ctr nat)[8 * y + x]? = some (levelShift p t)

/-! ## Errors, registers and frames over all steps -/

/-- Taking an error (60_exceptions.md R335): the code, the marker it names or the last one read, the position and the
state are latched, `STATE` becomes `Error`, nothing else changes. The codes are those of R321. -/
def Obligations.TrapEntry : Prop :=
  (∀ (e : ErrKind) (m : Marker) (s : State),
    trapEntry e (some (.marker m)) s = { s with
      errCode := e.code, errMarker := m, errPos := s.pos, errState := s.st.code, st := .error } ∧
    (∀ b : Byte, trapEntry e (some (.byte b)) s = trapEntry e none s) ∧
    trapEntry e none s = { s with
      errCode := e.code, errMarker := s.lastmk, errPos := s.pos, errState := s.st.code, st := .error } ∧
    ∀ i : Option Info, errorWire (trapEntry e i s) = true ∧ doneWire (trapEntry e i s) = false) ∧
  [ErrKind.streamExhausted, .unexpectedByte, .unexpectedMarker, .malformedSegment, .unsupportedFeature,
    .huffmanDecodeFailure, .restartSequenceError, .bindFailure, .coefficientOverrun, .capacityExceeded].map
      (fun e => e.code.toNat) = [1, 2, 3, 4, 5, 6, 7, 8, 9, 10]

/-- The error registers are written by the step that takes an error and by no other; that step has a code of the ten,
emits nothing, and for StreamExhausted leaves `POS = N` (10_state.md R31, 60_exceptions.md R321, R324, R336). -/
def Obligations.ErrorRegisters : Prop :=
  ∀ s t : State, step s = .next t → s.st ≠ .error →
    (t.st ≠ .error → t.errCode = s.errCode ∧ t.errMarker = s.errMarker ∧ t.errPos = s.errPos ∧ t.errState = s.errState) ∧
    (t.st = .error →
      1 ≤ t.errCode.toNat ∧ t.errCode.toNat ≤ 10 ∧ t.errPos = t.pos ∧
      (t.errState = s.st.code ∨ s.st = .awaitingSOS ∧ t.errState = SeqState.scanHeader.code) ∧
      (t.errCode = 1#4 → t.pos = s.input.length) ∧ t.out = s.out ∧ t.aux = s.aux)

/-- A step never moves `POS` back, never past the end of the input, never changes the input or a parameter, and only
appends to the output and auxiliary histories (10_state.md R21, R20, R46, 20_memory.md R66, 46_top_level.md R291). -/
def Obligations.StreamOnlyMovesOn : Prop :=
  ∀ s t : State, step s = .next t → s.pos ≤ s.input.length →
    t.input = s.input ∧ t.params = s.params ∧ s.pos ≤ t.pos ∧ t.pos ≤ s.input.length ∧ s.out <+: t.out ∧ s.aux <+: t.aux

/-- While a scan is decoded no table, binding, header or interval changes, whatever is executed (20_memory.md R78); and
the frame header, once held, never changes (10_state.md R35). -/
def Obligations.ScanConstants : Prop :=
  (∀ (i : Instr) (s t : State), s.st.inScan = true → exec i s = .next t →
    t.base = s.base ∧ t.ovl = s.ovl ∧ t.eff = s.eff ∧ t.nbind = s.nbind ∧ t.bind = s.bind ∧ t.mcuCount = s.mcuCount ∧
    t.sh = s.sh ∧ t.fh = s.fh ∧ t.fhV = s.fhV ∧ t.ri = s.ri ∧ t.scanIdx = s.scanIdx ∧ t.aux = s.aux) ∧
  ∀ s t : State, s.Inv → s.fhV = true → step s = .next t → t.fhV = true ∧ t.fh = s.fh

/-- A DC predictor changes only in the DC step of its own component, at scan start and at a restart boundary
(45_scan_engine.md R254). -/
def Obligations.Predictors : Prop :=
  ∀ s t : State, step s = .next t →
    (∀ j, t.pred.getD j 0 ≠ s.pred.getD j 0 →
      (s.st = .decodingMCUs ∧ s.unitPos = .dc ∧ j = s.curJ ∧ t.unitPos = .ac) ∨
      (s.st ≠ .decodingMCUs ∧ t.st = .decodingMCUs ∧ t.pred.getD j 0 = 0) ∨
      (s.st = .decodingMCUs ∧ t.st = .restartBoundary ∧ t.pred.getD j 0 = 0)) ∧
    (t.st = .decodingMCUs → s.st ≠ .decodingMCUs → s.st ≠ .restartBoundary → ∀ j < t.nbind, t.pred.getD j 0 = 0) ∧
    (t.st = .restartBoundary → s.st ≠ .restartBoundary → ∀ j < t.nbind, t.pred.getD j 0 = 0)

/-- The frame of the markers in a header region that open no header: the stream registers, the status registers, and for
each the state its rule names (42_tablestore.md R180, R185, R192, R195; 46_top_level.md R297 to R299). -/
def Obligations.HeaderMarkerFrame : Prop :=
  ∀ (i : Instr) (c : Byte) (s t : State), i.markerCode = some c → isFrame (markerOf c) = false → i ≠ .sos →
    s.inHeader → exec i s = .next t →
    t = { s with
      pos := t.pos, lastpos := t.lastpos, pbArmed := t.pbArmed, lastmk := t.lastmk, pendmkV := false
      base := t.base, ovl := t.ovl, aux := t.aux, dnlSeen := t.dnlSeen, dnlNl := t.dnlNl, st := t.st
      errCode := t.errCode, errMarker := t.errMarker, errPos := t.errPos, errState := t.errState } ∧
    (i ≠ .dqt → i ≠ .dht → i ≠ .dri → t.base = s.base ∧ t.ovl = s.ovl) ∧
    (s.st = .frameTables → t.ovl = s.ovl) ∧ (s.st = .awaitingSOS → t.base = s.base) ∧
    (i = .dqt → t.base.dc = s.base.dc ∧ t.base.ac = s.base.ac ∧ t.base.interval = s.base.interval ∧
      t.ovl.dc = s.ovl.dc ∧ t.ovl.ac = s.ovl.ac ∧ t.ovl.interval = s.ovl.interval) ∧
    (i = .dht → t.base.quant = s.base.quant ∧ t.base.interval = s.base.interval ∧
      t.ovl.quant = s.ovl.quant ∧ t.ovl.interval = s.ovl.interval) ∧
    (i = .dri → t.base.quant = s.base.quant ∧ t.base.dc = s.base.dc ∧ t.base.ac = s.base.ac ∧
      t.ovl.quant = s.ovl.quant ∧ t.ovl.dc = s.ovl.dc ∧ t.ovl.ac = s.ovl.ac) ∧
    (isSkipped i = false → t.aux = s.aux) ∧ (i ≠ .dnl → t.dnlSeen = s.dnlSeen ∧ t.dnlNl = s.dnlNl) ∧
    (t.st = s.st ∨ t.st = .error ∨ (i = .eoi ∧ t.st = .done))

/-- The frame of SOFn and of SOS in a header region: the frame header and `OVL` for the one, the scan registers for the
other; never a table of `BASE`, an output record or the line count (44_headers.md R220, R231, 45_scan_engine.md R250). -/
def Obligations.HeaderFrame : Prop :=
  ∀ (i : Instr) (c : Byte) (s t : State), i.markerCode = some c → s.inHeader → exec i s = .next t →
    (isFrame (markerOf c) = true →
      t = { s with
        pos := t.pos, lastpos := t.lastpos, pbArmed := t.pbArmed, lastmk := t.lastmk, pendmkV := false
        fh := t.fh, fhV := t.fhV, ovl := t.ovl, st := t.st
        errCode := t.errCode, errMarker := t.errMarker, errPos := t.errPos, errState := t.errState } ∧
      (t.st = .error → t.fh = s.fh ∧ t.fhV = s.fhV ∧ t.ovl = s.ovl)) ∧
    (i = .sos →
      t = { s with
        pos := t.pos, lastpos := t.lastpos, pbArmed := t.pbArmed, lastmk := t.lastmk, pendmkV := false
        sh := t.sh, eff := t.eff, nbind := t.nbind, bind := t.bind, mcuCount := t.mcuCount
        pred := t.pred, bitcnt := t.bitcnt, rstexp := t.rstexp, mcuInInt := t.mcuInInt, mcuDone := t.mcuDone, ri := t.ri
        atb := t.atb, curJ := t.curJ, curU := t.curU, zz := t.zz, unitPos := t.unitPos, st := t.st
        errCode := t.errCode, errMarker := t.errMarker, errPos := t.errPos, errState := t.errState })

/-- The frame of the symbols: what the bit reader and an ending scan may touch, and for each the registers of its step
(45_scan_engine.md R253, R255, R262, R270; 60_exceptions.md R336). -/
def Obligations.SymbolFrame : Prop :=
  ∀ (i : Instr) (s t : State), s.st = .decodingMCUs → exec i s = .next t →
    (∀ z, i = .dcSize z →
      t = { s with
        pos := t.pos, lastpos := t.lastpos, pbArmed := t.pbArmed, bitbuf := t.bitbuf, bitcnt := t.bitcnt
        lastmk := t.lastmk, pendmkV := t.pendmkV, pendmk := t.pendmk, dnlSeen := t.dnlSeen, dnlNl := t.dnlNl, st := t.st
        errCode := t.errCode, errMarker := t.errMarker, errPos := t.errPos, errState := t.errState
        atb := false, pred := t.pred, zz := t.zz, k := t.k, unitPos := t.unitPos } ∧
      (t.st ≠ .decodingMCUs → t.pred = s.pred ∧ t.zz = s.zz ∧ t.k = s.k)) ∧
    (i.level = .ac →
      t = { s with
        pos := t.pos, lastpos := t.lastpos, pbArmed := t.pbArmed, bitbuf := t.bitbuf, bitcnt := t.bitcnt
        lastmk := t.lastmk, pendmkV := t.pendmkV, pendmk := t.pendmk, dnlSeen := t.dnlSeen, dnlNl := t.dnlNl, st := t.st
        errCode := t.errCode, errMarker := t.errMarker, errPos := t.errPos, errState := t.errState
        atb := t.atb, pred := t.pred, zz := t.zz, k := t.k, unitPos := t.unitPos
        dq := t.dq, nat := t.nat, samp := t.samp, out := t.out, freeCtr := t.freeCtr, curJ := t.curJ, curU := t.curU
        mcuInInt := t.mcuInInt, mcuDone := t.mcuDone } ∧
      (t.out = s.out → t.dq = s.dq ∧ t.nat = s.nat ∧ t.samp = s.samp ∧ t.freeCtr = s.freeCtr ∧ t.curJ = s.curJ ∧
        t.curU = s.curU ∧ t.mcuInInt = s.mcuInInt ∧ t.mcuDone = s.mcuDone ∧ t.pred = s.pred ∧ t.unitPos = s.unitPos))

/-! ## Reset and the whole run -/

/-- What reset leaves, for the registers whose reset value the spec gives (10_state.md R45, 70_reset_and_hazards.md R361):
after the host's reset in any state, and in the reset state. That the host's reset puts the new input in the register
`input` and keeps the parameters is the form the model gives a run (logs 2 and 3). -/
def Obligations.ResetValues : Prop :=
  let given := fun t : State =>
    t.pos = 0 ∧ t.pbArmed = false ∧ t.bitcnt = 0 ∧ t.st.code = 0#4 ∧
    t.errCode = 0#4 ∧ t.errMarker = 0#16 ∧ t.errPos = 0 ∧ t.errState = 0#4 ∧ t.pendmkV = false ∧ t.lastmk = 0#16 ∧
    t.dnlSeen = false ∧ t.scanIdx = 0 ∧ t.fhV = false ∧ t.out = [] ∧ t.aux = [] ∧
    ∀ m ∈ [t.base, t.ovl, t.eff], m.interval = -1 ∧
      ∀ i : BitVec 2, slotGet m.quant i = none ∧ slotGet m.dc i = none ∧ slotGet m.ac i = none
  (∀ (bytes : List Byte) (s : State),
    given (hostReset bytes s) ∧ (hostReset bytes s).input = bytes ∧ (hostReset bytes s).params = s.params) ∧
  given State.reset

/-- The invariant holds after reset, whatever stream is loaded. -/
def Obligations.ResetInv : Prop := State.reset.Inv ∧ ∀ bytes : List Byte, (State.load bytes).Inv

/-- Every step keeps the invariant (10_state.md R21, R24, R27 to R40; 41_bitreader.md R169; 20_memory.md R72). -/
def Obligations.StepKeepsInv : Prop := ∀ s t : State, s.Inv → step s = .next t → t.Inv

/-- Under the invariant every step answers a next state: no fault of the model is ever met, and no stream is refused. -/
def Obligations.StepAnswers : Prop := ∀ s : State, s.Inv → ∃ t, step s = .next t

/-- `run()` terminates on every finite input (46_top_level.md R302), in `Done` or `Error`. -/
def Obligations.RunTerminates : Prop :=
  ∀ s : State, s.Inv → ∃ (n : Nat) (t : State), Host.Core.run Sys2Proof.core n s = .next t ∧ t.terminal

/-! ## The sink -/

/-- What the image assembler gives (47_image_assembler.md R310 to R315). Every plane has its padded size (R312), which holds
the component's crop rectangle (R313), and nothing lies outside it. The `u`-th data unit of the `m`-th MCU of an interleaved
scan and the `n`-th block of a scan of one component go where R311 and R314 say; which rule holds is told by the record's
scan and that scan's `Ns`. That blocks are numbered within their scan, that a later scan's blocks replace an earlier one's,
that surplus blocks have no place, that a sample no block covers is none, and that a frame with `X = 0` or `Y = 0` is
refused are the model's choices (log 19). -/
def Obligations.BlockPlacement : Prop :=
  ∀ (params : Params) (f : FrameHeader) (c : FrameComp) (ns : Nat → Nat), f.Good params → c ∈ f.comp →
    -- the plane's size, the crop rectangle inside it
    planeSize f c = (mcusPerRow f * 8 * c.h.toNat, mcuRows f * 8 * c.v.toNat) ∧
    c.width ≤ (planeSize f c).1 ∧ c.height ≤ (planeSize f c).2 ∧
    (∀ (recs : List OutRec) (x y : Nat), (planeSize f c).1 ≤ x ∨ (planeSize f c).2 ≤ y →
      planeSample ns f c recs x y = none) ∧
    -- the place of the blocks `blocks` of scan `k`, which come after the records `before` of other scans
    (∀ (k : Nat) (before blocks : List OutRec) (bx by' : Nat),
      (∀ r ∈ before, r.scan ≠ k) → (∀ r ∈ blocks, r.scan = k) → bx < 8 → by' < 8 →
      (ns k ≠ 1 → ∀ (m i j : Nat) (r : OutRec), m < mcusPerRow f * mcuRows f → i < c.v.toNat → j < c.h.toNat →
        blocks[m * (c.h.toNat * c.v.toNat) + i * c.h.toNat + j]? = some r →
        planeSample ns f c (before ++ blocks) ((m % mcusPerRow f) * 8 * c.h.toNat + 8 * j + bx)
          ((m / mcusPerRow f) * 8 * c.v.toNat + 8 * i + by') = r.samples[8 * by' + bx]?) ∧
      (ns k = 1 → ∀ (n : Nat) (r : OutRec), n < ceilDiv c.width 8 * ceilDiv c.height 8 → blocks[n]? = some r →
        planeSample ns f c (before ++ blocks) ((n % ceilDiv c.width 8) * 8 + bx) ((n / ceilDiv c.width 8) * 8 + by') =
          r.samples[8 * by' + bx]?)) ∧
    -- the image: every component's plane, from its records, and its crop
    (∀ out : List OutRec,
      (f.x = 0#16 ∨ f.y = 0#16 → assemble ns f out = none) ∧
      (f.x ≠ 0#16 → f.y ≠ 0#16 → ∃ image, assemble ns f out = some image ∧
        image.cropWidth = f.x.toNat ∧ image.cropHeight = f.y.toNat ∧ image.planes.map ComponentPlane.id = f.comp.map FrameComp.id ∧
        ∃ p ∈ image.planes, p.id = c.id ∧ p.width = (planeSize f c).1 ∧ p.height = (planeSize f c).2 ∧
          p.cropWidth = c.width ∧ p.cropHeight = c.height ∧ p.rows.length = p.height ∧
          (∀ y < p.height, ∃ row, p.rows[y]? = some row ∧ row.length = p.width ∧ ∀ x < p.width,
            row[x]? = some (planeSample ns f c (out.filter fun r => r.cid == c.id) x y)) ∧
          p.cropped.length = c.height ∧
          ∀ y < c.height, ∃ row, p.cropped[y]? = some row ∧ row.length = c.width ∧ ∀ x < c.width,
            row[x]? = some (planeSample ns f c (out.filter fun r => r.cid == c.id) x y)))
end

