-- ==== Sys2Proof/Laws/State.lean ====
section
/-! SUPPORT. One lemma per named update of the state: what each field holds after it. Each is true by rfl and a simp lemma,
so that no proof unfolds a record update. A field a lemma writes `s.f` for is unchanged. -/

namespace Sys2Proof.Machine

@[simp] theorem consumeByte_fields (n : Nat) (s : State) :
    (consumeByte n s).params = s.params ∧ (consumeByte n s).input = s.input ∧
    (consumeByte n s).pos = s.pos + n ∧ (consumeByte n s).lastpos = s.pos ∧ (consumeByte n s).pbArmed = true ∧
    (consumeByte n s).bitbuf = s.bitbuf ∧ (consumeByte n s).bitcnt = s.bitcnt ∧
    (consumeByte n s).code = s.code ∧ (consumeByte n s).len = s.len ∧ (consumeByte n s).pred = s.pred ∧
    (consumeByte n s).zz = s.zz ∧ (consumeByte n s).dq = s.dq ∧ (consumeByte n s).nat = s.nat ∧
    (consumeByte n s).samp = s.samp ∧ (consumeByte n s).k = s.k ∧ (consumeByte n s).ri = s.ri ∧
    (consumeByte n s).rstexp = s.rstexp ∧ (consumeByte n s).mcuInInt = s.mcuInInt ∧
    (consumeByte n s).mcuDone = s.mcuDone ∧ (consumeByte n s).atb = s.atb ∧ (consumeByte n s).curJ = s.curJ ∧
    (consumeByte n s).curU = s.curU ∧ (consumeByte n s).unitPos = s.unitPos ∧ (consumeByte n s).st = s.st ∧
    (consumeByte n s).errCode = s.errCode ∧ (consumeByte n s).errMarker = s.errMarker ∧
    (consumeByte n s).errPos = s.errPos ∧ (consumeByte n s).errState = s.errState ∧
    (consumeByte n s).pendmkV = s.pendmkV ∧ (consumeByte n s).pendmk = s.pendmk ∧
    (consumeByte n s).dnlSeen = s.dnlSeen ∧ (consumeByte n s).dnlNl = s.dnlNl ∧
    (consumeByte n s).scanIdx = s.scanIdx ∧ (consumeByte n s).lastmk = s.lastmk ∧
    (consumeByte n s).fhV = s.fhV ∧ (consumeByte n s).fh = s.fh ∧ (consumeByte n s).sh = s.sh ∧
    (consumeByte n s).nbind = s.nbind ∧ (consumeByte n s).bind = s.bind ∧
    (consumeByte n s).mcuCount = s.mcuCount ∧ (consumeByte n s).base = s.base ∧ (consumeByte n s).ovl = s.ovl ∧
    (consumeByte n s).eff = s.eff ∧ (consumeByte n s).out = s.out ∧ (consumeByte n s).aux = s.aux ∧
    (consumeByte n s).freeCtr = s.freeCtr := by
  repeat' constructor

@[simp] theorem consumeMarker_fields (m : Marker) (s : State) :
    (consumeMarker m s).params = s.params ∧ (consumeMarker m s).input = s.input ∧
    (consumeMarker m s).pos = s.pos + 2 ∧ (consumeMarker m s).lastpos = s.pos ∧
    (consumeMarker m s).pbArmed = true ∧ (consumeMarker m s).bitbuf = s.bitbuf ∧
    (consumeMarker m s).bitcnt = s.bitcnt ∧ (consumeMarker m s).code = s.code ∧
    (consumeMarker m s).len = s.len ∧ (consumeMarker m s).pred = s.pred ∧ (consumeMarker m s).zz = s.zz ∧
    (consumeMarker m s).dq = s.dq ∧ (consumeMarker m s).nat = s.nat ∧ (consumeMarker m s).samp = s.samp ∧
    (consumeMarker m s).k = s.k ∧ (consumeMarker m s).ri = s.ri ∧ (consumeMarker m s).rstexp = s.rstexp ∧
    (consumeMarker m s).mcuInInt = s.mcuInInt ∧ (consumeMarker m s).mcuDone = s.mcuDone ∧
    (consumeMarker m s).atb = s.atb ∧ (consumeMarker m s).curJ = s.curJ ∧ (consumeMarker m s).curU = s.curU ∧
    (consumeMarker m s).unitPos = s.unitPos ∧ (consumeMarker m s).st = s.st ∧
    (consumeMarker m s).errCode = s.errCode ∧ (consumeMarker m s).errMarker = s.errMarker ∧
    (consumeMarker m s).errPos = s.errPos ∧ (consumeMarker m s).errState = s.errState ∧
    (consumeMarker m s).pendmkV = s.pendmkV ∧ (consumeMarker m s).pendmk = s.pendmk ∧
    (consumeMarker m s).dnlSeen = s.dnlSeen ∧ (consumeMarker m s).dnlNl = s.dnlNl ∧
    (consumeMarker m s).scanIdx = s.scanIdx ∧ (consumeMarker m s).lastmk = m ∧ (consumeMarker m s).fhV = s.fhV ∧
    (consumeMarker m s).fh = s.fh ∧ (consumeMarker m s).sh = s.sh ∧ (consumeMarker m s).nbind = s.nbind ∧
    (consumeMarker m s).bind = s.bind ∧ (consumeMarker m s).mcuCount = s.mcuCount ∧
    (consumeMarker m s).base = s.base ∧ (consumeMarker m s).ovl = s.ovl ∧ (consumeMarker m s).eff = s.eff ∧
    (consumeMarker m s).out = s.out ∧ (consumeMarker m s).aux = s.aux ∧
    (consumeMarker m s).freeCtr = s.freeCtr := by
  repeat' constructor

@[simp] theorem loadByte_fields (b : Byte) (n : Nat) (s : State) :
    (loadByte b n s).params = s.params ∧ (loadByte b n s).input = s.input ∧ (loadByte b n s).pos = s.pos + n ∧
    (loadByte b n s).lastpos = s.pos ∧ (loadByte b n s).pbArmed = true ∧ (loadByte b n s).bitbuf = b ∧
    (loadByte b n s).bitcnt = 8 ∧ (loadByte b n s).code = s.code ∧ (loadByte b n s).len = s.len ∧
    (loadByte b n s).pred = s.pred ∧ (loadByte b n s).zz = s.zz ∧ (loadByte b n s).dq = s.dq ∧
    (loadByte b n s).nat = s.nat ∧ (loadByte b n s).samp = s.samp ∧ (loadByte b n s).k = s.k ∧
    (loadByte b n s).ri = s.ri ∧ (loadByte b n s).rstexp = s.rstexp ∧ (loadByte b n s).mcuInInt = s.mcuInInt ∧
    (loadByte b n s).mcuDone = s.mcuDone ∧ (loadByte b n s).atb = s.atb ∧ (loadByte b n s).curJ = s.curJ ∧
    (loadByte b n s).curU = s.curU ∧ (loadByte b n s).unitPos = s.unitPos ∧ (loadByte b n s).st = s.st ∧
    (loadByte b n s).errCode = s.errCode ∧ (loadByte b n s).errMarker = s.errMarker ∧
    (loadByte b n s).errPos = s.errPos ∧ (loadByte b n s).errState = s.errState ∧
    (loadByte b n s).pendmkV = s.pendmkV ∧ (loadByte b n s).pendmk = s.pendmk ∧
    (loadByte b n s).dnlSeen = s.dnlSeen ∧ (loadByte b n s).dnlNl = s.dnlNl ∧
    (loadByte b n s).scanIdx = s.scanIdx ∧ (loadByte b n s).lastmk = s.lastmk ∧ (loadByte b n s).fhV = s.fhV ∧
    (loadByte b n s).fh = s.fh ∧ (loadByte b n s).sh = s.sh ∧ (loadByte b n s).nbind = s.nbind ∧
    (loadByte b n s).bind = s.bind ∧ (loadByte b n s).mcuCount = s.mcuCount ∧ (loadByte b n s).base = s.base ∧
    (loadByte b n s).ovl = s.ovl ∧ (loadByte b n s).eff = s.eff ∧ (loadByte b n s).out = s.out ∧
    (loadByte b n s).aux = s.aux ∧ (loadByte b n s).freeCtr = s.freeCtr := by
  repeat' constructor

@[simp] theorem discardBits_fields (s : State) :
    (discardBits s).params = s.params ∧ (discardBits s).input = s.input ∧ (discardBits s).pos = s.pos ∧
    (discardBits s).lastpos = s.lastpos ∧ (discardBits s).pbArmed = s.pbArmed ∧
    (discardBits s).bitbuf = s.bitbuf ∧ (discardBits s).bitcnt = 0 ∧ (discardBits s).code = s.code ∧
    (discardBits s).len = s.len ∧ (discardBits s).pred = s.pred ∧ (discardBits s).zz = s.zz ∧
    (discardBits s).dq = s.dq ∧ (discardBits s).nat = s.nat ∧ (discardBits s).samp = s.samp ∧
    (discardBits s).k = s.k ∧ (discardBits s).ri = s.ri ∧ (discardBits s).rstexp = s.rstexp ∧
    (discardBits s).mcuInInt = s.mcuInInt ∧ (discardBits s).mcuDone = s.mcuDone ∧ (discardBits s).atb = s.atb ∧
    (discardBits s).curJ = s.curJ ∧ (discardBits s).curU = s.curU ∧ (discardBits s).unitPos = s.unitPos ∧
    (discardBits s).st = s.st ∧ (discardBits s).errCode = s.errCode ∧ (discardBits s).errMarker = s.errMarker ∧
    (discardBits s).errPos = s.errPos ∧ (discardBits s).errState = s.errState ∧
    (discardBits s).pendmkV = s.pendmkV ∧ (discardBits s).pendmk = s.pendmk ∧
    (discardBits s).dnlSeen = s.dnlSeen ∧ (discardBits s).dnlNl = s.dnlNl ∧
    (discardBits s).scanIdx = s.scanIdx ∧ (discardBits s).lastmk = s.lastmk ∧ (discardBits s).fhV = s.fhV ∧
    (discardBits s).fh = s.fh ∧ (discardBits s).sh = s.sh ∧ (discardBits s).nbind = s.nbind ∧
    (discardBits s).bind = s.bind ∧ (discardBits s).mcuCount = s.mcuCount ∧ (discardBits s).base = s.base ∧
    (discardBits s).ovl = s.ovl ∧ (discardBits s).eff = s.eff ∧ (discardBits s).out = s.out ∧
    (discardBits s).aux = s.aux ∧ (discardBits s).freeCtr = s.freeCtr := by
  repeat' constructor

@[simp] theorem beginDecode_fields (s : State) :
    (beginDecode s).params = s.params ∧ (beginDecode s).input = s.input ∧ (beginDecode s).pos = s.pos ∧
    (beginDecode s).lastpos = s.lastpos ∧ (beginDecode s).pbArmed = s.pbArmed ∧
    (beginDecode s).bitbuf = s.bitbuf ∧ (beginDecode s).bitcnt = s.bitcnt ∧ (beginDecode s).code = 0 ∧
    (beginDecode s).len = 0 ∧ (beginDecode s).pred = s.pred ∧ (beginDecode s).zz = s.zz ∧
    (beginDecode s).dq = s.dq ∧ (beginDecode s).nat = s.nat ∧ (beginDecode s).samp = s.samp ∧
    (beginDecode s).k = s.k ∧ (beginDecode s).ri = s.ri ∧ (beginDecode s).rstexp = s.rstexp ∧
    (beginDecode s).mcuInInt = s.mcuInInt ∧ (beginDecode s).mcuDone = s.mcuDone ∧ (beginDecode s).atb = s.atb ∧
    (beginDecode s).curJ = s.curJ ∧ (beginDecode s).curU = s.curU ∧ (beginDecode s).unitPos = s.unitPos ∧
    (beginDecode s).st = s.st ∧ (beginDecode s).errCode = s.errCode ∧ (beginDecode s).errMarker = s.errMarker ∧
    (beginDecode s).errPos = s.errPos ∧ (beginDecode s).errState = s.errState ∧
    (beginDecode s).pendmkV = s.pendmkV ∧ (beginDecode s).pendmk = s.pendmk ∧
    (beginDecode s).dnlSeen = s.dnlSeen ∧ (beginDecode s).dnlNl = s.dnlNl ∧
    (beginDecode s).scanIdx = s.scanIdx ∧ (beginDecode s).lastmk = s.lastmk ∧ (beginDecode s).fhV = s.fhV ∧
    (beginDecode s).fh = s.fh ∧ (beginDecode s).sh = s.sh ∧ (beginDecode s).nbind = s.nbind ∧
    (beginDecode s).bind = s.bind ∧ (beginDecode s).mcuCount = s.mcuCount ∧ (beginDecode s).base = s.base ∧
    (beginDecode s).ovl = s.ovl ∧ (beginDecode s).eff = s.eff ∧ (beginDecode s).out = s.out ∧
    (beginDecode s).aux = s.aux ∧ (beginDecode s).freeCtr = s.freeCtr := by
  repeat' constructor

@[simp] theorem beginUnit_fields (s : State) :
    (beginUnit s).params = s.params ∧ (beginUnit s).input = s.input ∧ (beginUnit s).pos = s.pos ∧
    (beginUnit s).lastpos = s.lastpos ∧ (beginUnit s).pbArmed = s.pbArmed ∧ (beginUnit s).bitbuf = s.bitbuf ∧
    (beginUnit s).bitcnt = s.bitcnt ∧ (beginUnit s).code = s.code ∧ (beginUnit s).len = s.len ∧
    (beginUnit s).pred = s.pred ∧ (beginUnit s).zz = zeroBlock ∧ (beginUnit s).dq = s.dq ∧
    (beginUnit s).nat = s.nat ∧ (beginUnit s).samp = s.samp ∧ (beginUnit s).k = s.k ∧ (beginUnit s).ri = s.ri ∧
    (beginUnit s).rstexp = s.rstexp ∧ (beginUnit s).mcuInInt = s.mcuInInt ∧ (beginUnit s).mcuDone = s.mcuDone ∧
    (beginUnit s).atb = s.atb ∧ (beginUnit s).curJ = s.curJ ∧ (beginUnit s).curU = s.curU ∧
    (beginUnit s).unitPos = .dc ∧ (beginUnit s).st = s.st ∧ (beginUnit s).errCode = s.errCode ∧
    (beginUnit s).errMarker = s.errMarker ∧ (beginUnit s).errPos = s.errPos ∧
    (beginUnit s).errState = s.errState ∧ (beginUnit s).pendmkV = s.pendmkV ∧ (beginUnit s).pendmk = s.pendmk ∧
    (beginUnit s).dnlSeen = s.dnlSeen ∧ (beginUnit s).dnlNl = s.dnlNl ∧ (beginUnit s).scanIdx = s.scanIdx ∧
    (beginUnit s).lastmk = s.lastmk ∧ (beginUnit s).fhV = s.fhV ∧ (beginUnit s).fh = s.fh ∧
    (beginUnit s).sh = s.sh ∧ (beginUnit s).nbind = s.nbind ∧ (beginUnit s).bind = s.bind ∧
    (beginUnit s).mcuCount = s.mcuCount ∧ (beginUnit s).base = s.base ∧ (beginUnit s).ovl = s.ovl ∧
    (beginUnit s).eff = s.eff ∧ (beginUnit s).out = s.out ∧ (beginUnit s).aux = s.aux ∧
    (beginUnit s).freeCtr = s.freeCtr := by
  repeat' constructor

@[simp] theorem beginMCU_fields (s : State) :
    (beginMCU s).params = s.params ∧ (beginMCU s).input = s.input ∧ (beginMCU s).pos = s.pos ∧
    (beginMCU s).lastpos = s.lastpos ∧ (beginMCU s).pbArmed = s.pbArmed ∧ (beginMCU s).bitbuf = s.bitbuf ∧
    (beginMCU s).bitcnt = s.bitcnt ∧ (beginMCU s).code = s.code ∧ (beginMCU s).len = s.len ∧
    (beginMCU s).pred = s.pred ∧ (beginMCU s).zz = zeroBlock ∧ (beginMCU s).dq = s.dq ∧
    (beginMCU s).nat = s.nat ∧ (beginMCU s).samp = s.samp ∧ (beginMCU s).k = s.k ∧ (beginMCU s).ri = s.ri ∧
    (beginMCU s).rstexp = s.rstexp ∧ (beginMCU s).mcuInInt = s.mcuInInt ∧ (beginMCU s).mcuDone = s.mcuDone ∧
    (beginMCU s).atb = true ∧ (beginMCU s).curJ = 0 ∧ (beginMCU s).curU = 0 ∧ (beginMCU s).unitPos = .dc ∧
    (beginMCU s).st = s.st ∧ (beginMCU s).errCode = s.errCode ∧ (beginMCU s).errMarker = s.errMarker ∧
    (beginMCU s).errPos = s.errPos ∧ (beginMCU s).errState = s.errState ∧ (beginMCU s).pendmkV = s.pendmkV ∧
    (beginMCU s).pendmk = s.pendmk ∧ (beginMCU s).dnlSeen = s.dnlSeen ∧ (beginMCU s).dnlNl = s.dnlNl ∧
    (beginMCU s).scanIdx = s.scanIdx ∧ (beginMCU s).lastmk = s.lastmk ∧ (beginMCU s).fhV = s.fhV ∧
    (beginMCU s).fh = s.fh ∧ (beginMCU s).sh = s.sh ∧ (beginMCU s).nbind = s.nbind ∧
    (beginMCU s).bind = s.bind ∧ (beginMCU s).mcuCount = s.mcuCount ∧ (beginMCU s).base = s.base ∧
    (beginMCU s).ovl = s.ovl ∧ (beginMCU s).eff = s.eff ∧ (beginMCU s).out = s.out ∧ (beginMCU s).aux = s.aux ∧
    (beginMCU s).freeCtr = s.freeCtr := by
  repeat' constructor

@[simp] theorem clearPred_fields (s : State) :
    (clearPred s).params = s.params ∧ (clearPred s).input = s.input ∧ (clearPred s).pos = s.pos ∧
    (clearPred s).lastpos = s.lastpos ∧ (clearPred s).pbArmed = s.pbArmed ∧ (clearPred s).bitbuf = s.bitbuf ∧
    (clearPred s).bitcnt = s.bitcnt ∧ (clearPred s).code = s.code ∧ (clearPred s).len = s.len ∧
    (clearPred s).pred = List.replicate s.nbind 0 ++ s.pred.drop s.nbind ∧ (clearPred s).zz = s.zz ∧
    (clearPred s).dq = s.dq ∧ (clearPred s).nat = s.nat ∧ (clearPred s).samp = s.samp ∧ (clearPred s).k = s.k ∧
    (clearPred s).ri = s.ri ∧ (clearPred s).rstexp = s.rstexp ∧ (clearPred s).mcuInInt = s.mcuInInt ∧
    (clearPred s).mcuDone = s.mcuDone ∧ (clearPred s).atb = s.atb ∧ (clearPred s).curJ = s.curJ ∧
    (clearPred s).curU = s.curU ∧ (clearPred s).unitPos = s.unitPos ∧ (clearPred s).st = s.st ∧
    (clearPred s).errCode = s.errCode ∧ (clearPred s).errMarker = s.errMarker ∧
    (clearPred s).errPos = s.errPos ∧ (clearPred s).errState = s.errState ∧ (clearPred s).pendmkV = s.pendmkV ∧
    (clearPred s).pendmk = s.pendmk ∧ (clearPred s).dnlSeen = s.dnlSeen ∧ (clearPred s).dnlNl = s.dnlNl ∧
    (clearPred s).scanIdx = s.scanIdx ∧ (clearPred s).lastmk = s.lastmk ∧ (clearPred s).fhV = s.fhV ∧
    (clearPred s).fh = s.fh ∧ (clearPred s).sh = s.sh ∧ (clearPred s).nbind = s.nbind ∧
    (clearPred s).bind = s.bind ∧ (clearPred s).mcuCount = s.mcuCount ∧ (clearPred s).base = s.base ∧
    (clearPred s).ovl = s.ovl ∧ (clearPred s).eff = s.eff ∧ (clearPred s).out = s.out ∧
    (clearPred s).aux = s.aux ∧ (clearPred s).freeCtr = s.freeCtr := by
  repeat' constructor

@[simp] theorem scanStart_fields (s : State) :
    (scanStart s).params = s.params ∧ (scanStart s).input = s.input ∧ (scanStart s).pos = s.pos ∧
    (scanStart s).lastpos = s.lastpos ∧ (scanStart s).pbArmed = s.pbArmed ∧ (scanStart s).bitbuf = s.bitbuf ∧
    (scanStart s).bitcnt = 0 ∧ (scanStart s).code = s.code ∧ (scanStart s).len = s.len ∧
    (scanStart s).pred = List.replicate s.nbind 0 ++ s.pred.drop s.nbind ∧ (scanStart s).zz = s.zz ∧
    (scanStart s).dq = s.dq ∧ (scanStart s).nat = s.nat ∧ (scanStart s).samp = s.samp ∧ (scanStart s).k = s.k ∧
    (scanStart s).ri = s.eff.interval ∧ (scanStart s).rstexp = 0#3 ∧ (scanStart s).mcuInInt = 0 ∧
    (scanStart s).mcuDone = 0 ∧ (scanStart s).atb = s.atb ∧ (scanStart s).curJ = s.curJ ∧
    (scanStart s).curU = s.curU ∧ (scanStart s).unitPos = s.unitPos ∧ (scanStart s).st = s.st ∧
    (scanStart s).errCode = s.errCode ∧ (scanStart s).errMarker = s.errMarker ∧
    (scanStart s).errPos = s.errPos ∧ (scanStart s).errState = s.errState ∧ (scanStart s).pendmkV = s.pendmkV ∧
    (scanStart s).pendmk = s.pendmk ∧ (scanStart s).dnlSeen = s.dnlSeen ∧ (scanStart s).dnlNl = s.dnlNl ∧
    (scanStart s).scanIdx = s.scanIdx ∧ (scanStart s).lastmk = s.lastmk ∧ (scanStart s).fhV = s.fhV ∧
    (scanStart s).fh = s.fh ∧ (scanStart s).sh = s.sh ∧ (scanStart s).nbind = s.nbind ∧
    (scanStart s).bind = s.bind ∧ (scanStart s).mcuCount = s.mcuCount ∧ (scanStart s).base = s.base ∧
    (scanStart s).ovl = s.ovl ∧ (scanStart s).eff = s.eff ∧ (scanStart s).out = s.out ∧
    (scanStart s).aux = s.aux ∧ (scanStart s).freeCtr = s.freeCtr := by
  repeat' constructor

@[simp] theorem enterBoundary_fields (s : State) :
    (enterBoundary s).params = s.params ∧ (enterBoundary s).input = s.input ∧ (enterBoundary s).pos = s.pos ∧
    (enterBoundary s).lastpos = s.lastpos ∧ (enterBoundary s).pbArmed = s.pbArmed ∧
    (enterBoundary s).bitbuf = s.bitbuf ∧ (enterBoundary s).bitcnt = 0 ∧ (enterBoundary s).code = s.code ∧
    (enterBoundary s).len = s.len ∧ (enterBoundary s).pred = List.replicate s.nbind 0 ++ s.pred.drop s.nbind ∧
    (enterBoundary s).zz = s.zz ∧ (enterBoundary s).dq = s.dq ∧ (enterBoundary s).nat = s.nat ∧
    (enterBoundary s).samp = s.samp ∧ (enterBoundary s).k = s.k ∧ (enterBoundary s).ri = s.ri ∧
    (enterBoundary s).rstexp = s.rstexp ∧ (enterBoundary s).mcuInInt = 0 ∧
    (enterBoundary s).mcuDone = s.mcuDone ∧ (enterBoundary s).atb = s.atb ∧ (enterBoundary s).curJ = s.curJ ∧
    (enterBoundary s).curU = s.curU ∧ (enterBoundary s).unitPos = s.unitPos ∧
    (enterBoundary s).st = .restartBoundary ∧ (enterBoundary s).errCode = s.errCode ∧
    (enterBoundary s).errMarker = s.errMarker ∧ (enterBoundary s).errPos = s.errPos ∧
    (enterBoundary s).errState = s.errState ∧ (enterBoundary s).pendmkV = s.pendmkV ∧
    (enterBoundary s).pendmk = s.pendmk ∧ (enterBoundary s).dnlSeen = s.dnlSeen ∧
    (enterBoundary s).dnlNl = s.dnlNl ∧ (enterBoundary s).scanIdx = s.scanIdx ∧
    (enterBoundary s).lastmk = s.lastmk ∧ (enterBoundary s).fhV = s.fhV ∧ (enterBoundary s).fh = s.fh ∧
    (enterBoundary s).sh = s.sh ∧ (enterBoundary s).nbind = s.nbind ∧ (enterBoundary s).bind = s.bind ∧
    (enterBoundary s).mcuCount = s.mcuCount ∧ (enterBoundary s).base = s.base ∧ (enterBoundary s).ovl = s.ovl ∧
    (enterBoundary s).eff = s.eff ∧ (enterBoundary s).out = s.out ∧ (enterBoundary s).aux = s.aux ∧
    (enterBoundary s).freeCtr = s.freeCtr := by
  repeat' constructor

@[simp] theorem emitOut_fields (r : OutRec) (s : State) :
    (emitOut r s).params = s.params ∧ (emitOut r s).input = s.input ∧ (emitOut r s).pos = s.pos ∧
    (emitOut r s).lastpos = s.lastpos ∧ (emitOut r s).pbArmed = s.pbArmed ∧ (emitOut r s).bitbuf = s.bitbuf ∧
    (emitOut r s).bitcnt = s.bitcnt ∧ (emitOut r s).code = s.code ∧ (emitOut r s).len = s.len ∧
    (emitOut r s).pred = s.pred ∧ (emitOut r s).zz = s.zz ∧ (emitOut r s).dq = s.dq ∧
    (emitOut r s).nat = s.nat ∧ (emitOut r s).samp = s.samp ∧ (emitOut r s).k = s.k ∧ (emitOut r s).ri = s.ri ∧
    (emitOut r s).rstexp = s.rstexp ∧ (emitOut r s).mcuInInt = s.mcuInInt ∧ (emitOut r s).mcuDone = s.mcuDone ∧
    (emitOut r s).atb = s.atb ∧ (emitOut r s).curJ = s.curJ ∧ (emitOut r s).curU = s.curU ∧
    (emitOut r s).unitPos = s.unitPos ∧ (emitOut r s).st = s.st ∧ (emitOut r s).errCode = s.errCode ∧
    (emitOut r s).errMarker = s.errMarker ∧ (emitOut r s).errPos = s.errPos ∧
    (emitOut r s).errState = s.errState ∧ (emitOut r s).pendmkV = s.pendmkV ∧ (emitOut r s).pendmk = s.pendmk ∧
    (emitOut r s).dnlSeen = s.dnlSeen ∧ (emitOut r s).dnlNl = s.dnlNl ∧ (emitOut r s).scanIdx = s.scanIdx ∧
    (emitOut r s).lastmk = s.lastmk ∧ (emitOut r s).fhV = s.fhV ∧ (emitOut r s).fh = s.fh ∧
    (emitOut r s).sh = s.sh ∧ (emitOut r s).nbind = s.nbind ∧ (emitOut r s).bind = s.bind ∧
    (emitOut r s).mcuCount = s.mcuCount ∧ (emitOut r s).base = s.base ∧ (emitOut r s).ovl = s.ovl ∧
    (emitOut r s).eff = s.eff ∧ (emitOut r s).out = s.out ++ [r] ∧ (emitOut r s).aux = s.aux ∧
    (emitOut r s).freeCtr = s.freeCtr := by
  repeat' constructor

@[simp] theorem afterScan_fields (s : State) :
    (afterScan s).params = s.params ∧ (afterScan s).input = s.input ∧ (afterScan s).pos = s.pos ∧
    (afterScan s).lastpos = s.lastpos ∧ (afterScan s).pbArmed = s.pbArmed ∧ (afterScan s).bitbuf = s.bitbuf ∧
    (afterScan s).bitcnt = s.bitcnt ∧ (afterScan s).code = s.code ∧ (afterScan s).len = s.len ∧
    (afterScan s).pred = s.pred ∧ (afterScan s).zz = s.zz ∧ (afterScan s).dq = s.dq ∧
    (afterScan s).nat = s.nat ∧ (afterScan s).samp = s.samp ∧ (afterScan s).k = s.k ∧ (afterScan s).ri = s.ri ∧
    (afterScan s).rstexp = s.rstexp ∧ (afterScan s).mcuInInt = s.mcuInInt ∧ (afterScan s).mcuDone = s.mcuDone ∧
    (afterScan s).atb = s.atb ∧ (afterScan s).curJ = s.curJ ∧ (afterScan s).curU = s.curU ∧
    (afterScan s).unitPos = s.unitPos ∧ (afterScan s).st = .awaitingSOS ∧ (afterScan s).errCode = s.errCode ∧
    (afterScan s).errMarker = s.errMarker ∧ (afterScan s).errPos = s.errPos ∧
    (afterScan s).errState = s.errState ∧ (afterScan s).pendmkV = s.pendmkV ∧ (afterScan s).pendmk = s.pendmk ∧
    (afterScan s).dnlSeen = s.dnlSeen ∧ (afterScan s).dnlNl = s.dnlNl ∧ (afterScan s).scanIdx = s.scanIdx + 1 ∧
    (afterScan s).lastmk = s.lastmk ∧ (afterScan s).fhV = s.fhV ∧ (afterScan s).fh = s.fh ∧
    (afterScan s).sh = s.sh ∧ (afterScan s).nbind = s.nbind ∧ (afterScan s).bind = s.bind ∧
    (afterScan s).mcuCount = s.mcuCount ∧
    (afterScan s).base = (if s.params.tablePersist = .cumulative then s.eff else s.base) ∧
    (afterScan s).ovl = MiscTables.empty ∧ (afterScan s).eff = s.eff ∧ (afterScan s).out = s.out ∧
    (afterScan s).aux = s.aux ∧ (afterScan s).freeCtr = s.freeCtr := by
  repeat' constructor

@[simp] theorem errorMarker_none (d : Marker) : errorMarker none d = d := rfl
@[simp] theorem errorMarker_marker (m d : Marker) : errorMarker (some (.marker m)) d = m := rfl
@[simp] theorem errorMarker_byte (b : Byte) (d : Marker) : errorMarker (some (.byte b)) d = d := rfl

@[simp] theorem trapEntry_fields (e : ErrKind) (i : Option Info) (s : State) :
    (trapEntry e i s).params = s.params ∧ (trapEntry e i s).input = s.input ∧ (trapEntry e i s).pos = s.pos ∧
    (trapEntry e i s).lastpos = s.lastpos ∧ (trapEntry e i s).pbArmed = s.pbArmed ∧
    (trapEntry e i s).bitbuf = s.bitbuf ∧ (trapEntry e i s).bitcnt = s.bitcnt ∧
    (trapEntry e i s).code = s.code ∧ (trapEntry e i s).len = s.len ∧ (trapEntry e i s).pred = s.pred ∧
    (trapEntry e i s).zz = s.zz ∧ (trapEntry e i s).dq = s.dq ∧ (trapEntry e i s).nat = s.nat ∧
    (trapEntry e i s).samp = s.samp ∧ (trapEntry e i s).k = s.k ∧ (trapEntry e i s).ri = s.ri ∧
    (trapEntry e i s).rstexp = s.rstexp ∧ (trapEntry e i s).mcuInInt = s.mcuInInt ∧
    (trapEntry e i s).mcuDone = s.mcuDone ∧ (trapEntry e i s).atb = s.atb ∧ (trapEntry e i s).curJ = s.curJ ∧
    (trapEntry e i s).curU = s.curU ∧ (trapEntry e i s).unitPos = s.unitPos ∧ (trapEntry e i s).st = .error ∧
    (trapEntry e i s).errCode = e.code ∧ (trapEntry e i s).errMarker = errorMarker i s.lastmk ∧
    (trapEntry e i s).errPos = s.pos ∧ (trapEntry e i s).errState = s.st.code ∧
    (trapEntry e i s).pendmkV = s.pendmkV ∧ (trapEntry e i s).pendmk = s.pendmk ∧
    (trapEntry e i s).dnlSeen = s.dnlSeen ∧ (trapEntry e i s).dnlNl = s.dnlNl ∧
    (trapEntry e i s).scanIdx = s.scanIdx ∧ (trapEntry e i s).lastmk = s.lastmk ∧
    (trapEntry e i s).fhV = s.fhV ∧ (trapEntry e i s).fh = s.fh ∧ (trapEntry e i s).sh = s.sh ∧
    (trapEntry e i s).nbind = s.nbind ∧ (trapEntry e i s).bind = s.bind ∧
    (trapEntry e i s).mcuCount = s.mcuCount ∧ (trapEntry e i s).base = s.base ∧ (trapEntry e i s).ovl = s.ovl ∧
    (trapEntry e i s).eff = s.eff ∧ (trapEntry e i s).out = s.out ∧ (trapEntry e i s).aux = s.aux ∧
    (trapEntry e i s).freeCtr = s.freeCtr := by
  repeat' constructor

end Sys2Proof.Machine
end

