-- ==== Sys2Proof/Laws/Res.lean ====
section
/-! SUPPORT. The result of an operation: what `bind` answers, and how a relation between the state before and the state
after passes through it. -/

namespace Sys2Proof.Machine

variable {α β : Type}

@[simp] theorem Res.final_ok (a : α) (s : State) : (Res.ok a s).final = s := rfl
@[simp] theorem Res.final_stop (c : Stop) (s : State) : (Res.stop c s : Res α).final = s := rfl
@[simp] theorem Res.bind_ok (a : α) (s : State) (f : α → State → Res β) : (Res.ok a s).bind f = f a s := rfl
@[simp] theorem Res.bind_stop (c : Stop) (s : State) (f : α → State → Res β) :
    (Res.stop c s : Res α).bind f = .stop c s := rfl

theorem Res.bind_eq_ok {r : Res α} {f : α → State → Res β} {b : β} {t : State} :
    r.bind f = .ok b t ↔ ∃ a s, r = .ok a s ∧ f a s = .ok b t := by
  cases r <;> simp

theorem Res.bind_eq_stop {r : Res α} {f : α → State → Res β} {c : Stop} {t : State} :
    r.bind f = .stop c t ↔ r = .stop c t ∨ ∃ a s, r = .ok a s ∧ f a s = .stop c t := by
  cases r <;> simp

theorem Res.bind_assoc {γ : Type} (r : Res α) (f : α → State → Res β) (g : β → State → Res γ) :
    (r.bind f).bind g = r.bind fun a s => (f a s).bind g := by
  cases r <;> rfl

/-- A transitive relation from the state before to the state after passes through a bind. -/
theorem Res.final_bind (R : State → State → Prop) (trans : ∀ {x y z}, R x y → R y z → R x z)
    {s : State} {r : Res α} {f : α → State → Res β} (hr : R s r.final)
    (hf : ∀ a t, r = .ok a t → R t (f a t).final) : R s (r.bind f).final := by
  cases r with
  | ok a t => exact trans hr (hf a t rfl)
  | stop c t => exact hr

@[simp] theorem Res.final_disarm (r : Res α) : r.disarm.final = { r.final with pbArmed := false } := by
  cases r <;> rfl

@[simp] theorem final_raise (e : ErrKind) (i : Option Info) (s : State) : (raise e i s : Res α).final = s := rfl
@[simp] theorem final_exhausted (s : State) : (exhausted s : Res α).final = { s with pos := s.input.length } := rfl

/-- How a result stops, if it does. -/
def Res.stopOf : Res α → Option Stop
  | .ok _ _ => none
  | .stop c _ => some c

@[simp] theorem Res.stopOf_ok (a : α) (s : State) : (Res.ok a s).stopOf = none := rfl
@[simp] theorem Res.stopOf_stop (c : Stop) (s : State) : (Res.stop c s : Res α).stopOf = some c := rfl
@[simp] theorem stopOf_raise (e : ErrKind) (i : Option Info) (s : State) :
    (raise e i s : Res α).stopOf = some (.raise e i) := rfl

/-- A property of stops (only raises, no fault) passes through a bind. -/
theorem Res.stopOf_bind {P : Stop → Prop} {r : Res α} {f : α → State → Res β}
    (hr : ∀ c ∈ r.stopOf, P c) (hf : ∀ a t, r = .ok a t → ∀ c ∈ (f a t).stopOf, P c) :
    ∀ c ∈ (r.bind f).stopOf, P c := by
  cases r with
  | ok a t => exact hf a t rfl
  | stop c t => exact hr

end Sys2Proof.Machine
end

