-- ==== Sys2Proof/Laws/Stream.lean ====
section
/-! SUPPORT. What the reads of the input stream can do (20_memory.md R62 to R68, 40_bytestream.md R141 to R149): the
registers they change, where `POS` goes, how they stop, and what they answer. -/

namespace Sys2Proof.Machine

/-! ## The token at the head of the bytes -/

theorem peekToken_byte_rawLen {l : List Byte} {b : Byte} {n : Nat} (h : peekToken l = .byte b n) :
    1 ≤ n ∧ n ≤ 2 ∧ n ≤ l.length := by
  unfold peekToken at h
  split at h
  · cases h
  · split at h <;> cases h
    simp
  · split at h
    · cases h; simp
    · split at h <;> cases h
      simp

theorem peekToken_marker_length {l : List Byte} {m : Marker} (h : peekToken l = .marker m) : 2 ≤ l.length := by
  unfold peekToken at h
  split at h
  · cases h
  · split at h <;> cases h
  · simp

theorem peekToken_marker {l : List Byte} {m : Marker} (h : peekToken l = .marker m) :
    ∃ c, c ≠ 0#8 ∧ m = markerOf c := by
  unfold peekToken at h
  split at h
  · cases h
  · split at h <;> cases h
  · split at h
    · cases h
    · split at h
      · cases h
      · rename_i c _ _ hc
        cases h
        exact ⟨c, hc, rfl⟩

@[simp] theorem peekToken_cons_data {b : Byte} (h : b ≠ 0xFF#8) (l : List Byte) : peekToken (b :: l) = .byte b 1 := by
  cases l <;> simp [peekToken, h]

@[simp] theorem peekToken_stuffed (l : List Byte) : peekToken (0xFF#8 :: 0#8 :: l) = .byte 0xFF#8 2 := by
  simp [peekToken]

@[simp] theorem peekToken_cons_marker {c : Byte} (h : c ≠ 0#8) (l : List Byte) :
    peekToken (0xFF#8 :: c :: l) = .marker (markerOf c) := by
  simp [peekToken, h]

theorem remaining_length (s : State) : (remaining s).length = s.input.length - s.pos := by simp [remaining]

/-! ## Which registers a read changes -/

/-- The registers a read of the stream can change, and that `POS` only moves forward within the input. -/
def StreamFrame (s t : State) : Prop :=
  ∃ p l b, t = { s with pos := p, lastpos := l, pbArmed := b } ∧
    (s.pos ≤ s.input.length → s.pos ≤ p ∧ p ≤ s.input.length)

theorem StreamFrame.refl (s : State) : StreamFrame s s := ⟨s.pos, s.lastpos, s.pbArmed, rfl, fun h => ⟨le_rfl, h⟩⟩

theorem StreamFrame.trans {s t u : State} (h₁ : StreamFrame s t) (h₂ : StreamFrame t u) : StreamFrame s u := by
  obtain ⟨p, l, b, rfl, hp⟩ := h₁
  obtain ⟨p', l', b', rfl, hp'⟩ := h₂
  exact ⟨p', l', b', rfl, fun h => ⟨(hp h).1.trans (hp' (hp h).2).1, (hp' (hp h).2).2⟩⟩

theorem StreamFrame.mono {s t : State} (h : StreamFrame s t) (hs : s.pos ≤ s.input.length) :
    s.pos ≤ t.pos ∧ t.pos ≤ t.input.length := by
  obtain ⟨p, l, b, rfl, hp⟩ := h
  exact hp hs

theorem StreamFrame.input {s t : State} (h : StreamFrame s t) : t.input = s.input := by
  obtain ⟨_, _, _, rfl, _⟩ := h; rfl

theorem StreamFrame.params {s t : State} (h : StreamFrame s t) : t.params = s.params := by
  obtain ⟨p, l, b, rfl, hp⟩ := h
  rfl

theorem StreamFrame.exhausted {α : Type} (s : State) : StreamFrame s (exhausted s : Res α).final :=
  ⟨_, _, _, rfl, fun h => ⟨h, le_rfl⟩⟩

theorem StreamFrame.disarmed {s t : State} (h : StreamFrame s t) (b : Bool) : StreamFrame s { t with pbArmed := b } := by
  obtain ⟨p, l, b', rfl, hp⟩ := h
  exact ⟨p, l, b, rfl, hp⟩

theorem raw_frame (n : Nat) (s : State) : StreamFrame s (raw n s).final := by
  unfold raw
  split
  · exact ⟨s.input.length, s.lastpos, false, rfl, fun h => ⟨h, le_rfl⟩⟩
  · rename_i h
    rw [remaining_length] at h
    exact ⟨s.pos + n, s.lastpos, false, rfl, fun _ => ⟨Nat.le_add_right _ _, by omega⟩⟩

theorem consumeByte_frame {s : State} {b : Byte} {n : Nat} (h : peekToken (remaining s) = .byte b n) :
    StreamFrame s (consumeByte n s) := by
  refine ⟨s.pos + n, s.pos, true, rfl, fun hs => ⟨Nat.le_add_right _ _, ?_⟩⟩
  have := (peekToken_byte_rawLen h).2.2
  rw [remaining_length] at this
  omega

theorem readByte_frame (s : State) : StreamFrame s (readByte s).final := by
  unfold readByte
  split
  · exact StreamFrame.exhausted s
  · exact StreamFrame.refl s
  · rename_i h
    exact consumeByte_frame h

theorem readByte_eq_ok {s t : State} {b : Byte} (h : readByte s = .ok b t) :
    ∃ n, t = consumeByte n s ∧ peekToken (remaining s) = .byte b n := by
  unfold readByte at h
  split at h <;> cases h
  exact ⟨_, rfl, ‹_›⟩

theorem readMarker_eq_ok {s t : State} {m : Marker} (h : readMarker s = .ok m t) :
    t = consumeMarker m s ∧ peekToken (remaining s) = .marker m := by
  unfold readMarker at h
  split at h <;> cases h
  exact ⟨rfl, ‹_›⟩

theorem readByteTimes_frame (n : Nat) (s : State) : StreamFrame s (readByteTimes n s).final := by
  induction n generalizing s with
  | zero => exact StreamFrame.refl s
  | succ n ih =>
    exact Res.final_bind StreamFrame StreamFrame.trans (readByte_frame s) fun _ t _ =>
      Res.final_bind StreamFrame StreamFrame.trans (ih t) fun _ u _ => StreamFrame.refl u

theorem readBytes_frame (n : Nat) (s : State) : StreamFrame s (readBytes n s).final := by
  unfold readBytes
  split
  · exact raw_frame n s
  · rw [Res.final_disarm]
    exact ((StreamFrame.refl s).disarmed false |>.trans (readByteTimes_frame n _)).disarmed false

theorem readField_frame (s : State) : StreamFrame s (readField s).final :=
  Res.final_bind StreamFrame StreamFrame.trans (readBytes_frame 1 s) fun _ t _ => StreamFrame.refl t

theorem readUint16_frame (s : State) : StreamFrame s (readUint16 s).final :=
  Res.final_bind StreamFrame StreamFrame.trans (readBytes_frame 2 s) fun _ t _ => StreamFrame.refl t

theorem readLength_frame (s : State) : StreamFrame s (readLength s).final :=
  Res.final_bind StreamFrame StreamFrame.trans (readUint16_frame s) fun _ t _ => by
    split <;> exact StreamFrame.refl t

/-! ## What a read answers -/

/-- `raw(n)` answers exactly when `n` bytes are left (20_memory.md R62). -/
theorem raw_eq_ok {n : Nat} {s : State} {l : List Byte} {t : State} :
    raw n s = .ok l t ↔
      n ≤ (remaining s).length ∧ l = (remaining s).take n ∧ t = { s with pos := s.pos + n, pbArmed := false } := by
  unfold raw
  split
  · simp only [Sys2Proof.Machine.exhausted, raise, reduceCtorEq, false_iff, not_and]
    omega
  · simp only [Res.ok.injEq]
    constructor
    · rintro ⟨rfl, rfl⟩
      exact ⟨by omega, rfl, rfl⟩
    · rintro ⟨_, rfl, rfl⟩
      exact ⟨rfl, rfl⟩

/-! ## Reading the bytes of a segment (20_memory.md R67) -/

@[simp] theorem afterBytes_fields (l : List Byte) (s : State) :
    (afterBytes l s).params = s.params ∧ (afterBytes l s).input = s.input ∧ (afterBytes l s).st = s.st ∧
    (afterBytes l s).pbArmed = false ∧ (afterBytes l s).lastmk = s.lastmk ∧
    (afterBytes l s).pos = s.pos + (segmentRaw s.params.segReadMode l).length :=
  ⟨rfl, rfl, rfl, rfl, rfl, rfl⟩

theorem stuffBytes_append (l m : List Byte) : stuffBytes (l ++ m) = stuffBytes l ++ stuffBytes m := by
  induction l with
  | nil => rfl
  | cons b l ih => simp only [List.cons_append, stuffBytes]; split <;> simp [ih]

theorem segmentRaw_append (mode : SegReadMode) (l m : List Byte) :
    segmentRaw mode (l ++ m) = segmentRaw mode l ++ segmentRaw mode m := by
  cases mode
  · rfl
  · exact stuffBytes_append l m

@[simp] theorem segmentRaw_nil (mode : SegReadMode) : segmentRaw mode [] = [] := by cases mode <;> rfl

theorem length_le_segmentRaw (mode : SegReadMode) (l : List Byte) : l.length ≤ (segmentRaw mode l).length := by
  cases mode
  · exact le_rfl
  · induction l with
    | nil => exact le_rfl
    | cons b l ih =>
      simp only [segmentRaw, stuffBytes] at ih ⊢
      split <;> simp <;> omega

/-- Reading bytes in two parts is reading them at once. -/
theorem afterBytes_append (l m : List Byte) (s : State) : afterBytes m (afterBytes l s) = afterBytes (l ++ m) s := by
  by_cases hm : m = []
  · subst hm
    simp [afterBytes]
  · by_cases hl : l = []
    · subst hl
      simp [afterBytes]
    · cases hr : s.params.segReadMode <;>
        simp [afterBytes, segmentRaw_append, List.dropLast_append_of_ne_nil hm, hm, hl, hr, Nat.add_assoc]

theorem remaining_afterBytes {s : State} {l rest : List Byte}
    (h : remaining s = segmentRaw s.params.segReadMode l ++ rest) : remaining (afterBytes l s) = rest := by
  unfold remaining at h ⊢
  simp only [afterBytes, ← List.drop_drop, h, List.drop_left]

theorem State.ahead_append {s : State} {l m : List Byte} :
    s.ahead (l ++ m) → s.ahead l ∧ (afterBytes l s).ahead m := by
  rintro ⟨rest, h⟩
  rw [segmentRaw_append, List.append_assoc] at h
  refine ⟨⟨_, h⟩, rest, ?_⟩
  rw [remaining_afterBytes h.symm]
  rfl

/-- What stands ahead does not depend on registers other than the stream's. -/
theorem ahead_congr {s t : State} {l : List Byte} (hi : t.input = s.input) (hp : t.pos = s.pos)
    (hm : t.params = s.params) : t.ahead l ↔ s.ahead l := by
  simp [State.ahead, remaining, hi, hp, hm]

theorem peekToken_stuffBytes_cons (b : Byte) (l rest : List Byte) :
    peekToken (stuffBytes (b :: l) ++ rest) = .byte b (if b = 0xFF#8 then 2 else 1) := by
  by_cases h : b = 0xFF#8
  · simp [stuffBytes, h]
  · simp [stuffBytes, h]

theorem readByte_stuffed {s : State} {b : Byte} {l rest : List Byte} (h : remaining s = stuffBytes (b :: l) ++ rest) :
    readByte s = .ok b (consumeByte (stuffBytes [b]).length s) := by
  unfold readByte
  rw [h, peekToken_stuffBytes_cons]
  by_cases hb : b = 0xFF#8 <;> simp [stuffBytes, hb]

/-- `readBytes` in TOKEN mode, before `PB_ARMED` is cleared. -/
theorem readByteTimes_stuffed (l rest : List Byte) (s : State) (h : remaining s = stuffBytes l ++ rest) (hl : l ≠ []) :
    readByteTimes l.length s = .ok l { s with
      pos := s.pos + (stuffBytes l).length
      pbArmed := true
      lastpos := s.pos + (stuffBytes l.dropLast).length } := by
  induction l generalizing s with
  | nil => exact absurd rfl hl
  | cons b l ih =>
    have hrest : remaining (consumeByte (stuffBytes [b]).length s) = stuffBytes l ++ rest := by
      unfold remaining at h ⊢
      rw [show b :: l = [b] ++ l from rfl, stuffBytes_append, List.append_assoc] at h
      simp only [consumeByte_fields, ← List.drop_drop, h, List.drop_left]
    rw [List.length_cons, readByteTimes, readByte_stuffed h, Res.bind_ok]
    by_cases hl' : l = []
    · subst hl'
      simp [readByteTimes, consumeByte, stuffBytes]
    · rw [ih _ hrest hl', Res.bind_ok]
      have e : stuffBytes (b :: l) = stuffBytes [b] ++ stuffBytes l := stuffBytes_append [b] l
      have e' : stuffBytes (b :: l.dropLast) = stuffBytes [b] ++ stuffBytes l.dropLast := stuffBytes_append [b] l.dropLast
      rw [List.dropLast_cons_of_ne_nil hl', e, e']
      simp [consumeByte, Nat.add_assoc]

/-- `readBytes` over a stream that holds the segment bytes `l` next, in either read mode (40_bytestream.md R147). -/
theorem readBytes_ahead {s : State} {l : List Byte} (h : s.ahead l) : readBytes l.length s = .ok l (afterBytes l s) := by
  obtain ⟨rest, h⟩ := h
  unfold readBytes
  cases hm : s.params.segReadMode with
  | raw =>
    rw [hm] at h
    refine raw_eq_ok.2 ⟨?_, ?_, by simp [afterBytes, hm, segmentRaw]⟩
    · rw [← h]; simp [segmentRaw]
    · rw [← h, segmentRaw, List.take_left]
  | token =>
    rw [hm] at h
    by_cases hl : l = []
    · subst hl
      simp [readByteTimes, Res.disarm, afterBytes]
    · have h' : remaining { s with pbArmed := false } = stuffBytes l ++ rest := h.symm
      simp only [readByteTimes_stuffed l rest _ h' hl, Res.disarm]
      simp [afterBytes, hm, hl, segmentRaw]

theorem readField_ahead {s : State} {b : Byte} (h : s.ahead [b]) : readField s = .ok b (afterBytes [b] s) := by
  have h1 := readBytes_ahead h
  simp only [List.length_cons, List.length_nil] at h1
  simp [readField, h1]

theorem be16_bytes16 (w : BitVec 16) : be16 (w.extractLsb' 8 8) (w.extractLsb' 0 8) = w := by
  apply BitVec.eq_of_getLsbD_eq
  intro i hi
  simp only [be16, BitVec.getLsbD_append, BitVec.getLsbD_extractLsb']
  by_cases h : i < 8
  · simp [h]
  · simp [h, show i - 8 < 8 by omega, show 8 + (i - 8) = i by omega]

theorem readUint16_ahead {s : State} {w : BitVec 16} (h : s.ahead (bytes16 w)) :
    readUint16 s = .ok w (afterBytes (bytes16 w) s) := by
  have h2 := readBytes_ahead h
  rw [show (bytes16 w).length = 2 from rfl] at h2
  simp [readUint16, h2, bytes16, be16_bytes16]

/-! ## How a read stops -/

/-- The operation stops by a raise only. -/
def Res.Raises {α : Type} (r : Res α) : Prop := ∀ c ∈ r.stopOf, ∃ e i, c = .raise e i

theorem Res.Raises.ok {α : Type} (a : α) (s : State) : (Res.ok a s).Raises := by simp [Res.Raises]
theorem Res.Raises.raise {α : Type} (e : ErrKind) (i : Option Info) (s : State) :
    (Sys2Proof.Machine.raise e i s : Res α).Raises := by simp [Res.Raises]
theorem Res.Raises.exhausted {α : Type} (s : State) : (Sys2Proof.Machine.exhausted s : Res α).Raises := Res.Raises.raise _ _ _

theorem Res.Raises.bind {α β : Type} {r : Res α} {f : α → State → Res β} (hr : r.Raises)
    (hf : ∀ a t, r = .ok a t → (f a t).Raises) : (r.bind f).Raises := Res.stopOf_bind hr hf

theorem readByte_raises (s : State) : (readByte s).Raises := by
  unfold readByte
  split
  · exact Res.Raises.exhausted s
  · exact Res.Raises.raise _ _ s
  · exact Res.Raises.ok _ _

theorem readByteTimes_raises (n : Nat) (s : State) : (readByteTimes n s).Raises := by
  induction n generalizing s with
  | zero => exact Res.Raises.ok _ _
  | succ n ih => exact Res.Raises.bind (readByte_raises s) fun _ t _ => Res.Raises.bind (ih t) fun _ u _ => Res.Raises.ok _ u

theorem readBytes_raises (n : Nat) (s : State) : (readBytes n s).Raises := by
  unfold readBytes
  split
  · unfold raw
    split
    · exact Res.Raises.exhausted _
    · exact Res.Raises.ok _ _
  · have h := readByteTimes_raises n { s with pbArmed := false }
    cases hr : readByteTimes n { s with pbArmed := false } with
    | ok a t => exact Res.Raises.ok _ _
    | stop c t => rw [hr] at h; exact h

theorem readField_raises (s : State) : (readField s).Raises :=
  Res.Raises.bind (readBytes_raises 1 s) fun _ t _ => Res.Raises.ok _ t

theorem readUint16_raises (s : State) : (readUint16 s).Raises :=
  Res.Raises.bind (readBytes_raises 2 s) fun _ t _ => Res.Raises.ok _ t

theorem readLength_raises (s : State) : (readLength s).Raises :=
  Res.Raises.bind (readUint16_raises s) fun _ t _ => by
    split
    · exact Res.Raises.raise _ _ _
    · exact Res.Raises.ok _ _

/-! ## A segment cut short (20_memory.md R62, 60_exceptions.md R324) -/

/-- The operation on `s` ends in StreamExhausted, only the stream's registers having moved. -/
def Res.RanOut {α : Type} (s : State) (r : Res α) : Prop :=
  ∃ last, (s.params.segReadMode = .raw → last = s.lastpos) ∧
    r = .stop (.raise .streamExhausted none) { s with pos := s.input.length, pbArmed := false, lastpos := last }

theorem Res.RanOut.bind {α β : Type} {s : State} {r : Res α} (h : r.RanOut s) (f : α → State → Res β) :
    (r.bind f).RanOut s := by
  obtain ⟨last, hl, rfl⟩ := h
  exact ⟨last, hl, rfl⟩

theorem Res.RanOut.of_afterBytes {α : Type} {s : State} {l : List Byte} {r : Res α} (h : r.RanOut (afterBytes l s)) :
    r.RanOut s := by
  obtain ⟨last, hl, rfl⟩ := h
  refine ⟨last, fun hr => ?_, rfl⟩
  rw [hl hr]
  simp [afterBytes, hr]

theorem Res.RanOut.settle {s : State} {r : Res Unit} (h : r.RanOut s) :
    endsExhausted s (Sys2Proof.Machine.settle r) := by
  obtain ⟨last, hl, rfl⟩ := h
  exact ⟨last, hl, rfl⟩

/-- Bytes cut short are cut short in their first part, or in the second after the first is read. -/
theorem State.cutShort_append {s : State} {l m : List Byte} (h : s.cutShort (l ++ m)) :
    s.cutShort l ∨ (s.ahead l ∧ (afterBytes l s).cutShort m) := by
  obtain ⟨hp, hne⟩ := h
  rw [segmentRaw_append] at hp hne
  by_cases ha : s.ahead l
  · obtain ⟨rest, hr⟩ := ha
    have e := remaining_afterBytes hr.symm
    refine .inr ⟨⟨rest, hr⟩, ?_, ?_⟩
    · rw [e]
      rw [← hr] at hp
      exact (List.prefix_append_right_inj _).1 hp
    · rw [e]
      rintro rfl
      exact hne hr.symm
  · refine .inl ⟨?_, fun e => ha ⟨[], by rw [List.append_nil, e]⟩⟩
    rcases List.prefix_or_prefix_of_prefix hp (List.prefix_append _ _) with h | h
    · exact h
    · exact absurd h ha

/-- What stands ahead, and where it is cut short, does not depend on registers other than the stream's. -/
theorem cutShort_congr {s t : State} {l : List Byte} (hi : t.input = s.input) (hp : t.pos = s.pos)
    (hm : t.params = s.params) : t.cutShort l ↔ s.cutShort l := by
  simp [State.cutShort, remaining, hi, hp, hm]

theorem readByteTimes_stuffed_short {l : List Byte} {s : State} (hp : remaining s <+: stuffBytes l)
    (hne : remaining s ≠ stuffBytes l) :
    ∃ last b, readByteTimes l.length s = .stop (.raise .streamExhausted none)
      { s with pos := s.input.length, pbArmed := b, lastpos := last } := by
  induction l generalizing s with
  | nil => exact absurd (List.prefix_nil.1 hp) hne
  | cons b l ih =>
    rw [show b :: l = [b] ++ l from rfl, stuffBytes_append] at hp hne
    by_cases ha : stuffBytes [b] <+: remaining s
    · obtain ⟨rest, hr⟩ := ha
      have hrest : remaining (consumeByte (stuffBytes [b]).length s) = rest := by
        unfold remaining at hr ⊢
        simp only [consumeByte_fields, ← List.drop_drop, ← hr, List.drop_left]
      have h1 : readByte s = .ok b (consumeByte (stuffBytes [b]).length s) :=
        readByte_stuffed (l := []) hr.symm
      rw [List.length_cons, readByteTimes, h1, Res.bind_ok]
      obtain ⟨last, b', h2⟩ := ih (s := consumeByte (stuffBytes [b]).length s)
        (by rw [hrest]; rw [← hr] at hp; exact (List.prefix_append_right_inj _).1 hp)
        (by rw [hrest]; rintro rfl; exact hne hr.symm)
      exact ⟨last, b', by rw [h2]; rfl⟩
    · have he : peekToken (remaining s) = .exhausted := by
        have hpre : remaining s <+: stuffBytes [b] :=
          (List.prefix_or_prefix_of_prefix hp (List.prefix_append _ _)).resolve_right ha
        by_cases hb : b = 0xFF#8
        · subst hb
          obtain ⟨u, hu⟩ := hpre
          simp only [stuffBytes, if_pos] at hu ha
          match hrem : remaining s with
          | [] => rfl
          | [x] => rw [hrem] at hu; simp only [List.cons_append, List.cons.injEq] at hu; rw [hu.1]; rfl
          | x :: y :: z =>
            rw [hrem] at hu ha
            simp only [List.cons_append, List.cons.injEq] at hu
            exact absurd ⟨z, by rw [hu.1, hu.2.1]; rfl⟩ ha
        · simp only [stuffBytes, if_neg hb] at hpre ha
          match hrem : remaining s with
          | [] => rfl
          | x :: z =>
            rw [hrem] at hpre ha
            obtain ⟨u, hu⟩ := hpre
            simp only [List.cons_append, List.cons.injEq] at hu
            exact absurd ⟨z, by rw [hu.1]; rfl⟩ ha
      refine ⟨s.lastpos, s.pbArmed, ?_⟩
      rw [List.length_cons, readByteTimes, readByte, he]
      rfl

/-- `readBytes` over a stream that ends inside the segment bytes `l`, in either read mode. -/
theorem readBytes_cutShort {s : State} {l : List Byte} (h : s.cutShort l) : (readBytes l.length s).RanOut s := by
  obtain ⟨hp, hne⟩ := h
  unfold readBytes Res.RanOut
  cases hm : s.params.segReadMode with
  | raw =>
    rw [hm] at hp hne
    refine ⟨s.lastpos, fun _ => rfl, ?_⟩
    have hlt : (remaining s).length < l.length := by
      rcases Nat.lt_or_ge (remaining s).length l.length with h | h
      · exact h
      · exact absurd (hp.eq_of_length (Nat.le_antisymm hp.length_le h)) hne
    simp only [raw, if_pos hlt]
    rfl
  | token =>
    rw [hm] at hp hne
    obtain ⟨last, b, h⟩ := readByteTimes_stuffed_short (s := { s with pbArmed := false }) hp hne
    exact ⟨last, nofun, by simp only [h, Res.disarm]⟩

theorem readField_cutShort {s : State} {b : Byte} (h : s.cutShort [b]) : (readField s).RanOut s :=
  (readBytes_cutShort h).bind _

theorem readUint16_cutShort {s : State} {w : BitVec 16} (h : s.cutShort (bytes16 w)) : (readUint16 s).RanOut s :=
  (readBytes_cutShort h).bind _

/-! ## How many bytes a read answers -/

theorem readByteTimes_length {n : Nat} {s t : State} {l : List Byte} (h : readByteTimes n s = .ok l t) :
    l.length = n := by
  induction n generalizing s l t with
  | zero => cases h; rfl
  | succ n ih =>
    obtain ⟨b, s₁, _, h⟩ := Res.bind_eq_ok.1 h
    obtain ⟨l', s₂, h', h⟩ := Res.bind_eq_ok.1 h
    cases h
    simp [ih h']

theorem readBytes_length {n : Nat} {s t : State} {l : List Byte} (h : readBytes n s = .ok l t) : l.length = n := by
  unfold readBytes at h
  split at h
  · obtain ⟨hn, rfl, _⟩ := raw_eq_ok.1 h
    simp [hn]
  · cases hr : readByteTimes n { s with pbArmed := false } with
    | stop c t => rw [hr] at h; cases h
    | ok a t => rw [hr] at h; cases h; exact readByteTimes_length hr

/-- A read of `n` bytes that succeeds moves `POS` by `n` at least (46_top_level.md R291). -/
theorem readByteTimes_pos {n : Nat} {s t : State} {l : List Byte} (h : readByteTimes n s = .ok l t) :
    s.pos + n ≤ t.pos := by
  induction n generalizing s l t with
  | zero => cases h; exact le_rfl
  | succ n ih =>
    obtain ⟨b, s₁, h₁, h⟩ := Res.bind_eq_ok.1 h
    obtain ⟨l', s₂, h', h⟩ := Res.bind_eq_ok.1 h
    cases h
    have := ih h'
    unfold readByte at h₁
    split at h₁ <;> cases h₁
    rename_i hp
    have := (peekToken_byte_rawLen hp).1
    simp only [consumeByte_fields] at *
    omega

theorem readBytes_pos {n : Nat} {s t : State} {l : List Byte} (h : readBytes n s = .ok l t) : s.pos + n ≤ t.pos := by
  unfold readBytes at h
  split at h
  · obtain ⟨_, _, rfl⟩ := raw_eq_ok.1 h
    exact le_rfl
  · cases hr : readByteTimes n { s with pbArmed := false } with
    | stop c t => rw [hr] at h; cases h
    | ok a t => rw [hr] at h; cases h; exact (readByteTimes_pos hr :)

theorem readUint16_pos {s t : State} {w : BitVec 16} (h : readUint16 s = .ok w t) : s.pos + 2 ≤ t.pos := by
  obtain ⟨l, u, h', h⟩ := Res.bind_eq_ok.1 h
  cases h
  exact readBytes_pos h'

end Sys2Proof.Machine
end

