-- ==== Sys2Proof/Laws/Bits.lean ====
section
/-! SUPPORT. What the bit reader can do (41_bitreader.md): the registers it changes, how it stops, and that it delivers the
bits ahead in order. -/

namespace Sys2Proof.Machine

/-! ## Frames -/

/-- The state without the registers a delivered bit changes. -/
def bitKeep (s : State) : State :=
  { s with pos := 0, lastpos := 0, pbArmed := false, bitbuf := 0#8, bitcnt := 0 }

/-- The state without the registers a refill can change. -/
def refillKeep (s : State) : State :=
  { bitKeep s with lastmk := 0#16, pendmkV := false, pendmk := 0#16, dnlSeen := false, dnlNl := 0#16 }

theorem refillKeep_of_bitKeep {s t : State} (h : bitKeep t = bitKeep s) : refillKeep t = refillKeep s := by
  unfold refillKeep; rw [h]

theorem eq_of_bitKeep {s t : State} (h : bitKeep t = bitKeep s) :
    t = { s with pos := t.pos, lastpos := t.lastpos, pbArmed := t.pbArmed, bitbuf := t.bitbuf, bitcnt := t.bitcnt } := by
  cases s; cases t; simp_all [bitKeep]

theorem eq_of_refillKeep {s t : State} (h : refillKeep t = refillKeep s) :
    t = { s with
      pos := t.pos, lastpos := t.lastpos, pbArmed := t.pbArmed, bitbuf := t.bitbuf, bitcnt := t.bitcnt
      lastmk := t.lastmk, pendmkV := t.pendmkV, pendmk := t.pendmk, dnlSeen := t.dnlSeen, dnlNl := t.dnlNl } := by
  cases s; cases t; simp_all [bitKeep, refillKeep]

theorem StreamFrame.bitKeep {s t : State} (h : StreamFrame s t) : bitKeep t = Sys2Proof.Machine.bitKeep s := by
  obtain ⟨_, _, _, rfl, _⟩ := h; rfl

/-- How much the bit reader can still deliver: bits left, and 9 for each byte left. Every bit delivered lowers it. -/
def bitsLeft (s : State) : Nat := 9 * (s.input.length - s.pos) + s.bitcnt

/-- A bit was delivered: only the stream position and the bit buffer moved. -/
structure BitFrame (s t : State) : Prop where
  keep : bitKeep t = bitKeep s
  pos : s.pos ≤ s.input.length → s.pos ≤ t.pos ∧ t.pos ≤ s.input.length
  cnt : s.bitcnt ≤ 8 → t.bitcnt ≤ 8
  left : s.pos ≤ s.input.length → bitsLeft t ≤ bitsLeft s

theorem BitFrame.refl (s : State) : BitFrame s s := ⟨rfl, fun h => ⟨le_rfl, h⟩, id, fun _ => le_rfl⟩

theorem BitFrame.input {s t : State} (h : BitFrame s t) : t.input = s.input := (congrArg State.input h.keep :)

theorem BitFrame.trans {s t u : State} (h₁ : BitFrame s t) (h₂ : BitFrame t u) : BitFrame s u := by
  have hi := h₁.input
  refine ⟨h₂.keep.trans h₁.keep, fun h => ?_, fun h => h₂.cnt (h₁.cnt h), fun h => ?_⟩
  · obtain ⟨a, b⟩ := h₁.pos h
    obtain ⟨c, d⟩ := h₂.pos (by rw [hi]; exact b)
    exact ⟨a.trans c, by rw [← hi]; exact d⟩
  · exact (h₂.left (by rw [hi]; exact (h₁.pos h).2)).trans (h₁.left h)

/-- How the bit reader stopped, and what it left (41_bitreader.md R161, R163, R168, R169): by a raise, or by one of the two
signals, each with an empty bit buffer. -/
structure StopFrame (c : Stop) (s t : State) : Prop where
  keep : refillKeep t = refillKeep s
  pos : s.pos ≤ s.input.length → s.pos ≤ t.pos ∧ t.pos ≤ s.input.length
  cnt : s.bitcnt ≤ 8 → t.bitcnt ≤ 8
  left : s.pos ≤ s.input.length → ∀ g, c = .signal g → bitsLeft t + 2 ≤ bitsLeft s
  raised : ∀ e i, c = .raise e i → t.pendmkV = s.pendmkV ∧ t.pendmk = s.pendmk ∧ t.dnlSeen = s.dnlSeen
  marker : ∀ m, c = .signal (.markerFound m) → t.bitcnt = 0 ∧ t.pendmkV = true ∧ t.pendmk = m ∧
    (∃ b, b ≠ 0#8 ∧ m = markerOf b) ∧ m ≠ 0xFFDC#16 ∧ t.dnlSeen = s.dnlSeen ∧ t.dnlNl = s.dnlNl ∧ t.lastmk = m
  dnl : c = .signal .endOfScan → t.bitcnt = 0 ∧ t.dnlSeen = true ∧ t.pendmkV = s.pendmkV ∧ t.pendmk = s.pendmk
  noFault : ∀ f, c ≠ .fault f

theorem StopFrame.of_bitFrame {c : Stop} {s t u : State} (h₁ : BitFrame s t) (h₂ : StopFrame c t u) :
    StopFrame c s u := by
  have hi := h₁.input
  have hv : t.pendmkV = s.pendmkV := (congrArg State.pendmkV h₁.keep :)
  have hm : t.pendmk = s.pendmk := (congrArg State.pendmk h₁.keep :)
  have hd : t.dnlSeen = s.dnlSeen := (congrArg State.dnlSeen h₁.keep :)
  have hn : t.dnlNl = s.dnlNl := (congrArg State.dnlNl h₁.keep :)
  refine ⟨h₂.keep.trans (refillKeep_of_bitKeep h₁.keep), fun h => ?_, fun h => h₂.cnt (h₁.cnt h), fun h g hg => ?_,
    fun e i h => ?_, fun m h => ?_, fun h => ?_, h₂.noFault⟩
  · obtain ⟨a, b⟩ := h₁.pos h
    obtain ⟨c, d⟩ := h₂.pos (by rw [hi]; exact b)
    exact ⟨a.trans c, by rw [← hi]; exact d⟩
  · have := h₂.left (by rw [hi]; exact (h₁.pos h).2) g hg
    have := h₁.left h
    omega
  · rw [← hv, ← hm, ← hd]; exact h₂.raised e i h
  · rw [← hd, ← hn]; exact h₂.marker m h
  · rw [← hv, ← hm]; exact h₂.dnl h

/-- A raise after a part that only moved the stream. -/
theorem StopFrame.raise_of_stream {e : ErrKind} {i : Option Info} {s t : State} (h : StreamFrame s t) :
    StopFrame (.raise e i) s t := by
  obtain ⟨p, l, b, rfl, hp⟩ := h
  exact ⟨rfl, hp, id, fun _ _ h => (by cases h), fun _ _ _ => ⟨rfl, rfl, rfl⟩, fun _ h => (by cases h),
    fun h => (by cases h), fun _ h => (by cases h)⟩

/-! ## What each operation does -/

/-- What `readDNLbody` answers: only the stream and the DNL registers moved (41_bitreader.md R164). -/
theorem readDNLbody_ok {s t : State} (h : readDNLbody s = .ok () t) :
    ∃ u nl, StreamFrame s u ∧ s.pos + 4 ≤ u.pos ∧ t = { u with dnlSeen := true, dnlNl := nl } := by
  obtain ⟨ld, s₁, h₁, h⟩ := Res.bind_eq_ok.1 h
  split at h
  · cases h
  · obtain ⟨nl, s₂, h₂, h⟩ := Res.bind_eq_ok.1 h
    cases h
    have f₁ := readUint16_frame s
    have f₂ := readUint16_frame s₁
    rw [h₁] at f₁
    rw [h₂] at f₂
    have := readUint16_pos h₁
    have := readUint16_pos h₂
    exact ⟨s₂, nl, f₁.trans f₂, by omega, rfl⟩

theorem readDNLbody_stop {s t : State} {c : Stop} (h : readDNLbody s = .stop c t) :
    StreamFrame s t ∧ ∃ e i, c = .raise e i := by
  have r₁ := readUint16_raises s
  have f₁ := readUint16_frame s
  rcases Res.bind_eq_stop.1 h with h | ⟨ld, s₁, h₁, h⟩
  · rw [h] at r₁ f₁
    exact ⟨f₁, r₁ c rfl⟩
  · rw [h₁] at f₁
    split at h
    · cases h
      exact ⟨f₁, _, _, rfl⟩
    · have r₂ := readUint16_raises s₁
      have f₂ := readUint16_frame s₁
      rcases Res.bind_eq_stop.1 h with h | ⟨nl, s₂, h₂, h⟩
      · rw [h] at r₂ f₂
        exact ⟨f₁.trans f₂, r₂ c rfl⟩
      · cases h

theorem consumeMarker_pos_le {s : State} {m : Marker} (h : peekToken (remaining s) = .marker m) :
    s.pos + 2 ≤ s.input.length := by
  have := peekToken_marker_length h
  rw [remaining_length] at this
  omega

theorem markerInEntropy_stop {α : Type} {m : Marker} {s t : State} {c : Stop}
    (hm : ∃ b, b ≠ 0#8 ∧ m = markerOf b) (hb : s.bitcnt = 0) (hp : s.pos + 2 ≤ s.input.length)
    (h : (markerInEntropy m s : Res α) = .stop c t) : StopFrame c s t := by
  unfold markerInEntropy at h
  dsimp only at h
  split at h
  · rcases Res.bind_eq_stop.1 h with h | ⟨_, s₁, h₁, h⟩
    · obtain ⟨f, e, i, rfl⟩ := readDNLbody_stop h
      obtain ⟨p, l, b, rfl, hq⟩ := f
      simp only [consumeMarker_fields] at hq
      exact ⟨rfl, fun _ => ⟨by have := hq hp; simp; omega, (hq hp).2⟩, id, fun _ _ h => (by cases h),
        fun _ _ _ => ⟨rfl, rfl, rfl⟩, fun _ h => (by cases h), fun h => (by cases h), fun _ h => (by cases h)⟩
    · cases h
      obtain ⟨u, nl, f, hu, rfl⟩ := readDNLbody_ok h₁
      obtain ⟨p, l, b, rfl, hq⟩ := f
      simp only [consumeMarker_fields] at hq hu
      refine ⟨rfl, fun _ => ⟨by have := hq hp; simp; omega, (hq hp).2⟩, id, fun _ _ _ => ?_,
        fun _ _ h => (by cases h), fun _ h => (by cases h), fun _ => ⟨hb, rfl, rfl, rfl⟩, fun _ h => (by cases h)⟩
      have := hq hp
      simp [bitsLeft, consumeMarker]
      omega
  · cases h
    rename_i hne
    refine ⟨rfl, fun _ => ⟨by simp [consumeMarker], hp⟩, id, fun _ _ _ => ?_, fun _ _ h => (by cases h), fun m' h => ?_,
      fun h => (by cases h), fun _ h => (by cases h)⟩
    · simp [bitsLeft, consumeMarker]
      omega
    · cases h
      exact ⟨hb, rfl, rfl, hm, hne, rfl, rfl, rfl⟩

theorem markerInEntropy_not_ok {α : Type} {m : Marker} {s t : State} {a : α} :
    (markerInEntropy m s : Res α) ≠ .ok a t := by
  intro h
  unfold markerInEntropy at h
  dsimp only at h
  split at h
  · obtain ⟨_, _, _, h⟩ := Res.bind_eq_ok.1 h
    cases h
  · cases h

theorem loadByte_frame {s : State} {b : Byte} {n : Nat} (h : peekToken (remaining s) = .byte b n) (hb : s.bitcnt = 0) :
    BitFrame s (loadByte b n s) ∧ (s.pos ≤ s.input.length → bitsLeft (loadByte b n s) < bitsLeft s) := by
  obtain ⟨h1, h2, h3⟩ := peekToken_byte_rawLen h
  rw [remaining_length] at h3
  refine ⟨⟨rfl, fun _ => ⟨by simp [loadByte, consumeByte], by simp [loadByte, consumeByte]; omega⟩,
    fun _ => by simp [loadByte], fun _ => ?_⟩, fun _ => ?_⟩ <;>
  · simp [bitsLeft, loadByte, consumeByte]
    omega

theorem refill_ok {s t : State} (h : refill s = .ok () t) :
    ∃ b n, peekToken (remaining s) = .byte b n ∧ t = loadByte b n s := by
  unfold refill at h
  split at h
  · cases h
  · rename_i b n hp
    cases h
    exact ⟨b, n, hp, rfl⟩
  · exact absurd h markerInEntropy_not_ok

theorem refill_stop {s t : State} {c : Stop} (hb : s.bitcnt = 0) (h : refill s = .stop c t) : StopFrame c s t := by
  unfold refill at h
  split at h
  · cases h
    exact StopFrame.raise_of_stream (StreamFrame.exhausted (α := Unit) s)
  · cases h
  · rename_i m hp
    exact markerInEntropy_stop (peekToken_marker hp) hb (consumeMarker_pos_le hp) h

theorem nextBit_ok {s t : State} {b : Bool} (h : nextBit s = .ok b t) :
    BitFrame s t ∧ (s.bitcnt ≤ 8 → t.bitcnt ≤ 7) ∧ (s.pos ≤ s.input.length → bitsLeft t < bitsLeft s) := by
  unfold nextBit at h
  split at h
  · rename_i hb
    obtain ⟨_, u, hr, h⟩ := Res.bind_eq_ok.1 h
    obtain ⟨b', n, hp, rfl⟩ := refill_ok hr
    obtain ⟨f, hl⟩ := loadByte_frame hp hb
    cases h
    have e : bitsLeft { loadByte b' n s with
        bitbuf := (loadByte b' n s).bitbuf <<< 1, bitcnt := (loadByte b' n s).bitcnt - 1 } ≤ bitsLeft (loadByte b' n s) := by
      simp [bitsLeft]
    exact ⟨⟨f.keep, f.pos, fun _ => by simp [loadByte], fun h => e.trans (f.left h)⟩, fun _ => by simp [loadByte],
      fun h => lt_of_le_of_lt e (hl h)⟩
  · rename_i hb
    cases h
    refine ⟨⟨rfl, fun h => ⟨le_rfl, h⟩, fun h => ?_, fun _ => ?_⟩, fun h => ?_, fun _ => ?_⟩ <;> simp [bitsLeft] <;> omega

theorem nextBit_stop {s t : State} {c : Stop} (h : nextBit s = .stop c t) : StopFrame c s t := by
  unfold nextBit at h
  split at h
  · rename_i hb
    rcases Res.bind_eq_stop.1 h with h | ⟨_, u, _, h⟩
    · exact refill_stop hb h
    · cases h
  · cases h

theorem receiveInto_ok {n v : Nat} {s t : State} {w : Nat} (h : receiveInto n v s = .ok w t) : BitFrame s t := by
  induction n generalizing v s with
  | zero => cases h; exact BitFrame.refl _
  | succ n ih =>
    obtain ⟨b, u, hb, h⟩ := Res.bind_eq_ok.1 h
    exact (nextBit_ok hb).1.trans (ih h)

theorem receiveInto_stop {n v : Nat} {s t : State} {c : Stop} (h : receiveInto n v s = .stop c t) : StopFrame c s t := by
  induction n generalizing v s with
  | zero => cases h
  | succ n ih =>
    rcases Res.bind_eq_stop.1 h with h | ⟨b, u, hb, h⟩
    · exact nextBit_stop h
    · exact StopFrame.of_bitFrame (nextBit_ok hb).1 (ih h)

theorem receive_ok {n w : Nat} {s t : State} (h : receive n s = .ok w t) : BitFrame s t := receiveInto_ok h
theorem receive_stop {n : Nat} {s t : State} {c : Stop} (h : receive n s = .stop c t) : StopFrame c s t :=
  receiveInto_stop h

/-! ## The bits ahead, delivered in order (41_bitreader.md R169) -/

@[simp] theorem byteBits_length (b : Byte) : (byteBits b).length = 8 := rfl

theorem byteBits_cons (b : Byte) : byteBits b = b.msb :: (byteBits (b <<< 1)).take 7 := by
  simp [byteBits, BitVec.msb_eq_getLsbD_last]

theorem take_byteBits_shift (b : Byte) (n : Nat) (h : n < 8) :
    (byteBits b).take (n + 1) = b.msb :: (byteBits (b <<< 1)).take n := by
  rw [byteBits_cons, List.take_succ_cons, List.take_take, Nat.min_eq_left (by omega)]

theorem dataBits_of_peekToken_byte {l : List Byte} {b : Byte} {n : Nat} (h : peekToken l = .byte b n) :
    dataBits l = byteBits b ++ dataBits (l.drop n) := by
  unfold peekToken at h
  split at h
  · cases h
  · split at h <;> cases h
    rename_i hb
    simp [dataBits, hb]
  · split at h
    · rename_i hb
      cases h
      simp [dataBits, hb]
    · rename_i hb
      have hb : _ = 0xFF#8 := not_not.1 hb
      subst hb
      split at h
      · rename_i hc
        subst hc
        cases h
        simp [dataBits]
      · cases h

theorem dataBits_of_not_byte {l : List Byte} (h : ∀ b n, peekToken l ≠ .byte b n) : dataBits l = [] := by
  match l with
  | [] => rfl
  | [b] =>
    by_cases hb : b = 0xFF#8
    · simp [dataBits, hb]
    · exact absurd (by simp [peekToken, hb]) (h b 1)
  | b :: c :: l =>
    by_cases hb : b = 0xFF#8
    · subst hb
      by_cases hc : c = 0#8
      · subst hc
        exact absurd (by simp) (h 0xFF#8 2)
      · simp [dataBits, hc]
    · exact absurd (by simp [hb]) (h b 1)

theorem remaining_loadByte (b : Byte) (n : Nat) (s : State) : remaining (loadByte b n s) = (remaining s).drop n := by
  simp [remaining, loadByte, consumeByte]

theorem bitsAhead_loadByte {s : State} {b : Byte} {n : Nat} (h : peekToken (remaining s) = .byte b n)
    (hb : s.bitcnt = 0) : (loadByte b n s).bitsAhead = s.bitsAhead := by
  unfold State.bitsAhead
  rw [remaining_loadByte, hb, dataBits_of_peekToken_byte h]
  simp [loadByte]

theorem deliverBit_bitsAhead {s : State} (h : s.bitcnt ≤ 8) (hb : s.bitcnt ≠ 0) :
    ∃ t, deliverBit s = .ok s.bitbuf.msb t ∧ s.bitsAhead = s.bitbuf.msb :: t.bitsAhead := by
  obtain ⟨n, hn⟩ := Nat.exists_eq_succ_of_ne_zero hb
  refine ⟨_, rfl, ?_⟩
  unfold State.bitsAhead remaining
  simp only [hn, Nat.succ_eq_add_one, Nat.add_sub_cancel, take_byteBits_shift s.bitbuf n (by omega), List.cons_append]

theorem dataBits_take_of_peekToken_byte {l : List Byte} {b : Byte} {n : Nat} (h : peekToken l = .byte b n) (m : Nat) :
    dataBits (l.take (n + m)) = byteBits b ++ dataBits ((l.drop n).take m) := by
  have hp : peekToken (l.take (n + m)) = .byte b n := by
    have hn := peekToken_byte_rawLen h
    unfold peekToken at h ⊢
    split at h
    · cases h
    · split at h
      · cases h
      · cases h
        simp_all [Nat.add_comm 1 m]
    · rename_i x y l
      split at h
      · cases h
        rename_i hx
        rw [Nat.add_comm 1 m, List.take_succ_cons]
        cases hm : (y :: l).take m <;> simp [hx]
      · split at h
        · cases h
          rename_i hx hy
          rw [Nat.add_comm 2 m]
          simp [List.take_succ_cons, not_not.1 hx, hy]
        · cases h
  rw [dataBits_of_peekToken_byte hp, List.drop_take, Nat.add_sub_cancel_left]

theorem BitsTaken.refl (s : State) : BitsTaken [] s s :=
  ⟨rfl, le_rfl, by simp [dataBits], by simp, rfl⟩

theorem BitsTaken.relabel {l : List Bool} {s u : State} (h : BitsTaken l s u) (c n : Nat) :
    BitsTaken l { s with code := c, len := n } { u with code := c, len := n } := by
  obtain ⟨h1, h2, h3, h4, h5⟩ := h
  refine ⟨h1, h2, h3, ?_, ?_⟩
  · split at h4
    · rename_i hl
      rw [if_pos hl, h4]
    · rename_i hl
      rw [if_neg hl]
      exact h4
  · rw [h5]

theorem BitsTaken.bitcnt_le {l : List Bool} {s u : State} (h : BitsTaken l s u) (h8 : s.bitcnt ≤ 8) : u.bitcnt ≤ 8 := by
  have := h.count
  split at this
  · rwa [this]
  · omega

/-- `nextBit` delivers the first of the bits ahead. -/
theorem nextBit_taken {s : State} (h8 : s.bitcnt ≤ 8) {b : Bool} {l : List Bool} (h : s.bitsAhead = b :: l) :
    ∃ t, nextBit s = .ok b t ∧ t.bitsAhead = l ∧ t.bitcnt ≤ 7 ∧ ∀ l' u, BitsTaken l' t u → BitsTaken (b :: l') s u := by
  have count : ∀ {l' : List Bool} {t u : State}, t.bitcnt ≤ 7 → (if l' = [] then u = t else u.bitcnt ≤ 7) →
      if b :: l' = [] then u = s else u.bitcnt ≤ 7 := fun ht hu => by
    rw [if_neg (by simp)]
    split at hu
    · rwa [hu]
    · exact hu
  unfold nextBit
  split
  · rename_i hb
    have hd : dataBits (remaining s) = b :: l := by simpa [State.bitsAhead, hb] using h
    cases hp : peekToken (remaining s) with
    | exhausted => rw [dataBits_of_not_byte (by simp [hp])] at hd; cases hd
    | marker m => rw [dataBits_of_not_byte (by simp [hp])] at hd; cases hd
    | byte c n =>
      have hr : refill s = .ok () (loadByte c n s) := by simp [refill, hp]
      obtain ⟨t, ht, ha⟩ := deliverBit_bitsAhead (s := loadByte c n s) (by simp [loadByte]) (by simp [loadByte])
      rw [bitsAhead_loadByte hp hb, h] at ha
      obtain ⟨rfl, rfl⟩ := List.cons.inj ha
      cases ht
      refine ⟨_, by rw [hr, Res.bind_ok]; rfl, rfl, by simp [loadByte], fun l' u hu => ?_⟩
      obtain ⟨h1, h2, h3, h4, h5⟩ := hu
      refine ⟨h.trans (congrArg _ h1), ?_, ?_, count (by simp [loadByte]) h4, ?_⟩
      · simp [loadByte, consumeByte] at h2; omega
      · have e : u.pos - s.pos = n + (u.pos - (s.pos + n)) := by simp [loadByte, consumeByte] at h2; omega
        have h3' : (byteBits (c <<< 1)).take 7 ++ dataBits (((remaining s).drop n).take (u.pos - (s.pos + n))) =
            l' ++ (byteBits u.bitbuf).take u.bitcnt := by
          rw [← remaining_loadByte c n s]; exact h3
        rw [hb, e, dataBits_take_of_peekToken_byte hp, List.take_zero, List.nil_append, byteBits_cons c, List.cons_append,
          List.cons_append, h3']
        rfl
      · rw [h5]; rfl
  · rename_i hb
    obtain ⟨t, ht, ha⟩ := deliverBit_bitsAhead h8 hb
    rw [h] at ha
    obtain ⟨rfl, rfl⟩ := List.cons.inj ha
    cases ht
    refine ⟨_, rfl, rfl, by dsimp only; omega, fun l' u hu => ?_⟩
    obtain ⟨h1, h2, h3, h4, h5⟩ := hu
    refine ⟨h.trans (congrArg _ h1), h2, ?_, count (by dsimp only; omega) h4, ?_⟩
    · obtain ⟨n, hn⟩ := Nat.exists_eq_succ_of_ne_zero hb
      rw [hn, Nat.succ_eq_add_one, take_byteBits_shift s.bitbuf n (by omega), List.cons_append, List.cons_append, ← h3]
      dsimp only
      rw [hn, Nat.succ_eq_add_one, Nat.add_sub_cancel]
      rfl
    · rw [h5]

/-- With no bit ahead, a bit is asked of a refill, and the refill stops. -/
theorem nextBit_runsOut {s : State} (h : s.bitsAhead = []) :
    s.bitcnt = 0 ∧ ∃ c t, refill s = .stop c t ∧ nextBit s = .stop c t := by
  obtain ⟨h1, h2⟩ := List.append_eq_nil_iff.1 h
  have h0 : s.bitcnt = 0 := by
    have := congrArg List.length h1
    simp at this
    exact this
  refine ⟨h0, ?_⟩
  cases hr : refill s with
  | ok a t =>
    obtain ⟨b, n, hp, -⟩ := refill_ok hr
    rw [dataBits_of_peekToken_byte hp] at h2
    simp at h2
    exact absurd h2.1 (by simp [byteBits])
  | stop c t => exact ⟨c, t, rfl, by rw [nextBit, if_pos h0, hr]; rfl⟩

theorem receiveInto_taken (l : List Bool) {rest : List Bool} {s : State} (v : Nat) (h8 : s.bitcnt ≤ 8)
    (h : s.bitsAhead = l ++ rest) :
    ∃ u, receiveInto l.length v s = .ok (l.foldl (fun v b => 2 * v + b.toNat) v) u ∧ BitsTaken l s u := by
  induction l generalizing s v with
  | nil => exact ⟨s, rfl, .refl s⟩
  | cons b l ih =>
    obtain ⟨t, ht, ha, h7, hcons⟩ := nextBit_taken h8 h
    obtain ⟨u, hu, hu'⟩ := ih (2 * v + b.toNat) (by omega) ha
    exact ⟨u, by rw [List.length_cons, receiveInto, ht, Res.bind_ok, hu]; rfl, hcons _ _ hu'⟩

/-- `receive` answers the value of the bits ahead (41_bitreader.md R167). -/
theorem receive_taken {l rest : List Bool} {s : State} (h8 : s.bitcnt ≤ 8) (h : s.bitsAhead = l ++ rest) :
    ∃ u, receive l.length s = .ok (bitsValue l) u ∧ BitsTaken l s u :=
  receiveInto_taken l 0 h8 h

theorem receiveInto_runsOut (n v : Nat) {s : State} (h8 : s.bitcnt ≤ 8) (h : s.bitsAhead.length < n) :
    ∃ u, BitsTaken s.bitsAhead s u ∧ u.bitcnt = 0 ∧ ∃ c t, refill u = .stop c t ∧ receiveInto n v s = .stop c t := by
  induction n generalizing s v with
  | zero => omega
  | succ n ih =>
    cases ha : s.bitsAhead with
    | nil =>
      obtain ⟨h0, c, t, hr, hn⟩ := nextBit_runsOut ha
      exact ⟨s, .refl s, h0, c, t, hr, by rw [receiveInto, hn]; rfl⟩
    | cons b l =>
      obtain ⟨t, ht, hl, h7, hcons⟩ := nextBit_taken h8 ha
      obtain ⟨u, hu, h0, c, w, hr, hw⟩ := ih (2 * v + b.toNat) (s := t) (by omega) (by rw [hl]; rw [ha] at h; simpa using h)
      rw [hl] at hu
      exact ⟨u, hcons _ _ hu, h0, c, w, hr, by rw [receiveInto, ht, Res.bind_ok, hw]⟩

/-- `receive` with too few bits ahead takes them all and stops as the refill does. -/
theorem receive_runsOut {n : Nat} {s : State} (h8 : s.bitcnt ≤ 8) (h : s.bitsAhead.length < n) :
    ∃ u, BitsTaken s.bitsAhead s u ∧ u.bitcnt = 0 ∧ ∃ c t, refill u = .stop c t ∧ receive n s = .stop c t :=
  receiveInto_runsOut n 0 h8 h

end Sys2Proof.Machine
end

