-- ==== Sys2Proof/Laws/Tables.lean ====
section
/-! SUPPORT. What the table store can do (42_tablestore.md): slots, the registers each segment reader changes, what it stores
when the segment is whole, the cascade. -/

namespace Sys2Proof.Machine

/-! ## Slots -/

theorem slot_cases (t : BitVec 2) : t = 0#2 ∨ t = 1#2 ∨ t = 2#2 ∨ t = 3#2 := by revert t; decide

@[simp] theorem slotGet_slotSet {α : Type} (s : Slots α) (t u : BitVec 2) (x : α) :
    slotGet (slotSet s t x) u = if u = t then some x else slotGet s u := by
  rcases slot_cases t with rfl | rfl | rfl | rfl <;> rcases slot_cases u with rfl | rfl | rfl | rfl <;> rfl

theorem slotGet_cascadeSlots {α : Type} (b o : Slots α) (t : BitVec 2) :
    slotGet (cascadeSlots b o) t = (slotGet o t).orElse fun _ => slotGet b t := by
  rcases slot_cases t with rfl | rfl | rfl | rfl <;> rfl

@[simp] theorem slotGet_empty {α : Type} (t : BitVec 2) : slotGet (Slots.empty : Slots α) t = none := by
  rcases slot_cases t with rfl | rfl | rfl | rfl <;> rfl

theorem slotAt_eq_some {α : Type} {s : Slots α} {n : Nat} {x : α} :
    slotAt s n = some x ↔ n ≤ 3 ∧ slotGet s (BitVec.ofNat 2 n) = some x := by
  unfold slotAt
  split
  · simp; omega
  · simp; omega

/-! ## Whole tables -/

theorem MiscTables.good_empty : MiscTables.empty.Good := by
  constructor <;> simp [MiscTables.empty]

theorem MiscTables.Good.storeQuant {m : MiscTables} (h : m.Good) {q : QuantTable} (hq : q.good) :
    (Sys2Proof.Machine.storeQuant q m).Good := by
  refine ⟨fun t x hx => ?_, h.dc, h.ac, h.interval⟩
  simp only [Sys2Proof.Machine.storeQuant, slotGet_slotSet] at hx
  split at hx
  · rename_i ht
    cases hx
    exact ⟨ht.symm, hq⟩
  · exact h.quant t x hx

theorem bit_cases (c : BitVec 1) : c = 0#1 ∨ c = 1#1 := by revert c; decide

theorem MiscTables.Good.storeHuff {m : MiscTables} (h : m.Good) {x : HuffTable} (hx : x.good) :
    (Sys2Proof.Machine.storeHuff x m).Good := by
  unfold Sys2Proof.Machine.storeHuff
  split
  · rename_i hc
    refine ⟨h.quant, fun t y hy => ?_, h.ac, h.interval⟩
    simp only [slotGet_slotSet] at hy
    split at hy
    · rename_i ht
      cases hy
      exact ⟨hc, ht.symm, hx⟩
    · exact h.dc t y hy
  · rename_i hc
    refine ⟨h.quant, h.dc, fun t y hy => ?_, h.interval⟩
    simp only [slotGet_slotSet] at hy
    split at hy
    · rename_i ht
      cases hy
      exact ⟨(bit_cases _).resolve_left hc, ht.symm, hx⟩
    · exact h.ac t y hy

theorem MiscTables.Good.cascade {b o : MiscTables} (hb : b.Good) (ho : o.Good) :
    (Sys2Proof.Machine.cascade b o).Good := by
  refine ⟨fun t x hx => ?_, fun t x hx => ?_, fun t x hx => ?_, ?_⟩
  · rw [Sys2Proof.Machine.cascade, slotGet_cascadeSlots] at hx
    cases h : slotGet o.quant t with
    | none => rw [h] at hx; exact hb.quant t x hx
    | some y => rw [h] at hx; cases hx; exact ho.quant t _ h
  · rw [Sys2Proof.Machine.cascade, slotGet_cascadeSlots] at hx
    cases h : slotGet o.dc t with
    | none => rw [h] at hx; exact hb.dc t x hx
    | some y => rw [h] at hx; cases hx; exact ho.dc t _ h
  · rw [Sys2Proof.Machine.cascade, slotGet_cascadeSlots] at hx
    cases h : slotGet o.ac t with
    | none => rw [h] at hx; exact hb.ac t x hx
    | some y => rw [h] at hx; cases hx; exact ho.ac t _ h
  · simp only [Sys2Proof.Machine.cascade]
    split
    · exact ho.interval
    · exact hb.interval

/-! ## Stores into the region -/

theorem regionUpdate_afterBytes (f : MiscTables → MiscTables) (l : List Byte) (s : State) :
    afterBytes l (regionUpdate f s) = regionUpdate f (afterBytes l s) := by
  unfold regionUpdate
  by_cases h : s.st = .frameTables <;> simp [h] <;> rfl

theorem regionUpdate_comp (f g : MiscTables → MiscTables) (s : State) :
    regionUpdate g (regionUpdate f s) = regionUpdate (g ∘ f) s := by
  unfold regionUpdate
  by_cases h : s.st = .frameTables <;> simp [h]

@[simp] theorem regionUpdate_stream (f : MiscTables → MiscTables) (s : State) :
    (regionUpdate f s).input = s.input ∧ (regionUpdate f s).pos = s.pos ∧ (regionUpdate f s).params = s.params ∧
    (regionUpdate f s).st = s.st := by
  unfold regionUpdate
  split <;> exact ⟨rfl, rfl, rfl, rfl⟩

theorem regionUpdate_id (s : State) : regionUpdate (fun m => m) s = s := by
  unfold regionUpdate
  split <;> rfl

/-- The stream moved, and the snapshot of the region changed as `P` allows (20_memory.md R70); the other one is as it
was. -/
def RegionFrame (P : MiscTables → MiscTables → Prop) (s t : State) : Prop :=
  ∃ p l a b o, t = { s with pos := p, lastpos := l, pbArmed := a, base := b, ovl := o } ∧
    (s.pos ≤ s.input.length → s.pos ≤ p ∧ p ≤ s.input.length) ∧
    (if s.st = .frameTables then P s.base b ∧ o = s.ovl else b = s.base ∧ P s.ovl o)

theorem RegionFrame.of_stream {P : MiscTables → MiscTables → Prop} (refl : ∀ m, P m m) {s t : State}
    (h : StreamFrame s t) : RegionFrame P s t := by
  obtain ⟨p, l, a, rfl, hp⟩ := h
  refine ⟨p, l, a, s.base, s.ovl, rfl, hp, ?_⟩
  split
  · exact ⟨refl _, rfl⟩
  · exact ⟨rfl, refl _⟩

theorem RegionFrame.trans {P : MiscTables → MiscTables → Prop} (trans : ∀ {x y z}, P x y → P y z → P x z)
    {s t u : State} (h₁ : RegionFrame P s t) (h₂ : RegionFrame P t u) : RegionFrame P s u := by
  obtain ⟨p, l, a, b, o, rfl, hp, hb⟩ := h₁
  obtain ⟨p', l', a', b', o', rfl, hp', hb'⟩ := h₂
  refine ⟨p', l', a', b', o', rfl, fun h => ?_, ?_⟩
  · obtain ⟨h1, h2⟩ := hp h
    obtain ⟨h3, h4⟩ := hp' h2
    exact ⟨h1.trans h3, h4⟩
  · dsimp only at hb' ⊢
    split at hb
    · rename_i hs
      rw [if_pos hs] at hb' ⊢
      exact ⟨trans hb.1 hb'.1, hb'.2.trans hb.2⟩
    · rename_i hs
      rw [if_neg hs] at hb' ⊢
      exact ⟨hb'.1.trans hb.1, trans hb.2 hb'.2⟩

theorem RegionFrame.update {P : MiscTables → MiscTables → Prop} {f : MiscTables → MiscTables} (h : ∀ m, P m (f m))
    (s : State) : RegionFrame P s (regionUpdate f s) := by
  unfold regionUpdate
  split
  · rename_i hs
    exact ⟨s.pos, s.lastpos, s.pbArmed, f s.base, s.ovl, rfl, fun h => ⟨le_rfl, h⟩, by rw [if_pos hs]; exact ⟨h _, rfl⟩⟩
  · rename_i hs
    exact ⟨s.pos, s.lastpos, s.pbArmed, s.base, f s.ovl, rfl, fun h => ⟨le_rfl, h⟩, by rw [if_neg hs]; exact ⟨rfl, h _⟩⟩

/-! ## DQT -/

/-- A DQT segment changes quantization slots only, and stores whole tables. -/
def QuantOnly (m m' : MiscTables) : Prop :=
  m'.dc = m.dc ∧ m'.ac = m.ac ∧ m'.interval = m.interval ∧ (m.Good → m'.Good)

theorem QuantOnly.refl (m : MiscTables) : QuantOnly m m := ⟨rfl, rfl, rfl, id⟩
theorem QuantOnly.trans {x y z : MiscTables} (h₁ : QuantOnly x y) (h₂ : QuantOnly y z) : QuantOnly x z :=
  ⟨h₂.1.trans h₁.1, h₂.2.1.trans h₁.2.1, h₂.2.2.1.trans h₁.2.2.1, fun h => h₂.2.2.2 (h₁.2.2.2 h)⟩

/-- One entry of a quantization table. -/
def readEntry (wide : Bool) (s : State) : Res Nat :=
  if wide then (readUint16 s).bind fun q s => .ok q.toNat s else (readField s).bind fun q s => .ok q.toNat s

theorem readEntries_succ (wide : Bool) (n : Nat) (s : State) :
    readEntries wide (n + 1) s =
      (readEntry wide s).bind fun q s => (readEntries wide n s).bind fun qs s => .ok (q :: qs) s := by
  cases wide <;> rfl

theorem readEntry_frame (wide : Bool) (s : State) : StreamFrame s (readEntry wide s).final := by
  unfold readEntry
  split
  · exact Res.final_bind StreamFrame StreamFrame.trans (readUint16_frame s) fun _ t _ => StreamFrame.refl t
  · exact Res.final_bind StreamFrame StreamFrame.trans (readField_frame s) fun _ t _ => StreamFrame.refl t

theorem readEntry_raises (wide : Bool) (s : State) : (readEntry wide s).Raises := by
  unfold readEntry
  split
  · exact Res.Raises.bind (readUint16_raises s) fun _ t _ => Res.Raises.ok _ t
  · exact Res.Raises.bind (readField_raises s) fun _ t _ => Res.Raises.ok _ t

theorem readEntry_lt {wide : Bool} {s t : State} {q : Nat} (h : readEntry wide s = .ok q t) :
    q < if wide then 2 ^ 16 else 2 ^ 8 := by
  unfold readEntry at h
  split at h <;> obtain ⟨w, u, _, h⟩ := Res.bind_eq_ok.1 h <;> cases h <;> simp_all <;> exact w.isLt

theorem readEntries_frame (wide : Bool) (n : Nat) (s : State) : StreamFrame s (readEntries wide n s).final := by
  induction n generalizing s with
  | zero => exact StreamFrame.refl s
  | succ n ih =>
    rw [readEntries_succ]
    exact Res.final_bind StreamFrame StreamFrame.trans (readEntry_frame wide s) fun _ t _ =>
      Res.final_bind StreamFrame StreamFrame.trans (ih t) fun _ u _ => StreamFrame.refl u

theorem readEntries_raises (wide : Bool) (n : Nat) (s : State) : (readEntries wide n s).Raises := by
  induction n generalizing s with
  | zero => exact Res.Raises.ok _ _
  | succ n ih =>
    rw [readEntries_succ]
    exact Res.Raises.bind (readEntry_raises wide s) fun _ t _ => Res.Raises.bind (ih t) fun _ u _ => Res.Raises.ok _ u

theorem readEntries_ok {wide : Bool} {n : Nat} {s t : State} {l : List Nat} (h : readEntries wide n s = .ok l t) :
    l.length = n ∧ ∀ e ∈ l, e < if wide then 2 ^ 16 else 2 ^ 8 := by
  induction n generalizing s t l with
  | zero => cases h; simp
  | succ n ih =>
    rw [readEntries_succ] at h
    obtain ⟨q, u, hq, h⟩ := Res.bind_eq_ok.1 h
    obtain ⟨qs, v, hqs, h⟩ := Res.bind_eq_ok.1 h
    cases h
    obtain ⟨h1, h2⟩ := ih hqs
    exact ⟨by simp [h1], by simpa using ⟨readEntry_lt hq, h2⟩⟩

theorem setWidth_one_eq {pq : BitVec 4} (h : ¬1 < pq.toNat) : (pq.setWidth 1 = 0#1 ↔ pq = 0#4) := by
  revert pq; decide

/-- Everything a DQT loop can do. -/
theorem readDQTLoop_frame (fuel rem : Nat) (s : State) : RegionFrame QuantOnly s (readDQTLoop fuel rem s).final := by
  have tr : ∀ {x y z : State}, RegionFrame QuantOnly x y → RegionFrame QuantOnly y z → RegionFrame QuantOnly x z :=
    RegionFrame.trans (P := QuantOnly) QuantOnly.trans
  have st : ∀ {x y : State}, StreamFrame x y → RegionFrame QuantOnly x y := RegionFrame.of_stream QuantOnly.refl
  induction fuel generalizing rem s with
  | zero => exact st (StreamFrame.refl s)
  | succ fuel ih =>
    unfold readDQTLoop
    split
    · exact st (StreamFrame.refl s)
    · refine Res.final_bind (RegionFrame QuantOnly) tr (st (readField_frame s)) fun b t _ => ?_
      dsimp only
      split
      · exact st (StreamFrame.refl t)
      · rename_i hb
        split
        · exact st (StreamFrame.refl t)
        · refine Res.final_bind (RegionFrame QuantOnly) tr (st (readEntries_frame _ _ t)) fun q u hq => ?_
          obtain ⟨hlen, hlt⟩ := readEntries_ok hq
          refine tr (RegionFrame.update (fun m => ⟨rfl, rfl, rfl, fun hm => hm.storeQuant ⟨hlen, fun e he => ?_⟩⟩) u)
            (ih _ _)
          have := hlt e he
          have hiff := setWidth_one_eq (pq := highNibble b) (by omega)
          by_cases hz : highNibble b = 0#4
          · simpa [hz] using this
          · simpa [hz, hiff] using this

theorem readDQT_frame (s : State) : RegionFrame QuantOnly s (readDQT s).final :=
  Res.final_bind (RegionFrame QuantOnly) (RegionFrame.trans (P := QuantOnly) QuantOnly.trans) (RegionFrame.of_stream QuantOnly.refl (readLength_frame s))
    fun _ t _ => readDQTLoop_frame _ _ t

theorem readDQTLoop_raises (fuel rem : Nat) (s : State) : (readDQTLoop fuel rem s).Raises := by
  induction fuel generalizing rem s with
  | zero => exact Res.Raises.ok _ _
  | succ fuel ih =>
    unfold readDQTLoop
    split
    · exact Res.Raises.ok _ _
    · refine Res.Raises.bind (readField_raises s) fun b t _ => ?_
      dsimp only
      split
      · exact Res.Raises.raise _ _ _
      · split
        · exact Res.Raises.raise _ _ _
        · exact Res.Raises.bind (readEntries_raises _ _ t) fun q u _ => ih _ _

theorem readDQT_raises (s : State) : (readDQT s).Raises :=
  Res.Raises.bind (readLength_raises s) fun _ t _ => readDQTLoop_raises _ _ t

/-! ## DHT -/

/-- A DHT segment changes Huffman slots only, and stores whole tables. -/
def HuffOnly (m m' : MiscTables) : Prop :=
  m'.quant = m.quant ∧ m'.interval = m.interval ∧ (m.Good → m'.Good)

theorem HuffOnly.refl (m : MiscTables) : HuffOnly m m := ⟨rfl, rfl, id⟩
theorem HuffOnly.trans {x y z : MiscTables} (h₁ : HuffOnly x y) (h₂ : HuffOnly y z) : HuffOnly x z :=
  ⟨h₂.1.trans h₁.1, h₂.2.1.trans h₁.2.1, fun h => h₂.2.2 (h₁.2.2 h)⟩

@[simp] theorem buildHuffman_fields (tc : BitVec 1) (th : BitVec 2) (bits : List Nat) (v : List Byte) :
    (buildHuffman tc th bits v).tc = tc ∧ (buildHuffman tc th bits v).th = th ∧
    (buildHuffman tc th bits v).bits = bits ∧ (buildHuffman tc th bits v).huffval = v ∧
    (buildHuffman tc th bits v).n = bits.sum := ⟨rfl, rfl, rfl, rfl, rfl⟩

theorem buildHuffman_good {tc : BitVec 1} {th : BitVec 2} {bits : List Nat} {v : List Byte} (hb : bits.length = 16)
    (hv : v.length = bits.sum) : (buildHuffman tc th bits v).good := ⟨rfl, hb, hv⟩

theorem HuffOnly.store {x : HuffTable} (hx : x.good) (m : MiscTables) : HuffOnly m (storeHuff x m) := by
  refine ⟨?_, ?_, fun h => h.storeHuff hx⟩ <;> unfold storeHuff <;> split <;> rfl

/-- Everything a DHT loop can do. -/
theorem readDHTLoop_frame (fuel rem : Nat) (s : State) : RegionFrame HuffOnly s (readDHTLoop fuel rem s).final := by
  have tr : ∀ {x y z : State}, RegionFrame HuffOnly x y → RegionFrame HuffOnly y z → RegionFrame HuffOnly x z :=
    RegionFrame.trans (P := HuffOnly) HuffOnly.trans
  have st : ∀ {x y : State}, StreamFrame x y → RegionFrame HuffOnly x y := RegionFrame.of_stream HuffOnly.refl
  induction fuel generalizing rem s with
  | zero => exact st (StreamFrame.refl s)
  | succ fuel ih =>
    unfold readDHTLoop
    split
    · exact st (StreamFrame.refl s)
    · split
      · exact st (StreamFrame.refl s)
      · refine Res.final_bind (RegionFrame HuffOnly) tr (st (readField_frame s)) fun b t _ => ?_
        dsimp only
        split
        · exact st (StreamFrame.refl t)
        · refine Res.final_bind (RegionFrame HuffOnly) tr (st (readBytes_frame _ t)) fun counts u hc => ?_
          split
          · exact st (StreamFrame.refl u)
          · split
            · exact st (StreamFrame.refl u)
            · refine Res.final_bind (RegionFrame HuffOnly) tr (st (readBytes_frame _ u)) fun v w hv => ?_
              have h16 := readBytes_length hc
              exact tr (RegionFrame.update
                (HuffOnly.store (buildHuffman_good (by simp [h16]) (readBytes_length hv))) w) (ih _ _)

theorem readDHT_frame (s : State) : RegionFrame HuffOnly s (readDHT s).final :=
  Res.final_bind (RegionFrame HuffOnly) (RegionFrame.trans (P := HuffOnly) HuffOnly.trans) (RegionFrame.of_stream HuffOnly.refl (readLength_frame s))
    fun _ t _ => readDHTLoop_frame _ _ t

theorem readDHTLoop_raises (fuel rem : Nat) (s : State) : (readDHTLoop fuel rem s).Raises := by
  induction fuel generalizing rem s with
  | zero => exact Res.Raises.ok _ _
  | succ fuel ih =>
    unfold readDHTLoop
    split
    · exact Res.Raises.ok _ _
    · split
      · exact Res.Raises.raise _ _ _
      · refine Res.Raises.bind (readField_raises s) fun b t _ => ?_
        dsimp only
        split
        · exact Res.Raises.raise _ _ _
        · refine Res.Raises.bind (readBytes_raises _ t) fun counts u _ => ?_
          split
          · exact Res.Raises.raise _ _ _
          · split
            · exact Res.Raises.raise _ _ _
            · exact Res.Raises.bind (readBytes_raises _ u) fun v w _ => ih _ _

theorem readDHT_raises (s : State) : (readDHT s).Raises :=
  Res.Raises.bind (readLength_raises s) fun _ t _ => readDHTLoop_raises _ _ t

/-! ## DRI and skipped segments -/

/-- A DRI segment changes the interval only, to one of 16 bits. -/
def IntervalOnly (m m' : MiscTables) : Prop :=
  m'.quant = m.quant ∧ m'.dc = m.dc ∧ m'.ac = m.ac ∧ (m.Good → m'.Good)

theorem IntervalOnly.refl (m : MiscTables) : IntervalOnly m m := ⟨rfl, rfl, rfl, id⟩
theorem IntervalOnly.trans {x y z : MiscTables} (h₁ : IntervalOnly x y) (h₂ : IntervalOnly y z) : IntervalOnly x z :=
  ⟨h₂.1.trans h₁.1, h₂.2.1.trans h₁.2.1, h₂.2.2.1.trans h₁.2.2.1, fun h => h₂.2.2.2 (h₁.2.2.2 h)⟩

theorem readDRI_frame (s : State) : RegionFrame IntervalOnly s (readDRI s).final := by
  have tr : ∀ {x y z : State}, RegionFrame IntervalOnly x y → RegionFrame IntervalOnly y z →
    RegionFrame IntervalOnly x z := RegionFrame.trans (P := IntervalOnly) IntervalOnly.trans
  have st : ∀ {x y : State}, StreamFrame x y → RegionFrame IntervalOnly x y := RegionFrame.of_stream IntervalOnly.refl
  refine Res.final_bind (RegionFrame IntervalOnly) tr (st (readUint16_frame s)) fun lr t _ => ?_
  split
  · exact st (StreamFrame.refl t)
  · refine Res.final_bind (RegionFrame IntervalOnly) tr (st (readUint16_frame t)) fun ri u _ => RegionFrame.update (P := IntervalOnly)
      (f := fun m => { m with interval := (ri.toNat : Int) }) (fun m => ?_) u
    exact ⟨rfl, rfl, rfl, fun h => ⟨h.quant, h.dc, h.ac, by have := ri.isLt; dsimp only; omega⟩⟩

theorem readDRI_raises (s : State) : (readDRI s).Raises := by
  refine Res.Raises.bind (readUint16_raises s) fun lr t _ => ?_
  split
  · exact Res.Raises.raise _ _ _
  · exact Res.Raises.bind (readUint16_raises t) fun ri u _ => Res.Raises.ok _ _

theorem readDNLbody_raises (s : State) : (readDNLbody s).Raises := fun c hc => by
  cases h : readDNLbody s with
  | ok a t => rw [h] at hc; cases hc
  | stop d t => rw [h] at hc; cases hc; exact (readDNLbody_stop h).2

theorem skipSegment_raises (m : Marker) (s : State) : (skipSegment m s).Raises :=
  Res.Raises.bind (readLength_raises s) fun _ t _ => Res.Raises.bind (readBytes_raises _ t) fun _ _ _ => Res.Raises.ok _ _

/-- The stream moved and one record may have been added to `AUX`, unless the port is dropped (20_memory.md R73). -/
theorem skipSegment_frame (m : Marker) (s : State) :
    StreamFrame s (skipSegment m s).final ∨
    ∃ u bytes, StreamFrame s u ∧ (skipSegment m s).final = emitAux ⟨m, bytes⟩ u := by
  unfold skipSegment
  have h1 := readLength_frame s
  cases hl : readLength s with
  | stop c t => rw [hl] at h1; exact .inl h1
  | ok l t =>
    rw [hl] at h1
    have h2 := readBytes_frame (l - 2) t
    simp only [Res.bind_ok]
    cases hb : readBytes (l - 2) t with
    | stop c u => rw [hb] at h2; exact .inl (h1.trans h2)
    | ok bytes u => rw [hb] at h2; exact .inr ⟨u, bytes, h1.trans h2, rfl⟩

/-! ## Whole segments -/

theorem be16_toNat (n : Nat) (h : n < 65536) : (BitVec.ofNat 16 n).toNat = n := by simp; omega

theorem readLength_ahead {s : State} {n : Nat} (h2 : 2 ≤ n) (hn : n < 65536)
    (h : s.ahead (bytes16 (BitVec.ofNat 16 n))) :
    readLength s = .ok n (afterBytes (bytes16 (BitVec.ofNat 16 n)) s) := by
  rw [readLength, readUint16_ahead h, Res.bind_ok, be16_toNat n hn, if_neg (by omega)]

theorem afterBytes_nil {s : State} (h : s.pbArmed = false) : afterBytes [] s = s := by
  cases s; simp_all [afterBytes]

theorem readEntries_ahead (narrow : Bool) (q : List Nat) (s : State) (hs : s.pbArmed = false)
    (hq : ∀ e ∈ q, e < if narrow then 2 ^ 8 else 2 ^ 16)
    (h : s.ahead (q.flatMap fun e => if narrow then [BitVec.ofNat 8 e] else bytes16 (BitVec.ofNat 16 e))) :
    readEntries (!narrow) q.length s = .ok q
      (afterBytes (q.flatMap fun e => if narrow then [BitVec.ofNat 8 e] else bytes16 (BitVec.ofNat 16 e)) s) := by
  induction q generalizing s with
  | nil => simp [readEntries, afterBytes_nil hs]
  | cons e q ih =>
    rw [List.flatMap_cons] at h ⊢
    obtain ⟨h1, h2⟩ := State.ahead_append h
    have he := hq e (by simp)
    have hr : readEntry (!narrow) s =
        .ok e (afterBytes (if narrow then [BitVec.ofNat 8 e] else bytes16 (BitVec.ofNat 16 e)) s) := by
      cases narrow
      · simp at h1 he
        simp [readEntry, readUint16_ahead h1, he]
      · simp at h1 he
        simp [readEntry, readField_ahead h1, he]
    rw [List.length_cons, readEntries_succ, hr, Res.bind_ok, ih _ rfl (fun e he => hq e (by simp [he])) h2, Res.bind_ok,
      afterBytes_append]

theorem quantBytes_length {t : QuantTable} (h : t.good) : (quantBytes t).length = 1 + 64 * (1 + t.pq.toNat) := by
  have hl := h.1
  simp only [quantBytes, List.length_cons, List.length_flatMap]
  rcases bit_cases t.pq with hp | hp
  · simp [hp, hl]
  · simp [hp, hl, bytes16]

theorem packed_nibbles (a : BitVec 1) (b : BitVec 2) :
    highNibble ((0#3 ++ a) ++ (0#2 ++ b) : BitVec 8) = 0#3 ++ a ∧
    lowNibble ((0#3 ++ a) ++ (0#2 ++ b) : BitVec 8) = 0#2 ++ b ∧
    (0#3 ++ a : BitVec 4).toNat = a.toNat ∧ (0#2 ++ b : BitVec 4).toNat = b.toNat ∧
    (0#3 ++ a : BitVec 4).setWidth 1 = a ∧ (0#2 ++ b : BitVec 4).setWidth 2 = b ∧
    ((0#3 ++ a : BitVec 4) != 0#4) = !decide (a = 0#1) := by
  revert a b; decide

theorem storeQuant_congr (t : QuantTable) :
    (⟨(0#3 ++ t.pq : BitVec 4).setWidth 1, (0#2 ++ t.tq : BitVec 4).setWidth 2, t.q⟩ : QuantTable) = t := by
  obtain ⟨_, _, _, _, h5, h6, _⟩ := packed_nibbles t.pq t.tq
  rw [h5, h6]

theorem regionUpdate_pbArmed (f : MiscTables → MiscTables) (s : State) :
    (regionUpdate f s).pbArmed = s.pbArmed := by
  unfold regionUpdate; split <;> rfl

/-- A DQT loop over whole tables stores each in its slot, in order (42_tablestore.md R180). -/
theorem readDQTLoop_ahead (tables : List QuantTable) (fuel : Nat) (s : State) (hs : s.pbArmed = false)
    (hg : ∀ t ∈ tables, t.good) (hf : tables.length ≤ fuel) (h : s.ahead (tables.flatMap quantBytes)) :
    readDQTLoop fuel (tables.flatMap quantBytes).length s = .ok ()
      (regionUpdate (fun m => tables.foldl (fun m t => storeQuant t m) m) (afterBytes (tables.flatMap quantBytes) s)) := by
  induction tables generalizing fuel s with
  | nil =>
    simp only [List.flatMap_nil, List.length_nil, List.foldl_nil, afterBytes_nil hs, regionUpdate_id]
    cases fuel <;> rfl
  | cons t tables ih =>
    obtain ⟨fuel, rfl⟩ := Nat.exists_eq_succ_of_ne_zero (n := fuel) (by simp at hf; omega)
    have hgt := hg t (by simp)
    have hlen := quantBytes_length hgt
    rw [List.flatMap_cons] at h ⊢
    obtain ⟨h1, h2⟩ := State.ahead_append h
    obtain ⟨p1, p2, p3, p4, p5, p6, p7⟩ := packed_nibbles t.pq t.tq
    obtain ⟨h3, h4⟩ := State.ahead_append (l := [((0#3 ++ t.pq) ++ (0#2 ++ t.tq) : BitVec 8)])
      (m := t.q.flatMap fun e => if t.pq = 0#1 then [BitVec.ofNat 8 e] else bytes16 (BitVec.ofNat 16 e)) h1
    have hq := readEntries_ahead (decide (t.pq = 0#1)) t.q _ rfl (by simpa using hgt.2) (by simpa using h4)
    rw [Nat.succ_eq_add_one, readDQTLoop, if_neg (by rw [List.length_append]; omega), readField_ahead h3, Res.bind_ok]
    dsimp only
    rw [p1, p2, p3, p4, if_neg (by have := t.pq.isLt; have := t.tq.isLt; omega),
      if_neg (by rw [List.length_append]; omega), p7, ← hgt.1, hq, Res.bind_ok, hgt.1, storeQuant_congr,
      List.length_append, hlen, Nat.add_sub_cancel_left]
    rw [ih fuel _ (by rw [regionUpdate_pbArmed]; rfl) (fun t ht => hg t (by simp [ht])) (by simpa using hf)]
    · simp only [regionUpdate_afterBytes, regionUpdate_comp, decide_eq_true_eq]
      rw [afterBytes_append, afterBytes_append]
      rfl
    · refine (ahead_congr ?_ ?_ ?_).2 h2 <;> simp [afterBytes_append, quantBytes]

theorem readDQT_ahead (tables : List QuantTable) (s : State) (hg : ∀ t ∈ tables, t.good)
    (hn : 2 + (tables.flatMap quantBytes).length < 65536)
    (h : s.ahead (bytes16 (BitVec.ofNat 16 (2 + (tables.flatMap quantBytes).length)) ++ tables.flatMap quantBytes)) :
    readDQT s = .ok () (regionUpdate (fun m => tables.foldl (fun m t => storeQuant t m) m)
      (afterBytes (bytes16 (BitVec.ofNat 16 (2 + (tables.flatMap quantBytes).length)) ++ tables.flatMap quantBytes) s)) := by
  obtain ⟨h1, h2⟩ := State.ahead_append h
  have hf : tables.length ≤ (tables.flatMap quantBytes).length := by
    clear h h1 h2 hn hg
    induction tables with
    | nil => simp
    | cons t l ih => simp [quantBytes] at ih ⊢; omega
  rw [readDQT, readLength_ahead (by omega) hn h1, Res.bind_ok, Nat.add_sub_cancel_left,
    readDQTLoop_ahead tables _ _ rfl hg hf h2, afterBytes_append]

/-- A DHT loop over whole tables builds and stores each in its slot, in order (42_tablestore.md R185). -/
theorem readDHTLoop_ahead (tables : List HuffSpec) (fuel : Nat) (s : State) (hs : s.pbArmed = false)
    (hg : ∀ t ∈ tables, t.good ∧ t.bits.sum ≤ s.params.huffvalMax) (hf : tables.length ≤ fuel)
    (h : s.ahead (tables.flatMap HuffSpec.bytes)) :
    readDHTLoop fuel (tables.flatMap HuffSpec.bytes).length s = .ok ()
      (regionUpdate (fun m => tables.foldl (fun m t => storeHuff t.table m) m)
        (afterBytes (tables.flatMap HuffSpec.bytes) s)) := by
  induction tables generalizing fuel s with
  | nil =>
    simp only [List.flatMap_nil, List.length_nil, List.foldl_nil, afterBytes_nil hs, regionUpdate_id]
    cases fuel <;> rfl
  | cons t tables ih =>
    obtain ⟨fuel, rfl⟩ := Nat.exists_eq_succ_of_ne_zero (n := fuel) (by simp at hf; omega)
    obtain ⟨⟨hc, hv⟩, hmax⟩ := hg t (by simp)
    have hlen : t.bytes.length = 17 + t.bits.sum := by simp [HuffSpec.bytes, hc, hv]; omega
    rw [List.flatMap_cons] at h ⊢
    obtain ⟨h1, h2⟩ := State.ahead_append h
    obtain ⟨p1, p2, p3, p4, p5, p6, p7⟩ := packed_nibbles t.tc t.th
    obtain ⟨h3, h4⟩ := State.ahead_append (l := [((0#3 ++ t.tc) ++ (0#2 ++ t.th) : BitVec 8)])
      (m := t.counts ++ t.huffval) h1
    obtain ⟨h5, h6⟩ := State.ahead_append h4
    have hr5 := readBytes_ahead h5
    have hr6 := readBytes_ahead h6
    rw [hc] at hr5
    rw [hv] at hr6
    rw [Nat.succ_eq_add_one, readDHTLoop, if_neg (by rw [List.length_append]; omega),
      if_neg (by rw [List.length_append]; omega), readField_ahead h3, Res.bind_ok]
    dsimp only
    rw [p1, p2, p3, p4, if_neg (by have := t.tc.isLt; have := t.th.isLt; omega), hr5, Res.bind_ok]
    have hb : (t.counts.map BitVec.toNat).sum = t.bits.sum := rfl
    rw [hb, if_neg (by simpa using hmax), if_neg (by rw [List.length_append]; omega), hr6, Res.bind_ok, p5, p6,
      List.length_append, hlen, Nat.add_sub_cancel_left]
    rw [ih fuel _ (by rw [regionUpdate_pbArmed]; rfl) (fun t ht => by simpa using hg t (by simp [ht])) (by simpa using hf)]
    · simp only [regionUpdate_afterBytes, regionUpdate_comp, afterBytes_append]
      rfl
    · refine (ahead_congr ?_ ?_ ?_).2 h2 <;> simp [afterBytes_append, HuffSpec.bytes]

theorem readDHT_ahead (tables : List HuffSpec) (s : State)
    (hg : ∀ t ∈ tables, t.good ∧ t.bits.sum ≤ s.params.huffvalMax)
    (hn : 2 + (tables.flatMap HuffSpec.bytes).length < 65536)
    (h : s.ahead (bytes16 (BitVec.ofNat 16 (2 + (tables.flatMap HuffSpec.bytes).length)) ++
      tables.flatMap HuffSpec.bytes)) :
    readDHT s = .ok () (regionUpdate (fun m => tables.foldl (fun m t => storeHuff t.table m) m)
      (afterBytes (bytes16 (BitVec.ofNat 16 (2 + (tables.flatMap HuffSpec.bytes).length)) ++
        tables.flatMap HuffSpec.bytes) s)) := by
  obtain ⟨h1, h2⟩ := State.ahead_append h
  have hf : tables.length ≤ (tables.flatMap HuffSpec.bytes).length := by
    clear h h1 h2 hn hg
    induction tables with
    | nil => simp
    | cons t l ih => simp [HuffSpec.bytes] at ih ⊢; omega
  rw [readDHT, readLength_ahead (by omega) hn h1, Res.bind_ok, Nat.add_sub_cancel_left,
    readDHTLoop_ahead tables _ (afterBytes _ s) rfl hg hf h2, afterBytes_append]

theorem readDRI_ahead {ri : BitVec 16} {s : State} (h : s.ahead (bytes16 4#16 ++ bytes16 ri)) :
    readDRI s = .ok () (regionUpdate (fun m => { m with interval := (ri.toNat : Int) })
      (afterBytes (bytes16 4#16 ++ bytes16 ri) s)) := by
  obtain ⟨h1, h2⟩ := State.ahead_append h
  rw [readDRI, readUint16_ahead h1, Res.bind_ok, if_neg (by simp), readUint16_ahead h2, Res.bind_ok, afterBytes_append]

theorem readDNLbody_ahead {nl : BitVec 16} {s : State} (h : s.ahead (bytes16 4#16 ++ bytes16 nl)) :
    readDNLbody s = .ok () { afterBytes (bytes16 4#16 ++ bytes16 nl) s with dnlSeen := true, dnlNl := nl } := by
  obtain ⟨h1, h2⟩ := State.ahead_append h
  rw [readDNLbody, readUint16_ahead h1, Res.bind_ok, if_neg (by simp), readUint16_ahead h2, Res.bind_ok, afterBytes_append]

theorem skipSegment_ahead {m : Marker} {bytes : List Byte} {s : State} (hn : 2 + bytes.length < 65536)
    (h : s.ahead (bytes16 (BitVec.ofNat 16 (2 + bytes.length)) ++ bytes)) :
    skipSegment m s = .ok () (emitAux ⟨m, bytes⟩ (afterBytes (bytes16 (BitVec.ofNat 16 (2 + bytes.length)) ++ bytes) s)) := by
  obtain ⟨h1, h2⟩ := State.ahead_append h
  rw [skipSegment, readLength_ahead (by omega) hn h1, Res.bind_ok, Nat.add_sub_cancel_left, readBytes_ahead h2, Res.bind_ok,
    afterBytes_append]

/-! ## Segments cut short (60_exceptions.md R324) -/

theorem readLength_cutShort {s : State} {w : BitVec 16} (h : s.cutShort (bytes16 w)) : (readLength s).RanOut s :=
  (readUint16_cutShort h).bind _

/-- The body of a DRI or a DNL segment ends before its length is read, or, the length being 4, before its value is. -/
theorem readDRI_cutShort {s : State} {len v : BitVec 16}
    (h : s.cutShort (bytes16 len) ∨ s.cutShort (bytes16 4#16 ++ bytes16 v)) : (readDRI s).RanOut s := by
  have h' : s.cutShort (bytes16 len) ∨ s.cutShort (bytes16 4#16) ∨
      (s.ahead (bytes16 4#16) ∧ (afterBytes (bytes16 4#16) s).cutShort (bytes16 v)) := h.imp_right State.cutShort_append
  rcases h' with h | h | ⟨ha, h⟩
  · exact (readUint16_cutShort h).bind _
  · exact (readUint16_cutShort h).bind _
  · rw [readDRI, readUint16_ahead ha, Res.bind_ok, if_neg (by simp)]
    exact ((readUint16_cutShort h).bind _).of_afterBytes

theorem readDNLbody_cutShort {s : State} {len v : BitVec 16}
    (h : s.cutShort (bytes16 len) ∨ s.cutShort (bytes16 4#16 ++ bytes16 v)) : (readDNLbody s).RanOut s := by
  have h' : s.cutShort (bytes16 len) ∨ s.cutShort (bytes16 4#16) ∨
      (s.ahead (bytes16 4#16) ∧ (afterBytes (bytes16 4#16) s).cutShort (bytes16 v)) := h.imp_right State.cutShort_append
  rcases h' with h | h | ⟨ha, h⟩
  · exact (readUint16_cutShort h).bind _
  · exact (readUint16_cutShort h).bind _
  · rw [readDNLbody, readUint16_ahead ha, Res.bind_ok, if_neg (by simp)]
    exact ((readUint16_cutShort h).bind _).of_afterBytes

theorem skipSegment_cutShort {m : Marker} {s : State} {len : BitVec 16} {bytes : List Byte}
    (hl : 2 + bytes.length = len.toNat) (h : s.cutShort (bytes16 len ++ bytes)) : (skipSegment m s).RanOut s := by
  rcases State.cutShort_append h with h | ⟨ha, h⟩
  · exact (readLength_cutShort h).bind _
  · rw [skipSegment, readLength, readUint16_ahead ha, Res.bind_ok, if_neg (by omega), Res.bind_ok,
      show len.toNat - 2 = bytes.length by omega]
    exact ((readBytes_cutShort h).bind _).of_afterBytes

/-- One table of a DQT segment ends before its last byte. -/
theorem readEntries_cutShort {s : State} (byte : Bool) (q : List Nat)
    (h : s.cutShort (q.flatMap fun e => if byte then [BitVec.ofNat 8 e] else bytes16 (BitVec.ofNat 16 e))) :
    (readEntries (!byte) q.length s).RanOut s := by
  induction q generalizing s with
  | nil => exact absurd (List.prefix_nil.1 (by simpa using h.1)) (by simpa using h.2)
  | cons e q ih =>
    rw [List.flatMap_cons] at h
    rw [List.length_cons, readEntries]
    cases byte with
    | true =>
      simp only [if_true] at h ih
      rcases State.cutShort_append h with h | ⟨ha, h⟩
      · exact ((readField_cutShort h).bind _).bind _
      · simp only [Bool.not_true, Bool.false_eq_true, if_false, readField_ahead ha, Res.bind_ok]
        exact ((ih h).bind _).of_afterBytes
    | false =>
      simp only [Bool.false_eq_true, if_false] at h ih
      rcases State.cutShort_append h with h | ⟨ha, h⟩
      · exact ((readUint16_cutShort h).bind _).bind _
      · simp only [Bool.not_false, if_true, readUint16_ahead ha, Res.bind_ok]
        exact ((ih h).bind _).of_afterBytes

end Sys2Proof.Machine
end

