-- ==== Sys2Proof/Laws/Headers.lean ====
section
/-! SUPPORT. What the header parser can do (44_headers.md): the registers each parser changes, what a whole header gives, the
bindings, the derived sizes. -/

namespace Sys2Proof.Machine

/-! ## Ceiling division and padding (00_scope.md R9, 30_encoding.md R120) -/

theorem ceilDiv_le_iff {a b c : Nat} (hb : 0 < b) : ceilDiv a b ≤ c ↔ a ≤ b * c := by
  unfold ceilDiv
  rw [Nat.div_le_iff_le_mul hb]
  have := Nat.mul_comm b c
  omega

theorem padding_div {u n : Nat} (hu : 0 < u) : padding u n / u = ceilDiv n u := Nat.mul_div_cancel _ hu

/-- `ceil(ceil(a/b)/c) = ceil(a/(b·c))` in the form of 44_headers.md R223. -/
theorem ceilDiv_derived {x h m : Nat} (hh : 0 < h) (hm : 0 < m) :
    ceilDiv (ceilDiv (x * h) m) (8 * h) = ceilDiv x (8 * m) := by
  have key : ∀ c, ceilDiv (ceilDiv (x * h) m) (8 * h) ≤ c ↔ ceilDiv x (8 * m) ≤ c := fun c => by
    rw [ceilDiv_le_iff (by omega), ceilDiv_le_iff hm, ceilDiv_le_iff (by omega),
      show m * (8 * h * c) = 8 * m * c * h by ring, Nat.mul_le_mul_right_iff hh]
  exact le_antisymm ((key _).2 le_rfl) ((key _).1 le_rfl)

/-! ## The largest factor -/

theorem foldl_maxFactor (l : List (BitVec 4)) (a : BitVec 4) :
    (l.foldl maxFactor a = a ∨ l.foldl maxFactor a ∈ l) ∧ a.toNat ≤ (l.foldl maxFactor a).toNat ∧
    ∀ b ∈ l, b.toNat ≤ (l.foldl maxFactor a).toNat := by
  induction l generalizing a with
  | nil => simp
  | cons c l ih =>
    obtain ⟨h1, h2, h3⟩ := ih (maxFactor a c)
    rw [List.foldl_cons]
    have hm : a.toNat ≤ (maxFactor a c).toNat ∧ c.toNat ≤ (maxFactor a c).toNat ∧
        (maxFactor a c = a ∨ maxFactor a c = c) := by
      unfold maxFactor
      split
      · exact ⟨by omega, le_rfl, .inr rfl⟩
      · exact ⟨le_rfl, by omega, .inl rfl⟩
    refine ⟨?_, hm.1.trans h2, fun b hb => ?_⟩
    · rcases h1 with h1 | h1
      · rcases hm.2.2 with h | h
        · left; rw [h1, h]
        · right; rw [h1, h]; exact List.mem_cons_self
      · right; exact List.mem_cons_of_mem _ h1
    · rcases List.mem_cons.1 hb with rfl | hb
      · exact hm.2.1.trans h2
      · exact h3 b hb

theorem maxFactors_isMax {l : List (BitVec 4)} (hl : l ≠ []) (h0 : ∀ a ∈ l, a ≠ 0#4) : isMax (maxFactors l) l := by
  obtain ⟨h1, -, h3⟩ := foldl_maxFactor l 0#4
  refine ⟨?_, h3⟩
  rcases h1 with h1 | h1
  · obtain ⟨a, l', rfl⟩ := List.exists_cons_of_ne_nil hl
    have := h3 a (by simp)
    rw [h1] at this
    refine absurd (BitVec.eq_of_toNat_eq ?_) (h0 a (by simp))
    simp at this ⊢
    omega
  · exact h1

theorem isMax_unique {m m' : BitVec 4} {l : List (BitVec 4)} (h : isMax m l) (h' : isMax m' l) : m = m' :=
  BitVec.eq_of_toNat_eq (le_antisymm (h'.2 m h.1) (h.2 m' h'.1))

/-! ## The frame header -/

theorem readFrameComps_frame (n : Nat) (s : State) : StreamFrame s (readFrameComps n s).final := by
  induction n generalizing s with
  | zero => exact StreamFrame.refl s
  | succ n ih =>
    refine Res.final_bind StreamFrame StreamFrame.trans (readBytes_frame 3 s) fun l t _ => ?_
    dsimp only
    split
    · exact StreamFrame.refl t
    · exact Res.final_bind StreamFrame StreamFrame.trans (ih t) fun _ u _ => StreamFrame.refl u

theorem readFrameComps_raises (n : Nat) (s : State) : (readFrameComps n s).Raises := by
  induction n generalizing s with
  | zero => exact Res.Raises.ok _ _
  | succ n ih =>
    refine Res.Raises.bind (readBytes_raises 3 s) fun l t _ => ?_
    dsimp only
    split
    · exact Res.Raises.raise _ _ _
    · exact Res.Raises.bind (ih t) fun _ u _ => Res.Raises.ok _ u

theorem readFrameComps_ok {n : Nat} {s t : State} {l : List FrameComp} (h : readFrameComps n s = .ok l t) :
    l.length = n ∧ ∀ c ∈ l, c.h ≠ 0#4 ∧ c.v ≠ 0#4 := by
  induction n generalizing s t l with
  | zero => cases h; simp
  | succ n ih =>
    obtain ⟨b, u, _, h⟩ := Res.bind_eq_ok.1 h
    dsimp only at h
    split at h
    · cases h
    · rename_i hc
      obtain ⟨cs, v, hv, h⟩ := Res.bind_eq_ok.1 h
      cases h
      obtain ⟨h1, h2⟩ := ih hv
      refine ⟨by simp [h1], fun c hm => ?_⟩
      rcases List.mem_cons.1 hm with rfl | hm
      · exact not_or.1 hc
      · exact h2 c hm

/-- What `readFrameHeader` does: the stream moves; `FH` is written only by a whole header (44_headers.md R221). -/
theorem readFrameHeader_ok {m : Marker} {s t : State} (hm : m ∈ s.params.sofAccept)
    (h : readFrameHeader m s = .ok () t) :
    ∃ u f, StreamFrame s u ∧ (s.pos ≤ s.input.length → s.pos + 2 ≤ u.pos) ∧ f.Good s.params ∧ t = { u with fh := f, fhV := true } := by
  obtain ⟨lf, s₁, h₁, h⟩ := Res.bind_eq_ok.1 h
  obtain ⟨p, s₂, h₂, h⟩ := Res.bind_eq_ok.1 h
  obtain ⟨y, s₃, h₃, h⟩ := Res.bind_eq_ok.1 h
  obtain ⟨x, s₄, h₄, h⟩ := Res.bind_eq_ok.1 h
  obtain ⟨nf, s₅, h₅, h⟩ := Res.bind_eq_ok.1 h
  split at h
  · cases h
  · split at h
    · cases h
    · split at h
      · cases h
      · rename_i hn hc hp
        obtain ⟨cs, s₆, h₆, h⟩ := Res.bind_eq_ok.1 h
        cases h
        have f₁ := readUint16_frame s
        have f₂ := readField_frame s₁
        have f₃ := readUint16_frame s₂
        have f₄ := readUint16_frame s₃
        have f₅ := readField_frame s₄
        have f₆ := readFrameComps_frame nf.toNat s₅
        rw [h₁] at f₁; rw [h₂] at f₂; rw [h₃] at f₃; rw [h₄] at f₄; rw [h₅] at f₅; rw [h₆] at f₆
        have f₅' := (((f₁.trans f₂).trans f₃).trans f₄).trans f₅
        have e : s₅.params = s.params := f₅'.params
        obtain ⟨hlen, hcs⟩ := readFrameComps_ok h₆
        have hpos := readUint16_pos h₁
        have hne : cs ≠ [] := by intro h; rw [h] at hlen; simp at hlen; omega
        have hd : ∀ (hm vm : BitVec 4), (cs.map (deriveSize x y hm vm)).map FrameComp.h = cs.map FrameComp.h ∧
            (cs.map (deriveSize x y hm vm)).map FrameComp.v = cs.map FrameComp.v :=
          fun hm vm => ⟨by simp [Function.comp_def, deriveSize], by simp [Function.comp_def, deriveSize]⟩
        refine ⟨s₆, _, f₅'.trans f₆, ?_, ⟨hm, ?_, ⟨?_, ?_, ?_⟩, ?_, ?_, ?_, ?_⟩, rfl⟩
        · intro hs
          have g₁ := f₁.mono hs
          have := ((((f₂.trans f₃).trans f₄).trans f₅).trans f₆).mono g₁.2
          exact hpos.trans this.1
        · rw [← e]; simpa [frameHeaderOf] using hp
        · simp [frameHeaderOf, hlen]
        · simp [frameHeaderOf]; omega
        · rw [← e]; simp [frameHeaderOf]; omega
        · intro c hc
          simp only [frameHeaderOf, List.mem_map] at hc
          obtain ⟨c', hc', rfl⟩ := hc
          exact hcs c' hc'
        · simp only [frameHeaderOf, (hd _ _).1]
          exact maxFactors_isMax (by simpa using hne) (by simpa using fun c hc => (hcs c hc).1)
        · simp only [frameHeaderOf, (hd _ _).2]
          exact maxFactors_isMax (by simpa using hne) (by simpa using fun c hc => (hcs c hc).2)
        · intro c hc
          simp only [frameHeaderOf, List.mem_map] at hc
          obtain ⟨c', _, rfl⟩ := hc
          exact ⟨rfl, rfl⟩

theorem readFrameHeader_raises (m : Marker) (s : State) : (readFrameHeader m s).Raises :=
  Res.Raises.bind (readUint16_raises s) fun _ s₁ _ => Res.Raises.bind (readField_raises s₁) fun _ s₂ _ =>
  Res.Raises.bind (readUint16_raises s₂) fun _ s₃ _ => Res.Raises.bind (readUint16_raises s₃) fun _ s₄ _ =>
  Res.Raises.bind (readField_raises s₄) fun _ s₅ _ => by
    split
    · exact Res.Raises.raise _ _ _
    · split
      · exact Res.Raises.raise _ _ _
      · split
        · exact Res.Raises.raise _ _ _
        · exact Res.Raises.bind (readFrameComps_raises _ s₅) fun _ _ _ => Res.Raises.ok _ _

theorem readFrameHeader_stop {m : Marker} {s t : State} {c : Stop} (h : readFrameHeader m s = .stop c t) :
    StreamFrame s t := by
  have f₁ := readUint16_frame s
  rcases Res.bind_eq_stop.1 h with h | ⟨lf, s₁, h₁, h⟩
  · rw [h] at f₁; exact f₁
  rw [h₁] at f₁
  have f₂ := readField_frame s₁
  rcases Res.bind_eq_stop.1 h with h | ⟨p, s₂, h₂, h⟩
  · rw [h] at f₂; exact f₁.trans f₂
  rw [h₂] at f₂
  have f₃ := readUint16_frame s₂
  rcases Res.bind_eq_stop.1 h with h | ⟨y, s₃, h₃, h⟩
  · rw [h] at f₃; exact (f₁.trans f₂).trans f₃
  rw [h₃] at f₃
  have f₄ := readUint16_frame s₃
  rcases Res.bind_eq_stop.1 h with h | ⟨x, s₄, h₄, h⟩
  · rw [h] at f₄; exact ((f₁.trans f₂).trans f₃).trans f₄
  rw [h₄] at f₄
  have f₅ := readField_frame s₄
  rcases Res.bind_eq_stop.1 h with h | ⟨nf, s₅, h₅, h⟩
  · rw [h] at f₅; exact (((f₁.trans f₂).trans f₃).trans f₄).trans f₅
  rw [h₅] at f₅
  have f := (((f₁.trans f₂).trans f₃).trans f₄).trans f₅
  split at h
  · cases h; exact f
  · split at h
    · cases h; exact f
    · split at h
      · cases h; exact f
      · have f₆ := readFrameComps_frame nf.toNat s₅
        rcases Res.bind_eq_stop.1 h with h | ⟨cs, s₆, h₆, h⟩
        · rw [h] at f₆; exact f.trans f₆
        · cases h

theorem nibbles_append (a b : BitVec 4) : highNibble (a ++ b) = a ∧ lowNibble (a ++ b) = b := by
  revert a b; decide

theorem readFrameComps_ahead (comps : List FrameComp) (s : State) (hs : s.pbArmed = false)
    (hc : ∀ c ∈ comps, c.h ≠ 0#4 ∧ c.v ≠ 0#4) (h : s.ahead (comps.flatMap FrameComp.bytes)) :
    readFrameComps comps.length s =
      .ok (comps.map fun c => { c with width := 0, height := 0 }) (afterBytes (comps.flatMap FrameComp.bytes) s) := by
  induction comps generalizing s with
  | nil => simp [readFrameComps, afterBytes_nil hs]
  | cons c comps ih =>
    rw [List.flatMap_cons] at h ⊢
    obtain ⟨h1, h2⟩ := State.ahead_append h
    have hr := readBytes_ahead h1
    rw [show c.bytes.length = 3 from rfl] at hr
    obtain ⟨hc1, hc2⟩ := hc c (by simp)
    rw [List.length_cons, readFrameComps, hr, Res.bind_ok]
    simp only [FrameComp.bytes, List.getD_cons_zero, List.getD_cons_succ, (nibbles_append c.h c.v).1,
      (nibbles_append c.h c.v).2, hc1, hc2, or_self, if_false]
    rw [ih _ rfl (fun c hm => hc c (by simp [hm])) (by simpa [FrameComp.bytes] using h2)]
    simp [afterBytes_append]

theorem readFrameHeader_ahead {m : Marker} {p : Byte} {y x : BitVec 16} {comps : List FrameComp} {hmax vmax : BitVec 4}
    {s : State} (h1 : 1 ≤ comps.length) (h255 : comps.length ≤ 255) (hn : comps.length ≤ s.params.ncompMax)
    (hp : p.toNat ∈ s.params.precisions) (hc : ∀ c ∈ comps, c.h ≠ 0#4 ∧ c.v ≠ 0#4)
    (hh : isMax hmax (comps.map FrameComp.h)) (hv : isMax vmax (comps.map FrameComp.v))
    (h : s.ahead (frameBytes p y x comps)) :
    readFrameHeader m s = .ok () { afterBytes (frameBytes p y x comps) s with
      fh := ⟨m, p, y, x, BitVec.ofNat 8 comps.length, comps.map (deriveSize x y hmax vmax), hmax, vmax⟩
      fhV := true } := by
  unfold frameBytes at h ⊢
  obtain ⟨h, h6⟩ := State.ahead_append h
  obtain ⟨h, h5⟩ := State.ahead_append h
  obtain ⟨h, h4⟩ := State.ahead_append h
  obtain ⟨h, h3⟩ := State.ahead_append h
  obtain ⟨h, h2⟩ := State.ahead_append h
  have hne : comps ≠ [] := by intro h; simp [h] at h1
  have eh : maxFactors (comps.map FrameComp.h) = hmax :=
    isMax_unique (maxFactors_isMax (by simpa using hne) (by simpa using fun c hm => (hc c hm).1)) hh
  have ev : maxFactors (comps.map FrameComp.v) = vmax :=
    isMax_unique (maxFactors_isMax (by simpa using hne) (by simpa using fun c hm => (hc c hm).2)) hv
  have e8 : (BitVec.ofNat 8 comps.length).toNat = comps.length := by simp; omega
  have hc6 := readFrameComps_ahead comps _ rfl hc h6
  have eh' : (comps.map fun c => { c with width := 0, height := 0 }).map FrameComp.h = comps.map FrameComp.h := by
    simp [Function.comp_def]
  have ev' : (comps.map fun c => { c with width := 0, height := 0 }).map FrameComp.v = comps.map FrameComp.v := by
    simp [Function.comp_def]
  simp only [← afterBytes_append] at h3 h4 h5 h6 hc6 ⊢
  rw [readFrameHeader, readUint16_ahead h, Res.bind_ok, readField_ahead h2, Res.bind_ok,
    readUint16_ahead h3, Res.bind_ok, readUint16_ahead h4, Res.bind_ok, readField_ahead h5, Res.bind_ok, e8,
    be16_toNat _ (by omega), if_neg (by omega), if_neg (by simpa using hn), if_neg (by simpa using hp), hc6, Res.bind_ok,
    frameHeaderOf, eh', ev', eh, ev]
  simp [Function.comp_def, deriveSize]

/-! ## The scan header -/

theorem readScanComps_frame (n : Nat) (s : State) : StreamFrame s (readScanComps n s).final := by
  induction n generalizing s with
  | zero => exact StreamFrame.refl s
  | succ n ih =>
    exact Res.final_bind StreamFrame StreamFrame.trans (readBytes_frame 2 s) fun l t _ =>
      Res.final_bind StreamFrame StreamFrame.trans (ih t) fun _ u _ => StreamFrame.refl u

theorem readScanComps_raises (n : Nat) (s : State) : (readScanComps n s).Raises := by
  induction n generalizing s with
  | zero => exact Res.Raises.ok _ _
  | succ n ih =>
    exact Res.Raises.bind (readBytes_raises 2 s) fun l t _ => Res.Raises.bind (ih t) fun _ u _ => Res.Raises.ok _ u

theorem readScanComps_length {n : Nat} {s t : State} {l : List ScanComp} (h : readScanComps n s = .ok l t) :
    l.length = n := by
  induction n generalizing s t l with
  | zero => cases h; rfl
  | succ n ih =>
    obtain ⟨b, u, _, h⟩ := Res.bind_eq_ok.1 h
    obtain ⟨cs, v, hv, h⟩ := Res.bind_eq_ok.1 h
    cases h
    simp [ih hv]

/-- What `readScanHeader` does: the stream moves; `SH` is written only by a whole header (44_headers.md R226). -/
theorem readScanHeader_ok {s t : State} (h : readScanHeader s = .ok () t) :
    ∃ u sh, StreamFrame s u ∧ (s.pos ≤ s.input.length → s.pos + 2 ≤ u.pos) ∧
      sh.comp.length = sh.ns.toNat ∧ 1 ≤ sh.ns.toNat ∧ sh.ns.toNat ≤ s.params.ncompMax ∧ t = { u with sh := sh } := by
  obtain ⟨ls, s₁, h₁, h⟩ := Res.bind_eq_ok.1 h
  obtain ⟨ns, s₂, h₂, h⟩ := Res.bind_eq_ok.1 h
  split at h
  · cases h
  · split at h
    · cases h
    · rename_i hn hc
      obtain ⟨cs, s₃, h₃, h⟩ := Res.bind_eq_ok.1 h
      obtain ⟨l, s₄, h₄, h⟩ := Res.bind_eq_ok.1 h
      cases h
      have f₁ := readUint16_frame s
      have f₂ := readField_frame s₁
      have f₃ := readScanComps_frame ns.toNat s₂
      have f₄ := readBytes_frame 3 s₃
      rw [h₁] at f₁; rw [h₂] at f₂; rw [h₃] at f₃; rw [h₄] at f₄
      refine ⟨s₄, _, ((f₁.trans f₂).trans f₃).trans f₄, fun hs => ?_, readScanComps_length h₃, ?_, ?_, rfl⟩
      · have := ((f₂.trans f₃).trans f₄).mono (f₁.mono hs).2
        exact (readUint16_pos h₁).trans this.1
      · dsimp only; omega
      · have e : s₂.params = s.params := (f₁.trans f₂).params
        rw [← e]; dsimp only; omega

theorem readScanHeader_raises (s : State) : (readScanHeader s).Raises :=
  Res.Raises.bind (readUint16_raises s) fun _ s₁ _ => Res.Raises.bind (readField_raises s₁) fun _ s₂ _ => by
    split
    · exact Res.Raises.raise _ _ _
    · split
      · exact Res.Raises.raise _ _ _
      · exact Res.Raises.bind (readScanComps_raises _ s₂) fun _ s₃ _ => Res.Raises.bind (readBytes_raises 3 s₃)
          fun _ _ _ => Res.Raises.ok _ _

theorem readScanHeader_stop {s t : State} {c : Stop} (h : readScanHeader s = .stop c t) : StreamFrame s t := by
  have f₁ := readUint16_frame s
  rcases Res.bind_eq_stop.1 h with h | ⟨ls, s₁, h₁, h⟩
  · rw [h] at f₁; exact f₁
  rw [h₁] at f₁
  have f₂ := readField_frame s₁
  rcases Res.bind_eq_stop.1 h with h | ⟨ns, s₂, h₂, h⟩
  · rw [h] at f₂; exact f₁.trans f₂
  rw [h₂] at f₂
  split at h
  · cases h; exact f₁.trans f₂
  · split at h
    · cases h; exact f₁.trans f₂
    · have f₃ := readScanComps_frame ns.toNat s₂
      rcases Res.bind_eq_stop.1 h with h | ⟨cs, s₃, h₃, h⟩
      · rw [h] at f₃; exact (f₁.trans f₂).trans f₃
      rw [h₃] at f₃
      have f₄ := readBytes_frame 3 s₃
      rcases Res.bind_eq_stop.1 h with h | ⟨l, s₄, h₄, h⟩
      · rw [h] at f₄; exact ((f₁.trans f₂).trans f₃).trans f₄
      · cases h

theorem readScanComps_ahead (comps : List ScanComp) (s : State) (hs : s.pbArmed = false)
    (h : s.ahead (comps.flatMap fun c => [c.cs, c.td ++ c.ta])) :
    readScanComps comps.length s = .ok comps (afterBytes (comps.flatMap fun c => [c.cs, c.td ++ c.ta]) s) := by
  induction comps generalizing s with
  | nil => simp [readScanComps, afterBytes_nil hs]
  | cons c comps ih =>
    rw [List.flatMap_cons] at h ⊢
    obtain ⟨h1, h2⟩ := State.ahead_append h
    have hr := readBytes_ahead h1
    rw [show [c.cs, c.td ++ c.ta].length = 2 from rfl] at hr
    rw [List.length_cons, readScanComps, hr, Res.bind_ok]
    simp only [List.getD_cons_zero, List.getD_cons_succ, (nibbles_append c.td c.ta).1, (nibbles_append c.td c.ta).2]
    rw [ih _ rfl h2]
    simp [afterBytes_append]

theorem readScanHeader_ahead {comps : List ScanComp} {ss se : Byte} {ah al : BitVec 4} {s : State}
    (h1 : 1 ≤ comps.length) (h255 : comps.length ≤ 255) (hn : comps.length ≤ s.params.ncompMax)
    (h : s.ahead (scanBytes comps ss se ah al)) :
    readScanHeader s = .ok () { afterBytes (scanBytes comps ss se ah al) s with
      sh := ⟨BitVec.ofNat 8 comps.length, comps, ss, se, ah, al⟩ } := by
  unfold scanBytes at h ⊢
  obtain ⟨h, h4⟩ := State.ahead_append h
  obtain ⟨h, h3⟩ := State.ahead_append h
  obtain ⟨h, h2⟩ := State.ahead_append h
  have e8 : (BitVec.ofNat 8 comps.length).toNat = comps.length := by simp; omega
  have hc3 := readScanComps_ahead comps _ rfl h3
  have hr4 := readBytes_ahead h4
  rw [show [ss, se, ah ++ al].length = 3 from rfl] at hr4
  simp only [← afterBytes_append] at hc3 hr4 ⊢
  rw [readScanHeader, readUint16_ahead h, Res.bind_ok, readField_ahead h2, Res.bind_ok, e8, be16_toNat _ (by omega),
    if_neg (by omega), if_neg (by simpa using hn), hc3, Res.bind_ok, hr4, Res.bind_ok]
  simp [(nibbles_append ah al).1, (nibbles_append ah al).2]

/-! ## Binding -/

/-- The bindings of the selectors in order, or none if one of them does not bind (44_headers.md R231). -/
def bindAll (fh : FrameHeader) (eff : MiscTables) : List ScanComp → Option (List Binding)
  | [] => some []
  | sc :: scs =>
    match bindOne fh eff sc, bindAll fh eff scs with
    | some b, some bs => some (b :: bs)
    | _, _ => none

theorem bindAll_length {fh : FrameHeader} {eff : MiscTables} {scs : List ScanComp} {bs : List Binding}
    (h : bindAll fh eff scs = some bs) : bs.length = scs.length := by
  induction scs generalizing bs with
  | nil => cases h; rfl
  | cons sc scs ih =>
    unfold bindAll at h
    split at h
    · rename_i b bs' _ hb
      cases h
      simp [ih hb]
    · cases h

theorem bindLoop_ok (scs : List ScanComp) (j : Nat) (s : State) {bs : List Binding} (hj : j ≤ s.bind.length)
    (h : bindAll s.fh s.eff scs = some bs) :
    bindLoop j scs s = .ok () { s with bind := s.bind.take j ++ bs ++ s.bind.drop (j + bs.length) } := by
  induction scs generalizing j s bs with
  | nil => cases h; simp [bindLoop]
  | cons sc scs ih =>
    unfold bindAll at h
    split at h
    · rename_i b bs' h1 h2
      cases h
      rw [bindLoop, h1]
      dsimp only
      refine (ih (j + 1) { s with bind := bindSet s.bind j b } (by simp [bindSet]; omega) h2).trans ?_
      have hl : (s.bind.take j ++ [b]).length = j + 1 := by simp [hj]
      have e1 : (bindSet s.bind j b).take (j + 1) = s.bind.take j ++ [b] := by
        rw [bindSet, List.take_append_of_le_length (by omega), List.take_of_length_le (by omega)]
      have e2 : (bindSet s.bind j b).drop (j + 1 + bs'.length) = s.bind.drop (j + (b :: bs').length) := by
        rw [bindSet, ← List.drop_drop, ← hl, List.drop_left, List.drop_drop, hl]
        simp only [List.length_cons]
        congr 1; omega
      simp [e1, e2]
    · cases h

theorem bindAll_eq_some {fh : FrameHeader} {eff : MiscTables} {scs : List ScanComp} {bs : List Binding} :
    bindAll fh eff scs = some bs ↔ List.Forall₂ (fun sc b => bindOne fh eff sc = some b) scs bs := by
  induction scs generalizing bs with
  | nil => simp [bindAll, eq_comm]
  | cons sc scs ih =>
    rw [List.forall₂_cons_left_iff]
    unfold bindAll
    constructor
    · intro h
      split at h
      · rename_i b bs' h1 h2
        cases h
        exact ⟨b, bs', h1, ih.1 h2, rfl⟩
      · cases h
    · rintro ⟨b, bs', h1, h2, rfl⟩
      rw [h1, ih.2 h2]

theorem bindLoop_stop (scs : List ScanComp) (j : Nat) (s : State) (h : bindAll s.fh s.eff scs = none) :
    ∃ bd, bindLoop j scs s = raise .bindFailure none { s with bind := bd } := by
  induction scs generalizing j s with
  | nil => cases h
  | cons sc scs ih =>
    rw [bindLoop]
    cases h1 : bindOne s.fh s.eff sc with
    | none => exact ⟨s.bind, rfl⟩
    | some b =>
      have h2 : bindAll s.fh s.eff scs = none := by
        unfold bindAll at h
        rw [h1] at h
        cases h2 : bindAll s.fh s.eff scs with
        | none => rfl
        | some bs => rw [h2] at h; cases h
      obtain ⟨bd, hb⟩ := ih (j + 1) { s with bind := bindSet s.bind j b } h2
      exact ⟨bd, hb⟩

/-- A binding is of a component of the frame, its tables those of the slots named (44_headers.md R231). -/
theorem bindOne_good {fh : FrameHeader} {eff : MiscTables} {sc : ScanComp} {b : Binding} (he : eff.Good)
    (h : bindOne fh eff sc = some b) :
    (∃ c ∈ fh.comp, c.id = b.id ∧ c.h = b.h ∧ c.v = b.v ∧ c.width = b.width ∧ c.height = b.height) ∧
    b.units = b.h.toNat * b.v.toNat ∧ b.q.good ∧ b.dc.good ∧ b.ac.good := by
  unfold bindOne at h
  split at h
  · cases h
  · rename_i c hc
    split at h
    · rename_i q dc ac hq hd ha
      cases h
      have e1 := (slotAt_eq_some.1 hq).2
      have e2 := (slotAt_eq_some.1 hd).2
      have e3 := (slotAt_eq_some.1 ha).2
      exact ⟨⟨c, List.mem_of_find?_eq_some hc, rfl, rfl, rfl, rfl, rfl⟩, rfl, (he.quant _ _ e1).2, (he.dc _ _ e2).2.2,
        (he.ac _ _ e3).2.2⟩
    · cases h

theorem bindAll_forall {P : Binding → Prop} {fh : FrameHeader} {eff : MiscTables}
    (hP : ∀ sc b, bindOne fh eff sc = some b → P b) {scs : List ScanComp} {bs : List Binding}
    (h : bindAll fh eff scs = some bs) : ∀ b ∈ bs, P b := by
  induction scs generalizing bs with
  | nil => cases h; simp
  | cons sc scs ih =>
    unfold bindAll at h
    split at h
    · rename_i b bs' h1 h2
      cases h
      intro b' hb'
      rcases List.mem_cons.1 hb' with rfl | hb'
      · exact hP sc _ h1
      · exact ih h2 b' hb'
    · cases h

/-- The MCU count of an interleaved scan is the same for every component (44_headers.md R223, R233). -/
theorem interleavedCount_eq {params : Params} {fh : FrameHeader} (hf : fh.Good params) {b : Binding}
    (hb : ∃ c ∈ fh.comp, c.id = b.id ∧ c.h = b.h ∧ c.v = b.v ∧ c.width = b.width ∧ c.height = b.height) :
    interleavedCount b = ceilDiv fh.x.toNat (8 * fh.hmax.toNat) * ceilDiv fh.y.toNat (8 * fh.vmax.toNat) := by
  obtain ⟨c, hc, -, h1, h2, h3, h4⟩ := hb
  obtain ⟨n1, n2⟩ := hf.factors c hc
  obtain ⟨w1, w2⟩ := hf.sizes c hc
  have p1 : 0 < c.h.toNat := Nat.pos_of_ne_zero fun h => n1 (BitVec.eq_of_toNat_eq (by simpa using h))
  have p2 : 0 < c.v.toNat := Nat.pos_of_ne_zero fun h => n2 (BitVec.eq_of_toNat_eq (by simpa using h))
  have m1 : 0 < fh.hmax.toNat := lt_of_lt_of_le p1 (hf.hmax.2 _ (List.mem_map_of_mem hc))
  have m2 : 0 < fh.vmax.toNat := lt_of_lt_of_le p2 (hf.vmax.2 _ (List.mem_map_of_mem hc))
  rw [interleavedCount, ← h1, ← h2, ← h3, ← h4, padding_div (by omega), padding_div (by omega), w1, w2,
    ceilDiv_derived p1 m1, ceilDiv_derived p2 m2]

theorem commonCount_eq {params : Params} {fh : FrameHeader} (hf : fh.Good params) {bs : List Binding} (hne : bs ≠ [])
    (hb : ∀ b ∈ bs, ∃ c ∈ fh.comp, c.id = b.id ∧ c.h = b.h ∧ c.v = b.v ∧ c.width = b.width ∧ c.height = b.height) :
    commonCount bs = some (ceilDiv fh.x.toNat (8 * fh.hmax.toNat) * ceilDiv fh.y.toNat (8 * fh.vmax.toNat)) := by
  obtain ⟨b, bs, rfl⟩ := List.exists_cons_of_ne_nil hne
  have e := fun b hm => interleavedCount_eq hf (hb b hm)
  have : (bs.map interleavedCount).all (· == interleavedCount b) = true := by
    simp only [List.all_map, List.all_eq_true, Function.comp_apply, beq_iff_eq]
    intro c hc
    rw [e c (by simp [hc]), e b (by simp)]
  simp only [commonCount, List.map_cons]
  rw [if_pos this, e b (by simp)]

end Sys2Proof.Machine
end

