-- ==== Sys2Proof/Laws/Huffman.lean ====
section
/-! SUPPORT. The canonical Huffman builder (42_tablestore.md R188, R189) and the symbol decode (43_huffman_decode.md): the
codes of one length are consecutive from the first code of that length, and decoding undoes the assignment. -/

namespace Sys2Proof.Machine

/-! ## The builder -/

/-- The first code of length `i + 1`: twice what follows the last code one bit shorter (42_tablestore.md R189 (b)). -/
def firstCode (bits : List Nat) : Nat → Nat
  | 0 => 0
  | i + 1 => 2 * (firstCode bits i + bits.getD i 0)

/-- The codes of the lengths from one on, `x` being the first code of the first of them. -/
def canonCodes : Nat → List Nat → List Nat
  | _, [] => []
  | x, b :: bs => (List.range b).map (x + ·) ++ canonCodes (2 * (x + b)) bs

theorem canonCodes_length (x : Nat) (bits : List Nat) : (canonCodes x bits).length = bits.sum := by
  induction bits generalizing x with
  | nil => rfl
  | cons b bs ih => simp [canonCodes, ih]

theorem huffCodes_replicate (b si code l : Nat) (rest : List Nat) :
    huffCodes si code (List.replicate (b + 1) l ++ rest) =
      (List.range (b + 1)).map (code * 2 ^ (l - si) + ·) ++ huffCodes l (code * 2 ^ (l - si) + (b + 1)) rest := by
  induction b generalizing si code with
  | zero => simp [huffCodes]
  | succ b ih =>
    rw [List.replicate_succ, List.cons_append, huffCodes, ih, List.range_succ_eq_map (n := b + 1)]
    simp [Function.comp_def, Nat.add_assoc, Nat.add_comm 1]

theorem huffCodes_huffSizes (bits : List Nat) (first si code x : Nat)
    (h : (si ≤ first ∧ x = code * 2 ^ (first - si)) ∨ (code = 0 ∧ x = 0)) :
    huffCodes si code (huffSizes first bits) = canonCodes x bits := by
  induction bits generalizing first si code x with
  | nil => rfl
  | cons b bs ih =>
    rw [huffSizes, canonCodes]
    cases b with
    | zero =>
      simp only [List.replicate_zero, List.nil_append, List.range_zero, List.map_nil, Nat.add_zero]
      refine ih _ _ _ _ (h.imp (fun ⟨h1, h2⟩ => ⟨by omega, ?_⟩) fun ⟨h1, h2⟩ => ⟨h1, by omega⟩)
      rw [h2, show first + 1 - si = first - si + 1 by omega, Nat.pow_succ]
      ring
    | succ b =>
      rw [huffCodes_replicate]
      have hx : code * 2 ^ (first - si) = x := by
        rcases h with ⟨_, h⟩ | ⟨h1, h2⟩
        · exact h.symm
        · simp [h1, h2]
      rw [hx, ih _ _ _ (2 * (x + (b + 1))) (.inl ⟨by omega, by simp; ring⟩)]

theorem assignCodes_eq (bits : List Nat) : assignCodes (huffSizes 1 bits) = canonCodes 0 bits :=
  huffCodes_huffSizes _ _ _ _ _ (.inr ⟨rfl, rfl⟩)

/-- The arrays of the lengths from one on. -/
def canonEntries : Nat → Nat → List Nat → List LengthEntry
  | _, _, [] => []
  | x, p, b :: bs =>
    (if b = 0 then ⟨none, -1, none⟩ else ⟨some x, (x : Int) + b - 1, some p⟩) :: canonEntries (2 * (x + b)) (p + b) bs

theorem lengthEntries_eq (bits pre : List Nat) (x : Nat) :
    lengthEntries (pre ++ canonCodes x bits) pre.length bits = canonEntries x pre.length bits := by
  induction bits generalizing pre x with
  | nil => rfl
  | cons b bs ih =>
    have e := ih (pre ++ (List.range b).map (x + ·)) (2 * (x + b))
    simp only [List.length_append, List.length_map, List.length_range, List.append_assoc] at e
    rw [lengthEntries, canonEntries, canonCodes, e]
    congr 1
    split
    · rfl
    · rename_i hb
      obtain ⟨b, rfl⟩ := Nat.exists_eq_succ_of_ne_zero hb
      have h1 : (pre ++ ((List.range (b + 1)).map (x + ·) ++ canonCodes (2 * (x + (b + 1))) bs))[pre.length]? = some x := by
        rw [List.getElem?_append_right le_rfl, List.getElem?_append_left (by simp)]
        simp
      have h2 : (pre ++ ((List.range (b + 1)).map (x + ·) ++ canonCodes (2 * (x + (b + 1))) bs)).getD
          (pre.length + (b + 1) - 1) 0 = x + b := by
        rw [List.getD_eq_getElem?_getD, List.getElem?_append_right (by omega),
          List.getElem?_append_left (by simp)]
        simp
      simp only [Nat.succ_eq_add_one, h1, h2]
      congr 1
      push_cast
      ring

theorem canonEntries_length (x p : Nat) (bits : List Nat) : (canonEntries x p bits).length = bits.length := by
  induction bits generalizing x p with
  | nil => rfl
  | cons b bs ih => simp [canonEntries, ih]

theorem firstCode_cons (b : Nat) (bs : List Nat) (x i : Nat) :
    2 ^ (i + 1) * x + firstCode (b :: bs) (i + 1) = 2 ^ i * (2 * (x + b)) + firstCode bs i := by
  induction i with
  | zero => simp [firstCode]; ring
  | succ i ih =>
    have e1 : firstCode (b :: bs) (i + 1 + 1) = 2 * (firstCode (b :: bs) (i + 1) + bs.getD i 0) := by
      rw [firstCode, List.getD_cons_succ]
    have e2 : firstCode bs (i + 1) = 2 * (firstCode bs i + bs.getD i 0) := rfl
    rw [e1, e2, Nat.pow_succ 2 (i + 1), Nat.pow_succ 2 i]
    rw [Nat.pow_succ] at ih
    linarith

theorem canonEntries_getElem? (bits : List Nat) (x p i : Nat) (hi : i < bits.length) :
    (canonEntries x p bits)[i]? =
      some (if bits.getD i 0 = 0 then ⟨none, -1, none⟩
        else ⟨some (2 ^ i * x + firstCode bits i), ((2 ^ i * x + firstCode bits i : Nat) : Int) + bits.getD i 0 - 1,
          some (p + (bits.take i).sum)⟩) := by
  induction bits generalizing x p i with
  | nil => simp at hi
  | cons b bs ih =>
    cases i with
    | zero => simp [canonEntries, firstCode]
    | succ i =>
      rw [canonEntries, List.getElem?_cons_succ, ih _ _ _ (by simpa using hi), List.getD_cons_succ, firstCode_cons]
      simp [Nat.add_assoc]

theorem canonCodes_getElem? (bits : List Nat) (x i j : Nat) (hj : j < bits.getD i 0) :
    (canonCodes x bits)[(bits.take i).sum + j]? = some (2 ^ i * x + firstCode bits i + j) := by
  induction bits generalizing x i with
  | nil => simp at hj
  | cons b bs ih =>
    cases i with
    | zero =>
      simp only [List.getD_cons_zero] at hj
      simp only [List.take_zero, List.sum_nil, Nat.zero_add, canonCodes, firstCode, Nat.pow_zero, Nat.one_mul, Nat.add_zero]
      rw [List.getElem?_append_left (by simpa using hj)]
      simp [hj]
    | succ i =>
      rw [List.getD_cons_succ] at hj
      have := ih (2 * (x + b)) i hj
      simp only [List.take_succ_cons, List.sum_cons, canonCodes]
      rw [List.getElem?_append_right (by simp; omega), firstCode_cons]
      simpa [show b + (bs.take i).sum + j - b = (bs.take i).sum + j by omega] using this

theorem sum_take_add_le (bits : List Nat) (i : Nat) : (bits.take i).sum + bits.getD i 0 ≤ bits.sum := by
  induction bits generalizing i with
  | nil => simp
  | cons b bs ih =>
    cases i with
    | zero => simp
    | succ i =>
      have := ih i
      simp only [List.take_succ_cons, List.sum_cons, List.getD_cons_succ]
      omega

/-! ## The arrays of a built table -/

section build
variable {tc : BitVec 1} {th : BitVec 2} {bits : List Nat} {vals : List Byte}

theorem build_entries : (buildHuffman tc th bits vals).mincode = (canonEntries 0 0 bits).map LengthEntry.mincode ∧
    (buildHuffman tc th bits vals).maxcode = (canonEntries 0 0 bits).map LengthEntry.maxcode ∧
    (buildHuffman tc th bits vals).valptr = (canonEntries 0 0 bits).map LengthEntry.valptr ∧
    (buildHuffman tc th bits vals).huffcode = canonCodes 0 bits := by
  have e := lengthEntries_eq bits [] 0
  simp only [List.nil_append, List.length_nil] at e
  simp only [buildHuffman, assignCodes_eq, e, and_self]

theorem build_maxcode {i : Nat} (hi : i < bits.length) :
    (buildHuffman tc th bits vals).maxcode[i]? =
      some (if bits.getD i 0 = 0 then -1 else ((firstCode bits i : Nat) : Int) + bits.getD i 0 - 1) := by
  rw [build_entries.2.1, List.getElem?_map, canonEntries_getElem? bits 0 0 i hi]
  split <;> simp

theorem build_mincode {i : Nat} (hi : i < bits.length) :
    (buildHuffman tc th bits vals).mincode[i]? = some (if bits.getD i 0 = 0 then none else some (firstCode bits i)) := by
  rw [build_entries.1, List.getElem?_map, canonEntries_getElem? bits 0 0 i hi]
  split <;> simp

theorem build_valptr {i : Nat} (hi : i < bits.length) :
    (buildHuffman tc th bits vals).valptr[i]? = some (if bits.getD i 0 = 0 then none else some (bits.take i).sum) := by
  rw [build_entries.2.2.1, List.getElem?_map, canonEntries_getElem? bits 0 0 i hi]
  split <;> simp

theorem build_huffcode {i j : Nat} (hj : j < bits.getD i 0) :
    (buildHuffman tc th bits vals).huffcode[(bits.take i).sum + j]? = some (firstCode bits i + j) := by
  rw [build_entries.2.2.2, canonCodes_getElem? bits 0 i j hj]
  simp

/-- A code not below the first of its length matches exactly when it is one of the codes of that length. -/
theorem build_match {i c : Nat} (hi : i < bits.length) (hc : firstCode bits i ≤ c) :
    (c : Int) ≤ (byLength (buildHuffman tc th bits vals).maxcode (i + 1)).getD (-1) ↔
      c < firstCode bits i + bits.getD i 0 := by
  rw [byLength, if_neg (by omega), Nat.add_sub_cancel, build_maxcode hi, Option.getD_some]
  split <;> omega

/-- The symbol of a matching code (43_huffman_decode.md R211, R213). -/
theorem build_symbol {i c : Nat} (s : State) (hi : i < bits.length) (hc : firstCode bits i ≤ c)
    (hm : c < firstCode bits i + bits.getD i 0) (hv : vals.length = bits.sum) :
    ∃ b, vals[(bits.take i).sum + (c - firstCode bits i)]? = some b ∧
      tableSymbol (buildHuffman tc th bits vals) c (i + 1) s = .ok b s := by
  have hlt : (bits.take i).sum + (c - firstCode bits i) < vals.length := by
    have := sum_take_add_le bits i
    omega
  refine ⟨_, List.getElem?_eq_getElem hlt, ?_⟩
  unfold tableSymbol
  simp only [byLength, if_neg (Nat.succ_ne_zero i), Nat.add_sub_cancel, build_mincode hi, build_valptr hi,
    if_neg (show ¬bits.getD i 0 = 0 by omega), Option.join_some]
  rw [if_neg (by omega), (buildHuffman_fields tc th bits vals).2.2.2.1, List.getElem?_eq_getElem hlt]

end build

/-! ## The decoder -/

theorem BitFrame.relabel {s t : State} (h : BitFrame s t) (c l : Nat) :
    BitFrame { s with code := c, len := l } { t with code := c, len := l } := by
  refine ⟨?_, h.pos, h.cnt, h.left⟩
  have := h.keep
  rw [eq_of_bitKeep this]
  rfl

theorem StopFrame.raise_of_bit {e : ErrKind} {i : Option Info} {s t : State} (h : BitFrame s t) :
    StopFrame (.raise e i) s t :=
  ⟨refillKeep_of_bitKeep h.keep, h.pos, h.cnt, fun _ _ h => (by cases h),
    fun _ _ _ => ⟨(congrArg State.pendmkV h.keep :), (congrArg State.pendmk h.keep :), (congrArg State.dnlSeen h.keep :)⟩,
    fun _ h => (by cases h), fun h => (by cases h), fun _ h => (by cases h)⟩

theorem StopFrame.relabel {d : Stop} {s t : State} (h : StopFrame d s t) (c l : Nat) :
    StopFrame d { s with code := c, len := l } { t with code := c, len := l } := by
  refine ⟨?_, h.pos, h.cnt, h.left, h.raised, h.marker, h.dnl, h.noFault⟩
  have := h.keep
  rw [eq_of_refillKeep this]
  rfl

/-- How a symbol decode against a built table ends: with a symbol after at most 16 bits; by the 17th bit; or as the bit
reader stopped. Never by a fault (43_huffman_decode.md R212, R213). -/
theorem decodeLoop_spec {h : HuffTable} (hg : h.good) (fuel : Nat) (s : State) (hf : fuel + s.len = 17)
    (hl : s.len ≤ 16) (hc : firstCode h.bits s.len ≤ 2 * s.code) :
    (∀ b t, decodeLoop h fuel s = .ok b t →
      BitFrame s { t with code := s.code, len := s.len } ∧ t.len ≤ 16 ∧
      (s.pos ≤ s.input.length → bitsLeft t < bitsLeft s)) ∧
    (∀ c t, decodeLoop h fuel s = .stop c t →
      StopFrame c s { t with code := s.code, len := s.len } ∧ t.len ≤ 17) := by
  obtain ⟨hb, h16, hv⟩ := hg
  induction fuel generalizing s with
  | zero => omega
  | succ fuel ih =>
    unfold decodeLoop
    cases hn : nextBit s with
    | stop c u =>
      have hs := nextBit_stop hn
      refine ⟨fun b t h => (by cases h), fun d t h => ?_⟩
      cases h
      have e1 : u.code = s.code := (congrArg State.code hs.keep :)
      have e2 : u.len = s.len := (congrArg State.len hs.keep :)
      have e : { u with code := s.code, len := s.len } = u := by rw [← e1, ← e2]
      exact ⟨by rw [e]; exact hs, by omega⟩
    | ok b u =>
      obtain ⟨hu, h7, hleft⟩ := nextBit_ok hn
      have e1 : u.code = s.code := (congrArg State.code hu.keep :)
      have e2 : u.len = s.len := (congrArg State.len hu.keep :)
      simp only [Res.bind_ok, e1, e2]
      set s' : State := { u with code := 2 * s.code + b.toNat, len := s.len + 1 } with hs'
      have hrel : BitFrame s { s' with code := s.code, len := s.len } := by
        have : { s' with code := s.code, len := s.len } = u := by simp [hs', ← e1, ← e2]
        rw [this]; exact hu
      have hlft : s.pos ≤ s.input.length → bitsLeft s' < bitsLeft s := hleft
      by_cases h17 : s.len + 1 > 16
      · rw [if_pos h17]
        refine ⟨fun b t h => (by cases h), fun c t h => ?_⟩
        cases h
        exact ⟨StopFrame.raise_of_bit hrel, by simp [hs']; omega⟩
      · rw [if_neg h17]
        have hi : s.len < h.bits.length := by omega
        have hcode : firstCode h.bits s.len ≤ 2 * s.code + b.toNat := by omega
        by_cases hm : ((2 * s.code + b.toNat : Nat) : Int) ≤ (byLength h.maxcode (s.len + 1)).getD (-1)
        · rw [if_pos hm]
          rw [hb] at hm ⊢
          obtain ⟨sym, _, hsym⟩ := build_symbol s' hi hcode ((build_match hi hcode).1 hm) hv
          rw [hsym]
          refine ⟨fun b t h => ?_, fun c t h => (by cases h)⟩
          obtain ⟨rfl, rfl⟩ := Res.ok.inj h
          exact ⟨hrel, by simp [hs']; omega, hlft⟩
        · rw [if_neg hm]
          have hno : firstCode h.bits s.len + h.bits.getD s.len 0 ≤ 2 * s.code + b.toNat := by
            rw [hb] at hm
            have := mt (build_match (tc := h.tc) (th := h.th) (vals := h.huffval) hi hcode).2 hm
            omega
          obtain ⟨hok, hst⟩ := ih s' (by simp [hs']; omega) (by simp [hs']; omega)
            (by simp only [hs', firstCode]; omega)
          refine ⟨fun b' t h => ?_, fun c t h => ?_⟩
          · obtain ⟨h1, h2, h3⟩ := hok b' t h
            refine ⟨hrel.trans (h1.relabel s.code s.len), h2, fun hp => lt_trans (h3 ?_) (hlft hp)⟩
            have := (hrel.pos hp).2
            rw [← hrel.input] at this
            exact this
          · obtain ⟨h1, h2⟩ := hst c t h
            exact ⟨StopFrame.of_bitFrame hrel (h1.relabel s.code s.len), h2⟩

/-- The whole decode (43_huffman_decode.md R211): `CODE` and `LEN` aside, only the stream position and the bit buffer
move. -/
theorem decodeSymbol_ok {h : HuffTable} (hg : h.good) {s t : State} {b : Byte} (hd : decodeSymbol h s = .ok b t) :
    BitFrame s { t with code := s.code, len := s.len } ∧ t.len ≤ 16 ∧
      (s.pos ≤ s.input.length → bitsLeft t < bitsLeft s) := by
  obtain ⟨h1, h2, h3⟩ := (decodeLoop_spec hg 17 (beginDecode s) rfl (Nat.zero_le _) (Nat.zero_le _)).1 b t hd
  exact ⟨h1.relabel s.code s.len, h2, h3⟩

theorem decodeSymbol_stop {h : HuffTable} (hg : h.good) {s t : State} {c : Stop} (hd : decodeSymbol h s = .stop c t) :
    StopFrame c s { t with code := s.code, len := s.len } ∧ t.len ≤ 17 := by
  obtain ⟨h1, h2⟩ := (decodeLoop_spec hg 17 (beginDecode s) rfl (Nat.zero_le _) (Nat.zero_le _)).2 c t hd
  exact ⟨h1.relabel s.code s.len, h2⟩

/-! ## Decoding undoes the code assignment (43_huffman_decode.md R214) -/

@[simp] theorem codeBits_length (n v : Nat) : (codeBits n v).length = n := by
  induction n generalizing v with
  | zero => rfl
  | succ n ih => simp [codeBits, ih]

theorem codeBits_cons (n v : Nat) : codeBits (n + 1) v = decide (v / 2 ^ n % 2 = 1) :: codeBits n v := by
  induction n generalizing v with
  | zero => simp [codeBits]
  | succ n ih =>
    rw [codeBits, ih, codeBits, List.cons_append, Nat.div_div_eq_div_mul, ← Nat.pow_succ']

theorem bitsValue_append_singleton (l : List Bool) (b : Bool) : bitsValue (l ++ [b]) = 2 * bitsValue l + b.toNat := by
  simp [bitsValue]

theorem codeBits_bitsValue (l : List Bool) : codeBits l.length (bitsValue l) = l := by
  induction l using List.reverseRecOn with
  | nil => rfl
  | append_singleton l b ih =>
    rw [List.length_append, List.length_singleton, codeBits, bitsValue_append_singleton]
    have h1 : (2 * bitsValue l + b.toNat) / 2 = bitsValue l := by have := Bool.toNat_le b; omega
    have h2 : decide ((2 * bitsValue l + b.toNat) % 2 = 1) = b := by cases b <;> simp
    rw [h1, ih, h2]

theorem bitsValue_codeBits (n v : Nat) (h : v < 2 ^ n) : bitsValue (codeBits n v) = v := by
  induction n generalizing v with
  | zero => simp at h; simp [h, codeBits, bitsValue]
  | succ n ih =>
    rw [codeBits, bitsValue_append_singleton, ih _ (by rw [Nat.pow_succ] at h; omega)]
    by_cases hv : v % 2 = 1 <;> simp [hv] <;> omega

theorem bitsValue_lt (l : List Bool) : bitsValue l < 2 ^ l.length := by
  induction l using List.reverseRecOn with
  | nil => simp [bitsValue]
  | append_singleton l b ih =>
    rw [List.length_append, List.length_singleton, bitsValue_append_singleton, Nat.pow_succ]
    have := Bool.toNat_le b
    omega

theorem firstCode_after {bits : List Nat} {i j : Nat} (h : i < j) :
    (firstCode bits i + bits.getD i 0) * 2 ^ (j - i) ≤ firstCode bits j := by
  induction j with
  | zero => omega
  | succ j ih =>
    by_cases hij : i = j
    · subst hij
      simp only [Nat.add_sub_cancel_left, firstCode]
      omega
    · have := ih (by omega)
      rw [show j + 1 - i = (j - i) + 1 by omega, Nat.pow_succ, firstCode]
      nlinarith

/-- A code word fits its length when the counts do not over-subscribe the code space. -/
theorem firstCode_kraft {bits : List Nat} {n i : Nat} (hi : i < n)
    (h : ((List.range n).map fun j => bits.getD j 0 * 2 ^ (n - 1 - j)).sum ≤ 2 ^ n) :
    firstCode bits i + bits.getD i 0 ≤ 2 ^ (i + 1) := by
  have key : ∀ m, m < n → (firstCode bits m + bits.getD m 0) * 2 ^ (n - 1 - m) =
      ((List.range (m + 1)).map fun j => bits.getD j 0 * 2 ^ (n - 1 - j)).sum := by
    intro m
    induction m with
    | zero => intro _; simp [firstCode]
    | succ m ih =>
      intro hm
      rw [List.range_succ, List.map_append, List.sum_append, ← ih (by omega), firstCode,
        show n - 1 - m = n - 1 - (m + 1) + 1 by omega, Nat.pow_succ]
      simp
      ring
  have mono : ((List.range (i + 1)).map fun j => bits.getD j 0 * 2 ^ (n - 1 - j)).sum ≤
      ((List.range n).map fun j => bits.getD j 0 * 2 ^ (n - 1 - j)).sum := by
    obtain ⟨k, rfl⟩ : ∃ k, n = i + 1 + k := ⟨n - (i + 1), by omega⟩
    rw [List.range_add (n := i + 1), List.map_append, List.sum_append]
    exact Nat.le_add_right _ _
  have hle := (key i hi).symm ▸ mono.trans h
  rw [show 2 ^ n = 2 ^ (i + 1) * 2 ^ (n - 1 - i) by rw [← Nat.pow_add]; congr 1; omega] at hle
  exact Nat.le_of_mul_le_mul_right hle (by positivity)

theorem huffSizes_getElem? (bits : List Nat) (first i j : Nat) (hj : j < bits.getD i 0) :
    (huffSizes first bits)[(bits.take i).sum + j]? = some (first + i) := by
  induction bits generalizing first i with
  | nil => simp at hj
  | cons b bs ih =>
    cases i with
    | zero =>
      simp only [List.getD_cons_zero] at hj
      rw [huffSizes, List.getElem?_append_left (by simpa using hj)]
      simp [hj]
    | succ i =>
      rw [List.getD_cons_succ] at hj
      have := ih (first + 1) i hj
      rw [huffSizes, List.take_succ_cons, List.sum_cons, List.getElem?_append_right (by simp; omega)]
      simp only [List.length_replicate, show b + (bs.take i).sum + j - b = (bs.take i).sum + j by omega, this]
      congr 1; omega

/-- Every position of the value list belongs to one length and one place among the codes of that length. -/
theorem exists_length_place (bits : List Nat) (k : Nat) (hk : k < bits.sum) :
    ∃ i j, j < bits.getD i 0 ∧ k = (bits.take i).sum + j ∧ i < bits.length := by
  induction bits generalizing k with
  | nil => simp at hk
  | cons b bs ih =>
    by_cases h : k < b
    · exact ⟨0, k, by simpa using h, by simp, by simp⟩
    · obtain ⟨i, j, h1, h2, h3⟩ := ih (k - b) (by simp at hk; omega)
      exact ⟨i + 1, j, by simpa using h1, by simp; omega, by simpa using h3⟩

section decode
variable {tc : BitVec 1} {th : BitVec 2} {bits : List Nat} {vals : List Byte}

/-- With `r + 1` bits of a code word still ahead, the decode answers its symbol after exactly those bits. -/
theorem decodeLoop_code (h16 : bits.length = 16) (hv : vals.length = bits.sum) {i j : Nat} (hi : i < 16)
    (hj : j < bits.getD i 0) (rest : List Bool) (r : Nat) (hr : r ≤ i) (fuel : Nat) (hf : r < fuel) (s : State)
    (hlen : s.len = i - r) (hcode : s.code = (firstCode bits i + j) / 2 ^ (r + 1)) (h8 : s.bitcnt ≤ 8)
    (ha : s.bitsAhead = codeBits (r + 1) (firstCode bits i + j) ++ rest) :
    ∃ b u, vals[(bits.take i).sum + j]? = some b ∧ BitsTaken (codeBits (r + 1) (firstCode bits i + j)) s u ∧
      decodeLoop (buildHuffman tc th bits vals) fuel s = .ok b { u with code := firstCode bits i + j, len := i + 1 } := by
  induction r generalizing fuel s with
  | zero =>
    obtain ⟨fuel, rfl⟩ := Nat.exists_eq_succ_of_ne_zero (n := fuel) (by omega)
    rw [codeBits_cons, List.cons_append] at ha
    obtain ⟨u, hn, ha', h8', hcons⟩ := nextBit_taken h8 ha
    have hk := (nextBit_ok hn).1.keep
    have e1 : u.code = s.code := (congrArg State.code hk :)
    have e2 : u.len = s.len := (congrArg State.len hk :)
    have hc : 2 * s.code + (decide ((firstCode bits i + j) / 2 ^ 0 % 2 = 1)).toNat = firstCode bits i + j := by
      rw [hcode]
      by_cases hb : (firstCode bits i + j) % 2 = 1 <;> simp [hb] <;> omega
    obtain ⟨b, hb, hsym⟩ := build_symbol (tc := tc) (th := th) (vals := vals)
      { u with code := firstCode bits i + j, len := i + 1 } (h16 ▸ hi) (Nat.le_add_right _ j) (by omega) hv
    rw [Nat.add_sub_cancel_left] at hb
    refine ⟨b, u, hb, by rw [codeBits_cons]; exact hcons [] u (.refl u), ?_⟩
    have hm := (build_match (tc := tc) (th := th) (vals := vals) (h16 ▸ hi) (Nat.le_add_right _ j)).2
      (show firstCode bits i + j < firstCode bits i + bits.getD i 0 by omega)
    simp only [decodeLoop, hn, Res.bind_ok, e1, e2, hc, hlen, Nat.sub_zero, if_neg (show ¬i + 1 > 16 by omega)]
    rw [if_pos hm, hsym]
  | succ r ih =>
    obtain ⟨fuel, rfl⟩ := Nat.exists_eq_succ_of_ne_zero (n := fuel) (by omega)
    rw [codeBits_cons, List.cons_append] at ha
    obtain ⟨u, hn, ha', h8', hcons⟩ := nextBit_taken h8 ha
    have hk := (nextBit_ok hn).1.keep
    have e1 : u.code = s.code := (congrArg State.code hk :)
    have e2 : u.len = s.len := (congrArg State.len hk :)
    have hc : 2 * s.code + (decide ((firstCode bits i + j) / 2 ^ (r + 1) % 2 = 1)).toNat =
        (firstCode bits i + j) / 2 ^ (r + 1) := by
      rw [hcode, Nat.pow_succ 2 (r + 1), ← Nat.div_div_eq_div_mul]
      by_cases hb : (firstCode bits i + j) / 2 ^ (r + 1) % 2 = 1 <;> simp [hb] <;> omega
    have hl : s.len + 1 = i - r := by omega
    have hge : firstCode bits (i - (r + 1)) + bits.getD (i - (r + 1)) 0 ≤ (firstCode bits i + j) / 2 ^ (r + 1) := by
      rw [Nat.le_div_iff_mul_le (by positivity)]
      have := firstCode_after (bits := bits) (i := i - (r + 1)) (j := i) (by omega)
      rw [show i - (i - (r + 1)) = r + 1 by omega] at this
      omega
    have hno : ¬(((firstCode bits i + j) / 2 ^ (r + 1) : Nat) : Int) ≤
        (byLength (buildHuffman tc th bits vals).maxcode (i - r)).getD (-1) := by
      have := build_match (tc := tc) (th := th) (bits := bits) (vals := vals) (i := i - (r + 1))
        (c := (firstCode bits i + j) / 2 ^ (r + 1)) (by omega) (by omega)
      rw [show i - (r + 1) + 1 = i - r by omega] at this
      rw [this]
      omega
    obtain ⟨b, w, h1, h2, h3⟩ := ih (by omega) fuel (by omega)
      { u with code := (firstCode bits i + j) / 2 ^ (r + 1), len := i - r } rfl rfl (by dsimp only; omega) ha'
    refine ⟨b, { w with code := u.code, len := u.len }, h1, ?_, ?_⟩
    · rw [codeBits_cons]
      exact hcons _ _ (h2.relabel u.code u.len)
    · simp only [decodeLoop, hn, Res.bind_ok, e1, e2, hc, hl, if_neg (show ¬i - r > 16 by omega)]
      rw [if_neg hno]
      exact h3

/-- `decode` on a stream whose next bits are a code word of the table (43_huffman_decode.md R214). -/
theorem decodeSymbol_code (h16 : bits.length = 16) (hv : vals.length = bits.sum) {i j : Nat} (hi : i < 16)
    (hj : j < bits.getD i 0) (hfit : firstCode bits i + j < 2 ^ (i + 1)) {rest : List Bool} {s : State} (h8 : s.bitcnt ≤ 8)
    (ha : s.bitsAhead = codeBits (i + 1) (firstCode bits i + j) ++ rest) :
    ∃ b u, vals[(bits.take i).sum + j]? = some b ∧ BitsTaken (codeBits (i + 1) (firstCode bits i + j)) s u ∧
      decodeSymbol (buildHuffman tc th bits vals) s = .ok b { u with code := firstCode bits i + j, len := i + 1 } := by
  obtain ⟨b, u, h1, h2, h3⟩ := decodeLoop_code (tc := tc) (th := th) h16 hv hi hj rest i le_rfl 17 (by omega)
    (beginDecode s) (by simp [beginDecode]) (by simp [beginDecode, Nat.div_eq_of_lt hfit]) h8 ha
  exact ⟨b, { u with code := s.code, len := s.len }, h1, h2.relabel s.code s.len, h3⟩

/-- With no code word of the table at the head of the bits ahead, the decode takes 17 bits and fails, or takes all there
are and stops as the refill it then needs does (43_huffman_decode.md R212). `l` is what was taken before `s`. -/
theorem decodeLoop_fails (h16 : bits.length = 16) (l m : List Bool) (fuel : Nat) (s : State)
    (hl : l.length + fuel = 17) (hm : m.length ≤ fuel) (hf : fuel ≠ 0)
    (hlen : s.len = l.length) (hcode : s.code = bitsValue l) (h8 : s.bitcnt ≤ 8)
    (hinv : firstCode bits l.length ≤ 2 * bitsValue l)
    (hno : ∀ i j, j < bits.getD i 0 → ¬codeBits (i + 1) (firstCode bits i + j) <+: l ++ m) :
    (∀ rest, m.length = fuel → s.bitsAhead = m ++ rest → ∃ u, BitsTaken m s u ∧
      decodeLoop (buildHuffman tc th bits vals) fuel s =
        raise .huffmanDecodeFailure none { u with code := bitsValue (l ++ m), len := 17 }) ∧
    (m.length < fuel → s.bitsAhead = m → ∃ u c t, BitsTaken m s u ∧ u.bitcnt = 0 ∧
      refill { u with code := bitsValue (l ++ m), len := l.length + m.length } = .stop c t ∧
      decodeLoop (buildHuffman tc th bits vals) fuel s = .stop c t) := by
  induction m generalizing l s fuel with
  | nil =>
    refine ⟨fun rest h => absurd h.symm hf, fun _ ha => ?_⟩
    obtain ⟨h0, c, t, hr, hn⟩ := nextBit_runsOut ha
    obtain ⟨n, rfl⟩ := Nat.exists_eq_succ_of_ne_zero hf
    refine ⟨s, c, t, .refl s, h0, ?_, by rw [decodeLoop, hn, Res.bind_stop]⟩
    rw [List.append_nil, List.length_nil, Nat.add_zero, ← hcode, ← hlen]
    exact hr
  | cons b m ih =>
    obtain ⟨n, rfl⟩ := Nat.exists_eq_succ_of_ne_zero hf
    have head : ∀ rest, s.bitsAhead = b :: rest → ∃ u, nextBit s = .ok b u ∧ u.bitsAhead = rest ∧ u.bitcnt ≤ 7 ∧
        (∀ l' w, BitsTaken l' u w → BitsTaken (b :: l') s w) ∧
        decodeLoop (buildHuffman tc th bits vals) (n + 1) s =
          if l.length + 1 > 16 then
            raise .huffmanDecodeFailure none { u with code := bitsValue (l ++ [b]), len := l.length + 1 }
          else decodeLoop (buildHuffman tc th bits vals) n { u with code := bitsValue (l ++ [b]), len := l.length + 1 } := by
      intro rest ha
      obtain ⟨u, hn, ha', h8', hcons⟩ := nextBit_taken h8 ha
      have hk := (nextBit_ok hn).1.keep
      have e1 : u.code = s.code := (congrArg State.code hk :)
      have e2 : u.len = s.len := (congrArg State.len hk :)
      have hval : 2 * s.code + b.toNat = bitsValue (l ++ [b]) := by rw [bitsValue_append_singleton, hcode]
      refine ⟨u, hn, ha', h8', hcons, ?_⟩
      simp only [decodeLoop, hn, Res.bind_ok, e1, e2, hval, hlen]
      split
      · rfl
      · have hge : firstCode bits l.length ≤ bitsValue (l ++ [b]) := by rw [bitsValue_append_singleton]; omega
        have hno' : ¬bitsValue (l ++ [b]) < firstCode bits l.length + bits.getD l.length 0 := fun hlt => by
          refine hno l.length (bitsValue (l ++ [b]) - firstCode bits l.length) (by omega) ?_
          rw [Nat.add_sub_cancel' hge, show l.length + 1 = (l ++ [b]).length by simp, codeBits_bitsValue]
          exact ⟨m, by simp⟩
        rw [if_neg (by rw [build_match (by omega) hge]; exact hno')]
    have next := fun (u : State) (h7 : u.bitcnt ≤ 7) (h17 : ¬l.length + 1 > 16) =>
      ih (l ++ [b]) n { u with code := bitsValue (l ++ [b]), len := l.length + 1 } (by simp; omega) (by simpa using hm)
        (by omega) (by simp) (by simp) (by dsimp only; omega)
        (by
          have hge : firstCode bits l.length ≤ bitsValue (l ++ [b]) := by rw [bitsValue_append_singleton]; omega
          have hno' : ¬bitsValue (l ++ [b]) < firstCode bits l.length + bits.getD l.length 0 := fun hlt => by
            refine hno l.length (bitsValue (l ++ [b]) - firstCode bits l.length) (by omega) ?_
            rw [Nat.add_sub_cancel' hge, show l.length + 1 = (l ++ [b]).length by simp, codeBits_bitsValue]
            exact ⟨m, by simp⟩
          rw [List.length_append, List.length_singleton, firstCode]
          omega)
        (by simpa using hno)
    constructor
    · intro rest hmf ha
      obtain ⟨u, hn, ha', h7, hcons, hd⟩ := head (m ++ rest) ha
      by_cases h17 : l.length + 1 > 16
      · have hm0 : m = [] := List.eq_nil_of_length_eq_zero (by simp at hmf; omega)
        subst hm0
        refine ⟨u, hcons [] u (.refl u), ?_⟩
        rw [hd, if_pos h17, show l.length + 1 = 17 by omega]
      · obtain ⟨w, hw, he⟩ := (next u h7 h17).1 rest (by simpa using hmf) ha'
        refine ⟨{ w with code := u.code, len := u.len }, hcons _ _ (hw.relabel u.code u.len), ?_⟩
        rw [hd, if_neg h17, he]
        simp
    · intro hmf ha
      obtain ⟨u, hn, ha', h7, hcons, hd⟩ := head m ha
      have h17 : ¬l.length + 1 > 16 := by simp at hmf; omega
      obtain ⟨w, c, t, hw, h0, hr, he⟩ := (next u h7 h17).2 (by simpa using hmf) ha'
      refine ⟨{ w with code := u.code, len := u.len }, c, t, hcons _ _ (hw.relabel u.code u.len), h0, ?_, ?_⟩
      · rw [← hr]
        simp [Nat.add_assoc, Nat.add_comm 1]
      · rw [hd, if_neg h17, he]

theorem decodeSymbol_fails (h16 : bits.length = 16) {l : List Bool} {s : State} (h8 : s.bitcnt ≤ 8)
    (hno : ∀ i j, j < bits.getD i 0 → ¬codeBits (i + 1) (firstCode bits i + j) <+: l) :
    (∀ rest, l.length = 17 → s.bitsAhead = l ++ rest → ∃ u, BitsTaken l s u ∧
      decodeSymbol (buildHuffman tc th bits vals) s =
        raise .huffmanDecodeFailure none { u with code := bitsValue l, len := 17 }) ∧
    (l.length < 17 → s.bitsAhead = l → ∃ u c t, BitsTaken l s u ∧ u.bitcnt = 0 ∧
      refill { u with code := bitsValue l, len := l.length } = .stop c t ∧
      decodeSymbol (buildHuffman tc th bits vals) s = .stop c t) := by
  have key := fun hm => decodeLoop_fails (tc := tc) (th := th) (vals := vals) h16 [] l 17 (beginDecode s) rfl hm (by decide) rfl
    rfl h8 (Nat.zero_le _) (by simpa using hno)
  constructor
  · intro rest hl ha
    obtain ⟨u, hu, he⟩ := (key hl.le).1 rest hl ha
    exact ⟨{ u with code := s.code, len := s.len }, hu.relabel s.code s.len, he⟩
  · intro hl ha
    obtain ⟨u, c, t, hu, h0, hr, he⟩ := (key hl.le).2 hl ha
    exact ⟨{ u with code := s.code, len := s.len }, c, t, hu.relabel s.code s.len, h0, by simpa using hr, he⟩

end decode

/-! ### The frame of a decode against any table -/

/-- A table lookup changes no state, whatever the table. -/
theorem tableSymbol_state {t : HuffTable} {code len : Nat} {s : State} :
    (∃ b, tableSymbol t code len s = .ok b s) ∨ ∃ f, tableSymbol t code len s = .stop (.fault f) s := by
  unfold tableSymbol
  split
  · split
    · exact .inr ⟨_, rfl⟩
    · split
      · exact .inl ⟨_, rfl⟩
      · exact .inr ⟨_, rfl⟩
  · exact .inr ⟨_, rfl⟩

/-- The frame of a symbol decode against any table, built or not. -/
theorem decodeLoop_frame (h : HuffTable) (fuel : Nat) (s : State) :
    (∀ b t, decodeLoop h fuel s = .ok b t → BitFrame s { t with code := s.code, len := s.len } ∧
      (s.pos ≤ s.input.length → bitsLeft t < bitsLeft s)) ∧
    (∀ c t, decodeLoop h fuel s = .stop c t → (∃ f, c = .fault f) ∨ StopFrame c s { t with code := s.code, len := s.len }) := by
  induction fuel generalizing s with
  | zero =>
    refine ⟨fun b t h => (by cases h), fun c t h => ?_⟩
    cases h
    exact .inr (StopFrame.raise_of_bit (BitFrame.refl s))
  | succ fuel ih =>
    unfold decodeLoop
    cases hn : nextBit s with
    | stop c u =>
      have hs := nextBit_stop hn
      refine ⟨fun b t h => (by cases h), fun d t h => .inr ?_⟩
      cases h
      have e1 : u.code = s.code := (congrArg State.code hs.keep :)
      have e2 : u.len = s.len := (congrArg State.len hs.keep :)
      have e : { u with code := s.code, len := s.len } = u := by rw [← e1, ← e2]
      rw [e]; exact hs
    | ok b u =>
      obtain ⟨hu, -, hleft⟩ := nextBit_ok hn
      have e1 : u.code = s.code := (congrArg State.code hu.keep :)
      have e2 : u.len = s.len := (congrArg State.len hu.keep :)
      simp only [Res.bind_ok]
      set s' : State := { u with code := 2 * u.code + b.toNat, len := u.len + 1 } with hs'
      have hrel : BitFrame s { s' with code := s.code, len := s.len } := by
        have : { s' with code := s.code, len := s.len } = u := by simp [hs', ← e1, ← e2]
        rw [this]; exact hu
      have hlft : s.pos ≤ s.input.length → bitsLeft s' < bitsLeft s := hleft
      split
      · refine ⟨fun b t h => (by cases h), fun c t h => ?_⟩
        cases h
        exact .inr (StopFrame.raise_of_bit hrel)
      · split
        · rcases tableSymbol_state (t := h) (code := s'.code) (len := s'.len) (s := s') with ⟨sym, hsym⟩ | ⟨f, hsym⟩ <;> rw [hsym]
          · refine ⟨fun b t h => ?_, fun c t h => (by cases h)⟩
            cases h
            exact ⟨hrel, hlft⟩
          · refine ⟨fun b t h => (by cases h), fun c t h => ?_⟩
            cases h
            exact .inl ⟨f, rfl⟩
        · obtain ⟨hok, hst⟩ := ih s'
          refine ⟨fun b' t h => ?_, fun c t h => ?_⟩
          · obtain ⟨h1, h3⟩ := hok b' t h
            refine ⟨hrel.trans (h1.relabel s.code s.len), fun hp => lt_trans (h3 ?_) (hlft hp)⟩
            have := (hrel.pos hp).2
            rw [← hrel.input] at this
            exact this
          · rcases hst c t h with hf | h1
            · exact .inl hf
            · exact .inr (StopFrame.of_bitFrame hrel (h1.relabel s.code s.len))

/-- What a decoded symbol took: bits of the stream, `CODE` and `LEN`; the stream is shorter by at least a bit. -/
theorem decodeSymbol_ok_frame {h : HuffTable} {s t : State} {b : Byte} (hd : decodeSymbol h s = .ok b t) :
    BitFrame s { t with code := s.code, len := s.len } ∧ (s.pos ≤ s.input.length → bitsLeft t < bitsLeft s) := by
  obtain ⟨h1, h3⟩ := (decodeLoop_frame h 17 (beginDecode s)).1 b t hd
  exact ⟨h1.relabel s.code s.len, h3⟩

/-- What a decode that stops may have changed. -/
theorem decodeSymbol_stop_frame {h : HuffTable} {s t : State} {c : Stop} (hd : decodeSymbol h s = .stop c t) :
    (∃ f, c = .fault f) ∨ StopFrame c s { t with code := s.code, len := s.len } := by
  rcases (decodeLoop_frame h 17 (beginDecode s)).2 c t hd with h | h
  · exact .inl h
  · exact .inr (h.relabel s.code s.len)

end Sys2Proof.Machine
end

