-- ==== Sys2Proof/Laws/Exhausted.lean ====
section
/-! SUPPORT. StreamExhausted is only ever raised with `POS = N` (60_exceptions.md R324): a property of every operation,
passed on by `bind`. -/

namespace Sys2Proof.Machine

/-- If the operation raises StreamExhausted, the position is the end of the input. -/
def Res.AtEnd {α : Type} (r : Res α) : Prop := ∀ i t, r = .stop (.raise .streamExhausted i) t → t.pos = t.input.length

variable {α β : Type}

theorem Res.AtEnd.ok (a : α) (s : State) : (Res.ok a s).AtEnd := fun _ _ h => by cases h
theorem Res.AtEnd.signal (g : Signal) (s : State) : (Res.stop (.signal g) s : Res α).AtEnd := fun _ _ h => by cases h
theorem Res.AtEnd.fault (f : Fault) (s : State) : (Res.stop (.fault f) s : Res α).AtEnd := fun _ _ h => by cases h
theorem Res.AtEnd.raise {e : ErrKind} (he : e ≠ .streamExhausted) (i : Option Info) (s : State) :
    (Sys2Proof.Machine.raise e i s : Res α).AtEnd := fun _ _ h => by cases h; exact absurd rfl he
theorem Res.AtEnd.exhausted (s : State) : (Sys2Proof.Machine.exhausted s : Res α).AtEnd := fun _ _ h => by cases h; rfl

theorem Res.AtEnd.bind {r : Res α} {f : α → State → Res β} (hr : r.AtEnd) (hf : ∀ a t, (f a t).AtEnd) :
    (r.bind f).AtEnd := by
  intro i t h
  rcases Res.bind_eq_stop.1 h with h | ⟨a, u, -, h⟩
  · exact hr i t h
  · exact hf a u i t h

theorem raw_atEnd (n : Nat) (s : State) : (raw n s).AtEnd := by
  unfold raw
  split
  · exact .exhausted _
  · exact .ok _ _

theorem readByte_atEnd (s : State) : (readByte s).AtEnd := by
  unfold readByte
  split
  · exact .exhausted _
  · exact .raise (by decide) _ _
  · exact .ok _ _

theorem readByteTimes_atEnd (n : Nat) (s : State) : (readByteTimes n s).AtEnd := by
  induction n generalizing s with
  | zero => exact .ok _ _
  | succ n ih => exact (readByte_atEnd s).bind fun _ _ => (ih _).bind fun _ _ => .ok _ _

theorem readBytes_atEnd (n : Nat) (s : State) : (readBytes n s).AtEnd := by
  unfold readBytes
  split
  · exact raw_atEnd n s
  · intro i t h
    have := readByteTimes_atEnd n { s with pbArmed := false }
    cases hr : readByteTimes n { s with pbArmed := false } with
    | ok a u => rw [hr] at h; cases h
    | stop c u =>
      rw [hr] at h this
      cases h
      exact this i u rfl

theorem readField_atEnd (s : State) : (readField s).AtEnd := (readBytes_atEnd 1 s).bind fun _ _ => .ok _ _
theorem readUint16_atEnd (s : State) : (readUint16 s).AtEnd := (readBytes_atEnd 2 s).bind fun _ _ => .ok _ _

theorem readLength_atEnd (s : State) : (readLength s).AtEnd :=
  (readUint16_atEnd s).bind fun _ _ => by
    split
    · exact .raise (by decide) _ _
    · exact .ok _ _

theorem readDNLbody_atEnd (s : State) : (readDNLbody s).AtEnd :=
  (readUint16_atEnd s).bind fun _ _ => by
    split
    · exact .raise (by decide) _ _
    · exact (readUint16_atEnd _).bind fun _ _ => .ok _ _

theorem markerInEntropy_atEnd (m : Marker) (s : State) : (markerInEntropy m s : Res α).AtEnd := by
  unfold markerInEntropy
  dsimp only
  split
  · exact (readDNLbody_atEnd _).bind fun _ _ => .signal _ _
  · exact .signal _ _

theorem refill_atEnd (s : State) : (refill s).AtEnd := by
  unfold refill
  split
  · exact .exhausted _
  · exact .ok _ _
  · exact markerInEntropy_atEnd _ _

theorem nextBit_atEnd (s : State) : (nextBit s).AtEnd := by
  unfold nextBit
  split
  · exact (refill_atEnd s).bind fun _ _ => .ok _ _
  · exact .ok _ _

theorem receiveInto_atEnd (n v : Nat) (s : State) : (receiveInto n v s).AtEnd := by
  induction n generalizing v s with
  | zero => exact .ok _ _
  | succ n ih => exact (nextBit_atEnd s).bind fun _ _ => ih _ _

theorem receive_atEnd (n : Nat) (s : State) : (receive n s).AtEnd := receiveInto_atEnd n 0 s

theorem readEntry_atEnd (wide : Bool) (s : State) : (readEntry wide s).AtEnd := by
  unfold readEntry
  split
  · exact (readUint16_atEnd s).bind fun _ _ => .ok _ _
  · exact (readField_atEnd s).bind fun _ _ => .ok _ _

theorem readEntries_atEnd (wide : Bool) (n : Nat) (s : State) : (readEntries wide n s).AtEnd := by
  induction n generalizing s with
  | zero => exact .ok _ _
  | succ n ih =>
    rw [readEntries_succ]
    exact (readEntry_atEnd wide s).bind fun _ _ => (ih _).bind fun _ _ => .ok _ _

theorem readDQTLoop_atEnd (fuel rem : Nat) (s : State) : (readDQTLoop fuel rem s).AtEnd := by
  induction fuel generalizing rem s with
  | zero => exact .ok _ _
  | succ n ih =>
    unfold readDQTLoop
    split
    · exact .ok _ _
    · refine (readField_atEnd s).bind fun b t => ?_
      dsimp only
      split
      · exact .raise (by decide) _ _
      · split
        · exact .raise (by decide) _ _
        · exact (readEntries_atEnd _ _ _).bind fun _ _ => ih _ _

theorem readDQT_atEnd (s : State) : (readDQT s).AtEnd := (readLength_atEnd s).bind fun _ _ => readDQTLoop_atEnd _ _ _

theorem readDHTLoop_atEnd (fuel rem : Nat) (s : State) : (readDHTLoop fuel rem s).AtEnd := by
  induction fuel generalizing rem s with
  | zero => exact .ok _ _
  | succ n ih =>
    unfold readDHTLoop
    split
    · exact .ok _ _
    · split
      · exact .raise (by decide) _ _
      · refine (readField_atEnd s).bind fun b t => ?_
        dsimp only
        split
        · exact .raise (by decide) _ _
        · refine (readBytes_atEnd _ _).bind fun _ _ => ?_
          split
          · exact .raise (by decide) _ _
          · split
            · exact .raise (by decide) _ _
            · exact (readBytes_atEnd _ _).bind fun _ _ => ih _ _

theorem readDHT_atEnd (s : State) : (readDHT s).AtEnd := (readLength_atEnd s).bind fun _ _ => readDHTLoop_atEnd _ _ _

theorem readDRI_atEnd (s : State) : (readDRI s).AtEnd :=
  (readUint16_atEnd s).bind fun _ _ => by
    split
    · exact .raise (by decide) _ _
    · exact (readUint16_atEnd _).bind fun _ _ => .ok _ _

theorem skipSegment_atEnd (m : Marker) (s : State) : (skipSegment m s).AtEnd :=
  (readLength_atEnd s).bind fun _ _ => (readBytes_atEnd _ _).bind fun _ _ => .ok _ _

theorem readFrameComps_atEnd (n : Nat) (s : State) : (readFrameComps n s).AtEnd := by
  induction n generalizing s with
  | zero => exact .ok _ _
  | succ n ih =>
    refine (readBytes_atEnd 3 s).bind fun _ _ => ?_
    dsimp only
    split
    · exact .raise (by decide) _ _
    · exact (ih _).bind fun _ _ => .ok _ _

theorem readFrameHeader_atEnd (m : Marker) (s : State) : (readFrameHeader m s).AtEnd := by
  refine (readUint16_atEnd s).bind fun _ _ => (readField_atEnd _).bind fun _ _ => (readUint16_atEnd _).bind fun _ _ =>
    (readUint16_atEnd _).bind fun _ _ => (readField_atEnd _).bind fun _ _ => ?_
  split
  · exact .raise (by decide) _ _
  · split
    · exact .raise (by decide) _ _
    · split
      · exact .raise (by decide) _ _
      · exact (readFrameComps_atEnd _ _).bind fun _ _ => .ok _ _

theorem readScanComps_atEnd (n : Nat) (s : State) : (readScanComps n s).AtEnd := by
  induction n generalizing s with
  | zero => exact .ok _ _
  | succ n ih => exact (readBytes_atEnd 2 s).bind fun _ _ => (ih _).bind fun _ _ => .ok _ _

theorem readScanHeader_atEnd (s : State) : (readScanHeader s).AtEnd := by
  refine (readUint16_atEnd s).bind fun _ _ => (readField_atEnd _).bind fun _ _ => ?_
  dsimp only
  split
  · exact .raise (by decide) _ _
  · split
    · exact .raise (by decide) _ _
    · exact (readScanComps_atEnd _ _).bind fun _ _ => (readBytes_atEnd _ _).bind fun _ _ => .ok _ _

theorem bindLoop_atEnd (scs : List ScanComp) (j : Nat) (s : State) : (bindLoop j scs s).AtEnd := by
  induction scs generalizing j s with
  | nil => exact .ok _ _
  | cons sc scs ih =>
    unfold bindLoop
    split
    · exact .raise (by decide) _ _
    · exact ih _ _

theorem bindComponents_atEnd (s : State) : (bindComponents s).AtEnd := by
  refine (bindLoop_atEnd _ _ _).bind fun _ _ => ?_
  dsimp only
  split
  · split
    · exact .raise (by decide) _ _
    · exact .ok _ _
  · split
    · exact .raise (by decide) _ _
    · exact .ok _ _

theorem tableSymbol_atEnd (t : HuffTable) (code len : Nat) (s : State) : (tableSymbol t code len s).AtEnd := by
  unfold tableSymbol
  split
  · split
    · exact .fault _ _
    · split
      · exact .ok _ _
      · exact .fault _ _
  · exact .fault _ _

theorem decodeLoop_atEnd (t : HuffTable) (fuel : Nat) (s : State) : (decodeLoop t fuel s).AtEnd := by
  induction fuel generalizing s with
  | zero => exact .raise (by decide) _ _
  | succ n ih =>
    refine (nextBit_atEnd s).bind fun _ _ => ?_
    dsimp only
    split
    · exact .raise (by decide) _ _
    · split
      · exact tableSymbol_atEnd _ _ _ _
      · exact ih _

theorem decodeSymbol_atEnd (t : HuffTable) (s : State) : (decodeSymbol t s).AtEnd := decodeLoop_atEnd t 17 _

end Sys2Proof.Machine
end

