-- ==== Sys2Proof/Laws/Idct.lean ====
section
/-! SUPPORT. The exact arithmetic of the inverse DCT means what 45_scan_engine.md R259 and R260 say of real numbers: the field
operations, the sign test, the integer part, the basis of 30_encoding.md R123, the double sum. -/

namespace Sys2Proof.Machine

open Real

/-! ## The real number an element stands for -/

/-- `2 cos(k π / 16)`. -/
noncomputable def cosine (k : ℤ) : ℝ := 2 * cos (k * π / 16)

noncomputable def Q1.real (a : Q1) : ℝ := a.r + a.s * cosine 4
noncomputable def Q2.real (a : Q2) : ℝ := a.r.real + a.s.real * cosine 2
noncomputable def Q3.real (a : Q3) : ℝ := a.r.real + a.s.real * cosine 1

theorem cosine_sq (k : ℤ) : cosine k ^ 2 = 2 + cosine (2 * k) := by
  unfold cosine
  rw [mul_pow, cos_sq]
  have : 2 * ((k : ℝ) * π / 16) = ((2 * k : ℤ) : ℝ) * π / 16 := by push_cast; ring
  rw [this]
  ring

theorem cosine_eight : cosine 8 = 0 := by
  have : ((8 : ℤ) : ℝ) * π / 16 = π / 2 := by push_cast; ring
  rw [cosine, this, cos_pi_div_two, mul_zero]

theorem C1_sq : cosine 4 ^ 2 = 2 := by rw [cosine_sq, show (2 : ℤ) * 4 = 8 by norm_num, cosine_eight, add_zero]
theorem C2_sq : cosine 2 ^ 2 = 2 + cosine 4 := by rw [cosine_sq]; norm_num
theorem C3_sq : cosine 1 ^ 2 = 2 + cosine 2 := by rw [cosine_sq]; norm_num

theorem cosine_pos {k : ℤ} (h0 : 0 ≤ k) (h8 : k < 8) : 0 < cosine k := by
  refine mul_pos two_pos (cos_pos_of_mem_Ioo ⟨?_, ?_⟩)
  · have : (0 : ℝ) ≤ k := by exact_mod_cast h0
    have := pi_pos
    have : 0 ≤ (k : ℝ) * π / 16 := by positivity
    linarith
  · have : (k : ℝ) < 8 := by exact_mod_cast h8
    have := pi_pos
    nlinarith

theorem cosine_le_two (k : ℤ) : cosine k ≤ 2 := by
  have := cos_le_one (k * π / 16)
  unfold cosine
  linarith

@[simp] theorem Q1.real_add (a b : Q1) : (a.add b).real = a.real + b.real := by simp [Q1.add, Q1.real]; ring
@[simp] theorem Q1.real_sub (a b : Q1) : (a.sub b).real = a.real - b.real := by simp [Q1.sub, Q1.real]; ring
@[simp] theorem Q1.real_scale (n : ℤ) (a : Q1) : (a.scale n).real = n * a.real := by simp [Q1.scale, Q1.real]; ring
@[simp] theorem Q1.real_mul (a b : Q1) : (a.mul b).real = a.real * b.real := by
  simp only [Q1.mul, Q1.real]
  push_cast
  linear_combination (-(a.s : ℝ) * b.s) * C1_sq
@[simp] theorem Q1.real_timesC2sq (a : Q1) : a.timesC2sq.real = cosine 2 ^ 2 * a.real := by
  simp only [Q1.timesC2sq, Q1.real, C2_sq]
  push_cast
  linear_combination (-(a.s : ℝ)) * C1_sq
@[simp] theorem Q1.real_zero : Q1.zero.real = 0 := by simp [Q1.zero, Q1.real]

@[simp] theorem Q2.real_add (a b : Q2) : (a.add b).real = a.real + b.real := by simp [Q2.add, Q2.real]; ring
@[simp] theorem Q2.real_sub (a b : Q2) : (a.sub b).real = a.real - b.real := by simp [Q2.sub, Q2.real]; ring
@[simp] theorem Q2.real_scale (n : ℤ) (a : Q2) : (a.scale n).real = n * a.real := by simp [Q2.scale, Q2.real]; ring
@[simp] theorem Q2.real_mul (a b : Q2) : (a.mul b).real = a.real * b.real := by simp [Q2.mul, Q2.real]; ring
@[simp] theorem Q2.real_timesC3sq (a : Q2) : a.timesC3sq.real = cosine 1 ^ 2 * a.real := by
  simp only [Q2.timesC3sq, Q2.real, Q1.real_add, Q1.real_scale, Q1.real_timesC2sq, C3_sq]
  push_cast
  ring
@[simp] theorem Q2.real_zero : Q2.zero.real = 0 := by simp [Q2.zero, Q2.real]

@[simp] theorem Q3.real_add (a b : Q3) : (a.add b).real = a.real + b.real := by simp [Q3.add, Q3.real]; ring
@[simp] theorem Q3.real_sub (a b : Q3) : (a.sub b).real = a.real - b.real := by simp [Q3.sub, Q3.real]; ring
@[simp] theorem Q3.real_scale (n : ℤ) (a : Q3) : (a.scale n).real = n * a.real := by simp [Q3.scale, Q3.real]; ring
@[simp] theorem Q3.real_mul (a b : Q3) : (a.mul b).real = a.real * b.real := by simp [Q3.mul, Q3.real]; ring
@[simp] theorem Q3.real_ofInt (n : ℤ) : (Q3.ofInt n).real = n := by
  simp [Q3.ofInt, Q3.real, Q2.real, Q1.real, Q1.zero, Q2.zero]
@[simp] theorem Q3.real_zero : Q3.zero.real = 0 := by simp [Q3.zero, Q3.real]
@[simp] theorem Q3.real_neg (a : Q3) : a.neg.real = -a.real := by simp [Q3.neg]

/-! ## The sign test -/

/-- The sign of a real number as an integer. -/
noncomputable def sgn (x : ℝ) : ℤ := if 0 < x then 1 else if x = 0 then 0 else -1

theorem sgn_int (n : ℤ) : sgn n = n.sign := by
  unfold sgn
  rcases lt_trichotomy n 0 with h | h | h
  · rw [Int.sign_eq_neg_one_of_neg h, if_neg (by simpa using h.le), if_neg (by simpa using h.ne)]
  · simp [h]
  · rw [Int.sign_eq_one_of_pos h, if_pos (by exact_mod_cast h)]

theorem sgn_nonneg {x : ℝ} : 0 ≤ sgn x ↔ 0 ≤ x := by
  unfold sgn
  rcases lt_trichotomy x 0 with h | h | h
  · simp [h.not_gt, h.ne, h]
  · simp [h]
  · simp [h, h.le]

theorem sgn_eq_zero {x : ℝ} : sgn x = 0 ↔ x = 0 := by
  unfold sgn
  rcases lt_trichotomy x 0 with h | h | h
  · simp [h.not_gt, h.ne]
  · simp [h]
  · simp [h, h.ne']

@[simp] theorem sgn_zero : sgn 0 = 0 := by simp [sgn]
theorem sgn_of_pos {x : ℝ} (h : 0 < x) : sgn x = 1 := if_pos h
theorem sgn_of_neg {x : ℝ} (h : x < 0) : sgn x = -1 := by rw [sgn, if_neg h.not_gt, if_neg h.ne]

theorem signOfSum_eq {a b c d : ℝ} (hc : 0 < c) (hd : d = a ^ 2 - c ^ 2 * b ^ 2) :
    signOfSum (sgn a) (sgn b) (sgn d) = sgn (a + b * c) := by
  subst hd
  unfold signOfSum
  rcases lt_trichotomy a 0 with ha | ha | ha <;> rcases lt_trichotomy b 0 with hb | hb | hb
  · simp [sgn_of_neg ha, sgn_of_neg hb, sgn_of_neg (show a + b * c < 0 by nlinarith)]
  · subst hb; rw [zero_mul, add_zero, sgn_zero, sgn_of_neg ha]; rfl
  · rw [sgn_of_neg ha, sgn_of_pos hb]
    have hbc : 0 < b * c := mul_pos hb hc
    rcases lt_trichotomy (a + b * c) 0 with h | h | h
    · rw [sgn_of_neg h, sgn_of_pos (show 0 < a ^ 2 - c ^ 2 * b ^ 2 by nlinarith)]; rfl
    · rw [h, show a ^ 2 - c ^ 2 * b ^ 2 = (a + b * c) * (a - b * c) by ring, h]; simp
    · rw [sgn_of_pos h, sgn_of_neg (show a ^ 2 - c ^ 2 * b ^ 2 < 0 by nlinarith)]; rfl
  · subst ha; rw [zero_add, sgn_of_neg (show b * c < 0 by nlinarith), sgn_zero, sgn_of_neg hb]; rfl
  · subst ha; subst hb; simp
  · subst ha; rw [zero_add, sgn_of_pos (mul_pos hb hc), sgn_zero, sgn_of_pos hb]; rfl
  · rw [sgn_of_pos ha, sgn_of_neg hb]
    have hbc : b * c < 0 := by nlinarith
    rcases lt_trichotomy (a + b * c) 0 with h | h | h
    · rw [sgn_of_neg h, sgn_of_neg (show a ^ 2 - c ^ 2 * b ^ 2 < 0 by nlinarith)]; rfl
    · rw [h, show a ^ 2 - c ^ 2 * b ^ 2 = (a + b * c) * (a - b * c) by ring, h]; simp
    · rw [sgn_of_pos h, sgn_of_pos (show 0 < a ^ 2 - c ^ 2 * b ^ 2 by nlinarith)]; rfl
  · subst hb; rw [zero_mul, add_zero, sgn_zero, sgn_of_pos ha]; rfl
  · simp [sgn_of_pos ha, sgn_of_pos hb, sgn_of_pos (show 0 < a + b * c by nlinarith)]

theorem Q1.sign_eq (a : Q1) : a.sign = sgn a.real := by
  rw [Q1.sign, ← sgn_int, ← sgn_int, ← sgn_int, signOfSum_eq (cosine_pos (by norm_num) (by norm_num : (4 : ℤ) < 8))]
  · rfl
  · rw [C1_sq]; push_cast; ring

theorem Q2.sign_eq (a : Q2) : a.sign = sgn a.real := by
  rw [Q2.sign, Q1.sign_eq, Q1.sign_eq, Q1.sign_eq,
    signOfSum_eq (cosine_pos (by norm_num) (by norm_num : (2 : ℤ) < 8))]
  · rfl
  · simp; ring

theorem Q3.sign_eq (a : Q3) : a.sign = sgn a.real := by
  rw [Q3.sign, Q2.sign_eq, Q2.sign_eq, Q2.sign_eq,
    signOfSum_eq (cosine_pos (by norm_num) (by norm_num : (1 : ℤ) < 8))]
  · rfl
  · simp; ring

theorem Q1.abs_le (a : Q1) : |a.real| ≤ a.bound := by
  have h4 := cosine_pos (k := 4) (by norm_num) (by norm_num)
  have h2 := cosine_le_two 4
  unfold Q1.real Q1.bound
  push_cast
  rw [Nat.cast_natAbs, Nat.cast_natAbs, Int.cast_abs, Int.cast_abs]
  refine (abs_add_le _ _).trans ?_
  rw [abs_mul, abs_of_pos h4]
  have := abs_nonneg (a.s : ℝ)
  nlinarith

theorem Q2.abs_le (a : Q2) : |a.real| ≤ a.bound := by
  have h4 := cosine_pos (k := 2) (by norm_num) (by norm_num)
  have h2 := cosine_le_two 2
  unfold Q2.real Q2.bound
  push_cast
  refine (abs_add_le _ _).trans ?_
  rw [abs_mul, abs_of_pos h4]
  have := abs_nonneg a.s.real
  have := a.r.abs_le
  have := a.s.abs_le
  nlinarith

theorem Q3.abs_le (a : Q3) : |a.real| ≤ a.bound := by
  have h4 := cosine_pos (k := 1) (by norm_num) (by norm_num)
  have h2 := cosine_le_two 1
  unfold Q3.real Q3.bound
  push_cast
  refine (abs_add_le _ _).trans ?_
  rw [abs_mul, abs_of_pos h4]
  have := abs_nonneg a.s.real
  have := a.r.abs_le
  have := a.s.abs_le
  nlinarith

/-! ## The integer part (R260) -/

theorem floorSearch_spec (q : Q3) (fuel : ℕ) (lo hi : ℤ) (hl : (16 * lo : ℝ) ≤ q.real) (hh : q.real < 16 * hi)
    (hf : hi - lo ≤ 2 ^ fuel) :
    (16 * (floorSearch q fuel lo hi : ℤ) : ℝ) ≤ q.real ∧ q.real < 16 * ((floorSearch q fuel lo hi : ℤ) + 1) := by
  induction fuel generalizing lo hi with
  | zero =>
    refine ⟨hl, hh.trans_le ?_⟩
    have : (hi : ℝ) ≤ lo + 1 := by
      have : hi ≤ lo + 1 := by simp at hf; omega
      exact_mod_cast this
    simp only [floorSearch]
    linarith
  | succ fuel ih =>
    unfold floorSearch
    split
    · rename_i h1
      refine ⟨hl, hh.trans_le ?_⟩
      have : (hi : ℝ) ≤ lo + 1 := by
        have : hi ≤ lo + 1 := by omega
        exact_mod_cast this
      linarith
    · rename_i h1
      dsimp only
      have e : 0 ≤ (q.sub (Q3.ofInt (16 * ((lo + hi) / 2)))).sign ↔ (16 * ((lo + hi) / 2 : ℤ) : ℝ) ≤ q.real := by
        rw [Q3.sign_eq, sgn_nonneg, Q3.real_sub, Q3.real_ofInt, sub_nonneg]
        push_cast
        rfl
      have hp : (2 : ℤ) ^ (fuel + 1) = 2 * 2 ^ fuel := by ring
      split
      · rename_i hs
        exact ih _ _ (e.1 hs) hh (by omega)
      · rename_i hs
        exact ih _ _ hl (not_le.1 (mt e.2 hs)) (by omega)

/-- `floor16` is the integer part of a sixteenth. -/
theorem floor16_eq (q : Q3) : floor16 q = ⌊q.real / 16⌋ := by
  have hb := abs_le.1 q.abs_le
  have hm : q.bound < 16 * (q.bound / 16 + 1) := by omega
  unfold floor16
  dsimp only
  generalize q.bound / 16 + 1 = m at hm
  have hlt : (q.bound : ℝ) < 16 * (m : ℝ) := by exact_mod_cast hm
  obtain ⟨h1, h2⟩ := floorSearch_spec q (Nat.log2 (2 * m) + 1) (-(m : ℤ)) m (by push_cast; linarith)
    (by push_cast; linarith) (by
      have h : 2 * m ≤ 2 ^ (Nat.log2 (2 * m) + 1) := Nat.lt_log2_self.le
      have h : ((2 * m : ℕ) : ℤ) ≤ ((2 ^ (Nat.log2 (2 * m) + 1) : ℕ) : ℤ) := by exact_mod_cast h
      push_cast at h
      linarith)
  symm
  rw [Int.floor_eq_iff]
  constructor <;> linarith

/-- TRUNC drops the fraction toward zero (R260). -/
theorem toInt_trunc (up : Bool) (q : Q3) :
    toInt .trunc up q = if 0 ≤ q.real / 16 then ⌊q.real / 16⌋ else -⌊-(q.real / 16)⌋ := by
  have e : 0 ≤ q.sign ↔ 0 ≤ q.real / 16 := by
    rw [Q3.sign_eq, sgn_nonneg]
    constructor <;> intro h <;> linarith
  simp only [toInt, floor16_eq, Q3.real_neg, e, neg_div]

/-- NEAREST adds a half first (R260). -/
theorem toInt_nearest (up : Bool) (q : Q3) :
    toInt .nearest up q = if 0 ≤ q.real / 16 then ⌊q.real / 16 + 1 / 2⌋ else -⌊-(q.real / 16) + 1 / 2⌋ := by
  have e : 0 ≤ q.sign ↔ 0 ≤ q.real / 16 := by
    rw [Q3.sign_eq, sgn_nonneg]
    constructor <;> intro h <;> linarith
  have e1 : (q.real + 8) / 16 = q.real / 16 + 1 / 2 := by ring
  have e2 : (-q.real + 8) / 16 = -(q.real / 16) + 1 / 2 := by ring
  simp only [toInt, floor16_eq, Q3.real_add, Q3.real_neg, Q3.real_ofInt, e]
  push_cast
  rw [e1, e2]

/-- ENVELOPE is within 1 of the value, whatever the free bit (R260). -/
theorem toInt_envelope (up : Bool) (q : Q3) : |(toInt .envelope up q : ℝ) - q.real / 16| < 1 := by
  have e : (q.sub (Q3.ofInt (16 * floor16 q))).sign = 0 ↔ q.real / 16 = floor16 q := by
    rw [Q3.sign_eq, sgn_eq_zero, Q3.real_sub, Q3.real_ofInt]
    push_cast
    constructor <;> intro h <;> linarith
  have h1 := Int.floor_le (q.real / 16)
  have h2 := Int.lt_floor_add_one (q.real / 16)
  rw [← floor16_eq] at h1 h2
  simp only [toInt]
  rw [abs_lt]
  split
  · rename_i h
    rw [e.1 h]
    simp
  · rename_i h
    have : (floor16 q : ℝ) ≠ q.real / 16 := fun h' => h (e.2 h'.symm)
    have : (floor16 q : ℝ) < q.real / 16 := lt_of_le_of_ne h1 this
    cases up <;> simp <;> constructor <;> linarith

/-! ## The basis (30_encoding.md R123) -/

theorem cosine_add (a b : ℤ) : cosine (a + b) + cosine (a - b) = cosine a * cosine b := by
  unfold cosine
  have h1 : ((a + b : ℤ) : ℝ) * π / 16 = a * π / 16 + b * π / 16 := by push_cast; ring
  have h2 : ((a - b : ℤ) : ℝ) * π / 16 = a * π / 16 - b * π / 16 := by push_cast; ring
  rw [h1, h2, cos_add, cos_sub]
  ring

theorem twiceCos_real (k : ℕ) (h1 : 1 ≤ k) (h7 : k ≤ 7) : (twiceCos k).real = cosine k := by
  have a3 := cosine_add 2 1
  have a5 := cosine_add 4 1
  have a6 := cosine_add 4 2
  have a7 := cosine_add 6 1
  norm_num at a3 a5 a6 a7
  interval_cases k <;> simp [twiceCos, Q3.real, Q2.real, Q1.real, Q1.zero, Q2.zero]
  · linear_combination -a3
  · linear_combination a3 - a5
  · linear_combination -a6
  · linear_combination a5 - a3 - a7 - cosine 1 * a6

theorem cosine_reduce (m k a : ℤ) :
    (m = 32 * a + k ∨ m = 32 * a - k → cosine m = cosine k) ∧
    (m = 32 * a + 16 + k ∨ m = 32 * a + 16 - k → cosine m = -cosine k) := by
  have shift : ∀ x : ℝ, cos (2 * a * π + x) = cos x := fun x => by
    have := cos_add_int_mul_two_pi x a
    rw [← this]; congr 1; ring
  unfold cosine
  constructor
  · rintro (h | h)
    · have : (m : ℝ) * π / 16 = 2 * a * π + k * π / 16 := by rw [h]; push_cast; ring
      rw [this, shift]
    · have : (m : ℝ) * π / 16 = 2 * a * π + -(k * π / 16) := by rw [h]; push_cast; ring
      rw [this, shift, cos_neg]
  · rintro (h | h)
    · have : (m : ℝ) * π / 16 = 2 * a * π + (k * π / 16 + π) := by rw [h]; push_cast; ring
      rw [this, shift, cos_add_pi]; ring
    · have : (m : ℝ) * π / 16 = 2 * a * π + (π - k * π / 16) := by rw [h]; push_cast; ring
      rw [this, shift, cos_pi_sub]; ring

/-- The sign and index printed for row `u`, column `x` are those of `cos((2x + 1) u π / 16)`. -/
def basisChecks : Bool :=
  (List.range 8).all fun u => (List.range 8).all fun x =>
    let i := (basisIndex.getD u []).getD x 0
    let k : ℤ := i.natAbs
    let m : ℤ := (2 * x + 1) * u
    decide (1 ≤ i.natAbs ∧ i.natAbs ≤ 7) &&
    if u = 0 then decide (i = 4)
    else if 0 < i then decide ((m - k) % 32 = 0 ∨ (m + k) % 32 = 0)
    else decide (i ≠ 0 ∧ ((m - k - 16) % 32 = 0 ∨ (m + k - 16) % 32 = 0))

theorem basisChecks_true : basisChecks = true := by decide

/-- `4·A[u][x] = 2·C(u)·cos((2x + 1) u π / 16)`. -/
theorem basis4_real {u x : ℕ} (hu : u < 8) (hx : x < 8) :
    (basis4 u x).real = 4 * ((if u = 0 then 1 / √2 else 1) / 2 * cos ((2 * x + 1) * u * π / 16)) := by
  have h := basisChecks_true
  simp only [basisChecks, List.all_eq_true, List.mem_range] at h
  have h := h u hu x hx
  set i := (basisIndex.getD u []).getD x 0 with hi
  simp only [Bool.and_eq_true, decide_eq_true_eq] at h
  obtain ⟨⟨h1, h7⟩, h⟩ := h
  have e : (basis4 u x).real = i.sign * cosine i.natAbs := by
    simp only [basis4, ← hi, Q3.real_scale, twiceCos_real _ h1 h7]
  rw [e]
  by_cases hu0 : u = 0
  · simp only [hu0, if_true, decide_eq_true_eq] at h
    have h4 : cosine 4 = √2 := by
      rw [cosine, show ((4 : ℤ) : ℝ) * π / 16 = π / 4 by push_cast; ring, cos_pi_div_four]
      ring
    rw [h, show (Int.natAbs 4 : ℤ) = 4 from rfl, show Int.sign 4 = 1 from rfl, h4]
    simp only [hu0, if_true]
    norm_num
    have := Real.mul_self_sqrt (show (0 : ℝ) ≤ 2 by norm_num)
    field_simp
    nlinarith
  · rw [if_neg hu0] at h ⊢
    have hm : cosine ((2 * x + 1) * u) = 2 * cos ((2 * x + 1) * u * π / 16) := by
      rw [cosine]; push_cast; rfl
    rw [show (4 : ℝ) * (1 / 2 * cos ((2 * x + 1) * u * π / 16)) = 2 * cos ((2 * x + 1) * u * π / 16) by ring, ← hm]
    by_cases hpos : 0 < i
    · rw [if_pos hpos, decide_eq_true_eq] at h
      rw [Int.sign_eq_one_of_pos hpos]
      rcases h with h | h
      · rw [(cosine_reduce ((2 * x + 1) * u) i.natAbs ((((2 * x + 1) * u : ℤ) - i.natAbs) / 32)).1 (.inl (by omega))]; simp
      · rw [(cosine_reduce ((2 * x + 1) * u) i.natAbs ((((2 * x + 1) * u : ℤ) + i.natAbs) / 32)).1 (.inr (by omega))]; simp
    · rw [if_neg hpos, decide_eq_true_eq] at h
      rw [Int.sign_eq_neg_one_of_neg (by omega)]
      rcases h.2 with h | h
      · rw [(cosine_reduce ((2 * x + 1) * u) i.natAbs ((((2 * x + 1) * u : ℤ) - i.natAbs - 16) / 32)).2 (.inl (by omega))]
        simp
      · rw [(cosine_reduce ((2 * x + 1) * u) i.natAbs ((((2 * x + 1) * u : ℤ) + i.natAbs - 16) / 32)).2 (.inr (by omega))]
        simp

/-! ## The double sum (R259) -/

theorem sumQ3_real (f : ℕ → Q3) (n : ℕ) : (sumQ3 f n).real = ∑ i ∈ Finset.range n, (f i).real := by
  induction n with
  | zero => simp [sumQ3]
  | succ n ih => rw [sumQ3, Q3.real_add, ih, Finset.sum_range_succ]

theorem idctRows_getD (nat : List Int) {v x : ℕ} (hv : v < 8) (hx : x < 8) :
    ((idctRows nat).getD v []).getD x Q3.zero = idctRow nat v x := by
  simp [idctRows, hv, hx]

/-- `idct16` is `16·REAL[8y + x]`. -/
theorem idct16_real (nat : List Int) {x y : ℕ} (hx : x < 8) (hy : y < 8) :
    (idct16 (idctRows nat) y x).real / 16 =
      ∑ v ∈ Finset.range 8, ∑ u ∈ Finset.range 8,
        ((if u = 0 then 1 / √2 else 1) / 2 * cos ((2 * x + 1) * u * π / 16)) *
        ((if v = 0 then 1 / √2 else 1) / 2 * cos ((2 * y + 1) * v * π / 16)) * (nat.getD (8 * v + u) 0 : ℝ) := by
  rw [idct16, sumQ3_real, Finset.sum_div]
  refine Finset.sum_congr rfl fun v hv => ?_
  have hv := Finset.mem_range.1 hv
  rw [Q3.real_mul, idctRows_getD nat hv hx, idctRow, sumQ3_real, basis4_real hv hy, Finset.mul_sum, Finset.sum_div]
  refine Finset.sum_congr rfl fun u hu => ?_
  rw [Q3.real_scale, basis4_real (Finset.mem_range.1 hu) hx]
  ring

end Sys2Proof.Machine
end

