-- ==== Sys2Proof/Laws/Values.lean ====
section
/-! SUPPORT. The value functions (30_encoding.md R118 to R122) and the stages after the entropy decode (45_scan_engine.md R257,
R258, R261): lengths, ranges, the permutation. -/

namespace Sys2Proof.Machine

/-! ## Un-zig-zag (R258) -/

theorem foldl_set_length (l : List (Nat × Int)) (m : List Int) :
    (l.foldl (fun m p => m.set p.1 p.2) m).length = m.length := by
  induction l generalizing m with
  | nil => rfl
  | cons p l ih => rw [List.foldl_cons, ih, List.length_set]

theorem foldl_set_not_mem (l : List (Nat × Int)) (m : List Int) (n : Nat) (h : n ∉ l.map Prod.fst) :
    (l.foldl (fun m p => m.set p.1 p.2) m)[n]? = m[n]? := by
  induction l generalizing m with
  | nil => rfl
  | cons p l ih =>
    simp only [List.map_cons, List.mem_cons, not_or] at h
    rw [List.foldl_cons, ih _ h.2, List.getElem?_set_ne (Ne.symm h.1)]

theorem foldl_set_mem (l : List (Nat × Int)) (m : List Int) (hn : (l.map Prod.fst).Nodup) {n : Nat} {v : Int}
    (h : (n, v) ∈ l) (hm : n < m.length) : (l.foldl (fun m p => m.set p.1 p.2) m)[n]? = some v := by
  induction l generalizing m with
  | nil => cases h
  | cons p l ih =>
    rw [List.map_cons, List.nodup_cons] at hn
    rw [List.foldl_cons]
    rcases List.mem_cons.1 h with rfl | h
    · rw [foldl_set_not_mem l _ _ hn.1, List.getElem?_set_self hm]
    · exact ih _ hn.2 h (by simpa using hm)

theorem zigzag_nodup : zigzag.Nodup := by decide
theorem zigzag_lt : ∀ p ∈ zigzag, p < 64 := by decide
@[simp] theorem zigzag_length : zigzag.length = 64 := rfl

@[simp] theorem unZigzag_length (dq : List Int) : (unZigzag dq).length = 64 := by
  rw [unZigzag, foldl_set_length]; rfl

/-- `NAT[ZIGZAG[k]] = DQ[k]` (45_scan_engine.md R258). -/
theorem unZigzag_getElem? {dq : List Int} (hd : dq.length = 64) {k : Nat} (hk : k < 64) :
    (unZigzag dq)[zigzag[k]'hk]? = dq[k]? := by
  have hk' : k < (zigzag.zip dq).length := by simp [hd, hk]
  have hfst : (zigzag.zip dq).map Prod.fst = zigzag := List.map_fst_zip (by simp [hd])
  have hlt : zigzag[k]'hk < 64 := zigzag_lt _ (List.getElem_mem _)
  rw [unZigzag, foldl_set_mem _ _ (by rw [hfst]; exact zigzag_nodup) (v := dq[k]'(by omega)) _ (by simpa [zeroBlock] using hlt)]
  · simp [hd, hk]
  · have e : (zigzag.zip dq)[k]'hk' = (zigzag[k]'hk, dq[k]'(by omega)) := List.getElem_zip
    exact e ▸ List.getElem_mem hk'

/-! ## Dequantizer, level shift, samples -/

@[simp] theorem zeroBlock_length : zeroBlock.length = 64 := rfl

theorem dequantize_length {zz : List Int} {q : List Nat} (hz : zz.length = 64) (hq : q.length = 64) :
    (dequantize zz q).length = 64 := by simp [dequantize, hz, hq]

theorem dequantize_getElem? {zz : List Int} {q : List Nat} {k : Nat} (hz : k < zz.length) (hq : k < q.length) :
    (dequantize zz q)[k]? = some (zz[k] * (q[k] : Int)) := by
  simp [dequantize, hz, hq]

/-- A sample has `P` bits (20_memory.md R72). -/
theorem levelShift_lt {p : Nat} (hp : 1 ≤ p) (t : Int) : levelShift p t < 2 ^ p := by
  obtain ⟨p, rfl⟩ := Nat.exists_eq_succ_of_ne_zero (show p ≠ 0 by omega)
  have e : (2 : Int) ^ (p + 1) = 2 * 2 ^ p := by ring
  have hpos : (0 : Int) < 2 ^ p := by positivity
  have hcast : ((levelShift (p + 1) t : Nat) : Int) < 2 ^ (p + 1) := by
    unfold levelShift
    simp only [Nat.add_sub_cancel]
    split
    · positivity
    · split
      · rw [Int.toNat_of_nonneg (by omega)]; omega
      · rw [Int.toNat_of_nonneg (by omega)]; omega
  exact_mod_cast hcast

@[simp] theorem samples_length (mode : IdctInt) (p ctr : Nat) (nat : List Int) : (samples mode p ctr nat).length = 64 := by
  simp [samples]

theorem samples_lt {mode : IdctInt} {p ctr : Nat} {nat : List Int} (hp : 1 ≤ p) : ∀ v ∈ samples mode p ctr nat, v < 2 ^ p := by
  intro v hv
  simp only [samples, List.mem_map] at hv
  obtain ⟨n, _, rfl⟩ := hv
  exact levelShift_lt hp _

theorem samples_getElem? (mode : IdctInt) (p ctr : Nat) (nat : List Int) {n : Nat} (hn : n < 64) :
    (samples mode p ctr nat)[n]? = some (levelShift p
      (toInt mode (Config.envelopeUp (ctr + n)) (idct16 (idctRows nat) (n / 8) (n % 8)))) := by
  simp [samples, hn]

/-! ## `extend` (R118) -/

/-- The top bit of the `t` says the sign; the size is at least half the range; zero is never a result. -/
theorem extend_range {v t : Nat} (ht : 1 ≤ t) (hv : v < 2 ^ t) :
    (extend v t < 0 ↔ v < 2 ^ (t - 1)) ∧ (2 : Int) ^ (t - 1) ≤ |extend v t| ∧ |extend v t| ≤ 2 ^ t - 1 := by
  obtain ⟨t, rfl⟩ := Nat.exists_eq_succ_of_ne_zero (show t ≠ 0 by omega)
  have hv' : (v : Int) < 2 * 2 ^ t := by
    have : (v : Int) < ((2 ^ (t + 1) : Nat) : Int) := by exact_mod_cast hv
    push_cast at this
    rw [pow_succ] at this
    linarith
  have e : (2 : Int) ^ (t + 1) = 2 * 2 ^ t := by ring
  simp only [extend, Nat.succ_eq_add_one, Nat.add_sub_cancel, e]
  by_cases h : v < 2 ^ t
  · have h' : (v : Int) < 2 ^ t := by exact_mod_cast h
    rw [if_pos h]
    have hneg : (v : Int) + -(2 * 2 ^ t) + 1 < 0 ∨ (v : Int) + -(2 * 2 ^ t) + 1 = 0 := by omega
    have hpos : (0 : Int) < 2 ^ t := by positivity
    refine ⟨⟨fun _ => h, fun _ => by omega⟩, ?_, ?_⟩
    · rw [abs_of_nonpos (by omega)]; omega
    · rw [abs_of_nonpos (by omega)]; omega
  · have h' : (2 : Int) ^ t ≤ v := by exact_mod_cast not_lt.1 h
    rw [if_neg h]
    refine ⟨⟨fun h0 => by omega, fun h0 => absurd h0 h⟩, ?_, ?_⟩
    · rw [abs_of_nonneg (by omega)]; omega
    · rw [abs_of_nonneg (by omega)]; omega

end Sys2Proof.Machine
end

