-- ==== Sys2Proof/Laws/Invariant.lean ====
section
/-! SUPPORT. How the parts of the machine keep the invariant of Safety.lean: the clauses that hold in every state, the clauses of
the header regions and of a scan, and for each operation that it answers within them. -/

namespace Sys2Proof.Machine

/-- The clauses of the invariant that do not depend on the sequencer state. -/
structure State.Always (s : State) : Prop where
  params : ∀ p ∈ s.params.precisions, 1 ≤ p ∧ p ≤ 16
  pos : s.pos ≤ s.input.length
  bitcnt : s.bitcnt ≤ 8
  len : s.len ≤ 17
  k : s.k ≤ 79
  blocks : s.zz.length = 64 ∧ s.dq.length = 64 ∧ s.nat.length = 64 ∧ s.samp.length = 64
  pending : s.pendmkV = true → ∃ c, c ≠ 0#8 ∧ s.pendmk = markerOf c ∧ s.lastmk = s.pendmk
  base : s.base.Good
  ovl : s.ovl.Good
  eff : s.eff.Good
  header : s.fhV = true → s.fh.Good s.params
  records : ∀ r ∈ s.out, r.scan ≤ s.scanIdx ∧ r.samples.length = 64 ∧ s.fhV = true ∧
    ∀ v ∈ r.samples, v < 2 ^ s.fh.p.toNat

/-- No error is latched. -/
def State.quiet (s : State) : Prop := s.errCode = 0#4 ∧ s.errMarker = 0#16 ∧ s.errPos = 0 ∧ s.errState = 0#4

theorem State.Inv.always {s : State} (h : s.Inv) : s.Always :=
  ⟨h.params, h.pos, h.bitcnt, h.len, h.k, h.blocks, fun hp => (h.pending hp).1, h.base, h.ovl, h.eff, h.header, h.records⟩

theorem State.Inv.quiet {s : State} (h : s.Inv) (hs : s.st ≠ .error) : s.quiet := by
  have := h.errors
  rwa [if_neg hs] at this

theorem State.Inv.noPending {s : State} (h : s.Inv) (h1 : s.st ≠ .scanComplete) (h2 : s.st ≠ .awaitingSOS)
    (h3 : s.st ≠ .error) : s.pendmkV = false := by
  by_contra hp
  rcases (h.pending (by simpa using hp)).2 with h | h | h <;> contradiction

theorem ErrKind.code_range (e : ErrKind) : 1 ≤ e.code.toNat ∧ e.code.toNat ≤ 10 := by cases e <;> decide

theorem SeqState.code_ne_error {st : SeqState} (h : st ≠ .error) : st.code ≠ 8#4 := by
  cases st <;> first | exact absurd rfl h | decide

/-- Taking an error keeps the invariant. -/
theorem trapEntry_inv {e : ErrKind} {i : Option Info} {s : State} (h : s.Always) (hs : s.st ≠ .error) :
    (trapEntry e i s).Inv where
  params := h.params
  pos := h.pos
  bitcnt := h.bitcnt
  len := h.len
  k := h.k
  blocks := h.blocks
  pending hp := ⟨h.pending hp, .inr (.inr rfl)⟩
  errors := by
    rw [if_pos (show (trapEntry e i s).st = .error from rfl)]
    exact ⟨e.code_range.1, e.code_range.2, rfl, SeqState.code_ne_error hs⟩
  base := h.base
  ovl := h.ovl
  eff := h.eff
  held h := by cases h
  notHeld h := by rcases h with h | h <;> cases h
  header := h.header
  bound h := by cases h
  place h := by cases h
  boundary h := by cases h
  complete h := by cases h
  records := h.records

/-- The outcome of an operation is a next state that keeps the invariant. -/
def Res.Keeps (r : Res Unit) : Prop := ∃ t, settle r = .next t ∧ t.Inv

theorem Res.Keeps.next {r : Res Unit} (h : r.Keeps) : ∃ t, settle r = .next t ∧ t.Inv := h
theorem Res.Keeps.ok {t : State} (h : t.Inv) : (Res.ok () t).Keeps := ⟨t, rfl, h⟩
theorem Res.Keeps.raise {e : ErrKind} {i : Option Info} {t : State} (h : t.Always) (hs : t.st ≠ .error) :
    (Res.stop (.raise e i) t : Res Unit).Keeps := ⟨_, rfl, trapEntry_inv h hs⟩

/-! ## Header regions -/

/-- A header region, no marker pending. -/
structure State.Region (s : State) : Prop where
  always : s.Always
  quiet : s.quiet
  header : s.inHeader
  held : s.st = .awaitingSOS → s.fhV = true
  notHeld : s.st = .frameTables → s.fhV = false
  noPending : s.pendmkV = false

theorem State.Region.inv {s : State} (h : s.Region) : s.Inv where
  params := h.always.params
  pos := h.always.pos
  bitcnt := h.always.bitcnt
  len := h.always.len
  k := h.always.k
  blocks := h.always.blocks
  pending hp := by rw [h.noPending] at hp; cases hp
  errors := by
    have hs : s.st ≠ .error := by rcases h.header with h | h <;> simp [h]
    rw [if_neg hs]; exact h.quiet
  base := h.always.base
  ovl := h.always.ovl
  eff := h.always.eff
  held ha := by rcases h.header with e | e
                · rw [e] at ha; cases ha
                · exact h.held e
  notHeld hn := by rcases hn with e | e
                   · rcases h.header with e' | e' <;> rw [e'] at e <;> cases e
                   · exact h.notHeld e
  header := h.always.header
  bound hi := by rcases h.header with e | e <;> rw [e] at hi <;> cases hi
  place hi := by rcases h.header with e | e <;> rw [e] at hi <;> cases hi
  boundary hi := by rcases h.header with e | e <;> rw [e] at hi <;> cases hi
  complete hi := by rcases h.header with e | e <;> rw [e] at hi <;> cases hi
  records := h.always.records

theorem State.Always.stream {s t : State} (h : s.Always) (f : StreamFrame s t) : t.Always := by
  obtain ⟨p, l, b, rfl, hp⟩ := f
  exact { h with pos := (hp h.pos).2 }

theorem State.Region.stream {s t : State} (h : s.Region) (f : StreamFrame s t) : t.Region := by
  have ha := h.always.stream f
  obtain ⟨p, l, b, rfl, hp⟩ := f
  exact { h with always := ha }

theorem State.Region.region {P : MiscTables → MiscTables → Prop} (hP : ∀ m m', P m m' → m.Good → m'.Good)
    {s t : State} (h : s.Region) (f : RegionFrame P s t) : t.Region := by
  obtain ⟨p, l, a, b, o, rfl, hp, hb⟩ := f
  refine { h with always := { h.always with pos := (hp h.always.pos).2, base := ?_, ovl := ?_ } }
  · split at hb
    · exact hP _ _ hb.1 h.always.base
    · rw [hb.1]; exact h.always.base
  · split at hb
    · rw [hb.2]; exact h.always.ovl
    · exact hP _ _ hb.2 h.always.ovl

theorem State.Region.notError {s : State} (h : s.Region) : s.st ≠ .error := by
  rcases h.header with h | h <;> simp [h]

/-- An operation that stays in the region, and stops only by raises, keeps the invariant. -/
theorem Res.Keeps.of_region {r : Res Unit} (hr : r.Raises) (hf : r.final.Region) : r.Keeps := by
  cases r with
  | ok a t => exact .ok hf.inv
  | stop c t =>
    obtain ⟨e, i, rfl⟩ := hr c rfl
    exact .raise hf.always hf.notError

theorem readDQT_keeps {s : State} (h : s.Region) : (readDQT s).Keeps :=
  .of_region (readDQT_raises s) (h.region (fun _ _ hp => hp.2.2.2) (readDQT_frame s))

theorem readDHT_keeps {s : State} (h : s.Region) : (readDHT s).Keeps :=
  .of_region (readDHT_raises s) (h.region (fun _ _ hp => hp.2.2) (readDHT_frame s))

theorem readDRI_keeps {s : State} (h : s.Region) : (readDRI s).Keeps :=
  .of_region (readDRI_raises s) (h.region (fun _ _ hp => hp.2.2.2) (readDRI_frame s))

theorem readDNLbody_keeps {s : State} (h : s.Region) : (readDNLbody s).Keeps := by
  refine .of_region (readDNLbody_raises s) ?_
  cases hr : readDNLbody s with
  | ok a t =>
    obtain ⟨u, nl, f, _, rfl⟩ := readDNLbody_ok hr
    have hu := h.stream f
    exact { hu with always := { hu.always with } }
  | stop c t => exact h.stream (readDNLbody_stop hr).1

theorem State.Region.aux {s : State} (h : s.Region) (r : AuxRec) : (emitAux r s).Region := by
  unfold emitAux
  split
  · exact { h with always := { h.always with } }
  · exact h

theorem skipSegment_keeps (m : Marker) {s : State} (h : s.Region) : (skipSegment m s).Keeps := by
  refine .of_region (skipSegment_raises m s) ?_
  rcases skipSegment_frame m s with f | ⟨u, bytes, f, e⟩
  · exact h.stream f
  · rw [e]; exact (h.stream f).aux _

theorem refuse_keeps {e : ErrKind} {i : Option Info} {s : State} (h : s.Region) : (raise e i s : Res Unit).Keeps :=
  .raise h.always h.notError

theorem frameRow_keeps (m : Marker) {s : State} (h : s.Region) : (frameRow m s).Keeps := by
  unfold frameRow
  split
  · rename_i hs
    split
    · exact refuse_keeps h
    · rename_i hm
      rw [not_not] at hm
      cases hr : readFrameHeader m s with
      | ok a t =>
        obtain ⟨u, f, hf, _, hg, rfl⟩ := readFrameHeader_ok hm hr
        have hu := h.stream hf
        have hp := hf.params
        have hout : u.out = [] := by
          by_contra hne
          obtain ⟨r, l, e⟩ := List.exists_cons_of_ne_nil hne
          have h1 := (hu.always.records r (by simp [e])).2.2.1
          have h2 : u.fhV = false := hu.notHeld (by obtain ⟨_, _, _, rfl, _⟩ := hf; exact hs)
          rw [h2] at h1
          cases h1
        refine .ok (State.Region.inv (s := _) ?_)
        refine { hu with
          always := { hu.always with ovl := MiscTables.good_empty, header := fun _ => hp ▸ hg, records := ?_ }
          header := .inr rfl
          held := fun _ => rfl
          notHeld := fun h => by cases h }
        intro r hr
        rw [show _ = u.out from rfl, hout] at hr
        cases hr
      | stop c t =>
        have f := readFrameHeader_stop hr
        obtain ⟨e, i, rfl⟩ := readFrameHeader_raises m s c (by rw [hr]; rfl)
        exact .raise (h.stream f).always (h.stream f).notError
  · exact refuse_keeps h

theorem eoiRow_keeps (m : Marker) {s : State} (h : s.Region) : (eoiRow m s).Keeps := by
  unfold eoiRow
  split
  · exact refuse_keeps h
  · have hi := h.inv
    exact .ok { hi with
      pending := fun hp => by rw [show _ = s.pendmkV from rfl, h.noPending] at hp; cases hp
      errors := by rw [if_neg (by simp)]; exact h.quiet
      held := fun h => by cases h
      notHeld := fun h => by rcases h with h | h <;> cases h
      bound := fun h => by cases h
      place := fun h => by cases h
      boundary := fun h => by cases h
      complete := fun h => by cases h }

/-! ## Inside a scan -/

/-- A scan whose components are bound, with no marker pending; where in the MCU it stands is said apart. -/
structure State.Bound (s : State) : Prop where
  always : s.Always
  quiet : s.quiet
  noPending : s.pendmkV = false
  held : s.fhV = true
  bound : s.sh.ns.toNat = s.nbind ∧ 1 ≤ s.nbind ∧ s.nbind ≤ s.bind.length ∧ s.nbind ≤ s.params.ncompMax ∧
    (∀ b ∈ s.bind.take s.nbind, b.Good s.fh s.nbind) ∧ -1 ≤ s.ri ∧ s.ri ≤ 65535

/-- Where the scan stands inside its MCU. -/
structure State.Place (s : State) : Prop where
  curJ : s.curJ < s.nbind
  curU : ∀ b, currentBinding s = some b → s.curU < b.units
  ac : s.unitPos = .ac → 1 ≤ s.k ∧ s.k ≤ 63
  atb : s.atb = true → s.unitPos = .dc ∧ s.curJ = 0 ∧ s.curU = 0
  interval : 0 < s.ri → (s.mcuInInt : Int) < s.ri

theorem State.Inv.toBound {s : State} (h : s.Inv) (hs : s.st.inScan = true) : s.Bound := by
  have h1 : s.st ≠ .scanComplete := by intro e; rw [e] at hs; cases hs
  have h2 : s.st ≠ .awaitingSOS := by intro e; rw [e] at hs; cases hs
  have h3 : s.st ≠ .error := by intro e; rw [e] at hs; cases hs
  refine ⟨h.always, h.quiet h3, h.noPending h1 h2 h3, h.held ?_, h.bound hs⟩
  revert hs
  cases s.st <;> decide

theorem State.Inv.toPlace {s : State} (h : s.Inv) (hs : s.st = .decodingMCUs) : s.Place := by
  obtain ⟨h1, h2, h3, h4, h5⟩ := h.place hs
  exact ⟨h1, h2, h3, h4, h5⟩

theorem State.Bound.inv {s : State} (h : s.Bound) (hs : s.st = .decodingMCUs) (hp : s.Place) : s.Inv where
  params := h.always.params
  pos := h.always.pos
  bitcnt := h.always.bitcnt
  len := h.always.len
  k := h.always.k
  blocks := h.always.blocks
  pending hp := by rw [h.noPending] at hp; cases hp
  errors := by rw [if_neg (by simp [hs])]; exact h.quiet
  base := h.always.base
  ovl := h.always.ovl
  eff := h.always.eff
  held _ := h.held
  notHeld hn := by rcases hn with e | e <;> rw [hs] at e <;> cases e
  header := h.always.header
  bound _ := h.bound
  place _ := ⟨hp.curJ, hp.curU, hp.ac, hp.atb, hp.interval⟩
  boundary e := by rw [hs] at e; cases e
  complete e := by rw [hs] at e; cases e
  records := h.always.records

/-- The scan is over: no bit is left, and its marker waits or it was a DNL. -/
theorem complete_inv {s t : State} (ht : t = { s with st := .scanComplete }) (ha : s.Always) (hq : s.quiet)
    (hv : s.fhV = true) (hb : s.bitcnt = 0) (hm : s.pendmkV = true ∨ s.dnlSeen = true) : t.Inv := by
  subst ht
  exact {
    params := ha.params
    pos := ha.pos
    bitcnt := ha.bitcnt
    len := ha.len
    k := ha.k
    blocks := ha.blocks
    pending := fun hp => ⟨ha.pending hp, .inl rfl⟩
    errors := by rw [if_neg (by simp)]; exact hq
    base := ha.base
    ovl := ha.ovl
    eff := ha.eff
    held := fun _ => hv
    notHeld := fun h => by rcases h with h | h <;> cases h
    header := ha.header
    bound := fun h => by cases h
    place := fun h => by cases h
    boundary := fun h => by cases h
    complete := fun _ => ⟨hb, hm⟩
    records := ha.records }

theorem State.Always.bits {s t : State} (h : s.Always) (f : BitFrame s t) : t.Always := by
  rw [eq_of_bitKeep f.keep]
  exact { h with pos := (f.pos h.pos).2, bitcnt := f.cnt h.bitcnt }

theorem State.Bound.bits {s t : State} (h : s.Bound) (f : BitFrame s t) : t.Bound := by
  have ha := h.always.bits f
  rw [eq_of_bitKeep f.keep] at ha ⊢
  exact { h with always := ha }

/-- However the bit reader stops inside a scan, the scan ends or an error is taken, and the invariant holds
(45_scan_engine.md R277). -/
theorem Res.Keeps.of_stop {c : Stop} {s t : State} (h : s.Bound) (hs : s.st = .decodingMCUs) (f : StopFrame c s t) :
    (Res.stop c t : Res Unit).Keeps := by
  have hst : t.st = .decodingMCUs := hs ▸ (congrArg State.st f.keep :)
  have ha : t.Always := by
    have hpend : t.pendmkV = true → ∃ b, b ≠ 0#8 ∧ t.pendmk = markerOf b ∧ t.lastmk = t.pendmk := by
      intro hp
      cases c with
      | raise e i => rw [(f.raised e i rfl).1, h.noPending] at hp; cases hp
      | signal g =>
        cases g with
        | endOfScan => rw [(f.dnl rfl).2.2.1, h.noPending] at hp; cases hp
        | markerFound m =>
          obtain ⟨-, -, e, ⟨b, hb, hm⟩, -, -, -, hl⟩ := f.marker m rfl
          exact ⟨b, hb, e.trans hm, hl.trans e.symm⟩
      | fault x => exact absurd rfl (f.noFault x)
    have e := eq_of_refillKeep f.keep
    revert hpend
    rw [e]
    intro hpend
    exact { h.always with pos := (f.pos h.always.pos).2, bitcnt := f.cnt h.always.bitcnt, pending := hpend }
  have hq : t.quiet := by
    have e := eq_of_refillKeep f.keep
    rw [e]; exact h.quiet
  have hv : t.fhV = true := h.held ▸ (congrArg State.fhV f.keep :)
  cases c with
  | raise e i => exact .raise ha (by simp [hst])
  | fault x => exact absurd rfl (f.noFault x)
  | signal g =>
    cases g with
    | endOfScan =>
      obtain ⟨hb, hd, -⟩ := f.dnl rfl
      exact ⟨_, rfl, complete_inv rfl ha hq hv hb (.inr hd)⟩
    | markerFound m =>
      obtain ⟨hb, hp, -⟩ := f.marker m rfl
      refine ⟨_, rfl, ?_⟩
      simp only [scanSignal]
      split
      · exact complete_inv rfl ha hq hv hb (.inl hp)
      · exact trapEntry_inv ha (by simp [hst])

/-- The binding of the current component exists and is good. -/
theorem State.Bound.current {s : State} (h : s.Bound) (hj : s.curJ < s.nbind) :
    ∃ b, currentBinding s = some b ∧ b.Good s.fh s.nbind := by
  obtain ⟨-, -, h2, -, h4, -⟩ := h.bound
  have hlt : s.curJ < s.bind.length := by omega
  refine ⟨s.bind[s.curJ], by simp [currentBinding, hj, hlt], h4 _ ?_⟩
  rw [List.mem_take_iff_getElem]
  exact ⟨s.curJ, by omega, rfl⟩

theorem Binding.Good.units_pos {params : Params} {fh : FrameHeader} (hf : fh.Good params) {n : Nat} {b : Binding}
    (h : b.Good fh n) : 1 ≤ b.units := by
  rw [h.units]
  split
  · exact le_rfl
  · obtain ⟨c, hc, -, e1, e2, -⟩ := h.comp
    obtain ⟨n1, n2⟩ := hf.factors c hc
    have p1 : c.h.toNat ≠ 0 := fun h => n1 (BitVec.eq_of_toNat_eq (by simpa using h))
    have p2 : c.v.toNat ≠ 0 := fun h => n2 (BitVec.eq_of_toNat_eq (by simpa using h))
    rw [← e1, ← e2]
    exact Nat.mul_pos (Nat.pos_of_ne_zero p1) (Nat.pos_of_ne_zero p2)

/-! ## The next unit, the next MCU -/

theorem State.Bound.beginUnit {s : State} (h : s.Bound) : (Sys2Proof.Machine.beginUnit s).Bound :=
  { h with always := { h.always with blocks := ⟨rfl, h.always.blocks.2⟩ } }

theorem beginMCU_keeps {s : State} (h : s.Bound) (hs : s.st = .decodingMCUs) (hr : 0 < s.ri → (s.mcuInInt : Int) < s.ri) :
    (beginMCU s).Inv := by
  have hb : (beginMCU s).Bound := State.Bound.beginUnit (s := { s with atb := true, curJ := 0, curU := 0 })
    { h with always := { h.always with } }
  refine hb.inv hs ⟨h.bound.2.1, fun b hc => ?_, fun e => (by cases e), fun _ => ⟨rfl, rfl, rfl⟩, hr⟩
  obtain ⟨b', hb', hg⟩ := hb.current (s := beginMCU s) h.bound.2.1
  rw [hc] at hb'
  cases hb'
  exact hg.units_pos (h.always.header h.held)

theorem clearPred_bound {s : State} (h : s.Bound) : (clearPred s).Bound := { h with always := { h.always with } }

theorem mcuCompleted_keeps {s : State} (h : s.Bound) (hs : s.st = .decodingMCUs)
    (hr : 0 < s.ri → (s.mcuInInt : Int) < s.ri) : (mcuCompleted s).Inv := by
  unfold mcuCompleted
  dsimp only
  split
  · rename_i hri
    exact {
      params := h.always.params
      pos := h.always.pos
      bitcnt := Nat.zero_le _
      len := h.always.len
      k := h.always.k
      blocks := h.always.blocks
      pending := fun hp => by rw [show _ = s.pendmkV from rfl, h.noPending] at hp; cases hp
      errors := by rw [if_neg (by simp [enterBoundary])]; exact h.quiet
      base := h.always.base
      ovl := h.always.ovl
      eff := h.always.eff
      held := fun _ => h.held
      notHeld := fun h => by rcases h with h | h <;> cases h
      header := h.always.header
      bound := fun _ => h.bound
      place := fun h => by cases h
      boundary := fun _ => ⟨rfl, hri.1, rfl⟩
      complete := fun h => by cases h
      records := h.always.records }
  · rename_i hri
    refine beginMCU_keeps (s := { s with mcuInInt := s.mcuInInt + 1, mcuDone := s.mcuDone + 1 })
      { h with always := { h.always with } } hs fun h0 => ?_
    have := hr h0
    have hne : ((s.mcuInInt + 1 : Nat) : Int) ≠ s.ri := fun e => hri ⟨h0, e⟩
    dsimp only at *
    push_cast at hne ⊢
    omega

theorem nextUnit_keeps {b : Binding} {s : State} (h : s.Bound) (hs : s.st = .decodingMCUs)
    (hr : 0 < s.ri → (s.mcuInInt : Int) < s.ri) (hj : s.curJ < s.nbind) (hb : currentBinding s = some b)
    (ha : s.atb = false) : (nextUnit b s).Inv := by
  unfold nextUnit
  split
  · rename_i hu
    refine (State.Bound.beginUnit (s := { s with curU := s.curU + 1 }) { h with always := { h.always with } }).inv hs
      ⟨hj, fun b' hb' => ?_, fun e => (by cases e), fun e => absurd (ha.symm.trans (show s.atb = true from e)) Bool.false_ne_true, hr⟩
    have : currentBinding s = some b' := hb'
    rw [hb] at this
    cases this
    exact hu
  · split
    · rename_i hj'
      have hB := State.Bound.beginUnit (s := { s with curJ := s.curJ + 1, curU := 0 }) { h with always := { h.always with } }
      refine hB.inv hs ⟨hj', fun b' hb' => ?_, fun e => (by cases e),
        fun e => absurd (ha.symm.trans (show s.atb = true from e)) Bool.false_ne_true, hr⟩
      obtain ⟨b'', hb'', hg⟩ := hB.current hj'
      rw [hb'] at hb''
      cases hb''
      exact hg.units_pos (h.always.header h.held)
    · exact mcuCompleted_keeps h hs hr

theorem finishUnit_bound {b : Binding} {s : State} (h : s.Bound) (hq : b.q.good) : (finishUnit b s).Bound := by
  have hz := h.always.blocks.1
  have hp : 1 ≤ s.fh.p.toNat := (h.always.params _ (h.always.header h.held).precision).1
  refine { h with always := { h.always with blocks := ⟨hz, ?_, ?_, ?_⟩, records := ?_ } }
  · exact dequantize_length hz hq.1
  · exact unZigzag_length _
  · exact samples_length _ _ _ _
  · intro r hr
    rcases List.mem_append.1 hr with hr | hr
    · exact h.always.records r hr
    · rw [List.mem_singleton] at hr
      subst hr
      exact ⟨le_rfl, samples_length _ _ _ _, h.held, samples_lt hp⟩

theorem completeUnit_keeps {b : Binding} {s : State} (h : s.Bound) (hs : s.st = .decodingMCUs)
    (hr : 0 < s.ri → (s.mcuInInt : Int) < s.ri) (hj : s.curJ < s.nbind) (hb : currentBinding s = some b)
    (ha : s.atb = false) : (completeUnit b s).Keeps := by
  obtain ⟨b', hb', hg⟩ := h.current hj
  rw [hb] at hb'
  cases hb'
  unfold completeUnit
  rw [if_pos h.held]
  exact .ok (nextUnit_keeps (finishUnit_bound h hg.quant) hs hr hj hb ha)

theorem endOfBlock_keeps {s : State} (h : s.Bound) (hs : s.st = .decodingMCUs)
    (hr : 0 < s.ri → (s.mcuInInt : Int) < s.ri) (hj : s.curJ < s.nbind) (ha : s.atb = false) : (endOfBlock s).Keeps := by
  obtain ⟨b, hb, -⟩ := h.current hj
  unfold endOfBlock
  rw [hb]
  exact completeUnit_keeps h hs hr hj hb ha

/-! ## The symbols -/

theorem dcStep_keeps (t : Nat) {s : State} (h : s.Bound) (hs : s.st = .decodingMCUs) (hp : s.Place) : (dcStep t s).Keeps := by
  unfold dcStep
  dsimp only
  have h0 : ({ s with atb := false } : State).Bound := { h with always := { h.always with } }
  split
  · exact .raise h0.always (by simp [hs])
  · cases hv : receive t { s with atb := false } with
    | stop c u => exact .of_stop h0 hs (receive_stop hv)
    | ok v u =>
      have f := receive_ok hv
      have hu := h0.bits f
      have e := eq_of_bitKeep f.keep
      have hst : u.st = .decodingMCUs := by rw [e]; exact hs
      simp only [Res.bind_ok]
      refine .ok ?_
      refine State.Bound.inv (s := _) { hu with always := { hu.always with k := by simp, blocks := ?_ } } hst ⟨?_, ?_, ?_, ?_, ?_⟩
      · exact ⟨by rw [List.length_set]; exact hu.always.blocks.1, hu.always.blocks.2⟩
      · rw [e]; exact hp.curJ
      · rw [e]; exact hp.curU
      · exact fun _ => ⟨le_rfl, by simp⟩
      · rw [e]; exact fun e => by cases e
      · rw [e]; exact hp.interval

theorem zrlStep_keeps {s : State} (h : s.Bound) (hs : s.st = .decodingMCUs) (hp : s.Place) (ha : s.unitPos = .ac) :
    (zrlStep s).Keeps := by
  obtain ⟨k1, k63⟩ := hp.ac ha
  unfold zrlStep
  dsimp only
  have h0 : ({ s with k := s.k + 16 } : State).Bound := { h with always := { h.always with k := by simp; omega } }
  split
  · exact .raise h0.always (by simp [hs])
  · rename_i hk
    exact .ok (h0.inv hs ⟨hp.curJ, hp.curU, fun _ => ⟨by simp, by simpa using hk⟩, hp.atb, hp.interval⟩)

theorem coefStep_keeps (r z : Nat) (hr15 : r ≤ 15) {s : State} (h : s.Bound) (hs : s.st = .decodingMCUs) (hp : s.Place)
    (ha : s.unitPos = .ac) : (coefStep r z s).Keeps := by
  obtain ⟨k1, k63⟩ := hp.ac ha
  have hatb : s.atb = false := by
    by_contra hb
    have := (hp.atb (by simpa using hb)).1
    rw [ha] at this
    cases this
  unfold coefStep
  dsimp only
  have h0 : ({ s with k := s.k + r } : State).Bound := { h with always := { h.always with k := by simp; omega } }
  split
  · exact .raise h0.always (by simp [hs])
  · rename_i hk
    cases hv : receive z { s with k := s.k + r } with
    | stop c u => exact .of_stop h0 hs (receive_stop hv)
    | ok v u =>
      have f := receive_ok hv
      have hu := h0.bits f
      have e := eq_of_bitKeep f.keep
      have hst : u.st = .decodingMCUs := by rw [e]; exact hs
      simp only [Res.bind_ok]
      have hz : ({ u with zz := u.zz.set u.k (extend v z) } : State).Bound :=
        { hu with always := { hu.always with blocks := ⟨by rw [List.length_set]; exact hu.always.blocks.1, hu.always.blocks.2⟩ } }
      split
      · refine endOfBlock_keeps hz hst ?_ ?_ ?_
        · rw [e]; exact hp.interval
        · rw [e]; exact hp.curJ
        · rw [e]; exact hatb
      · rename_i hk63
        have hk' : u.k = s.k + r := (congrArg State.k f.keep :)
        have hk63' : u.k ≠ 63 := hk63
        have hk'' : ¬s.k + r > 63 := hk
        refine .ok (State.Bound.inv (s := _) { hz with always := { hz.always with k := ?_ } } hst ⟨?_, ?_, ?_, ?_, ?_⟩)
        · dsimp only; omega
        · rw [e]; exact hp.curJ
        · rw [e]; exact hp.curU
        · intro _; dsimp only; omega
        · rw [e]; exact hp.atb
        · rw [e]; exact hp.interval

/-! ## The scan header -/

theorem bindComponents_keeps_stop {s t : State} {c : Stop} (h : bindComponents s = .stop c t) :
    (∃ e i, c = .raise e i) ∧ ∃ bd n mc, t = { s with bind := bd, nbind := n, mcuCount := mc } := by
  unfold bindComponents at h
  cases hb : bindAll s.fh s.eff s.sh.comp with
  | none =>
    obtain ⟨bd, hl⟩ := bindLoop_stop s.sh.comp 0 s hb
    rw [hl] at h
    cases h
    exact ⟨⟨_, _, rfl⟩, bd, s.nbind, s.mcuCount, rfl⟩
  | some bs =>
    rw [bindLoop_ok s.sh.comp 0 s (Nat.zero_le _) hb] at h
    simp only [Res.bind_ok] at h
    split at h
    · split at h
      · cases h; exact ⟨⟨_, _, rfl⟩, _, _, _, rfl⟩
      · cases h
    · split at h
      · cases h; exact ⟨⟨_, _, rfl⟩, _, _, _, rfl⟩
      · cases h

/-- What a binding that succeeds leaves: the bindings of the selectors in order, good ones (44_headers.md R231). -/
theorem bindComponents_ok {s t : State} (he : s.eff.Good) (hl : s.sh.comp.length = s.sh.ns.toNat)
    (h : bindComponents s = .ok () t) :
    ∃ bd mc, t = { s with bind := bd, nbind := s.sh.ns.toNat, mcuCount := mc } ∧ s.sh.ns.toNat ≤ bd.length ∧
      ∀ b ∈ bd.take s.sh.ns.toNat, b.Good s.fh s.sh.ns.toNat := by
  unfold bindComponents at h
  cases hb : bindAll s.fh s.eff s.sh.comp with
  | none =>
    obtain ⟨bd, hl⟩ := bindLoop_stop s.sh.comp 0 s hb
    rw [hl] at h
    cases h
  | some bs =>
    rw [bindLoop_ok s.sh.comp 0 s (Nat.zero_le _) hb] at h
    have hlen := (bindAll_length hb).trans hl
    have hgood := bindAll_forall (fun sc b hsc => bindOne_good he hsc) hb
    simp only [Res.bind_ok, List.take_zero, List.nil_append] at h
    split at h
    · rename_i hn1
      split at h
      · cases h
      · rename_i b rest heq
        cases h
        obtain ⟨b0, rfl⟩ : ∃ b0, bs = [b0] := List.length_eq_one_iff.1 (hlen.trans hn1)
        cases heq
        refine ⟨_, _, rfl, by simp; omega, ?_⟩
        intro b hb
        rw [hn1] at hb ⊢
        simp only [List.take_succ_cons, List.take_zero, List.mem_singleton] at hb
        subst hb
        obtain ⟨g1, g2, g3, g4, g5⟩ := hgood _ (List.mem_singleton_self _)
        exact ⟨g1, by simp, g3, g4, g5⟩
    · rename_i hn1
      split at h
      · cases h
      · cases h
        refine ⟨_, _, rfl, by simp [hlen], ?_⟩
        intro b hb
        rw [← hlen, List.take_left] at hb
        obtain ⟨g1, g2, g3, g4, g5⟩ := hgood b hb
        exact ⟨g1, by rw [if_neg hn1]; exact g2, g3, g4, g5⟩

theorem scanHeaderPhase_keeps {s : State} (ha : s.Always) (hq : s.quiet) (hp : s.pendmkV = false) (hv : s.fhV = true)
    (hs : s.st = .scanHeader) : (scanHeaderPhase s).Keeps := by
  unfold scanHeaderPhase
  rw [hv]
  simp only [Bool.not_true, Bool.false_eq_true, if_false]
  cases hr : readScanHeader s with
  | stop c t =>
    have f := readScanHeader_stop hr
    obtain ⟨e, i, rfl⟩ := readScanHeader_raises s c (by rw [hr]; rfl)
    refine .raise (ha.stream f) ?_
    obtain ⟨_, _, _, rfl, _⟩ := f
    simp [hs]
  | ok a t =>
    obtain ⟨u, sh, f, -, hlen, h1, hmax, rfl⟩ := readScanHeader_ok hr
    have hau := ha.stream f
    have hup := f.params
    obtain ⟨p, l, ar, rfl, hpos⟩ := f
    simp only [Res.bind_ok]
    have heff : (cascade s.base s.ovl).Good := ha.base.cascade ha.ovl
    cases hb : bindComponents { s with pos := p, lastpos := l, pbArmed := ar, sh := sh, eff := cascade s.base s.ovl } with
    | stop c t =>
      obtain ⟨⟨e, i, rfl⟩, bd, n, mc, rfl⟩ := bindComponents_keeps_stop hb
      exact .raise { hau with eff := heff } (by simp [hs])
    | ok a t =>
      obtain ⟨bd, mc, rfl, hbl, hbg⟩ := bindComponents_ok heff hlen hb
      simp only [Res.bind_ok]
      refine .ok (beginMCU_keeps (s := _) ⟨{ hau with eff := heff, bitcnt := Nat.zero_le _ }, hq, hp, hv, ?_⟩ rfl fun h => h)
      exact ⟨rfl, h1, hbl, hmax, hbg, heff.interval⟩

theorem sosRow_keeps (m : Marker) {s : State} (h : s.Region) : (sosRow m s).Keeps := by
  unfold sosRow
  split
  · exact refuse_keeps h
  · rename_i hs
    have hv := h.held (h.header.resolve_left hs)
    exact scanHeaderPhase_keeps (s := { s with st := .scanHeader }) { h.always with } h.quiet h.noPending hv rfl

/-! ## The restart boundary, and the end of a scan -/

theorem boundaryMarker_keeps {m : Marker} (hm : ∃ b, b ≠ 0#8 ∧ m = markerOf b) {s : State} (h : s.Bound)
    (hs : s.st = .restartBoundary) (hl : s.lastmk = m) (hb : s.bitcnt = 0) (hr : 0 < s.ri → (s.mcuInInt : Int) < s.ri) :
    (boundaryMarker m s).Keeps := by
  unfold boundaryMarker
  split
  · split
    · exact .raise h.always (by simp [hs])
    · exact .ok (beginMCU_keeps (s := { s with rstexp := s.rstexp + 1#3, st := .decodingMCUs })
        { h with always := { h.always with } } rfl hr)
  · exact .ok (complete_inv (s := { s with pendmk := m, pendmkV := true }) rfl
      { h.always with pending := fun _ => hm.imp fun b h => ⟨h.1, h.2, hl⟩ } h.quiet h.held hb (.inl rfl))

theorem afterScan_inv {s : State} (h : s.Inv) (hs : s.st = .scanComplete) : (afterScan s).Inv where
  params := h.params
  pos := h.pos
  bitcnt := h.bitcnt
  len := h.len
  k := h.k
  blocks := h.blocks
  pending hp := ⟨(h.pending hp).1, .inr (.inl rfl)⟩
  errors := by rw [if_neg (by simp [afterScan])]; exact h.quiet (by simp [hs])
  base := by
    simp only [afterScan]
    split
    · exact h.eff
    · exact h.base
  ovl := MiscTables.good_empty
  eff := h.eff
  held _ := h.held (by rw [hs]; rfl)
  notHeld hn := by rcases hn with e | e <;> cases e
  header := h.header
  bound hi := by cases hi
  place hi := by cases hi
  boundary hi := by cases hi
  complete hi := by cases hi
  records r hr := by
    obtain ⟨h1, h2⟩ := h.records r hr
    exact ⟨Nat.le_succ_of_le h1, h2⟩

end Sys2Proof.Machine
end

