-- ==== Sys2Proof/Laws/PerInstr.lean ====
section
/-! SUPPORT. One lemma per constructor: the second byte of a marker instruction is the one the marker map reads it from,
and its bytes are `0xFF` and that byte (30_encoding.md R94, R95). -/

namespace Sys2Proof.Laws.MarkerRoundTrip

/-- The map of marker codes and the encoder agree about `i`; nothing is said of an instruction that is no marker. -/
def Statement (i : Instr) : Prop :=
  ∀ c, i.markerCode = some c → instrOfCode c = some i ∧ encode i = [0xFF#8, c]

theorem data (b : BitVec 8) : Statement (.data b) := fun _ h => by cases h
theorem stuffed : Statement (.stuffed) := fun _ h => by cases h
theorem tem : Statement (.tem) := fun _ h => by cases h; exact ⟨by decide, rfl⟩
theorem res02 (n : BitVec 1) : Statement (.res02 n) := fun _ h => by cases h; exact ⟨by revert n; decide, rfl⟩
theorem res04 (n : BitVec 2) : Statement (.res04 n) := fun _ h => by cases h; exact ⟨by revert n; decide, rfl⟩
theorem res08 (n : BitVec 3) : Statement (.res08 n) := fun _ h => by cases h; exact ⟨by revert n; decide, rfl⟩
theorem res10 (n : BitVec 4) : Statement (.res10 n) := fun _ h => by cases h; exact ⟨by revert n; decide, rfl⟩
theorem res20 (n : BitVec 5) : Statement (.res20 n) := fun _ h => by cases h; exact ⟨by revert n; decide, rfl⟩
theorem res40 (n : BitVec 6) : Statement (.res40 n) := fun _ h => by cases h; exact ⟨by revert n; decide, rfl⟩
theorem res80 (n : BitVec 6) : Statement (.res80 n) := fun _ h => by cases h; exact ⟨by revert n; decide, rfl⟩
theorem sof0 : Statement (.sof0) := fun _ h => by cases h; exact ⟨by decide, rfl⟩
theorem sof1 : Statement (.sof1) := fun _ h => by cases h; exact ⟨by decide, rfl⟩
theorem sof2 : Statement (.sof2) := fun _ h => by cases h; exact ⟨by decide, rfl⟩
theorem sof3 : Statement (.sof3) := fun _ h => by cases h; exact ⟨by decide, rfl⟩
theorem sof5 : Statement (.sof5) := fun _ h => by cases h; exact ⟨by decide, rfl⟩
theorem sof6 : Statement (.sof6) := fun _ h => by cases h; exact ⟨by decide, rfl⟩
theorem sof7 : Statement (.sof7) := fun _ h => by cases h; exact ⟨by decide, rfl⟩
theorem sof9 : Statement (.sof9) := fun _ h => by cases h; exact ⟨by decide, rfl⟩
theorem sof10 : Statement (.sof10) := fun _ h => by cases h; exact ⟨by decide, rfl⟩
theorem sof11 : Statement (.sof11) := fun _ h => by cases h; exact ⟨by decide, rfl⟩
theorem sof13 : Statement (.sof13) := fun _ h => by cases h; exact ⟨by decide, rfl⟩
theorem sof14 : Statement (.sof14) := fun _ h => by cases h; exact ⟨by decide, rfl⟩
theorem sof15 : Statement (.sof15) := fun _ h => by cases h; exact ⟨by decide, rfl⟩
theorem dht : Statement (.dht) := fun _ h => by cases h; exact ⟨by decide, rfl⟩
theorem jpg : Statement (.jpg) := fun _ h => by cases h; exact ⟨by decide, rfl⟩
theorem dac : Statement (.dac) := fun _ h => by cases h; exact ⟨by decide, rfl⟩
theorem rst (n : BitVec 3) : Statement (.rst n) := fun _ h => by cases h; exact ⟨by revert n; decide, rfl⟩
theorem soi : Statement (.soi) := fun _ h => by cases h; exact ⟨by decide, rfl⟩
theorem eoi : Statement (.eoi) := fun _ h => by cases h; exact ⟨by decide, rfl⟩
theorem sos : Statement (.sos) := fun _ h => by cases h; exact ⟨by decide, rfl⟩
theorem dqt : Statement (.dqt) := fun _ h => by cases h; exact ⟨by decide, rfl⟩
theorem dnl : Statement (.dnl) := fun _ h => by cases h; exact ⟨by decide, rfl⟩
theorem dri : Statement (.dri) := fun _ h => by cases h; exact ⟨by decide, rfl⟩
theorem dhp : Statement (.dhp) := fun _ h => by cases h; exact ⟨by decide, rfl⟩
theorem exp : Statement (.exp) := fun _ h => by cases h; exact ⟨by decide, rfl⟩
theorem app (n : BitVec 4) : Statement (.app n) := fun _ h => by cases h; exact ⟨by revert n; decide, rfl⟩
theorem jpg0 (n : BitVec 3) : Statement (.jpg0 n) := fun _ h => by cases h; exact ⟨by revert n; decide, rfl⟩
theorem jpg8 (n : BitVec 2) : Statement (.jpg8 n) := fun _ h => by cases h; exact ⟨by revert n; decide, rfl⟩
theorem jpg12 (n : BitVec 1) : Statement (.jpg12 n) := fun _ h => by cases h; exact ⟨by revert n; decide, rfl⟩
theorem com : Statement (.com) := fun _ h => by cases h; exact ⟨by decide, rfl⟩
theorem mffff : Statement (.mffff) := fun _ h => by cases h; exact ⟨by decide, rfl⟩
theorem dcSize (t : BitVec 8) : Statement (.dcSize t) := fun _ h => by cases h
theorem eob (r : BitVec 4) : Statement (.eob r) := fun _ h => by cases h
theorem zrl : Statement (.zrl) := fun _ h => by cases h
theorem acCoef (r s : BitVec 4) : Statement (.acCoef r s) := fun _ h => by cases h

end Sys2Proof.Laws.MarkerRoundTrip
end

