-- ==== Sys2Proof/Laws/Step.lean ====
section
/-! SUPPORT. What a step does, said once: the tokens as dispatches, what `fetch` finds in each state, and that every
instruction executed where `fetch` finds it keeps the invariant. -/

namespace Sys2Proof.Machine

/-! ## The tokens are dispatches -/

/-- The row of 46_top_level.md R294 a marker instruction runs in a header region. -/
def markerRow (i : Instr) (m : Marker) : State → Res Unit :=
  match i with
  | .dqt => readDQT
  | .dht => readDHT
  | .dri => readDRI
  | .dnl => readDNLbody
  | .dac => dacRow m
  | .eoi => eoiRow m
  | .sos => sosRow m
  | .tem | .soi | .rst _ => refuseRow m
  | .sof0 | .sof1 | .sof2 | .sof3 | .sof5 | .sof6 | .sof7 | .sof9 | .sof10 | .sof11 | .sof13 | .sof14 | .sof15 => frameRow m
  | .res02 _ | .res04 _ | .res08 _ | .res10 _ | .res20 _ | .res40 _ | .res80 _ | .jpg | .dhp | .exp | .app _ | .jpg0 _
  | .jpg8 _ | .jpg12 _ | .com | .mffff => skipSegment m
  | .data _ | .stuffed | .dcSize _ | .eob _ | .zrl | .acCoef _ _ => fun s => .ok () s

theorem exec_marker {i : Instr} {c : Byte} (h : i.markerCode = some c) (s : State) :
    exec i s = dispatchMarker (markerOf c) (markerRow i (markerOf c)) s := by
  cases i <;> cases h <;> rfl

theorem markerRow_keeps {i : Instr} {c : Byte} (h : i.markerCode = some c) {s : State} (hs : s.Region) :
    (markerRow i (markerOf c) s).Keeps := by
  cases i <;> cases h <;>
    first
      | exact readDQT_keeps hs
      | exact readDHT_keeps hs
      | exact readDRI_keeps hs
      | exact readDNLbody_keeps hs
      | exact eoiRow_keeps _ hs
      | exact sosRow_keeps _ hs
      | exact frameRow_keeps _ hs
      | exact skipSegment_keeps _ hs
      | exact refuse_keeps hs

/-! ## What the decoder finds -/

theorem instrOfCode_markerCode {c : Byte} {i : Instr} (h : instrOfCode c = some i) : i.markerCode = some c := by
  have : ∀ c : Byte, ∀ i ∈ instrOfCode c, i.markerCode = some c := by decide +kernel
  exact this c i h

/-- The lemmas of Laws/PerInstr.lean together. -/
theorem markerRoundTrip (i : Instr) : Laws.MarkerRoundTrip.Statement i :=
  match i with
  | .data b => Laws.MarkerRoundTrip.data b
  | .stuffed => Laws.MarkerRoundTrip.stuffed
  | .tem => Laws.MarkerRoundTrip.tem
  | .res02 n => Laws.MarkerRoundTrip.res02 n
  | .res04 n => Laws.MarkerRoundTrip.res04 n
  | .res08 n => Laws.MarkerRoundTrip.res08 n
  | .res10 n => Laws.MarkerRoundTrip.res10 n
  | .res20 n => Laws.MarkerRoundTrip.res20 n
  | .res40 n => Laws.MarkerRoundTrip.res40 n
  | .res80 n => Laws.MarkerRoundTrip.res80 n
  | .sof0 => Laws.MarkerRoundTrip.sof0
  | .sof1 => Laws.MarkerRoundTrip.sof1
  | .sof2 => Laws.MarkerRoundTrip.sof2
  | .sof3 => Laws.MarkerRoundTrip.sof3
  | .sof5 => Laws.MarkerRoundTrip.sof5
  | .sof6 => Laws.MarkerRoundTrip.sof6
  | .sof7 => Laws.MarkerRoundTrip.sof7
  | .sof9 => Laws.MarkerRoundTrip.sof9
  | .sof10 => Laws.MarkerRoundTrip.sof10
  | .sof11 => Laws.MarkerRoundTrip.sof11
  | .sof13 => Laws.MarkerRoundTrip.sof13
  | .sof14 => Laws.MarkerRoundTrip.sof14
  | .sof15 => Laws.MarkerRoundTrip.sof15
  | .dht => Laws.MarkerRoundTrip.dht
  | .jpg => Laws.MarkerRoundTrip.jpg
  | .dac => Laws.MarkerRoundTrip.dac
  | .rst n => Laws.MarkerRoundTrip.rst n
  | .soi => Laws.MarkerRoundTrip.soi
  | .eoi => Laws.MarkerRoundTrip.eoi
  | .sos => Laws.MarkerRoundTrip.sos
  | .dqt => Laws.MarkerRoundTrip.dqt
  | .dnl => Laws.MarkerRoundTrip.dnl
  | .dri => Laws.MarkerRoundTrip.dri
  | .dhp => Laws.MarkerRoundTrip.dhp
  | .exp => Laws.MarkerRoundTrip.exp
  | .app n => Laws.MarkerRoundTrip.app n
  | .jpg0 n => Laws.MarkerRoundTrip.jpg0 n
  | .jpg8 n => Laws.MarkerRoundTrip.jpg8 n
  | .jpg12 n => Laws.MarkerRoundTrip.jpg12 n
  | .com => Laws.MarkerRoundTrip.com
  | .mffff => Laws.MarkerRoundTrip.mffff
  | .dcSize t => Laws.MarkerRoundTrip.dcSize t
  | .eob r => Laws.MarkerRoundTrip.eob r
  | .zrl => Laws.MarkerRoundTrip.zrl
  | .acCoef r s => Laws.MarkerRoundTrip.acCoef r s

theorem markerCode_instrOfCode {i : Instr} {c : Byte} (h : i.markerCode = some c) :
    instrOfCode c = some i ∧ encode i = [0xFF#8, c] := markerRoundTrip i c h

theorem markerCode_ne_zero {i : Instr} {c : Byte} (h : i.markerCode = some c) : c ≠ 0#8 := by
  rintro rfl
  exact absurd (markerCode_instrOfCode h).1 (by simp [instrOfCode])

theorem instrOfCode_isSome {c : Byte} (h : c ≠ 0#8) : ∃ i, instrOfCode c = some i := by
  have : ∀ c : Byte, c ≠ 0#8 → (instrOfCode c).isSome := by decide +kernel
  exact Option.isSome_iff_exists.1 (this c h)

@[simp] theorem markerLow_markerOf (c : Byte) : markerLow (markerOf c) = c := by
  rw [markerLow, markerOf]
  exact BitVec.extractLsb'_append_eq_right ..

@[simp] theorem peekToken_markerBytes {c : Byte} (h : c ≠ 0#8) : peekToken (markerBytes (markerOf c)) = .marker (markerOf c) := by
  have h1 : markerBytes (markerOf c) = [0xFF#8, c] := by
    rw [markerBytes, markerOf, BitVec.extractLsb'_append_eq_right, BitVec.extractLsb'_append_eq_left]
  rw [h1, peekToken_cons_marker h]

/-- What the decoder answers at the byte level: the data token or the marker that `peekToken` sees. -/
theorem decodeToken_ok {l rest : List Byte} {i : Instr} (h : decode .token l = .ok (i, rest)) :
    (∃ b n, peekToken l = .byte b n ∧ i.markerCode = none ∧ ∀ s, exec i s = dispatchByte b n s) ∨
    ∃ c, c ≠ 0#8 ∧ peekToken l = .marker (markerOf c) ∧ i.markerCode = some c := by
  simp only [decode, decodeToken] at h
  split at h
  · cases h
  · rename_i b n hp
    left
    refine ⟨b, n, hp, ?_⟩
    split at h
    · rename_i h2
      cases h
      subst h2
      have hb : b = 0xFF#8 := by
        revert hp
        unfold peekToken
        split <;> (try split) <;> (try split) <;> simp +contextual
      subst hb
      exact ⟨rfl, fun s => rfl⟩
    · rename_i h2
      cases h
      have hn : n = 1 := by
        have := peekToken_byte_rawLen hp
        omega
      subst hn
      exact ⟨rfl, fun s => rfl⟩
  · rename_i m hp
    right
    obtain ⟨c, hc, rfl⟩ := peekToken_marker hp
    rw [markerLow_markerOf] at h
    split at h
    · rename_i i' hi
      cases h
      exact ⟨c, hc, hp, instrOfCode_markerCode hi⟩
    · cases h

theorem decodeToken_error {l : List Byte} {e : Reject} (h : decode .token l = .error e) : peekToken l = .exhausted := by
  simp only [decode, decodeToken] at h
  split at h
  · assumption
  · split at h <;> cases h
  · rename_i m hp
    obtain ⟨c, hc, rfl⟩ := peekToken_marker hp
    obtain ⟨i, hi⟩ := instrOfCode_isSome hc
    rw [markerLow_markerOf, hi] at h
    cases h

/-! ## Tokens keep the invariant where they are found -/

/-- Where the sequencer reads tokens from. -/
def tokenSource (s : State) : List Byte := if s.pendmkV then markerBytes s.pendmk else remaining s

theorem nextMarker_region {s : State} (h : s.Inv) (hs : s.inHeader) {m : Marker} (hm : peekToken (tokenSource s) = .marker m) :
    (nextMarker m s).Region := by
  have hst : s.st ≠ .error ∧ s.st ≠ .scanComplete := by rcases hs with e | e <;> simp [e]
  have hheld : s.st = .awaitingSOS → s.fhV = true := fun e => h.held (by rw [e]; rfl)
  unfold nextMarker
  unfold tokenSource at hm
  split
  · exact ⟨{ h.always with pending := fun e => by cases e }, h.quiet hst.1, hs, hheld, fun e => h.notHeld (.inr e), rfl⟩
  · rename_i hp
    rw [if_neg hp] at hm
    exact ⟨{ h.always with
        pos := consumeMarker_pos_le hm, pending := fun e => absurd e hp }, h.quiet hst.1, hs, hheld, fun e => h.notHeld (.inr e),
      by simpa using hp⟩

theorem awaitSOIMarker_keeps {m : Marker} {s : State} (h : s.Inv) (hs : s.st = .awaitSOI)
    (hm : peekToken (remaining s) = .marker m) : (awaitSOIMarker m (consumeMarker m s)).Keeps := by
  have hp : s.pendmkV = false := h.noPending (by simp [hs]) (by simp [hs]) (by simp [hs])
  have ha : (consumeMarker m s).Always := { h.always with
    pos := consumeMarker_pos_le hm, pending := fun e => absurd (hp.symm.trans e) Bool.false_ne_true }
  unfold awaitSOIMarker
  split
  · exact .raise ha (by simp [consumeMarker, hs])
  · refine .ok (State.Region.inv (s := _) ⟨{ ha with base := MiscTables.good_empty }, h.quiet (by simp [hs]), .inl rfl,
      fun e => (by cases e), fun _ => h.notHeld (.inl hs), hp⟩)

theorem State.Bound.beginDecode {s : State} (h : s.Bound) : (Sys2Proof.Machine.beginDecode s).Bound :=
  { h with always := { h.always with len := Nat.zero_le _ } }

theorem markerInEntropy_keeps {c : Byte} (hc : c ≠ 0#8) {s : State} (h : s.Bound) (hs : s.st = .decodingMCUs)
    (hb : s.bitcnt = 0) (hm : peekToken (remaining s) = .marker (markerOf c)) :
    (markerInEntropy (markerOf c) (beginDecode s) : Res Unit).Keeps := by
  cases hr : (markerInEntropy (markerOf c) (beginDecode s) : Res Unit) with
  | ok a t => exact absurd hr markerInEntropy_not_ok
  | stop d t =>
    exact .of_stop h.beginDecode hs
      (markerInEntropy_stop (s := beginDecode s) ⟨c, hc, rfl⟩ hb (consumeMarker_pos_le hm) hr)

theorem loadByte_keeps {b : Byte} {n : Nat} {s : State} (h : s.Inv) (hs : s.st = .decodingMCUs) (hb : s.bitcnt = 0)
    (hp : peekToken (remaining s) = .byte b n) : (loadByte b n (beginDecode s)).Inv := by
  have hB := (h.toBound (by rw [hs]; rfl)).beginDecode
  have hP := h.toPlace hs
  have f := (loadByte_frame (s := beginDecode s) hp hb).1
  exact (hB.bits f).inv hs ⟨hP.curJ, hP.curU, hP.ac, hP.atb, hP.interval⟩

/-- A data token executed where the sequencer reads it. -/
theorem byte_keeps {b : Byte} {n : Nat} {s : State} (h : s.Inv) (hp : peekToken (tokenSource s) = .byte b n)
    (hs : s.st = .decodingMCUs → s.bitcnt = 0) (h1 : s.st ≠ .scanHeader) (h2 : s.st ≠ .scanComplete) :
    ∃ t, dispatchByte b n s = .next t ∧ t.Inv := by
  have raises : s.st ≠ .error → ∃ t, settle (raise .unexpectedByte none s : Res Unit) = .next t ∧ t.Inv :=
    fun h0 => Res.Keeps.raise h.always h0
  unfold dispatchByte
  cases hst : s.st with
  | decodingMCUs =>
    have hp' : peekToken (remaining s) = .byte b n := by
      rwa [tokenSource, h.noPending (by simp [hst]) (by simp [hst]) (by simp [hst])] at hp
    exact ⟨_, rfl, loadByte_keeps h hst (hs hst) hp'⟩
  | scanHeader => exact absurd hst h1
  | scanComplete => exact absurd hst h2
  | done => exact ⟨s, rfl, h⟩
  | error => exact ⟨s, rfl, h⟩
  | awaitSOI => exact raises (by simp [hst])
  | frameTables => exact raises (by simp [hst])
  | awaitingSOS => exact raises (by simp [hst])
  | restartBoundary => exact raises (by simp [hst])

/-- A marker executed where the sequencer reads it. -/
theorem marker_keeps {i : Instr} {c : Byte} (hi : i.markerCode = some c) (hc : c ≠ 0#8) {s : State} (h : s.Inv)
    (hp : peekToken (tokenSource s) = .marker (markerOf c)) (hs : s.st = .decodingMCUs → s.bitcnt = 0)
    (h1 : s.st ≠ .scanHeader) (h2 : s.st ≠ .scanComplete) : ∃ t, exec i s = .next t ∧ t.Inv := by
  rw [exec_marker hi]
  unfold dispatchMarker
  have np : s.st ≠ .awaitingSOS → s.st ≠ .error → peekToken (remaining s) = .marker (markerOf c) := fun a b => by
    rwa [tokenSource, h.noPending h2 a b] at hp
  cases hst : s.st with
  | awaitSOI => exact awaitSOIMarker_keeps h hst (np (by simp [hst]) (by simp [hst]))
  | frameTables => exact markerRow_keeps hi (nextMarker_region h (.inl hst) hp)
  | awaitingSOS => exact markerRow_keeps hi (nextMarker_region h (.inr hst) hp)
  | decodingMCUs =>
    exact markerInEntropy_keeps hc (h.toBound (by rw [hst]; rfl)) hst (hs hst) (np (by simp [hst]) (by simp [hst]))
  | restartBoundary =>
    have hb := h.toBound (s := s) (by rw [hst]; rfl)
    obtain ⟨b0, r0, n0⟩ := h.boundary hst
    have hm := np (by simp [hst]) (by simp [hst])
    exact boundaryMarker_keeps (s := consumeMarker (markerOf c) s) ⟨c, hc, rfl⟩
      { hb with always := { hb.always with
        pos := consumeMarker_pos_le hm, pending := fun e => absurd (hb.noPending.symm.trans e) Bool.false_ne_true } } hst rfl b0
      (fun _ => by show (s.mcuInInt : Int) < s.ri; rw [n0]; exact r0)
  | scanHeader => exact absurd hst h1
  | scanComplete => exact absurd hst h2
  | done => exact ⟨s, rfl, h⟩
  | error => exact ⟨s, rfl, h⟩

/-! ## Symbols -/

theorem decodeAcSymbol_cases (b : Byte) :
    (∃ r, r ≠ 15#4 ∧ decodeAcSymbol b = .eob r) ∨ decodeAcSymbol b = .zrl ∨
    ∃ r z, z ≠ 0#4 ∧ decodeAcSymbol b = .acCoef r z := by
  unfold decodeAcSymbol
  dsimp only
  split
  · split
    · exact .inr (.inl rfl)
    · exact .inl ⟨_, ‹_›, rfl⟩
  · exact .inr (.inr ⟨_, _, ‹_›, rfl⟩)

/-- What the bit reader keeps, the scratch registers of `decode` included. -/
theorem State.Bound.symbol {s t : State} (h : s.Bound) (hf : BitFrame s { t with code := s.code, len := s.len })
    (hl : t.len ≤ 17) : t.Bound := by
  have hb := h.bits hf
  exact { hb with always := { hb.always with len := hl } }

/-- A symbol executed where it was decoded. -/
theorem symbol_keeps {s : State} (h : s.Bound) (hs : s.st = .decodingMCUs) (hp : s.Place) (b : Byte) :
    (s.unitPos = .dc → ∃ t, exec (decodeDcSymbol b) s = .next t ∧ t.Inv) ∧
    (s.unitPos = .ac → ∃ t, exec (decodeAcSymbol b) s = .next t ∧ t.Inv) := by
  constructor
  · intro hu
    have := dcStep_keeps b.toNat h hs hp
    simpa only [exec, decodeDcSymbol, execDcSize, symbolAt, hs, hu, if_true] using this.next
  · intro hu
    have hatb : s.atb = false := by
      by_contra hb
      have := (hp.atb (by simpa using hb)).1
      rw [hu] at this
      cases this
    rcases decodeAcSymbol_cases b with ⟨r, -, e⟩ | e | ⟨r, z, -, e⟩
    · rw [e]
      have := endOfBlock_keeps h hs hp.interval hp.curJ hatb
      simpa only [exec, execEob, symbolAt, hs, hu, if_true] using this.next
    · rw [e]
      have := zrlStep_keeps h hs hp hu
      simpa only [exec, execZrl, symbolAt, hs, hu, if_true] using this.next
    · rw [e]
      have := coefStep_keeps r.toNat z.toNat (by omega) h hs hp hu
      simpa only [exec, execAcCoef, symbolAt, hs, hu, if_true] using this.next

/-! ## What a step runs -/

/-- What `fetch` finds in a state of the invariant. -/
theorem fetch_cases {s : State} (h : s.Inv) :
    (s.terminal ∧ fetch s = .noInstr (.ok () s)) ∨
    (s.st = .scanComplete ∧ fetch s = .noInstr (.ok () (afterScan s))) ∨
    (s.st = .scanHeader ∧ fetch s = .noInstr (scanHeaderPhase s)) ∨
    (((s.st = .decodingMCUs ∧ s.bitcnt = 0) ∨ s.st = .awaitSOI ∨ s.st = .frameTables ∨ s.st = .awaitingSOS ∨
        s.st = .restartBoundary) ∧
      ((∃ i rest, decode .token (tokenSource s) = .ok (i, rest) ∧ fetch s = .instr i s) ∨
        (peekToken (tokenSource s) = .exhausted ∧
          fetch s = .noInstr (exhausted (if s.st = .decodingMCUs then beginDecode s else s))))) ∨
    (s.st = .decodingMCUs ∧ s.bitcnt ≠ 0 ∧ ∃ b, currentBinding s = some b ∧ fetch s = fetchSymbol s) := by
  have token : ∀ l, (∃ i rest, decode .token l = .ok (i, rest) ∧ fetchFrom l s = .instr i s) ∨
      (peekToken l = .exhausted ∧ fetchFrom l s = .noInstr (exhausted s)) := by
    intro l
    unfold fetchFrom
    cases hd : decode .token l with
    | ok p => exact .inl ⟨p.1, p.2, rfl, rfl⟩
    | error e => exact .inr ⟨decodeToken_error hd, rfl⟩
  have src : s.st ≠ .scanComplete → s.st ≠ .awaitingSOS → s.st ≠ .error → tokenSource s = remaining s := fun a b c => by
    rw [tokenSource, h.noPending a b c]; rfl
  cases hst : s.st with
  | done => exact .inl ⟨.inl hst, by simp [fetch, hst]⟩
  | error => exact .inl ⟨.inr hst, by simp [fetch, hst]⟩
  | scanComplete => exact .inr (.inl ⟨rfl, by simp [fetch, hst]⟩)
  | scanHeader => exact .inr (.inr (.inl ⟨rfl, by simp [fetch, hst]⟩))
  | awaitSOI =>
    refine .inr (.inr (.inr (.inl ⟨by simp, ?_⟩)))
    simpa [fetch, hst, src] using token (remaining s)
  | restartBoundary =>
    refine .inr (.inr (.inr (.inl ⟨by simp, ?_⟩)))
    simpa [fetch, hst, src] using token (remaining s)
  | frameTables =>
    refine .inr (.inr (.inr (.inl ⟨by simp, ?_⟩)))
    simpa [fetch, hst, tokenSource] using token (tokenSource s)
  | awaitingSOS =>
    refine .inr (.inr (.inr (.inl ⟨by simp, ?_⟩)))
    simpa [fetch, hst, tokenSource] using token (tokenSource s)
  | decodingMCUs =>
    by_cases hb : s.bitcnt = 0
    · refine .inr (.inr (.inr (.inl ⟨by simp [hb], ?_⟩)))
      have hsrc := src (by simp [hst]) (by simp [hst]) (by simp [hst])
      rw [hsrc]
      simp only [fetch, hst, hb, if_true]
      rcases token (remaining s) with ⟨i, rest, hd, hf⟩ | ⟨hp, hf⟩
      · left
        refine ⟨i, rest, hd, ?_⟩
        rcases decodeToken_ok hd with ⟨b, n, hp, -⟩ | ⟨c, -, hp, -⟩ <;> rw [hp] <;> exact hf
      · right
        rw [hp]
        exact ⟨rfl, rfl⟩
    · refine .inr (.inr (.inr (.inr ⟨rfl, hb, ?_⟩)))
      obtain ⟨b, hcb, -⟩ := (h.toBound (by rw [hst]; rfl)).current (h.toPlace hst).curJ
      exact ⟨b, hcb, by simp [fetch, hst, hb]⟩

end Sys2Proof.Machine
end

