-- ==== Sys2Proof/Tests/Slice0.lean ====
section
/-! SUPPORT. The model's own tests: well-formedness, decoding of words written out from 30_encoding.md, one step per
instruction against the vectors of 95_test_vectors.md (named B, T, H, S, D, F, K, U, A, E, V, P there), and for every
obligation with hypotheses a state and operands that meet them. -/

namespace Sys2Proof.Tests

open Sys2Proof Sys2Proof.Machine

-- One theorem at a time: each kernel evaluation waits for the ones before it, and a waiting thread costs a whole stack.
set_option Elab.async false

/-! ## Helpers -/

/-- Bytes from numbers. -/
def hex (l : List Nat) : List Byte := l.map (BitVec.ofNat 8)

/-- The state an outcome goes on in. -/
def goesOn (o : StepOutcome) : Option State :=
  match o with
  | .next s => some s
  | .fault _ => none
  | .refused _ => none

/-- What a step leaves, seen through `f`. -/
def stepGives {α : Type} (f : State → α) (s : State) : Option α := (goesOn (step s)).map f

/-- What an instruction leaves, seen through `f`. -/
def execGives {α : Type} (f : State → α) (i : Instr) (s : State) : Option α := (goesOn (exec i s)).map f

/-- `STATE`, `ERR_CODE`, `ERR_MARKER`, `ERR_POS`, `ERR_STATE`. -/
def errors (s : State) : BitVec 4 × BitVec 4 × BitVec 16 × Nat × BitVec 4 :=
  (s.st.code, s.errCode, s.errMarker, s.errPos, s.errState)

/-- `STATE`, `POS`, `LASTMK`. -/
def place (s : State) : BitVec 4 × Nat × BitVec 16 := (s.st.code, s.pos, s.lastmk)

/-- A stream whose SOI is read. -/
def afterSoi (l : List Nat) : State :=
  { State.load (hex ([0xFF, 0xD8] ++ l)) with pos := 2, st := .frameTables, lastmk := 0xFFD8#16 }

/-- Table DC0 of V2. -/
def dc0 : HuffTable := buildHuffman 0#1 0#2 [0, 1, 5, 1, 1, 1, 1, 1, 1, 0, 0, 0, 0, 0, 0, 0] (hex (List.range 12))

/-- Table AC0. -/
def ac0 : HuffTable := buildHuffman 1#1 0#2 [1, 1, 1, 1, 1, 0, 0, 0, 0, 0, 0, 0, 0, 0, 0, 0] (hex [0x00, 0x01, 0x11, 0xF0, 0x02])

/-- The table of DQT16. -/
def q16 : QuantTable := ⟨0#1, 0#2, List.replicate 64 16⟩

/-- `BASE` of P1 after its three table segments. -/
def tables : MiscTables := ⟨⟨some q16, none, none, none⟩, ⟨some dc0, none, none, none⟩, ⟨some ac0, none, none, none⟩, -1⟩

/-- The component of F1. -/
def comp1 : FrameComp := ⟨1#8, 1#4, 1#4, 0#8, 8, 8⟩

/-- `FH` of F1. -/
def frame1 : FrameHeader := ⟨0xFFC0#16, 8#8, 8#16, 8#16, 1#8, [comp1], 1#4, 1#4⟩

/-- The scan-level header region of P1, `l` being what is left of the input. -/
def afterSof (l : List Nat) : State :=
  { State.load (hex l) with st := .awaitingSOS, lastmk := 0xFFC0#16, fhV := true, fh := frame1, base := tables }

/-- `BIND[0]` of P1. -/
def bind1 : Binding := ⟨1#8, 1#4, 1#4, 8, 8, 1, q16, dc0, ac0⟩

/-- The first MCU of P1, at its first symbol, the buffer holding `b` and `l` being what is left of the input. -/
def inScan (b : Nat) (l : List Nat) : State :=
  { afterSof l with
    st := .decodingMCUs, lastmk := 0xFFDA#16, eff := tables, nbind := 1, bind := [bind1], mcuCount := 1
    sh := ⟨1#8, [⟨1#8, 0#4, 0#4⟩], 0#8, 63#8, 0#4, 0#4⟩, ri := -1, atb := true, bitbuf := BitVec.ofNat 8 b, bitcnt := 8 }

/-- The same at an AC symbol. -/
def inBlock (b : Nat) (l : List Nat) : State := { inScan b l with unitPos := .ac, k := 1, atb := false }

/-- The restart boundary of P2, `n` being expected. -/
def atBoundary (n : BitVec 3) (l : List Nat) : State :=
  { inScan 0 l with st := .restartBoundary, bitcnt := 0, ri := 1, rstexp := n }

/-- The bits of a byte string with the buffer empty. -/
def bitsOf (l : List Nat) : State := State.load (hex l)

/-! ## Well-formedness -/

theorem test_data_ff_refused : (Instr.data 0xFF#8).wellFormed = false := rfl
theorem test_data_fe_accepted : (Instr.data 0xFE#8).wellFormed = true := rfl
theorem test_eob_15_refused : (Instr.eob 15#4).wellFormed = false := rfl
theorem test_eob_14_accepted : (Instr.eob 14#4).wellFormed = true := rfl
theorem test_coef_size_0_refused : (Instr.acCoef 3#4 0#4).wellFormed = false := rfl
theorem test_coef_size_1_accepted : (Instr.acCoef 15#4 1#4).wellFormed = true := rfl

/-! ## Decoding: words written out from 30_encoding.md R91, R95, R112, R113 -/

theorem test_decode_data : decode .token (hex [0x12, 0xFF]) = .ok (.data 0x12#8, hex [0xFF]) := by decide
theorem test_decode_stuffed : decode .token (hex [0xFF, 0x00, 0xFF]) = .ok (.stuffed, hex [0xFF]) := by decide
theorem test_decode_tem : decode .token (hex [0xFF, 0x01]) = .ok (.tem, []) := by decide
theorem test_decode_res02 : decode .token (hex [0xFF, 0x03]) = .ok (.res02 1#1, []) := by decide
theorem test_decode_res04 : decode .token (hex [0xFF, 0x06]) = .ok (.res04 2#2, []) := by decide
theorem test_decode_res08 : decode .token (hex [0xFF, 0x0F]) = .ok (.res08 7#3, []) := by decide
theorem test_decode_res10 : decode .token (hex [0xFF, 0x1A]) = .ok (.res10 10#4, []) := by decide
theorem test_decode_res20 : decode .token (hex [0xFF, 0x31]) = .ok (.res20 17#5, []) := by decide
theorem test_decode_res40 : decode .token (hex [0xFF, 0x7F]) = .ok (.res40 63#6, []) := by decide
theorem test_decode_res80 : decode .token (hex [0xFF, 0x80]) = .ok (.res80 0#6, []) := by decide
theorem test_decode_sof0 : decode .token (hex [0xFF, 0xC0]) = .ok (.sof0, []) := by decide
theorem test_decode_sof1 : decode .token (hex [0xFF, 0xC1]) = .ok (.sof1, []) := by decide
theorem test_decode_sof2 : decode .token (hex [0xFF, 0xC2]) = .ok (.sof2, []) := by decide
theorem test_decode_sof3 : decode .token (hex [0xFF, 0xC3]) = .ok (.sof3, []) := by decide
theorem test_decode_dht : decode .token (hex [0xFF, 0xC4]) = .ok (.dht, []) := by decide
theorem test_decode_sof5 : decode .token (hex [0xFF, 0xC5]) = .ok (.sof5, []) := by decide
theorem test_decode_sof6 : decode .token (hex [0xFF, 0xC6]) = .ok (.sof6, []) := by decide
theorem test_decode_sof7 : decode .token (hex [0xFF, 0xC7]) = .ok (.sof7, []) := by decide
theorem test_decode_jpg : decode .token (hex [0xFF, 0xC8]) = .ok (.jpg, []) := by decide
theorem test_decode_sof9 : decode .token (hex [0xFF, 0xC9]) = .ok (.sof9, []) := by decide
theorem test_decode_sof10 : decode .token (hex [0xFF, 0xCA]) = .ok (.sof10, []) := by decide
theorem test_decode_sof11 : decode .token (hex [0xFF, 0xCB]) = .ok (.sof11, []) := by decide
theorem test_decode_dac : decode .token (hex [0xFF, 0xCC]) = .ok (.dac, []) := by decide
theorem test_decode_sof13 : decode .token (hex [0xFF, 0xCD]) = .ok (.sof13, []) := by decide
theorem test_decode_sof14 : decode .token (hex [0xFF, 0xCE]) = .ok (.sof14, []) := by decide
theorem test_decode_sof15 : decode .token (hex [0xFF, 0xCF]) = .ok (.sof15, []) := by decide
theorem test_decode_rst : decode .token (hex [0xFF, 0xD6]) = .ok (.rst 6#3, []) := by decide
theorem test_decode_soi : decode .token (hex [0xFF, 0xD8]) = .ok (.soi, []) := by decide
theorem test_decode_eoi : decode .token (hex [0xFF, 0xD9]) = .ok (.eoi, []) := by decide
theorem test_decode_sos : decode .token (hex [0xFF, 0xDA]) = .ok (.sos, []) := by decide
theorem test_decode_dqt : decode .token (hex [0xFF, 0xDB]) = .ok (.dqt, []) := by decide
theorem test_decode_dnl : decode .token (hex [0xFF, 0xDC]) = .ok (.dnl, []) := by decide
theorem test_decode_dri : decode .token (hex [0xFF, 0xDD]) = .ok (.dri, []) := by decide
theorem test_decode_dhp : decode .token (hex [0xFF, 0xDE]) = .ok (.dhp, []) := by decide
theorem test_decode_exp : decode .token (hex [0xFF, 0xDF]) = .ok (.exp, []) := by decide
theorem test_decode_app : decode .token (hex [0xFF, 0xED]) = .ok (.app 13#4, []) := by decide
theorem test_decode_jpg0 : decode .token (hex [0xFF, 0xF5]) = .ok (.jpg0 5#3, []) := by decide
theorem test_decode_jpg8 : decode .token (hex [0xFF, 0xFB]) = .ok (.jpg8 3#2, []) := by decide
theorem test_decode_jpg12 : decode .token (hex [0xFF, 0xFC]) = .ok (.jpg12 0#1, []) := by decide
theorem test_decode_com : decode .token (hex [0xFF, 0xFE]) = .ok (.com, []) := by decide
theorem test_decode_mffff : decode .token (hex [0xFF, 0xFF, 0xD9]) = .ok (.mffff, hex [0xD9]) := by decide
theorem test_decode_dcSize : decode .dc (hex [0xF0]) = .ok (.dcSize 240#8, []) := by decide
theorem test_decode_eob : decode .ac (hex [0xE0]) = .ok (.eob 14#4, []) := by decide
theorem test_decode_zrl : decode .ac (hex [0xF0]) = .ok (.zrl, []) := by decide
theorem test_decode_acCoef : decode .ac (hex [0x1A]) = .ok (.acCoef 1#4 10#4, []) := by decide

/-! ## The host's words: first word in the low bits -/

theorem test_table_word_dqt : decodeTableWord 16 0xFFDB = some .dqt := by decide
theorem test_table_word_zrl : decodeTableWord 8 0xF0 = some .zrl := by decide
theorem test_fetch_word_soi : stepGives place (State.reset.withFetchWord 16 0xFFD8) = some (1#4, 2, 0xFFD8#16) := by decide +kernel
theorem test_fetch_word_coef : stepGives (fun t => (t.k, t.zz.getD 3 0)) (State.reset.withFetchWord 8 0x21) =
    some (4, -1) := by decide +kernel

/-! ## One step per instruction -/

/-- E1. -/
theorem test_data_awaitSOI : stepGives errors (State.load (hex [0x00, 0xFF, 0xD8])) =
    some (8#4, 2#4, 0#16, 0, 0#4) := by decide +kernel
/-- E30. -/
theorem test_data_header : stepGives errors (afterSoi [0x00]) = some (8#4, 2#4, 0xFFD8#16, 2, 1#4) := by decide +kernel
/-- T3: the stuffed byte is the data byte FF. -/
theorem test_stuffed_refill : stepGives (fun t => (t.bitbuf, t.bitcnt, t.pos)) { inScan 0 [0xFF, 0x00, 0x80] with bitcnt := 0 } =
    some (0xFF#8, 8, 2) := by decide +kernel
/-- B4: where a marker is wanted a stuffed byte is a data byte. -/
theorem test_stuffed_awaitSOI : stepGives errors (State.load (hex [0xFF, 0x00])) = some (8#4, 2#4, 0#16, 0, 0#4) := by decide +kernel
/-- E29. -/
theorem test_tem : stepGives errors (afterSoi [0xFF, 0x01]) = some (8#4, 3#4, 0xFF01#16, 4, 1#4) := by decide +kernel
/-- S19, S20, E20: skipped segments are recorded. -/
theorem test_com : stepGives (fun t => (place t, t.aux)) (afterSoi [0xFF, 0xFE, 0x00, 0x04, 0x68, 0x69]) =
    some ((1#4, 8, 0xFFFE#16), [⟨0xFFFE#16, hex [0x68, 0x69]⟩]) := by decide +kernel
theorem test_app : stepGives (fun t => (place t, t.aux)) (afterSoi [0xFF, 0xE0, 0x00, 0x02]) =
    some ((1#4, 6, 0xFFE0#16), [⟨0xFFE0#16, []⟩]) := by decide +kernel
theorem test_mffff : stepGives (fun t => (place t, t.aux)) (afterSoi [0xFF, 0xFF, 0x00, 0x02, 0xFF, 0xD9]) =
    some ((1#4, 6, 0xFFFF#16), [⟨0xFFFF#16, []⟩]) := by decide +kernel
theorem test_skipped_markers : (List.map (fun c => stepGives (fun t => (t.pos, t.aux)) (afterSoi [0xFF, c, 0x00, 0x03, 0xAB]))
      [0x02, 0x04, 0x08, 0x10, 0x20, 0x40, 0x80, 0xC8, 0xDE, 0xDF, 0xF0, 0xF8, 0xFC]) =
    List.map (fun c => some (7, [⟨markerOf (BitVec.ofNat 8 c), hex [0xAB]⟩]))
      [0x02, 0x04, 0x08, 0x10, 0x20, 0x40, 0x80, 0xC8, 0xDE, 0xDF, 0xF0, 0xF8, 0xFC] := by decide +kernel
/-- F1. -/
theorem test_sof0 : stepGives (fun t => (t.st.code, t.fhV, t.fh))
      (afterSoi [0xFF, 0xC0, 0x00, 0x0B, 0x08, 0x00, 0x08, 0x00, 0x08, 0x01, 0x01, 0x11, 0x00]) =
    some (2#4, true, frame1) := by decide +kernel
/-- F2, by SOF1. -/
theorem test_sof1 : stepGives (fun t => (t.fh.comp.map fun c => (c.width, c.height), t.fh.hmax, t.fh.vmax)) (afterSoi
      [0xFF, 0xC1, 0x00, 0x11, 0x08, 0x00, 0x0B, 0x00, 0x11, 0x03, 0x01, 0x22, 0x00, 0x02, 0x11, 0x01, 0x03, 0x11, 0x01]) =
    some ([(17, 11), (9, 6), (9, 6)], 2#4, 2#4) := by decide +kernel
/-- E16 and the other frame markers that are not accepted. -/
theorem test_sofs_refused : (List.map (fun c => stepGives errors (afterSoi [0xFF, c, 0x00, 0x0B]))
      [0xC2, 0xC3, 0xC5, 0xC6, 0xC7, 0xC9, 0xCA, 0xCB, 0xCD, 0xCE, 0xCF]) =
    List.map (fun c => some (8#4, 5#4, markerOf (BitVec.ofNat 8 c), 4, 1#4))
      [0xC2, 0xC3, 0xC5, 0xC6, 0xC7, 0xC9, 0xCA, 0xCB, 0xCD, 0xCE, 0xCF] := by decide +kernel
/-- E26: a second frame header. -/
theorem test_sof0_second : stepGives errors (afterSof [0xFF, 0xC0]) = some (8#4, 3#4, 0xFFC0#16, 2, 2#4) := by decide +kernel
/-- The table of V2 built by hand there. -/
theorem test_dc0 : dc0.huffcode = [0, 2, 3, 4, 5, 6, 14, 30, 62, 126, 254, 510] ∧
    dc0.huffsize = [2, 3, 3, 3, 3, 3, 4, 5, 6, 7, 8, 9] ∧
    dc0.mincode.take 10 = [none, some 0, some 2, some 14, some 30, some 62, some 126, some 254, some 510, none] ∧
    dc0.maxcode = [-1, 0, 6, 14, 30, 62, 126, 254, 510, -1, -1, -1, -1, -1, -1, -1] ∧
    dc0.valptr.take 10 = [none, some 0, some 1, some 6, some 7, some 8, some 9, some 10, some 11, none] := by decide +kernel
/-- S9. -/
theorem test_dht : stepGives (fun t => (place t, t.base.dc.s0)) (afterSoi ([0xFF, 0xC4, 0x00, 0x1F, 0x00] ++
      [0, 1, 5, 1, 1, 1, 1, 1, 1, 0, 0, 0, 0, 0, 0, 0] ++ List.range 12)) =
    some ((1#4, 35, 0xFFC4#16), some dc0) := by decide +kernel
/-- E32. -/
theorem test_dht_capacity : stepGives errors (afterSoi ([0xFF, 0xC4, 0x01, 0x13, 0x00] ++ List.replicate 15 0x11 ++ [0x02, 0x00])) =
    some (8#4, 10#4, 0xFFC4#16, 23, 1#4) := by decide +kernel
/-- P5. -/
theorem test_dac : stepGives errors (afterSoi [0xFF, 0xCC, 0x00, 0x04]) = some (8#4, 5#4, 0xFFCC#16, 4, 1#4) := by decide +kernel
/-- P2: the expected RST0; P2b: RST1 in its place. -/
theorem test_rst_expected : stepGives (fun t => (place t, t.rstexp)) (atBoundary 0#3 [0xFF, 0xD0, 0x7B]) =
    some ((4#4, 2, 0xFFD0#16), 1#3) := by decide +kernel
theorem test_rst_other : stepGives errors (atBoundary 0#3 [0xFF, 0xD1, 0x7B]) = some (8#4, 7#4, 0xFFD1#16, 2, 5#4) := by decide +kernel
/-- P1 step 1; E28. -/
theorem test_soi : stepGives place (State.load (hex [0xFF, 0xD8])) = some (1#4, 2, 0xFFD8#16) := by decide +kernel
theorem test_soi_second : stepGives errors (afterSoi [0xFF, 0xD8]) = some (8#4, 3#4, 0xFFD8#16, 4, 1#4) := by decide +kernel
/-- E7; E6. -/
theorem test_eoi : stepGives place (afterSof [0xFF, 0xD9]) = some (7#4, 2, 0xFFD9#16) := by decide +kernel
theorem test_eoi_early : stepGives errors (afterSoi [0xFF, 0xD9]) = some (8#4, 3#4, 0xFFD9#16, 4, 1#4) := by decide +kernel
/-- P1 steps 6 and 7. -/
theorem test_sos : stepGives (fun t => ((place t, t.bind), (t.nbind, t.mcuCount, t.ri, t.atb)))
      (afterSof [0xFF, 0xDA, 0x00, 0x08, 0x01, 0x01, 0x00, 0x00, 0x3F, 0x00, 0x95]) =
    some (((4#4, 10, 0xFFDA#16), [bind1]), (1, 1, -1, true)) := by decide +kernel
/-- E13c: no slot 4. -/
theorem test_sos_bindFailure : stepGives errors (afterSof [0xFF, 0xDA, 0x00, 0x08, 0x01, 0x01, 0x40, 0x00, 0x3F, 0x00, 0x95]) =
    some (8#4, 8#4, 0xFFDA#16, 10, 3#4) := by decide +kernel
/-- S1; E34. -/
theorem test_dqt : stepGives (fun t => (place t, t.base.quant.s0)) (afterSoi ([0xFF, 0xDB, 0x00, 0x43, 0x00] ++ List.replicate 64 16)) =
    some ((1#4, 71, 0xFFDB#16), some q16) := by decide +kernel
theorem test_dqt_precision : stepGives errors (afterSoi [0xFF, 0xDB, 0x00, 0x43, 0x20, 0x01]) =
    some (8#4, 4#4, 0xFFDB#16, 7, 1#4) := by decide +kernel
/-- T7 inside a scan; E25: in a header region. -/
theorem test_dnl_scan : stepGives (fun t => (place t, t.dnlSeen, t.dnlNl, t.pendmkV))
      { inScan 0 [0xFF, 0xDC, 0x00, 0x04, 0x00, 0x08] with bitcnt := 0 } =
    some ((6#4, 6, 0xFFDC#16), true, 8#16, false) := by decide +kernel
theorem test_dnl_header : stepGives (fun t => (place t, t.dnlSeen, t.dnlNl)) (afterSof [0xFF, 0xDC, 0x00, 0x04, 0x00, 0x08]) =
    some ((2#4, 6, 0xFFDC#16), true, 8#16) := by decide +kernel
/-- S16; E8. -/
theorem test_dri : stepGives (fun t => (place t, t.base.interval)) (afterSoi [0xFF, 0xDD, 0x00, 0x04, 0x00, 0x01]) =
    some ((1#4, 8, 0xFFDD#16), 1) := by decide +kernel
theorem test_dri_length : stepGives errors (afterSoi [0xFF, 0xDD, 0x00, 0x05, 0x00, 0x01, 0x00]) =
    some (8#4, 4#4, 0xFFDD#16, 6, 1#4) := by decide +kernel
/-- U1: `100 101`, then E12: size 17. -/
theorem test_dcSize : stepGives (fun t => (t.pred, t.zz.getD 0 0, t.bitcnt, t.unitPos)) (inScan 0x95 []) =
    some ([5, 0, 0, 0], 5, 2, .ac) := by decide +kernel
theorem test_dcSize_17 : execGives errors (.dcSize 17#8) { inScan 0xFE [] with bitcnt := 7 } =
    some (8#4, 10#4, 0xFFDA#16, 0, 4#4) := by decide +kernel
/-- U1: the block of 138; U6: clamped at 255. -/
theorem test_eob_138 : stepGives (fun t => (t.out, t.mcuDone)) { inBlock 0x40 [] with bitcnt := 2, zz := 5 :: List.replicate 63 0 } =
    some ([⟨0, 1#8, List.replicate 64 138⟩], 1) := by decide +kernel
theorem test_eob_clamped : execGives (fun t => t.out) (.eob 14#4) { inBlock 0 [] with zz := 1020 :: List.replicate 63 0 } =
    some [⟨0, 1#8, List.replicate 64 255⟩] := by decide +kernel
/-- U8. -/
theorem test_zrl : execGives (fun t => (t.k, t.st.code)) .zrl { inBlock 0 [] with k := 33 } = some (49, 4#4) := by decide +kernel
theorem test_zrl_overrun : execGives (fun t => (t.k, t.errCode)) .zrl { inBlock 0 [] with k := 49 } = some (65, 9#4) := by decide +kernel
/-- U9: `RS = 11` after one ZRL. -/
theorem test_acCoef : stepGives (fun t => (t.zz.getD 18 0, t.k, t.bitcnt)) { inBlock 0xC0 [] with k := 17 } =
    some (-1, 19, 4) := by decide +kernel
/-- Index 63 ends the block with no EOB (45_scan_engine.md R256). -/
theorem test_acCoef_last : execGives (fun t => (t.zz, t.out.length, t.mcuDone)) (.acCoef 0#4 1#4) { inBlock 0x80 [] with k := 63 } =
    some (zeroBlock, 1, 1) := by decide +kernel

/-! ## Shared operations -/

/-- V1, rows 2, 3 and 16. -/
theorem test_extend : (List.map (fun v => extend v 2) [0, 1, 2, 3]) = [-3, -2, 2, 3] ∧
    (List.map (fun v => extend v 16) [0, 32767, 32768, 65535]) = [-65535, -32768, 32768, 65535] := by decide +kernel
/-- V4. -/
theorem test_padding : padding 8 8 = 8 ∧ padding 8 5 = 8 ∧ padding 8 9 = 16 ∧ padding 8 0 = 0 ∧ padding 32 65535 = 65536 := by decide
/-- T3, T4. -/
theorem test_receive : receive 9 (bitsOf [0xFF, 0x00, 0x80]) =
      .ok 511 { bitsOf [0xFF, 0x00, 0x80] with pos := 3, lastpos := 2, pbArmed := true, bitbuf := 0#8, bitcnt := 7 } ∧
    (match receive 16 (bitsOf [0xA5, 0x5A]) with | .ok v _ => v | .stop _ _ => 0) = 42330 := by decide +kernel
/-- D5, D5b: no code word of DC0 is all ones. -/
theorem test_decode_fails :
    (match decodeSymbol dc0 (bitsOf [0xFF, 0, 0xFF, 0, 0xFF, 0]) with
      | .stop c s => some (c, s.pos, s.bitcnt) | .ok _ _ => none) = some (.raise .huffmanDecodeFailure none, 6, 7) ∧
    (match decodeSymbol dc0 (bitsOf [0xFF, 0, 0xFF, 0]) with
      | .stop c s => some (c, s.pos) | .ok _ _ => none) = some (.raise .streamExhausted none, 4) := by decide +kernel
/-- B11: TOKEN mode undoes the stuffing and then meets the end of input. -/
theorem test_readBytes_token :
    (match readBytes 4 { bitsOf [0x01, 0xFF, 0x00, 0x02] with params := { Config.params with segReadMode := .token } } with
      | .stop c s => some (c, s.pos) | .ok _ _ => none) = some (.raise .streamExhausted none, 4) := by decide +kernel
/-- V6: the rows of the TRUNC matrix plus 128. -/
theorem test_idct_v6 : (samples .trunc 8 0 ((zeroBlock.set 0 328).set 2 10 |>.set 8 18 |>.set 16 (-7))).take 8 =
    [172, 171, 170, 169, 169, 170, 171, 172] := by decide +kernel
/-- V8, with an explicit zero. -/
theorem test_cascade : (cascade tables { MiscTables.empty with interval := 0 }).interval = 0 ∧
    (cascade tables { MiscTables.empty with dc := ⟨some ac0, none, none, none⟩ }).ac = tables.ac := by decide +kernel
/-- F2's first component and its frame. -/
def comp17 : FrameComp := ⟨1#8, 2#4, 2#4, 0#8, 17, 11⟩
def frame17 : FrameHeader := ⟨0xFFC0#16, 8#8, 11#16, 17#16, 1#8, [comp17], 2#4, 2#4⟩

/-- A3, A4, A5, A9. -/
theorem test_block_places :
    planeSize frame17 comp17 = (32, 16) ∧ blockOrigin 3 frame17 comp17 5 = some (24, 0) ∧
    blockOrigin 3 frame17 comp17 2 = some (0, 8) ∧ blockOrigin 1 frame17 comp17 4 = some (8, 8) := by decide

/-- R317: a and b side by side in the plane of component 1, c in that of component 2, the crops 16×8 and 8×8; U8. -/
theorem test_assemble :
    let f : FrameHeader := ⟨0xFFC0#16, 8#8, 8#16, 16#16, 2#8, [⟨1#8, 2#4, 1#4, 0#8, 16, 8⟩, ⟨2#8, 1#4, 1#4, 0#8, 8, 8⟩], 2#4, 1#4⟩
    let out : List OutRec := [⟨0, 1#8, List.replicate 64 10⟩, ⟨0, 1#8, List.replicate 64 20⟩, ⟨0, 2#8, List.range 64⟩]
    (assemble (fun _ => 2) f out).map (fun i => (i.cropWidth, i.cropHeight)) = some (16, 8) ∧
    (assemble (fun _ => 2) f out).map (fun i => i.planes.map fun p => (p.width, p.height, p.cropWidth, p.cropHeight)) =
      some [(16, 8, 16, 8), (8, 8, 8, 8)] ∧
    (assemble (fun _ => 2) f out).map (fun i => i.planes.map fun p => p.rows[7]?) =
      some [some (List.replicate 8 (some 10) ++ List.replicate 8 (some 20)), some ((List.range' 56 8).map some)] ∧
    assemble (fun _ => 2) { f with x := 0#16 } out = none := by decide +kernel

/-! ## Witnesses: what meets the hypotheses of each obligation, at the edges of its clauses -/

theorem exists_next {o : StepOutcome} (h : (goesOn o).isSome = true) : ∃ t, o = .next t := by
  cases o with
  | next t => exact ⟨t, rfl⟩
  | fault _ => cases h
  | refused _ => cases h

/-- How a result ends, and where. -/
def answers {α : Type} (r : Res α) : Option α × Option Stop × Nat :=
  match r with
  | .ok a s => (some a, none, s.pos)
  | .stop c s => (none, some c, s.pos)

theorem ok_of_answers {α : Type} {r : Res α} {a : α} {n : Nat} (h : answers r = (some a, none, n)) : ∃ t, r = .ok a t := by
  cases r with
  | ok b t => simp only [answers, Prod.mk.injEq, Option.some.injEq] at h; exact ⟨t, by rw [h.1]⟩
  | stop c t => simp [answers] at h

theorem stop_of_answers {α : Type} {r : Res α} {c : Stop} {n : Nat} (h : answers r = (none, some c, n)) :
    ∃ t, r = .stop c t := by
  cases r with
  | ok b t => simp [answers] at h
  | stop d t => simp only [answers, Prod.mk.injEq, Option.some.injEq] at h; exact ⟨t, by rw [h.2.1]⟩

theorem cutShort_of {s : State} {l : List Byte} (rest : List Byte)
    (h : remaining s ++ rest = segmentRaw s.params.segReadMode l ∧ rest ≠ []) : s.cutShort l :=
  ⟨⟨rest, h.1⟩, fun e => h.2 (by simpa [e] using h.1)⟩

theorem witness_DecodeInvertsEncode :
    (Instr.data 0xFE#8).wellFormed = true ∧ (Instr.app 15#4).wellFormed = true ∧ (Instr.dcSize 255#8).wellFormed = true ∧
    (Instr.eob 14#4).wellFormed = true ∧ (Instr.acCoef 15#4 15#4).wellFormed = true := by decide
theorem witness_DecodeIsFaithful :
    decode .token (hex [0xFF, 0xFE, 0x00]) = .ok (.com, hex [0x00]) ∧ decode .ac (hex [0xF0, 0xF0]) = .ok (.zrl, hex [0xF0]) := by
  decide
theorem witness_TokenFormats : (0xFE#8 : Byte) ≠ 0xFF#8 ∧ (0x01#8 : Byte) ≠ 0x00#8 ∧ (0xFF#8 : Byte) ≠ 0x00#8 := by decide
theorem witness_ByteStreamProperties :
    (bitsOf [0x12]).pos ≤ (bitsOf [0x12]).input.length ∧ (bitsOf []).pos ≤ (bitsOf []).input.length ∧
    (∃ t, readByte (bitsOf [0xFF, 0x00]) = .ok 0xFF#8 t) ∧ (∃ t, readMarker (bitsOf [0xFF, 0xD9]) = .ok 0xFFD9#16 t) ∧
    peekToken (remaining (bitsOf [0xFF, 0x01])) = .marker 0xFF01#16 ∧ peekToken (remaining (bitsOf [0x00])) = .byte 0#8 1 ∧
    (∃ t, readByte (bitsOf [0xFF]) = .stop (.raise .streamExhausted none) t) ∧
    (∃ t, readMarker (bitsOf []) = .stop (.raise .streamExhausted none) t) ∧
    (∃ t, readBytes 3 (bitsOf [0x12, 0x34]) = .stop (.raise .streamExhausted none) t) ∧
    (∃ t, readUint16 (bitsOf [0x12]) = .stop (.raise .streamExhausted none) t) :=
  ⟨by decide, by decide, ok_of_answers (n := 2) (by decide +kernel), ok_of_answers (n := 2) (by decide +kernel), by decide, by decide,
    stop_of_answers (n := 1) (by decide +kernel), stop_of_answers (n := 0) (by decide +kernel),
    stop_of_answers (n := 2) (by decide +kernel), stop_of_answers (n := 1) (by decide +kernel)⟩
theorem witness_Unread :
    (∃ t, readByte (bitsOf [0x41]) = .ok 0x41#8 t) ∧ (∃ t, readMarker (bitsOf [0xFF, 0x01]) = .ok 0xFF01#16 t) ∧
    (∃ t, readByte (bitsOf [0xFF]) = .stop (.raise .streamExhausted none) t) ∧
    (∃ t, readMarker (bitsOf []) = .stop (.raise .streamExhausted none) t) ∧
    (∃ t, readMarker (bitsOf [0xFF, 0x00]) = .stop (.raise .unexpectedByte (some (.byte 0xFF#8))) t) ∧
    (bitsOf [0xFF]).pbArmed = false :=
  ⟨ok_of_answers (n := 1) (by decide +kernel), ok_of_answers (n := 2) (by decide +kernel),
    stop_of_answers (n := 1) (by decide +kernel), stop_of_answers (n := 0) (by decide +kernel),
    stop_of_answers (n := 0) (by decide +kernel), rfl⟩
theorem witness_RawReads :
    (bitsOf [0x01, 0x02]).params.segReadMode = .raw ∧ (∃ t, readBytes 2 (bitsOf [0xFF, 0xC0]) = .ok [0xFF#8, 0xC0#8] t) ∧
    ({ bitsOf [0x01] with pos := 1 } : State).pos ≤ 1 ∧ (∃ t, readUint16 (bitsOf []) = .stop (.raise .streamExhausted none) t) :=
  ⟨rfl, ok_of_answers (n := 2) (by decide +kernel), by decide, stop_of_answers (n := 0) (by decide +kernel)⟩
theorem witness_ReadModesAgree :
    2 ≤ (remaining (bitsOf [0xFE, 0x00])).length ∧ ∀ b ∈ (remaining (bitsOf [0xFE, 0x00])).take 2, b ≠ 0xFF#8 := by decide
theorem witness_ReceiveDeliversBits :
    ({ bitsOf [] with bitbuf := 0xA0#8, bitcnt := 8 } : State).bitcnt ≤ 8 ∧
    ({ bitsOf [] with bitbuf := 0xA0#8, bitcnt := 8 } : State).bitsAhead = [true, false, true] ++ [false, false, false, false, false] ∧
    (bitsOf [0xFF, 0x00]).bitsAhead = [] ++ List.replicate 8 true ∧
    (bitsOf [0xFF, 0x00]).bitsAhead = List.replicate 8 true ++ [] := by decide
theorem witness_ReceiveRunsOut :
    (bitsOf [0x80, 0xFF, 0xD9]).bitcnt ≤ 8 ∧ (bitsOf [0x80, 0xFF, 0xD9]).bitsAhead.length < 9 ∧ (bitsOf []).bitsAhead.length < 1 := by
  decide
theorem witness_RefillStops :
    peekToken (remaining (bitsOf [0xFF])) = .exhausted ∧
    peekToken (remaining (bitsOf [0xFF, 0xDB])) = .marker 0xFFDB#16 ∧ (0xFFDB#16 : Marker) ≠ 0xFFDC#16 ∧
    peekToken (remaining (bitsOf [0xFF, 0xDC, 0x00, 0x04, 0x00, 0x08])) = .marker 0xFFDC#16 ∧
    ({ bitsOf [0xFF, 0xDC, 0x00, 0x04, 0x00, 0x08] with pos := 2 } : State).ahead (bytes16 4#16 ++ bytes16 8#16) ∧
    ({ bitsOf [0xFF, 0xDC, 0x00, 0x05] with pos := 2 } : State).ahead (bytes16 5#16) ∧
    ({ bitsOf [0xFF, 0xDC] with pos := 2 } : State).cutShort (bytes16 4#16) ∧
    ({ bitsOf [0xFF, 0xDC, 0x00, 0x04, 0x00] with pos := 2 } : State).cutShort (bytes16 4#16 ++ bytes16 8#16) :=
  ⟨by decide, by decide, by decide, by decide, ⟨[], by decide⟩, ⟨[], by decide⟩, cutShort_of (hex [0, 4]) (by decide),
    cutShort_of (hex [8]) (by decide)⟩
theorem witness_StepRunsDecoded :
    State.reset.st = .awaitSOI ∧ decode .token (remaining (State.load (hex [0xFF, 0xD8]))) = .ok (.soi, []) ∧
    ((afterSoi [0xFF, 0xDB]).inHeader ∧ (afterSoi [0xFF, 0xDB]).pendmkV = false) ∧
    decode .token (remaining (afterSoi [0xFF, 0xDB])) = .ok (.dqt, []) ∧
    (atBoundary 0#3 []).st = .restartBoundary ∧
    (({ inScan 0 [0x95] with bitcnt := 0 } : State).st = .decodingMCUs ∧ ({ inScan 0 [0x95] with bitcnt := 0 } : State).bitcnt = 0) ∧
    (let s : State := { afterSof [] with pendmkV := true, pendmk := 0xFFD9#16 };
      s.inHeader ∧ s.pendmkV = true ∧ s.pendmk = markerOf 0xD9#8 ∧ instrOfCode 0xD9#8 = some .eoi) ∧
    ((inScan 0x95 []).st = .decodingMCUs ∧ (inScan 0x95 []).bitcnt ≠ 0 ∧ currentBinding (inScan 0x95 []) = some bind1 ∧
      (inScan 0x95 []).unitPos = .dc ∧ (∃ t, decodeSymbol bind1.dc (inScan 0x95 []) = .ok 3#8 t) ∧
      decode .dc [3#8] = .ok (.dcSize 3#8, [])) ∧
    ((inBlock 0xE0 []).unitPos = .ac ∧ currentBinding (inBlock 0xE0 []) = some bind1 ∧
      (∃ t, decodeSymbol bind1.ac (inBlock 0xE0 []) = .ok 0xF0#8 t) ∧ decode .ac [0xF0#8] = .ok (.zrl, [])) :=
  ⟨rfl, by decide, ⟨.inl rfl, rfl⟩, by decide, rfl, ⟨rfl, rfl⟩, ⟨.inr rfl, rfl, by decide, by decide⟩,
    ⟨rfl, by decide, rfl, rfl, ok_of_answers (n := 0) (by decide +kernel), by decide⟩,
    ⟨rfl, rfl, ok_of_answers (n := 0) (by decide +kernel), by decide⟩⟩
theorem witness_InputEnds :
    ((afterSoi [0xFF]).inHeader ∧ (afterSoi [0xFF]).pendmkV = false ∧ peekToken (remaining (afterSoi [0xFF])) = .exhausted) ∧
    (State.reset.st = .awaitSOI ∧ peekToken (remaining State.reset) = .exhausted) ∧
    ((atBoundary 7#3 []).st = .restartBoundary ∧ peekToken (remaining (atBoundary 7#3 [])) = .exhausted) ∧
    (let s : State := { inScan 0 [0xFF] with bitcnt := 0 };
      s.st = .decodingMCUs ∧ s.bitcnt = 0 ∧ peekToken (remaining s) = .exhausted) :=
  ⟨⟨.inl rfl, rfl, by decide⟩, ⟨rfl, by decide⟩, ⟨rfl, by decide⟩, ⟨rfl, rfl, by decide⟩⟩
theorem witness_AfterScan : ({ inScan 0 [] with st := .scanComplete } : State).st = .scanComplete := rfl
theorem witness_TerminalStates :
    ({ State.reset with st := .done } : State).terminal ∧ ({ State.reset with st := .error } : State).terminal := ⟨.inl rfl, .inr rfl⟩
theorem witness_AwaitSoi :
    State.reset.st = .awaitSOI ∧ Instr.markerCode .eoi = some 0xD9#8 ∧ (0xD9#8 : Byte) ≠ 0xD8#8 ∧
    Instr.markerCode (.rst 7#3) = some 0xD7#8 ∧ peekToken (remaining State.reset) = .exhausted := by decide
theorem witness_DataTokens :
    State.reset.st = .awaitSOI ∧ (afterSoi [0x41]).inHeader ∧ (afterSof [0x41]).inHeader ∧
    (atBoundary 0#3 [0x41]).st = .restartBoundary ∧ (inScan 0 [0x41]).st = .decodingMCUs ∧
    ({ State.reset with st := .done } : State).terminal := ⟨rfl, .inl rfl, .inr rfl, rfl, rfl, .inl rfl⟩
theorem witness_MarkerInEntropyData :
    (inScan 0 [0xFF, 0xD9]).st = .decodingMCUs ∧ Instr.markerCode .eoi = some 0xD9#8 ∧ (0xD9#8 : Byte) ≠ 0xDC#8 ∧
    (inScan 0 [0xFF, 0xD9]).atb = true ∧ (inBlock 0 [0xFF, 0xD9]).atb = false ∧ Instr.markerCode .dnl = some 0xDC#8 ∧
    (let s := inScan 0 [0xFF, 0xDC, 0x00, 0x04, 0x00, 0x00];
      ({ s with lastpos := s.pos, pbArmed := true, pos := s.pos + 2, lastmk := markerOf 0xDC#8, code := 0, len := 0 } : State).ahead
        (bytes16 4#16 ++ bytes16 0#16)) ∧
    (let s := inScan 0 [0xFF, 0xDC, 0x00, 0x03];
      ({ s with lastpos := s.pos, pbArmed := true, pos := s.pos + 2, lastmk := markerOf 0xDC#8, code := 0, len := 0 } : State).ahead
        (bytes16 3#16)) ∧ (3#16 : BitVec 16) ≠ 4#16 ∧
    (let s := inScan 0 [0xFF, 0xDC, 0x00, 0x04, 0x00];
      ({ s with lastpos := s.pos, pbArmed := true, pos := s.pos + 2, lastmk := markerOf 0xDC#8, code := 0, len := 0 } : State).cutShort
        (bytes16 4#16 ++ bytes16 8#16)) :=
  ⟨rfl, rfl, by decide, rfl, rfl, rfl, ⟨[], by decide⟩, ⟨[], by decide⟩, by decide, cutShort_of (hex [8]) (by decide)⟩
theorem witness_RestartBoundary :
    (atBoundary 7#3 [0xFF, 0xD7]).st = .restartBoundary ∧ (atBoundary 7#3 [0xFF, 0xD7]).rstexp = 7#3 ∧ 0#3 ≠ 7#3 ∧
    Instr.markerCode .dnl = some 0xDC#8 ∧ (∀ n, Instr.dnl ≠ .rst n) ∧
    peekToken (remaining (atBoundary 7#3 [])) = .exhausted := ⟨rfl, rfl, by decide, rfl, by decide, by decide⟩
theorem witness_HeaderRefusals :
    (afterSoi []).inHeader ∧ (afterSoi []).st = .frameTables ∧ (afterSof []).inHeader ∧ (afterSof []).st = .awaitingSOS ∧
    Instr.markerCode .sof15 = some 0xCF#8 ∧ isFrame (markerOf 0xCF#8) = true ∧
    markerOf 0xCF#8 ∉ (afterSoi []).params.sofAccept := ⟨.inl rfl, rfl, .inr rfl, rfl, rfl, by decide, by decide⟩
theorem witness_EoiEndsDecode : (afterSof []).st = .awaitingSOS ∧ (afterSoi []).st = .frameTables := ⟨rfl, rfl⟩

/-- Two components, F2's first and second. -/
def comps2 : List FrameComp := [⟨1#8, 2#4, 2#4, 0#8, 0, 0⟩, ⟨2#8, 1#4, 1#4, 1#8, 0, 0⟩]

theorem witness_FrameHeaderStored :
    let s := afterSoi [0xFF, 0xC0, 0x00, 0x0E, 0x08, 0x00, 0x0B, 0x00, 0x11, 0x02, 0x01, 0x22, 0x00, 0x02, 0x11, 0x01]
    Instr.markerCode .sof0 = some 0xC0#8 ∧ isFrame (markerOf 0xC0#8) = true ∧ s.st = .frameTables ∧
    markerOf 0xC0#8 ∈ s.params.sofAccept ∧ 1 ≤ comps2.length ∧ comps2.length ≤ 255 ∧ comps2.length ≤ s.params.ncompMax ∧
    (8#8 : Byte).toNat ∈ s.params.precisions ∧ (∀ k ∈ comps2, k.h ≠ 0#4 ∧ k.v ≠ 0#4) ∧
    isMax 2#4 (comps2.map FrameComp.h) ∧ isMax 2#4 (comps2.map FrameComp.v) ∧
    (nextMarker (markerOf 0xC0#8) s).ahead (frameBytes 8#8 11#16 17#16 comps2) := by
  refine ⟨rfl, by decide, rfl, by decide, by decide, by decide, by decide, by decide, by decide, ⟨by decide, by decide⟩,
    ⟨by decide, by decide⟩, ⟨[], by decide +kernel⟩⟩

/-- The fields of a SOFn segment up to `Nf`, with `Lf`, `P`, `Nf` as given. -/
def fieldsOf (lf p nf : Nat) : List Byte :=
  bytes16 (BitVec.ofNat 16 lf) ++ [BitVec.ofNat 8 p] ++ bytes16 8#16 ++ bytes16 8#16 ++ [BitVec.ofNat 8 nf]

/-- The state just before such a segment is read. -/
def beforeSof (lf p nf : Nat) (l : List Nat) : State :=
  nextMarker 0xFFC0#16 (afterSoi ([0xFF, 0xC0, 0, lf, p, 0x00, 0x08, 0x00, 0x08, nf] ++ l))

/-- F5, F7; F4; F3; F6. -/
theorem witness_FrameHeaderRefused :
    (beforeSof 12 8 1 []).ahead (fieldsOf 12 8 1) ∧ (12#16 : BitVec 16).toNat ≠ 8 + 3 * (1#8 : Byte).toNat ∧
    (beforeSof 8 8 0 []).ahead (fieldsOf 8 8 0) ∧ (0#8 : Byte).toNat < 1 ∧
    (beforeSof 23 8 5 []).ahead (fieldsOf 23 8 5) ∧ (23#16 : BitVec 16).toNat = 8 + 3 * (5#8 : Byte).toNat ∧
    (5#8 : Byte).toNat > Config.params.ncompMax ∧
    (beforeSof 11 12 1 []).ahead (fieldsOf 11 12 1) ∧ (12#8 : Byte).toNat ∉ Config.params.precisions ∧
    (beforeSof 11 8 1 [0x01, 0x10, 0x00]).ahead (fieldsOf 11 8 1 ++ [].flatMap FrameComp.bytes ++ FrameComp.bytes ⟨1#8, 1#4, 0#4, 0#8, 0, 0⟩) ∧
    (nextMarker (markerOf 0xC0#8) (afterSoi [0xFF, 0xC0, 0x00])).cutShort (fieldsOf 11 8 1) ∧
    (beforeSof 11 8 1 [0x01, 0x10]).cutShort (fieldsOf 11 8 1 ++ [].flatMap FrameComp.bytes ++ FrameComp.bytes ⟨1#8, 1#4, 0#4, 0#8, 0, 0⟩) :=
  ⟨⟨[], by decide +kernel⟩, by decide, ⟨[], by decide +kernel⟩, by decide, ⟨[], by decide +kernel⟩, by decide, by decide,
    ⟨[], by decide +kernel⟩, by decide, ⟨[], by decide +kernel⟩, cutShort_of ((fieldsOf 11 8 1).drop 1) (by decide +kernel),
    cutShort_of [0#8] (by decide +kernel)⟩

theorem frame1_good : frame1.Good Config.params where
  sof := by decide
  precision := by decide
  count := by decide
  factors := by decide
  hmax := ⟨by decide, by decide⟩
  vmax := ⟨by decide, by decide⟩
  sizes := by decide

theorem binds_bind1 (n : Nat) (h : n ≤ 1) : Binds frame1 (cascade tables MiscTables.empty) n ⟨1#8, 0#4, 0#4⟩ bind1 :=
  ⟨0, comp1, q16, dc0, ac0, rfl, rfl, fun i hi => absurd hi (Nat.not_lt_zero i), by decide, by decide, by decide, by decide +kernel,
    by decide +kernel, by decide +kernel, by
      have : n = 0 ∨ n = 1 := by omega
      rcases this with rfl | rfl <;> decide⟩

/-- The SOS of P1. -/
def sosState : State := afterSof [0xFF, 0xDA, 0x00, 0x08, 0x01, 0x01, 0x00, 0x00, 0x3F, 0x00, 0x95]

theorem witness_ScanStarts :
    sosState.st = .awaitingSOS ∧ sosState.fhV = true ∧ sosState.fh.Good sosState.params ∧
    List.Forall₂ (Binds sosState.fh (cascade sosState.base sosState.ovl) [(⟨1#8, 0#4, 0#4⟩ : ScanComp)].length) [⟨1#8, 0#4, 0#4⟩] [bind1] ∧
    (nextMarker 0xFFDA#16 sosState).ahead (scanBytes [⟨1#8, 0#4, 0#4⟩] 0#8 63#8 0#4 0#4) :=
  ⟨rfl, rfl, frame1_good, .cons (binds_bind1 1 (Nat.le_refl 1)) .nil, ⟨hex [0x95], by decide +kernel⟩⟩

/-- F11, F12; `Ns = 5`; E13: selector 2 after selector 1, which binds. -/
theorem witness_ScanHeaderRefused :
    (nextMarker 0xFFDA#16 (afterSof [0xFF, 0xDA, 0x00, 0x06, 0x00])).ahead (bytes16 6#16 ++ [0#8]) ∧ (0#8 : Byte).toNat < 1 ∧
    (nextMarker 0xFFDA#16 (afterSof [0xFF, 0xDA, 0x00, 0x09, 0x01])).ahead (bytes16 9#16 ++ [1#8]) ∧
    (9#16 : BitVec 16).toNat ≠ 6 + 2 * (1#8 : Byte).toNat ∧
    (nextMarker 0xFFDA#16 (afterSof [0xFF, 0xDA, 0x00, 0x10, 0x05])).ahead (bytes16 16#16 ++ [5#8]) ∧
    (16#16 : BitVec 16).toNat = 6 + 2 * (5#8 : Byte).toNat ∧ (5#8 : Byte).toNat > Config.params.ncompMax ∧
    List.Forall₂ (Binds frame1 (cascade tables MiscTables.empty) 0) [⟨1#8, 0#4, 0#4⟩] [bind1] ∧
    (¬∃ b, Binds frame1 (cascade tables MiscTables.empty) 0 ⟨2#8, 0#4, 0#4⟩ b) ∧
    (nextMarker 0xFFDA#16 (afterSof [0xFF, 0xDA, 0x00, 0x0A, 0x02, 0x01, 0x00, 0x02, 0x00, 0x00, 0x3F, 0x00])).ahead
      (scanBytes ([⟨1#8, 0#4, 0#4⟩] ++ ⟨2#8, 0#4, 0#4⟩ :: []) 0#8 63#8 0#4 0#4) ∧
    (nextMarker 0xFFDA#16 (afterSof [0xFF, 0xDA, 0x00, 0x08])).cutShort (bytes16 8#16 ++ [1#8]) ∧
    (nextMarker 0xFFDA#16 (afterSof [0xFF, 0xDA, 0x00, 0x08, 0x01, 0x01, 0x00, 0x00, 0x3F])).cutShort
      (scanBytes [⟨1#8, 0#4, 0#4⟩] 0#8 63#8 0#4 0#4) := by
  refine ⟨⟨[], by decide +kernel⟩, by decide, ⟨[], by decide +kernel⟩, by decide, ⟨[], by decide +kernel⟩, by decide, by decide,
    .cons (binds_bind1 0 (Nat.zero_le 1)) .nil, ?_, ⟨[], by decide +kernel⟩, cutShort_of [1#8] (by decide +kernel),
    cutShort_of [0#8] (by decide +kernel)⟩
  rintro ⟨b, i, f, q, dc, ac, hf, hid, -⟩
  match i with
  | 0 => cases hf; revert hid; decide
  | i + 1 => simp [frame1] at hf

theorem witness_McuCountsAgree : frame1.Good Config.params ∧ comp1 ∈ frame1.comp := ⟨frame1_good, by decide⟩

theorem q16_good : q16.good := ⟨by decide, by decide⟩

/-- S1 and S4: one table, no table, in either region. -/
theorem witness_DqtStores :
    (afterSoi []).inHeader ∧ (afterSof []).inHeader ∧ (∀ t ∈ [q16], t.good) ∧ 2 + ([q16].flatMap quantBytes).length < 65536 ∧
    (nextMarker 0xFFDB#16 (afterSoi ([0xFF, 0xDB, 0x00, 0x43, 0x00] ++ List.replicate 64 16))).ahead
      (bytes16 (BitVec.ofNat 16 (2 + ([q16].flatMap quantBytes).length)) ++ [q16].flatMap quantBytes) ∧
    (nextMarker 0xFFDB#16 (afterSof [0xFF, 0xDB, 0x00, 0x02])).ahead (bytes16 (BitVec.ofNat 16 2) ++ [].flatMap quantBytes) :=
  ⟨.inl rfl, .inr rfl, by simpa using q16_good, by decide +kernel, ⟨[], by decide +kernel⟩, ⟨[], by decide +kernel⟩⟩

/-- S8; S5, S6, S7. -/
theorem witness_DqtRefused :
    (nextMarker 0xFFDB#16 (afterSoi [0xFF, 0xDB, 0x00, 0x01])).ahead (bytes16 1#16) ∧ (1#16 : BitVec 16).toNat < 2 ∧
    (nextMarker 0xFFDB#16 (afterSoi [0xFF, 0xDB, 0x00, 0x42, 0x00])).ahead (bytes16 66#16 ++ [].flatMap quantBytes ++ [0#8]) ∧
    (66#16 : BitVec 16).toNat - 2 - ([].flatMap quantBytes).length < 1 + 64 * (1 + (0#8 >>> 4 : Byte).toNat) ∧
    (nextMarker 0xFFDB#16 (afterSoi [0xFF, 0xDB, 0x00, 0x43, 0x20])).ahead (bytes16 67#16 ++ [].flatMap quantBytes ++ [0x20#8]) ∧
    ((0x20#8 : Byte) >>> 4).toNat > 1 ∧
    (nextMarker 0xFFDB#16 (afterSoi [0xFF, 0xDB, 0x00, 0x43, 0x04])).ahead (bytes16 67#16 ++ [].flatMap quantBytes ++ [0x04#8]) ∧
    ((0x04#8 : Byte) &&& 15#8).toNat > 3 ∧
    (nextMarker 0xFFDB#16 (afterSoi [0xFF, 0xDB, 0x00])).cutShort (bytes16 67#16) ∧
    (nextMarker 0xFFDB#16 (afterSoi [0xFF, 0xDB, 0x00, 0x43])).ahead (bytes16 67#16 ++ [].flatMap quantBytes) ∧
    (nextMarker 0xFFDB#16 (afterSoi [0xFF, 0xDB, 0x00, 0x43])).cutShort (bytes16 67#16 ++ [].flatMap quantBytes ++ [0#8]) ∧
    (nextMarker 0xFFDB#16 (afterSoi ([0xFF, 0xDB, 0x00, 0x43, 0x00] ++ List.replicate 63 16))).cutShort
      (bytes16 67#16 ++ [].flatMap quantBytes ++ quantBytes q16) ∧
    2 + (([] : List QuantTable).flatMap quantBytes).length + (quantBytes q16).length ≤ (67#16 : BitVec 16).toNat :=
  ⟨⟨[], by decide +kernel⟩, by decide, ⟨[], by decide +kernel⟩, by decide, ⟨[], by decide +kernel⟩, by decide, ⟨[], by decide +kernel⟩,
    by decide, cutShort_of [67#8] (by decide +kernel), ⟨[], by decide +kernel⟩, cutShort_of [0#8] (by decide +kernel),
    cutShort_of [16#8] (by decide +kernel), by decide +kernel⟩

/-- The specification of AC0. -/
def ac0Spec : HuffSpec :=
  ⟨1#1, 0#2, hex [1, 1, 1, 1, 1, 0, 0, 0, 0, 0, 0, 0, 0, 0, 0, 0], hex [0x00, 0x01, 0x11, 0xF0, 0x02]⟩

theorem ac0Spec_good : ac0Spec.good ∧ ac0Spec.bits.sum ≤ Config.params.huffvalMax := ⟨⟨by decide, by decide⟩, by decide⟩

/-- `DHT_AC0`. -/
theorem witness_DhtStores :
    (afterSoi []).inHeader ∧ (∀ t ∈ [ac0Spec], t.good ∧ t.bits.sum ≤ Config.params.huffvalMax) ∧
    2 + ([ac0Spec].flatMap HuffSpec.bytes).length < 65536 ∧
    (nextMarker 0xFFC4#16 (afterSoi [0xFF, 0xC4, 0x00, 0x18, 0x10, 1, 1, 1, 1, 1, 0, 0, 0, 0, 0, 0, 0, 0, 0, 0, 0, 0, 1, 0x11, 0xF0, 2])).ahead
      (bytes16 (BitVec.ofNat 16 (2 + ([ac0Spec].flatMap HuffSpec.bytes).length)) ++ [ac0Spec].flatMap HuffSpec.bytes) :=
  ⟨.inl rfl, by simpa using ac0Spec_good, by decide, ⟨[], by decide +kernel⟩⟩

/-- S15; S11, S12; S13; S14. -/
theorem witness_DhtRefused :
    (nextMarker 0xFFC4#16 (afterSoi [0xFF, 0xC4, 0x00, 0x01])).ahead (bytes16 1#16) ∧
    (nextMarker 0xFFC4#16 (afterSoi [0xFF, 0xC4, 0x00, 0x10])).ahead (bytes16 16#16 ++ [].flatMap HuffSpec.bytes) ∧
    (16#16 : BitVec 16).toNat - 2 - ([].flatMap HuffSpec.bytes).length < 17 ∧
    (nextMarker 0xFFC4#16 (afterSoi [0xFF, 0xC4, 0x00, 0x13, 0x20])).ahead (bytes16 19#16 ++ [].flatMap HuffSpec.bytes ++ [0x20#8]) ∧
    17 ≤ (19#16 : BitVec 16).toNat - 2 - ([].flatMap HuffSpec.bytes).length ∧ ((0x20#8 : Byte) >>> 4).toNat > 1 ∧
    ((0x04#8 : Byte) &&& 15#8).toNat > 3 ∧
    (nextMarker 0xFFC4#16 (afterSoi ([0xFF, 0xC4, 0x01, 0x13, 0x00] ++ List.replicate 15 0x11 ++ [0x02]))).ahead
      (bytes16 275#16 ++ [].flatMap HuffSpec.bytes ++ [0#8] ++ hex (List.replicate 15 0x11 ++ [0x02])) ∧
    ((hex (List.replicate 15 0x11 ++ [0x02])).map BitVec.toNat).sum > Config.params.huffvalMax ∧
    (nextMarker 0xFFC4#16 (afterSoi ([0xFF, 0xC4, 0x00, 0x14, 0x00, 5] ++ List.replicate 15 0))).ahead
      (bytes16 20#16 ++ [].flatMap HuffSpec.bytes ++ [0#8] ++ hex (5 :: List.replicate 15 0)) ∧
    (20#16 : BitVec 16).toNat - 2 - ([].flatMap HuffSpec.bytes).length < 17 + ((hex (5 :: List.replicate 15 0)).map BitVec.toNat).sum ∧
    (nextMarker 0xFFC4#16 (afterSoi [0xFF, 0xC4])).cutShort (bytes16 20#16) ∧
    (nextMarker 0xFFC4#16 (afterSoi [0xFF, 0xC4, 0x00, 0x14])).ahead (bytes16 20#16 ++ [].flatMap HuffSpec.bytes) ∧
    (nextMarker 0xFFC4#16 (afterSoi [0xFF, 0xC4, 0x00, 0x14])).cutShort (bytes16 20#16 ++ [].flatMap HuffSpec.bytes ++ [0#8]) ∧
    (nextMarker 0xFFC4#16 (afterSoi ([0xFF, 0xC4, 0x00, 0x14, 0x00, 1] ++ List.replicate 14 0))).cutShort
      (bytes16 20#16 ++ [].flatMap HuffSpec.bytes ++ [0#8] ++ hex (1 :: List.replicate 15 0)) ∧
    (nextMarker 0xFFC4#16 (afterSoi ([0xFF, 0xC4, 0x00, 0x14, 0x00, 1] ++ List.replicate 15 0))).cutShort
      (bytes16 20#16 ++ [].flatMap HuffSpec.bytes ++ [0#8] ++ hex (1 :: List.replicate 15 0) ++ [3#8]) ∧
    17 + ((hex (1 :: List.replicate 15 0)).map BitVec.toNat).sum ≤ (20#16 : BitVec 16).toNat - 2 - ([].flatMap HuffSpec.bytes).length :=
  ⟨⟨[], by decide +kernel⟩, ⟨[], by decide +kernel⟩, by decide, ⟨[], by decide +kernel⟩, by decide, by decide, by decide,
    ⟨[], by decide +kernel⟩, by decide, ⟨[], by decide +kernel⟩, by decide, cutShort_of (hex [0, 20]) (by decide +kernel),
    ⟨[], by decide +kernel⟩, cutShort_of [0#8] (by decide +kernel), cutShort_of [0#8] (by decide +kernel),
    cutShort_of [3#8] (by decide +kernel), by decide⟩

/-- S16, S17, S18. -/
theorem witness_DriAndDnl :
    (afterSoi []).inHeader ∧ (afterSof []).inHeader ∧
    (nextMarker 0xFFDD#16 (afterSoi [0xFF, 0xDD, 0x00, 0x04, 0x00, 0x00])).ahead (bytes16 4#16 ++ bytes16 0#16) ∧
    (nextMarker 0xFFDD#16 (afterSof [0xFF, 0xDD, 0x00, 0x05])).ahead (bytes16 5#16) ∧ (5#16 : BitVec 16) ≠ 4#16 ∧
    (nextMarker 0xFFDC#16 (afterSof [0xFF, 0xDC, 0x00, 0x04, 0xFF, 0xFF])).ahead (bytes16 4#16 ++ bytes16 0xFFFF#16) ∧
    (nextMarker 0xFFDC#16 (afterSof [0xFF, 0xDC, 0x00, 0x03])).ahead (bytes16 3#16) ∧
    (nextMarker 0xFFDD#16 (afterSoi [0xFF, 0xDD, 0x00])).cutShort (bytes16 4#16) ∧
    (nextMarker 0xFFDC#16 (afterSof [0xFF, 0xDC, 0x00, 0x04])).cutShort (bytes16 4#16 ++ bytes16 8#16) :=
  ⟨.inl rfl, .inr rfl, ⟨[], by decide +kernel⟩, ⟨[], by decide +kernel⟩, by decide, ⟨[], by decide +kernel⟩, ⟨[], by decide +kernel⟩,
    cutShort_of [4#8] (by decide +kernel), cutShort_of (hex [0, 8]) (by decide +kernel)⟩

theorem witness_SkippedSegments :
    isSkipped .mffff = true ∧ Instr.markerCode .mffff = some 0xFF#8 ∧ (afterSoi []).inHeader ∧
    (nextMarker (markerOf 0xFF#8) (afterSoi [0xFF, 0xFF, 0x00, 0x02])).ahead (bytes16 (BitVec.ofNat 16 (2 + ([] : List Byte).length)) ++ []) ∧
    (nextMarker (markerOf 0xFF#8) (afterSoi [0xFF, 0xFF, 0x00, 0x01])).ahead (bytes16 1#16) ∧ (1#16 : BitVec 16).toNat < 2 ∧
    (nextMarker (markerOf 0xFF#8) (afterSoi [0xFF, 0xFF, 0x00])).cutShort (bytes16 3#16) ∧
    (nextMarker (markerOf 0xFF#8) (afterSoi [0xFF, 0xFF, 0x00, 0x03])).cutShort (bytes16 3#16 ++ [0x41#8]) :=
  ⟨rfl, rfl, .inl rfl, ⟨[], by decide +kernel⟩, ⟨[], by decide +kernel⟩, by decide, cutShort_of [3#8] (by decide +kernel),
    cutShort_of [0x41#8] (by decide +kernel)⟩

/-- H6 and H7: an over-subscribed code and an empty one; H8. -/
theorem witness_BuildHuffman :
    (3 :: List.replicate 15 0).length = 16 ∧ (hex [7, 8, 9]).length = (3 :: List.replicate 15 0).sum ∧
    (List.replicate 16 0).length = 16 ∧ ([] : List Byte).length = (List.replicate 16 0).sum ∧
    (List.replicate 15 0 ++ [1]).length = 16 ∧ (hex [0x11]).length = (List.replicate 15 0 ++ [1]).sum := by decide

/-- D3, D8. -/
theorem witness_DecodeInvertsCodes :
    ((List.range 16).map fun i => ([0, 1, 5, 1, 1, 1, 1, 1, 1, 0, 0, 0, 0, 0, 0, 0] : List Nat).getD i 0 * 2 ^ (15 - i)).sum ≤ 2 ^ 16 ∧
    dc0.huffsize[11]? = some 9 ∧ dc0.huffcode[11]? = some 510 ∧ (hex (List.range 12))[11]? = some 11#8 ∧
    (bitsOf [0xFF, 0x00, 0x00]).bitcnt ≤ 8 ∧
    (bitsOf [0xFF, 0x00, 0x00]).bitsAhead = codeBits 9 510 ++ List.replicate 7 false := by decide +kernel

/-- D11 at its 17 bits; D15. -/
theorem witness_DecodeFails :
    (∀ k size code : Nat, (buildHuffman 0#1 0#2 (List.replicate 16 0) []).huffsize[k]? = some size →
      (buildHuffman 0#1 0#2 (List.replicate 16 0) []).huffcode[k]? = some code → ¬codeBits size code <+: List.replicate 17 false) ∧
    (bitsOf [0, 0, 0]).bitsAhead = List.replicate 17 false ++ List.replicate 7 false ∧
    (bitsOf [0xFF]).bitsAhead = [] ∧ ([] : List Bool).length < 17 := by
  refine ⟨fun k size code h => ?_, by decide, by decide, by decide⟩
  have : (buildHuffman 0#1 0#2 (List.replicate 16 0) []).huffsize = [] := by decide +kernel
  rw [this] at h
  cases h

theorem dc0_good : dc0.good := ⟨by decide +kernel, by decide, by decide⟩
theorem ac0_good : ac0.good := ⟨by decide +kernel, by decide, by decide⟩

theorem witness_DecodeAnswersEntries : dc0.good ∧ ∃ t, decodeSymbol dc0 (bitsOf [0x80]) = .ok 3#8 t :=
  ⟨dc0_good, ok_of_answers (n := 1) (by decide +kernel)⟩

theorem witness_ValueFunctions :
    ((0 : Nat) < 2 ^ 1 ∧ (1 : Nat) ≤ 1) ∧ ((8 : Nat) ∣ 16 ∧ (9 : Nat) ≤ 16) ∧ ((1 : Nat) ≤ 8 ∧ (-128 : Int) ≤ -(2 ^ (8 - 1) : Int) ∧
      (2 ^ (8 - 1) : Int) ≤ 128) := by decide

/-- U1; sizes 0 and 17. -/
theorem witness_DcStep :
    (inScan 0x95 []).st = .decodingMCUs ∧ (inScan 0x95 []).unitPos = .dc ∧ Config.params.dcsizeMax < (17#8 : Byte).toNat ∧
    (16#8 : Byte).toNat ≤ Config.params.dcsizeMax ∧
    (let s : State := { inScan 0xA8 [] with bitcnt := 5 };
      s.bitcnt ≤ 8 ∧ [true, false, true].length = (3#8 : Byte).toNat ∧ s.bitsAhead = [true, false, true] ++ [false, true]) ∧
    ([] : List Bool).length = (0#8 : Byte).toNat ∧ (inScan 0 []).bitsAhead = [] ++ List.replicate 8 false := by decide +kernel

theorem witness_EobStep :
    (inBlock 0 []).st = .decodingMCUs ∧ (inBlock 0 []).unitPos = .ac ∧ (inBlock 0 []).fhV = true ∧
    currentBinding (inBlock 0 []) = some bind1 ∧ (inBlock 0 []).zz.length = 64 ∧ bind1.q.q.length = 64 := by decide +kernel

/-- The edges at index 63 for a run of 16, a run of 15 and the last coefficient. -/
theorem witness_AcStep :
    ({ inBlock 0 [] with k := 47 } : State).k + 16 ≤ 63 ∧ 63 < ({ inBlock 0 [] with k := 48 } : State).k + 16 ∧
    63 < ({ inBlock 0 [] with k := 49 } : State).k + (15#4 : BitVec 4).toNat ∧
    (let s : State := { inBlock 0x80 [] with k := 47 };
      s.st = .decodingMCUs ∧ s.unitPos = .ac ∧ s.bitcnt ≤ 8 ∧ [true].length = (1#4 : BitVec 4).toNat ∧
      s.bitsAhead = [true] ++ List.replicate 7 false ∧ s.k + (15#4 : BitVec 4).toNat < 63) ∧
    (let s : State := { inBlock 0x80 [] with k := 63 };
      s.k + (0#4 : BitVec 4).toNat = 63 ∧ s.fhV = true ∧ currentBinding s = some bind1 ∧ s.zz.length = 64) := by decide +kernel

/-- The bits of the extra value run out: at the end of input, at EOI, at a DNL segment. -/
theorem witness_SymbolCutShort :
    (let s : State := { inScan 0 [] with bitcnt := 0 };
      s.st = .decodingMCUs ∧ s.bitcnt ≤ 8 ∧ s.unitPos = .dc ∧ s.bitsAhead.length < (1#8 : Byte).toNat ∧
      (1#8 : Byte).toNat ≤ s.params.dcsizeMax ∧ peekToken (remaining s) = .exhausted) ∧
    (let s : State := { inBlock 0 [0xFF, 0xD9] with bitcnt := 0 };
      s.unitPos = .ac ∧ s.atb = false ∧ s.k + (15#4 : BitVec 4).toNat ≤ 63 ∧ s.bitsAhead.length < (1#4 : BitVec 4).toNat ∧
      peekToken (remaining s) = .marker 0xFFD9#16) ∧
    (let s : State := { inBlock 0 [0xFF, 0xDC, 0x00, 0x04, 0x00, 0x08] with bitcnt := 0 };
      s.bitsAhead.length < (15#4 : BitVec 4).toNat ∧ peekToken (remaining s) = .marker 0xFFDC#16 ∧
      segmentRaw s.params.segReadMode (bytes16 4#16 ++ bytes16 8#16) = remaining { s with pos := 2 }) ∧
    (let s : State := { inBlock 0 [0xFF, 0xDC, 0x00, 0x03] with bitcnt := 0 };
      segmentRaw s.params.segReadMode (bytes16 3#16) = remaining { s with pos := 2 }) ∧
    (let s : State := { inBlock 0 [0xFF, 0xDC, 0x00, 0x04, 0x00] with bitcnt := 0 };
      segmentRaw s.params.segReadMode (bytes16 4#16 ++ bytes16 8#16) = remaining { s with pos := 2 } ++ [8#8]) := by decide +kernel

/-- P1 step 10, the marker at an MCU boundary; E14, inside; a DNL segment; no code word. -/
theorem witness_SymbolNotDecoded :
    (let s : State := { inScan 0x80 [0xFF, 0xD9] with bitcnt := 1 };
      s.st = .decodingMCUs ∧ s.bitcnt ≠ 0 ∧ currentBinding s = some bind1 ∧
      ∃ t, decodeSymbol bind1.dc s = .stop (.signal (.markerFound 0xFFD9#16)) t) ∧
    (let s : State := { inBlock 0xC0 [0xFF, 0xD9] with bitcnt := 2 };
      s.atb = false ∧ ∃ t, decodeSymbol bind1.ac s = .stop (.signal (.markerFound 0xFFD9#16)) t) ∧
    (let s : State := { inScan 0x80 [0xFF, 0xDC, 0x00, 0x04, 0x00, 0x08] with bitcnt := 1 };
      ∃ t, decodeSymbol bind1.dc s = .stop (.signal .endOfScan) t) ∧
    (let s : State := inBlock 0xF8 [0x00, 0x00];
      ∃ t, decodeSymbol bind1.ac s = .stop (.raise .huffmanDecodeFailure none) t) :=
  ⟨⟨rfl, by decide, rfl, stop_of_answers (n := 2) (by decide +kernel)⟩, ⟨rfl, stop_of_answers (n := 2) (by decide +kernel)⟩,
    stop_of_answers (n := 6) (by decide +kernel), stop_of_answers (n := 2) (by decide +kernel)⟩

theorem witness_InverseDct : zeroBlock.length = 64 ∧ (7 : Nat) < 8 := by decide

theorem witness_ErrorRegisters :
    (∃ t, step (inScan 0x95 []) = .next t) ∧ (inScan 0x95 []).st ≠ .error ∧
    stepGives (fun t => t.st) (State.load []) = some .error := ⟨exists_next (by decide +kernel), by decide, by decide +kernel⟩

theorem witness_StreamOnlyMovesOn :
    (∃ t, step (afterSoi [0xFF, 0xFE, 0x00, 0x02]) = .next t) ∧ (afterSoi [0xFF, 0xFE, 0x00, 0x02]).pos ≤ 6 ∧
    (∃ t, step State.reset = .next t) ∧ State.reset.pos ≤ State.reset.input.length :=
  ⟨exists_next (by decide +kernel), by decide, exists_next (by decide +kernel), by decide⟩

theorem tables_good : tables.Good where
  quant t x h := by
    unfold slotGet at h
    split at h
    · cases h; subst t; exact ⟨rfl, q16_good⟩
    · split at h
      · cases h
      · split at h <;> cases h
  dc t x h := by
    unfold slotGet at h
    split at h
    · cases h; subst t; exact ⟨rfl, rfl, dc0_good⟩
    · split at h
      · cases h
      · split at h <;> cases h
  ac t x h := by
    unfold slotGet at h
    split at h
    · cases h; subst t; exact ⟨rfl, rfl, ac0_good⟩
    · split at h
      · cases h
      · split at h <;> cases h
  interval := by decide

theorem empty_good : MiscTables.empty.Good where
  quant t x h := by unfold slotGet at h; split at h <;> [skip; split at h <;> [skip; split at h]] <;> cases h
  dc t x h := by unfold slotGet at h; split at h <;> [skip; split at h <;> [skip; split at h]] <;> cases h
  ac t x h := by unfold slotGet at h; split at h <;> [skip; split at h <;> [skip; split at h]] <;> cases h
  interval := by decide

/-- A state inside a scan that meets the invariant. -/
theorem inScan_inv : (inScan 0x95 []).Inv where
  params := by decide
  pos := by decide
  bitcnt := by decide
  len := by decide
  k := by decide
  blocks := by decide +kernel
  pending h := by cases h
  errors := by decide
  base := tables_good
  ovl := empty_good
  eff := tables_good
  held _ := rfl
  notHeld h := by rcases h with h | h <;> cases h
  header _ := frame1_good
  bound _ := ⟨by decide, by decide, by decide, by decide, fun b hb => by
    obtain rfl : b = bind1 := by simpa [inScan] using hb
    exact ⟨⟨comp1, by decide⟩, rfl, q16_good, dc0_good, ac0_good⟩, by decide, by decide⟩
  place _ := ⟨by decide, fun b hb => by cases hb; decide, fun h => (by cases h), by decide, by decide⟩
  boundary h := by cases h
  complete h := by cases h
  records r hr := by cases hr

theorem witness_ScanConstants :
    (inScan 0x95 []).st.inScan = true ∧ (∃ t, exec (.dcSize 3#8) (inScan 0x95 []) = .next t) ∧
    (atBoundary 0#3 []).st.inScan = true ∧ (∃ t, exec (.rst 0#3) (atBoundary 0#3 []) = .next t) ∧
    (inScan 0x95 []).Inv ∧ (inScan 0x95 []).fhV = true ∧ ∃ t, step (inScan 0x95 []) = .next t :=
  ⟨rfl, exists_next (by decide +kernel), rfl, exists_next (by decide +kernel), inScan_inv, rfl, exists_next (by decide +kernel)⟩

/-- A predictor changes in the DC step; at a restart boundary; at scan start. -/
theorem witness_Predictors :
    stepGives (fun t => t.pred.getD 0 0) (inScan 0x95 []) = some 5 ∧ (inScan 0x95 []).pred.getD 0 0 = 0 ∧
    stepGives (fun t => (t.st, t.pred.getD 0 0))
      { inBlock 0 [] with bitcnt := 1, ri := 1, pred := [5] } = some (.restartBoundary, 0) ∧
    stepGives (fun t => (t.st, t.pred.getD 0 0)) { sosState with pred := [7] } = some (.decodingMCUs, 0) := by decide +kernel

theorem witness_HeaderMarkerFrame :
    Instr.markerCode .dri = some 0xDD#8 ∧ isFrame (markerOf 0xDD#8) = false ∧ (Instr.dri ≠ .sos) ∧ (afterSoi []).inHeader ∧
    (∃ t, exec .dri (afterSoi [0xFF, 0xDD, 0x00, 0x04, 0x00, 0x01]) = .next t) ∧
    (∃ t, exec .dqt (afterSof [0xFF, 0xDB]) = .next t) :=
  ⟨rfl, by decide, by decide, .inl rfl, exists_next (by decide +kernel), exists_next (by decide +kernel)⟩

theorem witness_HeaderFrame :
    Instr.markerCode .sof0 = some 0xC0#8 ∧ isFrame (markerOf 0xC0#8) = true ∧ (afterSoi []).inHeader ∧
    (∃ t, exec .sof0 (afterSoi [0xFF, 0xC0, 0x00, 0x0B, 0x08, 0x00, 0x08, 0x00, 0x08, 0x01, 0x01, 0x11, 0x00]) = .next t) ∧
    Instr.markerCode .sos = some 0xDA#8 ∧ sosState.inHeader ∧ (∃ t, exec .sos sosState = .next t) :=
  ⟨rfl, by decide, .inl rfl, exists_next (by decide +kernel), rfl, .inr rfl, exists_next (by decide +kernel)⟩

theorem witness_SymbolFrame :
    (inScan 0xA0 []).st = .decodingMCUs ∧ (∃ t, exec (.dcSize 3#8) (inScan 0xA0 []) = .next t) ∧
    (∃ t, exec (.eob 0#4) (inBlock 0 []) = .next t) ∧ (∃ t, exec .zrl (inBlock 0 []) = .next t) ∧
    (∃ t, exec (.acCoef 15#4 15#4) (inBlock 0 [0xFF, 0xD9]) = .next t) ∧ (Instr.acCoef 15#4 15#4).level = .ac :=
  ⟨rfl, exists_next (by decide +kernel), exists_next (by decide +kernel), exists_next (by decide +kernel),
    exists_next (by decide +kernel), rfl⟩

/-- For StepKeepsInv, StepAnswers and RunTerminates. -/
theorem witness_StepKeepsInv : (inScan 0x95 []).Inv ∧ ∃ t, step (inScan 0x95 []) = .next t :=
  ⟨inScan_inv, exists_next (by decide +kernel)⟩

/-- F2's first component: the last block of its second MCU, in a scan of three components that comes after one of its own;
the last block of the scan of it alone; a sample past the plane. -/
theorem witness_BlockPlacement :
    let block : Nat → OutRec := fun k => ⟨k, 1#8, List.replicate 64 0⟩
    frame17.Good Config.params ∧ comp17 ∈ frame17.comp ∧ frame17.x ≠ 0#16 ∧ frame17.y ≠ 0#16 ∧
    (planeSize frame17 comp17).1 ≤ 32 ∧ (∀ r ∈ List.replicate 6 (block 0), r.scan ≠ 1) ∧
    (∀ r ∈ List.replicate 8 (block 1), r.scan = 1) ∧ 1 < mcusPerRow frame17 * mcuRows frame17 ∧
    (List.replicate 8 (block 1))[1 * (comp17.h.toNat * comp17.v.toNat) + 1 * comp17.h.toNat + 1]? = some (block 1) ∧
    5 < ceilDiv comp17.width 8 * ceilDiv comp17.height 8 ∧ (List.replicate 6 (block 0))[5]? = some (block 0) :=
  ⟨⟨by decide, by decide, by decide, by decide, ⟨by decide, by decide⟩, ⟨by decide, by decide⟩, by decide⟩, by decide, by decide,
    by decide, by decide, by decide, by decide, by decide, by decide, by decide, by decide⟩

end Sys2Proof.Tests
end

section
/-! SUPPORT. Every step answers a next state within the invariant: the cases of `fetch` under the invariant, each closed by
the lemma that says what it runs keeps. -/

namespace Sys2Proof.Machine

/-- The bit reader does not move the place inside the MCU. -/
theorem State.Place.bits {s t : State} (h : s.Place) (f : BitFrame s t) : t.Place := by
  rw [eq_of_bitKeep f.keep]
  exact { h with }

/-- Meeting the end of input takes StreamExhausted within the invariant. -/
theorem exhausted_keeps {s : State} (h : s.Always) (hs : s.st ≠ .error) : (exhausted s : Res Unit).Keeps :=
  .raise { h with pos := le_rfl } hs

/-- The token that `fetch` finds keeps the invariant, be it data or a marker. -/
theorem token_keeps {i : Instr} {rest : List Byte} {s : State} (h : s.Inv) (hd : decode .token (tokenSource s) = .ok (i, rest))
    (hs : (s.st = .decodingMCUs ∧ s.bitcnt = 0) ∨ s.st = .awaitSOI ∨ s.st = .frameTables ∨ s.st = .awaitingSOS ∨
      s.st = .restartBoundary) : ∃ t, exec i s = .next t ∧ t.Inv := by
  have hb : s.st = .decodingMCUs → s.bitcnt = 0 := fun e => by simpa [e] using hs
  have h1 : s.st ≠ .scanHeader := fun e => by simp [e] at hs
  have h2 : s.st ≠ .scanComplete := fun e => by simp [e] at hs
  rcases decodeToken_ok hd with ⟨b, n, hp, -, hexec⟩ | ⟨c, hc, hp, hi⟩
  · rw [hexec]
    exact byte_keeps h hp hb h1 h2
  · exact marker_keeps hi hc h hp hb h1 h2

/-- A symbol decode in a scan, by a table the builder made: where it stops the invariant is kept, and where it answers the
scan stands as before, ready for the symbol. -/
theorem decodeSymbol_keeps {d : HuffTable} (hd : d.good) {s : State} (h : s.Bound) (hs : s.st = .decodingMCUs)
    (hp : s.Place) :
    (∀ b u, decodeSymbol d s = .ok b u → u.Bound ∧ u.st = .decodingMCUs ∧ u.Place ∧ u.unitPos = s.unitPos) ∧
    ∀ c u, decodeSymbol d s = .stop c u → (Res.stop c u : Res Unit).Keeps := by
  constructor
  · intro b u hr
    obtain ⟨f, hl, -⟩ := decodeSymbol_ok hd hr
    have hst : u.st = s.st := (congrArg State.st f.keep :)
    exact ⟨h.symbol f (by omega), hst.trans hs,
      State.Place.bits (s := { s with code := u.code, len := u.len }) { hp with } (f.relabel u.code u.len),
      (congrArg State.unitPos f.keep :)⟩
  · intro c u hr
    obtain ⟨f, hl⟩ := decodeSymbol_stop hd hr
    exact .of_stop (s := { s with code := u.code, len := u.len }) { h with always := { h.always with len := hl } } hs
      (f.relabel u.code u.len)

/-- The table the loop at `p` of a data unit decodes with (45_scan_engine.md R253, R255). -/
def Binding.tableAt (b : Binding) : UnitPos → HuffTable
  | .dc => b.dc
  | .ac => b.ac

/-- The instruction a decoded byte is at `p` (30_encoding.md R112, R113). -/
def symbolOf : UnitPos → Byte → Instr
  | .dc => decodeDcSymbol
  | .ac => decodeAcSymbol

/-- What is found at the bit level: the symbol its table answers, or the stop of the decode. -/
theorem fetchSymbol_cases {s : State} {b : Binding} (hb : currentBinding s = some b) :
    (∃ y u, decodeSymbol (b.tableAt s.unitPos) s = .ok y u ∧ fetchSymbol s = .instr (symbolOf s.unitPos y) u) ∨
    ∃ c u, decodeSymbol (b.tableAt s.unitPos) s = .stop c u ∧ fetchSymbol s = .noInstr (.stop c u) := by
  unfold fetchSymbol
  rw [hb]
  cases hu : s.unitPos with
  | dc =>
    simp only [Binding.tableAt]
    cases decodeSymbol b.dc s with
    | ok y u => exact .inl ⟨y, u, rfl, rfl⟩
    | stop c u => exact .inr ⟨c, u, rfl, rfl⟩
  | ac =>
    simp only [Binding.tableAt]
    cases decodeSymbol b.ac s with
    | ok y u => exact .inl ⟨y, u, rfl, rfl⟩
    | stop c u => exact .inr ⟨c, u, rfl, rfl⟩

theorem Binding.Good.tableAt {fh : FrameHeader} {n : Nat} {b : Binding} (h : b.Good fh n) (p : UnitPos) :
    (b.tableAt p).good := by
  cases p with
  | dc => exact h.dc
  | ac => exact h.ac

theorem symbolOf_keeps {s : State} (h : s.Bound) (hs : s.st = .decodingMCUs) (hp : s.Place) (y : Byte) :
    ∃ t, exec (symbolOf s.unitPos y) s = .next t ∧ t.Inv := by
  obtain ⟨dc, ac⟩ := symbol_keeps h hs hp y
  cases hu : s.unitPos with
  | dc => exact dc hu
  | ac => exact ac hu

/-- The symbol that `fetch` finds, or its failure to decode, keeps the invariant. -/
theorem fetchSymbol_keeps {s : State} (h : s.Inv) (hs : s.st = .decodingMCUs) (hf : fetch s = fetchSymbol s) :
    ∃ t, step s = .next t ∧ t.Inv := by
  have hB : s.Bound := h.toBound (by rw [hs]; rfl)
  have hP : s.Place := h.toPlace hs
  obtain ⟨b, hb, hg⟩ := hB.current hP.curJ
  obtain ⟨answers, stops⟩ := decodeSymbol_keeps (hg.tableAt s.unitPos) hB hs hP
  rw [step, hf]
  rcases fetchSymbol_cases hb with ⟨y, u, hr, e⟩ | ⟨c, u, hr, e⟩ <;> rw [e]
  · obtain ⟨hBu, hsu, hPu, hpos⟩ := answers y u hr
    rw [← hpos]
    exact symbolOf_keeps hBu hsu hPu y
  · exact stops c u hr

/-- Under the invariant a step answers a next state, and the invariant holds there. -/
theorem step_keeps {s : State} (h : s.Inv) : ∃ t, step s = .next t ∧ t.Inv := by
  have runs : ∀ {r : Res Unit}, fetch s = .noInstr r → step s = settle r := fun hf => by rw [step, hf]
  rcases fetch_cases h with ⟨-, hf⟩ | ⟨hs, hf⟩ | ⟨hs, hf⟩ | ⟨hs, ⟨i, rest, hd, hf⟩ | ⟨-, hf⟩⟩ | ⟨hs, -, -, -, hf⟩
  · exact ⟨s, runs hf, h⟩
  · exact ⟨_, runs hf, afterScan_inv h hs⟩
  · rw [runs hf]
    exact scanHeaderPhase_keeps h.always (h.quiet (by simp [hs])) (h.noPending (by simp [hs]) (by simp [hs]) (by simp [hs]))
      (h.held (by rw [hs]; rfl)) hs
  · rw [step, hf]
    exact token_keeps h hd hs
  · rw [runs hf]
    have hne : s.st ≠ .error := fun e => by simp [e] at hs
    split
    · exact exhausted_keeps { h.always with len := Nat.zero_le _ } hne
    · exact exhausted_keeps h.always hne
  · exact fetchSymbol_keeps h hs hf

/-- Settles O57: under the invariant every step answers a next state that meets it. -/
theorem stepKeepsInv : Obligations.StepKeepsInv := by
  intro s t h hstep
  obtain ⟨u, hu, hinv⟩ := step_keeps h
  rw [hstep] at hu
  cases hu
  exact hinv

end Sys2Proof.Machine
end

section
/-! SUPPORT. What any step can do to the parameters, the input, the position, the histories and the error registers: every step
ends one operation (`step_settled`), and of an operation it is said once what it may do before it ends (`Res.Runs`). -/

namespace Sys2Proof.Machine

/-- The registers no operation writes: the parameters, the input, the error registers. -/
def opKeep (s : State) : State :=
  { State.reset with
    params := s.params, input := s.input, errCode := s.errCode, errMarker := s.errMarker, errPos := s.errPos
    errState := s.errState }

theorem params_of_opKeep {s t : State} (h : opKeep t = opKeep s) : t.params = s.params := (congrArg State.params h :)
theorem input_of_opKeep {s t : State} (h : opKeep t = opKeep s) : t.input = s.input := (congrArg State.input h :)
theorem errors_of_opKeep {s t : State} (h : opKeep t = opKeep s) :
    t.errCode = s.errCode ∧ t.errMarker = s.errMarker ∧ t.errPos = s.errPos ∧ t.errState = s.errState :=
  ⟨(congrArg State.errCode h :), (congrArg State.errMarker h :), (congrArg State.errPos h :), (congrArg State.errState h :)⟩

/-- `POS` moved forward within the input, and what no operation writes is as it was. -/
structure Forward (s t : State) : Prop where
  keep : opKeep t = opKeep s
  pos : s.pos ≤ s.input.length → s.pos ≤ t.pos ∧ t.pos ≤ s.input.length

theorem Forward.trans {s t u : State} (h₁ : Forward s t) (h₂ : Forward t u) : Forward s u := by
  refine ⟨h₂.keep.trans h₁.keep, fun h => ?_⟩
  have hi := input_of_opKeep h₁.keep
  obtain ⟨a, b⟩ := h₁.pos h
  obtain ⟨c, d⟩ := h₂.pos (hi ▸ b)
  exact ⟨a.trans c, hi ▸ d⟩

/-- What an operation that emits nothing does. `STATE` stays, but that SOS enters `ScanHeader` (46_top_level.md R296). -/
structure Silent (s t : State) : Prop extends Forward s t where
  out : t.out = s.out
  aux : t.aux = s.aux
  st : t.st = s.st ∨ s.st = .awaitingSOS ∧ t.st = .scanHeader

/-- What an operation that may emit does; none enters `Error`. -/
structure Emits (s t : State) : Prop extends Forward s t where
  out : s.out <+: t.out
  aux : s.aux <+: t.aux
  st : s.st ≠ .error → t.st ≠ .error

/-! ## Silent operations -/

theorem Silent.refl (s : State) : Silent s s := ⟨⟨rfl, fun h => ⟨le_rfl, h⟩⟩, rfl, rfl, .inl rfl⟩

theorem Silent.trans {s t u : State} (h₁ : Silent s t) (h₂ : Silent t u) : Silent s u := by
  refine ⟨h₁.toForward.trans h₂.toForward, h₂.out.trans h₁.out, h₂.aux.trans h₁.aux, ?_⟩
  rcases h₁.st with e | ⟨e, e'⟩
  · rw [← e]; exact h₂.st
  · rcases h₂.st with f | ⟨f, -⟩
    · exact .inr ⟨e, f.trans e'⟩
    · rw [e'] at f; cases f

theorem Silent.emits {s t : State} (h : Silent s t) : Emits s t := by
  refine ⟨h.toForward, h.out ▸ List.prefix_rfl, h.aux ▸ List.prefix_rfl, fun hs => ?_⟩
  rcases h.st with e | ⟨-, e⟩
  · rwa [e]
  · simp [e]

theorem StreamFrame.silent {s t : State} (h : StreamFrame s t) : Silent s t := by
  obtain ⟨p, l, b, rfl, hp⟩ := h
  exact ⟨⟨rfl, hp⟩, rfl, rfl, .inl rfl⟩

theorem RegionFrame.silent {P : MiscTables → MiscTables → Prop} {s t : State} (h : RegionFrame P s t) : Silent s t := by
  obtain ⟨p, l, a, b, o, rfl, hp, -⟩ := h
  exact ⟨⟨rfl, hp⟩, rfl, rfl, .inl rfl⟩

theorem BitFrame.silent {s t : State} (h : BitFrame s t) : Silent s t :=
  ⟨⟨(congrArg opKeep h.keep :), h.pos⟩, (congrArg State.out h.keep :), (congrArg State.aux h.keep :),
    .inl (congrArg State.st h.keep :)⟩

theorem StopFrame.silent {c : Stop} {s t : State} (h : StopFrame c s t) : Silent s t :=
  ⟨⟨(congrArg opKeep h.keep :), h.pos⟩, (congrArg State.out h.keep :), (congrArg State.aux h.keep :),
    .inl (congrArg State.st h.keep :)⟩

theorem consumeMarker_silent {m : Marker} {s : State} (h : peekToken (remaining s) = .marker m) :
    Silent s (consumeMarker m s) :=
  ⟨⟨rfl, fun _ => ⟨Nat.le_add_right _ _, consumeMarker_pos_le h⟩⟩, rfl, rfl, .inl rfl⟩

theorem readDNLbody_silent (s : State) : Silent s (readDNLbody s).final := by
  cases hr : readDNLbody s with
  | ok a t =>
    obtain ⟨u, nl, hf, -, rfl⟩ := readDNLbody_ok hr
    exact { hf.silent with }
  | stop c t => exact (readDNLbody_stop hr).1.silent

theorem readFrameHeader_silent {m : Marker} {s : State} (hm : m ∈ s.params.sofAccept) :
    Silent s (readFrameHeader m s).final := by
  cases hr : readFrameHeader m s with
  | ok a t =>
    obtain ⟨u, f, hf, -, -, rfl⟩ := readFrameHeader_ok hm hr
    exact { hf.silent with }
  | stop c t => exact (readFrameHeader_stop hr).silent

theorem readScanHeader_silent (s : State) : Silent s (readScanHeader s).final := by
  cases hr : readScanHeader s with
  | ok a t =>
    obtain ⟨u, sh, hf, -, -, -, -, rfl⟩ := readScanHeader_ok hr
    exact { hf.silent with }
  | stop c t => exact (readScanHeader_stop hr).silent

theorem bindLoop_silent (scs : List ScanComp) (j : Nat) (s : State) : Silent s (bindLoop j scs s).final := by
  induction scs generalizing j s with
  | nil => exact .refl s
  | cons sc scs ih =>
    unfold bindLoop
    split
    · exact .refl s
    · rename_i b _
      exact { ih (j + 1) { s with bind := bindSet s.bind j b } with }

theorem bindComponents_silent (s : State) : Silent s (bindComponents s).final := by
  refine Res.final_bind Silent Silent.trans (bindLoop_silent _ _ s) fun _ t _ => ?_
  dsimp only
  split
  · split <;> exact { Silent.refl t with }
  · split <;> exact { Silent.refl t with }

theorem receive_silent (n : Nat) (s : State) : Silent s (receive n s).final := by
  cases hr : receive n s with
  | ok v t => exact (receive_ok hr).silent
  | stop c t => exact (receive_stop hr).silent

/-! ## Emitting -/

theorem Emits.trans {s t u : State} (h₁ : Emits s t) (h₂ : Emits t u) : Emits s u :=
  ⟨h₁.toForward.trans h₂.toForward, h₁.out.trans h₂.out, h₁.aux.trans h₂.aux, h₂.st ∘ h₁.st⟩

theorem Emits.refl (s : State) : Emits s s := (Silent.refl s).emits

theorem emitAux_emits (r : AuxRec) (s : State) : Emits s (emitAux r s) := by
  unfold emitAux
  split
  · exact { Emits.refl s with aux := List.prefix_append _ _ }
  · exact .refl s

theorem finishUnit_emits (b : Binding) (s : State) : Emits s (finishUnit b s) :=
  { Emits.refl s with out := List.prefix_append _ _ }

theorem mcuCompleted_emits (s : State) : Emits s (mcuCompleted s) := by
  unfold mcuCompleted
  dsimp only
  split
  · exact { Emits.refl s with st := fun _ => by simp }
  · exact { Emits.refl s with }

theorem nextUnit_emits (b : Binding) (s : State) : Emits s (nextUnit b s) := by
  unfold nextUnit
  split
  · exact { Emits.refl s with }
  · split
    · exact { Emits.refl s with }
    · exact mcuCompleted_emits s

/-! ## Operations -/

/-- What an operation begun in `s` may do: emit and answer, or stop having emitted nothing, StreamExhausted being raised at
the end of the input only (60_exceptions.md R324). -/
inductive Res.Runs (s : State) : Res Unit → Prop where
  | ok {t : State} (h : Emits s t) : Runs s (.ok () t)
  | stop {c : Stop} {t : State} (h : Silent s t) (e : (Res.stop c t : Res Unit).AtEnd) : Runs s (.stop c t)

theorem Res.Runs.raise {e : ErrKind} (he : e ≠ .streamExhausted) (i : Option Info) (s : State) :
    Res.Runs s (Sys2Proof.Machine.raise e i s) := .stop (.refl s) (.raise he i s)

theorem Res.Runs.fault (f : Fault) (s : State) : Res.Runs s (.stop (.fault f) s) := .stop (.refl s) (.fault f s)

theorem Res.Runs.exhausted (s : State) : Res.Runs s (Sys2Proof.Machine.exhausted s) :=
  .stop (StreamFrame.exhausted (α := Unit) s).silent (.exhausted s)

/-- An operation after a silent part. -/
theorem Res.Runs.after {s t : State} {r : Res Unit} (h : Silent s t) (hr : Res.Runs t r) : Res.Runs s r := by
  cases hr with
  | ok he => exact .ok (h.emits.trans he)
  | stop hs e => exact .stop (h.trans hs) e

theorem Res.Runs.bind {α : Type} {s : State} {r : Res α} {f : α → State → Res Unit} (h : Silent s r.final) (e : r.AtEnd)
    (hf : ∀ a t, r = .ok a t → Res.Runs t (f a t)) : Res.Runs s (r.bind f) := by
  cases r with
  | ok a t => exact .after h (hf a t rfl)
  | stop c t => exact .stop h fun i u hu => by cases hu; exact e i _ rfl

theorem Res.Runs.of_silent {s : State} {r : Res Unit} (h : Silent s r.final) (e : r.AtEnd) : Res.Runs s r := by
  cases r with
  | ok a t => exact .ok h.emits
  | stop c t => exact .stop h e

/-! ## The rows of the header regions -/

theorem skipSegment_runs (m : Marker) (s : State) : Res.Runs s (skipSegment m s) :=
  .bind (readLength_frame s).silent (readLength_atEnd s) fun _ t _ =>
    .bind (readBytes_frame _ t).silent (readBytes_atEnd _ t) fun _ u _ => .ok (emitAux_emits _ u)

theorem frameRow_runs (m : Marker) (s : State) : Res.Runs s (frameRow m s) := by
  unfold frameRow
  split
  · split
    · exact .raise (by decide) _ _
    · rename_i hm
      exact .bind (readFrameHeader_silent (not_not.1 hm)) (readFrameHeader_atEnd m s) fun _ t _ =>
        .ok { Emits.refl t with st := fun _ => by simp }
  · exact .raise (by decide) _ _

theorem scanHeaderPhase_runs (s : State) : Res.Runs s (scanHeaderPhase s) := by
  unfold scanHeaderPhase
  split
  · exact .fault _ s
  · refine .bind (readScanHeader_silent s) (readScanHeader_atEnd s) fun _ t _ => ?_
    refine .bind ?_ (bindComponents_atEnd _) fun _ u _ => .ok { Emits.refl u with st := fun _ => by simp }
    exact { bindComponents_silent { t with eff := cascade t.base t.ovl } with }

theorem sosRow_runs (m : Marker) {s : State} (hs : s.inHeader) : Res.Runs s (sosRow m s) := by
  unfold sosRow
  split
  · exact .raise (by decide) _ _
  · rename_i hf
    exact .after (t := { s with st := .scanHeader }) { Silent.refl s with st := .inr ⟨hs.resolve_left hf, rfl⟩ }
      (scanHeaderPhase_runs _)

theorem eoiRow_runs (m : Marker) (s : State) : Res.Runs s (eoiRow m s) := by
  unfold eoiRow
  split
  · exact .raise (by decide) _ _
  · exact .ok { Emits.refl s with st := fun _ => by simp }

/-- The rows of 46_top_level.md R294. -/
theorem markerRow_cases (i : Instr) (m : Marker) :
    markerRow i m = readDQT ∨ markerRow i m = readDHT ∨ markerRow i m = readDRI ∨ markerRow i m = readDNLbody ∨
    markerRow i m = dacRow m ∨ markerRow i m = eoiRow m ∨ markerRow i m = sosRow m ∨ markerRow i m = refuseRow m ∨
    markerRow i m = frameRow m ∨ markerRow i m = skipSegment m ∨ markerRow i m = fun s => .ok () s := by
  cases i <;> simp [markerRow]

theorem markerRow_runs (i : Instr) (m : Marker) {s : State} (hs : s.inHeader) : Res.Runs s (markerRow i m s) := by
  rcases markerRow_cases i m with e | e | e | e | e | e | e | e | e | e | e <;> rw [e]
  · exact .of_silent (readDQT_frame s).silent (readDQT_atEnd s)
  · exact .of_silent (readDHT_frame s).silent (readDHT_atEnd s)
  · exact .of_silent (readDRI_frame s).silent (readDRI_atEnd s)
  · exact .of_silent (readDNLbody_silent s) (readDNLbody_atEnd s)
  · exact .raise (by decide) _ s
  · exact eoiRow_runs m s
  · exact sosRow_runs m hs
  · exact .raise (by decide) _ s
  · exact frameRow_runs m s
  · exact skipSegment_runs m s
  · exact .ok (.refl s)

/-! ## Inside a scan -/

theorem markerInEntropy_runs {m : Marker} {s : State} (h : peekToken (remaining s) = .marker m) :
    Res.Runs s (markerInEntropy m (beginDecode s)) := by
  have hc : Silent s (consumeMarker m (beginDecode s)) := { consumeMarker_silent h with }
  unfold markerInEntropy
  dsimp only
  split
  · exact .after hc (.bind (readDNLbody_silent _) (readDNLbody_atEnd _) fun _ u _ => .stop (.refl u) (.signal _ u))
  · exact .stop { hc with } (.signal _ _)

theorem boundaryMarker_runs (m : Marker) (s : State) : Res.Runs s (boundaryMarker m s) := by
  unfold boundaryMarker
  split
  · split
    · exact .raise (by decide) _ s
    · exact .ok { Emits.refl s with st := fun _ => by simp }
  · exact .ok { Emits.refl s with st := fun _ => by simp }

theorem endOfBlock_runs (s : State) : Res.Runs s (endOfBlock s) := by
  unfold endOfBlock
  split
  · exact .fault _ s
  · rename_i b _
    unfold completeUnit
    split
    · exact .ok ((finishUnit_emits b s).trans (nextUnit_emits b _))
    · exact .fault _ s

theorem dcStep_runs (t : Nat) (s : State) : Res.Runs s (dcStep t s) := by
  refine .after (t := { s with atb := false }) { Silent.refl s with } ?_
  unfold dcStep
  dsimp only
  split
  · exact .raise (by decide) _ _
  · exact .bind (receive_silent t _) (receive_atEnd t _) fun _ u _ => .ok { Emits.refl u with }

theorem zrlStep_runs (s : State) : Res.Runs s (zrlStep s) := by
  refine .after (t := { s with k := s.k + 16 }) { Silent.refl s with } ?_
  unfold zrlStep
  dsimp only
  split
  · exact .raise (by decide) _ _
  · exact .ok (.refl _)

theorem coefStep_runs (r z : Nat) (s : State) : Res.Runs s (coefStep r z s) := by
  refine .after (t := { s with k := s.k + r }) { Silent.refl s with } ?_
  unfold coefStep
  dsimp only
  split
  · exact .raise (by decide) _ _
  · refine .bind (receive_silent z _) (receive_atEnd z _) fun v u _ => ?_
    refine .after (t := { u with zz := u.zz.set u.k (extend v z) }) { Silent.refl u with } ?_
    split
    · exact endOfBlock_runs _
    · exact .ok { Emits.refl _ with }

/-! ## A step settles one operation -/

/-- The outcome is the end of an operation begun in `s`. -/
def Settled (s : State) (o : StepOutcome) : Prop := ∃ r : Res Unit, r.Runs s ∧ o = settle r

theorem Res.Runs.settled {s : State} {r : Res Unit} (h : Res.Runs s r) : Settled s (settle r) := ⟨r, h, rfl⟩
theorem Settled.next {s t : State} (h : Emits s t) : Settled s (.next t) := ⟨_, .ok h, rfl⟩
theorem Settled.fault (f : Fault) (s : State) : Settled s (.fault f) := ⟨_, .fault f s, rfl⟩

theorem Settled.after {s t : State} {o : StepOutcome} (h : Silent s t) (ho : Settled t o) : Settled s o := by
  obtain ⟨r, hr, rfl⟩ := ho
  exact (hr.after h).settled

theorem dispatchByte_settled {b : Byte} {n : Nat} {s : State}
    (hp : s.st = .decodingMCUs → peekToken (remaining s) = .byte b n) : Settled s (dispatchByte b n s) := by
  have raises : Settled s (settle (raise .unexpectedByte (some (.byte b)) s)) :=
    (Res.Runs.raise (by decide) _ s).settled
  unfold dispatchByte
  cases hst : s.st with
  | decodingMCUs => exact .next { (consumeByte_frame (hp hst)).silent.emits with }
  | awaitSOI => exact raises
  | frameTables => exact raises
  | awaitingSOS => exact raises
  | restartBoundary => exact raises
  | scanHeader => exact .fault _ s
  | scanComplete => exact .fault _ s
  | done => exact .next (.refl s)
  | error => exact .next (.refl s)

theorem nextMarker_silent {m : Marker} {s : State} (h : s.pendmkV = false → peekToken (remaining s) = .marker m) :
    Silent s (nextMarker m s) := by
  unfold nextMarker
  split
  · exact { Silent.refl s with }
  · rename_i hp
    exact consumeMarker_silent (h (by simpa using hp))

theorem nextMarker_inHeader {m : Marker} {s : State} (h : s.inHeader) : (nextMarker m s).inHeader := by
  unfold nextMarker
  split <;> exact h

theorem dispatchMarker_settled {i : Instr} {m : Marker} {s : State}
    (hp : peekToken (remaining s) = .marker m ∨ s.inHeader ∧ s.pendmkV = true) :
    Settled s (dispatchMarker m (markerRow i m) s) := by
  have row : s.inHeader → Settled s (settle (markerRow i m (nextMarker m s))) := fun hs =>
    ((markerRow_runs i m (nextMarker_inHeader hs)).after (nextMarker_silent fun hv => by simpa [hv] using hp)).settled
  have fresh : ¬s.inHeader → peekToken (remaining s) = .marker m := fun hs => hp.resolve_right fun e => hs e.1
  unfold dispatchMarker
  cases hst : s.st with
  | awaitSOI =>
    refine (Res.Runs.after (consumeMarker_silent (fresh (by simp [State.inHeader, hst]))) ?_).settled
    unfold awaitSOIMarker
    split
    · exact .raise (by decide) _ _
    · exact .ok { Emits.refl _ with st := fun _ => by simp }
  | frameTables => exact row (.inl hst)
  | awaitingSOS => exact row (.inr hst)
  | decodingMCUs => exact (markerInEntropy_runs (fresh (by simp [State.inHeader, hst]))).settled
  | restartBoundary =>
    exact ((boundaryMarker_runs m _).after (consumeMarker_silent (fresh (by simp [State.inHeader, hst])))).settled
  | scanHeader => exact .fault _ s
  | scanComplete => exact .fault _ s
  | done => exact .next (.refl s)
  | error => exact .next (.refl s)

theorem symbolAt_settled (p : UnitPos) {body : State → Res Unit} {s : State} (h : Res.Runs s (body s)) :
    Settled s (symbolAt p body s) := by
  unfold symbolAt
  cases s.st with
  | decodingMCUs =>
    dsimp only
    split
    · exact h.settled
    · exact .fault _ s
  | done => exact .next (.refl s)
  | error => exact .next (.refl s)
  | awaitSOI => exact .fault _ s
  | frameTables => exact .fault _ s
  | awaitingSOS => exact .fault _ s
  | scanHeader => exact .fault _ s
  | restartBoundary => exact .fault _ s
  | scanComplete => exact .fault _ s

theorem symbolOf_settled (p : UnitPos) (y : Byte) (s : State) : Settled s (exec (symbolOf p y) s) := by
  cases p with
  | dc => exact symbolAt_settled .dc (dcStep_runs y.toNat s)
  | ac =>
    rcases decodeAcSymbol_cases y with ⟨r, -, e⟩ | e | ⟨r, z, -, e⟩ <;> rw [symbolOf, e]
    · exact symbolAt_settled .ac (endOfBlock_runs s)
    · exact symbolAt_settled .ac (zrlStep_runs s)
    · exact symbolAt_settled .ac (coefStep_runs r.toNat z.toNat s)

/-- What a step does with what it found. -/
def Fetched.outcome : Fetched → StepOutcome
  | .instr i s => exec i s
  | .noInstr r => settle r

theorem step_eq_outcome (s : State) : step s = (fetch s).outcome := by
  unfold step
  cases fetch s <;> rfl

theorem fetchFrom_settled {l : List Byte} {s : State} (hl : l = remaining s ∨ s.inHeader ∧ s.pendmkV = true) :
    Settled s (fetchFrom l s).outcome := by
  unfold fetchFrom
  cases hd : decode .token l with
  | error e => exact (Res.Runs.exhausted s).settled
  | ok found =>
    obtain ⟨i, rest⟩ := found
    show Settled s (exec i s)
    rcases decodeToken_ok hd with ⟨b, n, hp, -, hexec⟩ | ⟨c, -, hp, hi⟩
    · rw [hexec]
      refine dispatchByte_settled fun hs => ?_
      rcases hl with rfl | ⟨hh, -⟩
      · exact hp
      · simp [State.inHeader, hs] at hh
    · rw [exec_marker hi]
      exact dispatchMarker_settled (hl.imp_left fun e => by rw [← e]; exact hp)

theorem fetchSymbol_settled (s : State) : Settled s (fetchSymbol s).outcome := by
  cases hb : currentBinding s with
  | none =>
    rw [fetchSymbol, hb]
    exact .fault _ s
  | some b =>
    rcases fetchSymbol_cases hb with ⟨y, u, hr, e⟩ | ⟨c, u, hr, e⟩ <;> rw [e]
    · exact .after (t := u) { (decodeSymbol_ok_frame hr).1.silent with } (symbolOf_settled _ y u)
    · rcases decodeSymbol_stop_frame hr with ⟨f, rfl⟩ | hf
      · exact .fault f s
      · refine (Res.Runs.stop (t := u) { hf.silent with } ?_).settled
        intro i t ht
        cases ht
        exact decodeSymbol_atEnd _ s i _ hr

/-- Every step, from any state, is the end of one operation. -/
theorem step_settled (s : State) : Settled s (step s) := by
  rw [step_eq_outcome, fetch]
  cases hst : s.st with
  | awaitSOI => exact fetchFrom_settled (.inl rfl)
  | restartBoundary => exact fetchFrom_settled (.inl rfl)
  | frameTables =>
    refine fetchFrom_settled ?_
    split
    · exact .inr ⟨.inl hst, ‹_›⟩
    · exact .inl rfl
  | awaitingSOS =>
    refine fetchFrom_settled ?_
    split
    · exact .inr ⟨.inr hst, ‹_›⟩
    · exact .inl rfl
  | decodingMCUs =>
    dsimp only
    split
    · split
      · exact ((Res.Runs.exhausted _).after (t := beginDecode s) { Silent.refl s with }).settled
      · exact fetchFrom_settled (.inl rfl)
    · exact fetchSymbol_settled s
  | scanHeader => exact (scanHeaderPhase_runs s).settled
  | scanComplete => exact .next { Emits.refl s with st := fun _ => by simp }
  | done => exact .next (.refl s)
  | error => exact .next (.refl s)

/-- How a step goes on from an operation: it answered, and the step ends there; or it stopped having emitted nothing, and
an error is taken or the scan is complete. -/
theorem step_next_cases {s t : State} (h : step s = .next t) :
    Emits s t ∨ ∃ u, Silent s u ∧
      ((∃ e i, t = trapEntry e i u ∧ (e = .streamExhausted → u.pos = u.input.length)) ∨ t = { u with st := .scanComplete }) := by
  obtain ⟨r, hr, e⟩ := step_settled s
  rw [h] at e
  cases hr with
  | ok he => cases e; exact .inl he
  | stop hs hend =>
    rename_i c u
    refine .inr ⟨u, hs, ?_⟩
    cases c with
    | raise x i =>
      cases e
      exact .inl ⟨x, i, rfl, fun hx => hend i u (hx ▸ rfl)⟩
    | fault f => cases e
    | signal g =>
      cases g with
      | endOfScan => cases e; exact .inr rfl
      | markerFound m =>
        obtain rfl : t = scanSignal (.markerFound m) u := by cases e; rfl
        unfold scanSignal
        dsimp only
        split
        · exact .inr rfl
        · exact .inl ⟨_, _, rfl, fun hx => by cases hx⟩

theorem ErrKind.eq_streamExhausted_of_code {e : ErrKind} (h : e.code = 1#4) : e = .streamExhausted := by
  revert h
  cases e <;> decide

/-- Settles O48: an operation writes no error register, so a step that ends in `Error` has just taken one in `trapEntry`. -/
theorem errorRegisters : Obligations.ErrorRegisters := by
  intro s t h hs
  rcases step_next_cases h with he | ⟨u, hu, ⟨e, i, rfl, hend⟩ | rfl⟩
  · exact ⟨fun _ => errors_of_opKeep he.keep, fun ht => absurd ht (he.st hs)⟩
  · refine ⟨fun ht => absurd rfl ht, fun _ => ⟨e.code_range.1, e.code_range.2, rfl, ?_, fun hc => ?_, hu.out, hu.aux⟩⟩
    · exact hu.st.imp (congrArg SeqState.code) fun ⟨h1, h2⟩ => ⟨h1, congrArg SeqState.code h2⟩
    · exact (hend (ErrKind.eq_streamExhausted_of_code hc)).trans (congrArg List.length (input_of_opKeep hu.keep))
  · exact ⟨fun _ => errors_of_opKeep hu.keep, fun ht => by cases ht⟩

/-- Settles O49: neither an operation nor what ends it moves `POS` back or drops a record. -/
theorem streamOnlyMovesOn : Obligations.StreamOnlyMovesOn := by
  intro s t h hpos
  have moves : ∀ {u : State}, Emits s u → u.input = s.input ∧ u.params = s.params ∧ s.pos ≤ u.pos ∧
      u.pos ≤ s.input.length ∧ s.out <+: u.out ∧ s.aux <+: u.aux := fun hu =>
    ⟨input_of_opKeep hu.keep, params_of_opKeep hu.keep, (hu.pos hpos).1, (hu.pos hpos).2, hu.out, hu.aux⟩
  rcases step_next_cases h with he | ⟨u, hu, ⟨e, i, rfl, -⟩ | rfl⟩
  · exact moves he
  · exact moves (u := u) hu.emits
  · exact moves (u := u) hu.emits

end Sys2Proof.Machine
end

section
/-! SUPPORT. The memory reads (20_memory.md R62, R63, R67): what the raw read and the 16-bit read answer, and that stuffing
leaves bytes with no `0xFF` among them as they are. -/

namespace Sys2Proof.Machine

/-! ## The raw read and the 16-bit read -/

theorem raw_eq_ite {n : Nat} {s : State} (h : s.pos ≤ s.input.length) :
    raw n s = if s.pos + n > s.input.length
      then .stop (.raise .streamExhausted none) { s with pos := s.input.length, pbArmed := false }
      else .ok ((s.input.drop s.pos).take n) { s with pos := s.pos + n, pbArmed := false } := by
  have short : (remaining s).length < n ↔ s.pos + n > s.input.length := by
    rw [remaining_length]
    omega
  simp only [raw, short]
  rfl

theorem raw_zero (s : State) : raw 0 s = .ok [] { s with pbArmed := false } :=
  raw_eq_ok.2 ⟨Nat.zero_le _, rfl, rfl⟩

theorem readBytes_of_raw {n : Nat} {s : State} (h : s.params.segReadMode = .raw) : readBytes n s = raw n s := by
  rw [readBytes, h]

/-- The more significant byte first (20_memory.md R63). -/
theorem toNat_be16 (hi lo : Byte) : (be16 hi lo).toNat = 256 * hi.toNat + lo.toNat := by
  rw [be16, BitVec.toNat_append, ← Nat.shiftLeft_add_eq_or_of_lt lo.isLt, Nat.shiftLeft_eq, Nat.mul_comm]

theorem readUint16_of_readBytes {s t : State} {hi lo : Byte} (h : readBytes 2 s = .ok [hi, lo] t) :
    readUint16 s = .ok (be16 hi lo) t := by
  rw [readUint16, h]
  rfl

theorem readUint16_eq_stop {s t : State} {c : Stop} : readUint16 s = .stop c t ↔ readBytes 2 s = .stop c t := by
  simp [readUint16, Res.bind_eq_stop]

/-- Settles O8: each clause is the lemma about its read. -/
theorem rawReads : Obligations.RawReads := by
  refine ⟨fun n s => raw_eq_ite, raw_zero, fun n s => readBytes_of_raw, fun s t l h => ?_, fun s t c => readUint16_eq_stop⟩
  obtain ⟨hi, lo, rfl⟩ := List.length_eq_two.1 (readBytes_length h)
  exact ⟨hi, lo, be16 hi lo, rfl, readUint16_of_readBytes h, toNat_be16 hi lo⟩

/-! ## The two read modes (20_memory.md R67) -/

theorem stuffBytes_of_no_ff {l : List Byte} (h : ∀ b ∈ l, b ≠ 0xFF#8) : stuffBytes l = l := by
  induction l with
  | nil => rfl
  | cons b l ih =>
    obtain ⟨hb, hl⟩ := List.forall_mem_cons.1 h
    rw [stuffBytes, if_neg hb, ih hl]

theorem segmentRaw_of_no_ff (mode : SegReadMode) {l : List Byte} (h : ∀ b ∈ l, b ≠ 0xFF#8) : segmentRaw mode l = l := by
  cases mode with
  | raw => rfl
  | token => exact stuffBytes_of_no_ff h

/-- Settles O9: the stream holds bytes with no `0xFF` alike for both modes, so they stand ahead in either. -/
theorem readModesAgree : Obligations.ReadModesAgree := by
  intro s n mode hn hff
  set u : State := { s with params := { s.params with segReadMode := mode } }
  set l : List Byte := (remaining s).take n
  have hl : l.length = n := List.length_take_of_le hn
  have held : segmentRaw u.params.segReadMode l = l := segmentRaw_of_no_ff mode hff
  have ahead : u.ahead l := by
    rw [State.ahead, held]
    exact List.take_prefix n (remaining s)
  have hr := readBytes_ahead ahead
  rw [hl, afterBytes, held, hl] at hr
  exact ⟨_, hr⟩

end Sys2Proof.Machine
end

section
/-! SUPPORT. The registers a scan is decoded with (20_memory.md R78): no operation inside a scan writes one. And the frame
header (10_state.md R35): outside `FrameTables` no step writes it. -/

namespace Sys2Proof.Machine

/-- The registers a scan is decoded with: the snapshots, the headers, the bindings, the interval, and the scan's number, with
the auxiliary history. -/
def scanRegs (s : State) : State :=
  { State.reset with
    base := s.base, ovl := s.ovl, eff := s.eff, nbind := s.nbind, bind := s.bind, mcuCount := s.mcuCount
    sh := s.sh, fh := s.fh, fhV := s.fhV, ri := s.ri, scanIdx := s.scanIdx, aux := s.aux }

/-- The frame header and its valid bit. -/
def frameRegs (s : State) : Bool × FrameHeader := (s.fhV, s.fh)

theorem fields_of_scanRegs {s t : State} (h : scanRegs t = scanRegs s) :
    t.base = s.base ∧ t.ovl = s.ovl ∧ t.eff = s.eff ∧ t.nbind = s.nbind ∧ t.bind = s.bind ∧ t.mcuCount = s.mcuCount ∧
    t.sh = s.sh ∧ t.fh = s.fh ∧ t.fhV = s.fhV ∧ t.ri = s.ri ∧ t.scanIdx = s.scanIdx ∧ t.aux = s.aux := by
  simp only [scanRegs, State.mk.injEq] at h
  simp only [h, and_self]

theorem frameRegs_of_scanRegs {s t : State} (h : scanRegs t = scanRegs s) : frameRegs t = frameRegs s :=
  (congrArg frameRegs h :)

/-- Registers that both parts of a bind leave alone, the bind leaves alone. -/
theorem Res.final_bind_eq {α β γ : Type} (f : State → γ) {s : State} {r : Res α} {g : α → State → Res β}
    (hr : f r.final = f s) (hg : ∀ a t, r = .ok a t → f (g a t).final = f t) : f (r.bind g).final = f s :=
  Res.final_bind (fun s t => f t = f s) (fun h₁ h₂ => h₂.trans h₁) hr hg

/-! ## Inside a scan -/

theorem StreamFrame.scanRegs {s t : State} (h : StreamFrame s t) : scanRegs t = Sys2Proof.Machine.scanRegs s := by
  obtain ⟨p, l, b, rfl, -⟩ := h
  rfl

theorem readDNLbody_scanRegs (s : State) : scanRegs (readDNLbody s).final = scanRegs s := by
  cases hr : readDNLbody s with
  | ok a t =>
    obtain ⟨u, nl, hf, -, rfl⟩ := readDNLbody_ok hr
    exact hf.scanRegs
  | stop c t => exact (readDNLbody_stop hr).1.scanRegs

theorem markerInEntropy_scanRegs (m : Marker) (s : State) :
    scanRegs (markerInEntropy m s : Res Unit).final = scanRegs s := by
  unfold markerInEntropy
  dsimp only
  split
  · exact Res.final_bind_eq scanRegs (readDNLbody_scanRegs (consumeMarker m s)) fun _ _ _ => rfl
  · rfl

theorem boundaryMarker_scanRegs (m : Marker) (s : State) : scanRegs (boundaryMarker m s).final = scanRegs s := by
  unfold boundaryMarker
  split
  · split <;> rfl
  · rfl

theorem receive_scanRegs (n : Nat) (s : State) : scanRegs (receive n s).final = scanRegs s := by
  cases hr : receive n s with
  | ok v t => exact (congrArg scanRegs (receive_ok hr).keep :)
  | stop c t => exact (congrArg scanRegs (receive_stop hr).keep :)

theorem nextUnit_scanRegs (b : Binding) (s : State) : scanRegs (nextUnit b s) = scanRegs s := by
  unfold nextUnit
  split
  · rfl
  · split
    · rfl
    · unfold mcuCompleted
      dsimp only
      split <;> rfl

theorem endOfBlock_scanRegs (s : State) : scanRegs (endOfBlock s).final = scanRegs s := by
  unfold endOfBlock
  split
  · rfl
  · rename_i b _
    unfold completeUnit
    split
    · exact nextUnit_scanRegs b (finishUnit b s)
    · rfl

theorem dcStep_scanRegs (t : Nat) (s : State) : scanRegs (dcStep t s).final = scanRegs s := by
  unfold dcStep
  dsimp only
  split
  · rfl
  · exact Res.final_bind_eq scanRegs (receive_scanRegs t { s with atb := false }) fun _ _ _ => rfl

theorem zrlStep_scanRegs (s : State) : scanRegs (zrlStep s).final = scanRegs s := by
  unfold zrlStep
  dsimp only
  split <;> rfl

theorem coefStep_scanRegs (r z : Nat) (s : State) : scanRegs (coefStep r z s).final = scanRegs s := by
  unfold coefStep
  dsimp only
  split
  · rfl
  · refine Res.final_bind_eq scanRegs (receive_scanRegs z { s with k := s.k + r }) fun v u _ => ?_
    split
    · exact endOfBlock_scanRegs { u with zz := u.zz.set u.k (extend v z) }
    · rfl

/-- Taking an error or ending the scan writes none of these registers. -/
theorem settle_scanRegs {r : Res Unit} {t : State} (h : settle r = .next t) : scanRegs t = scanRegs r.final := by
  cases r with
  | ok a u => cases h; rfl
  | stop c u =>
    cases c with
    | raise e i => cases h; rfl
    | fault f => cases h
    | signal g =>
      obtain rfl : scanSignal g u = t := by cases h; rfl
      cases g with
      | endOfScan => rfl
      | markerFound m =>
        unfold scanSignal
        dsimp only
        split <;> rfl

theorem dispatchByte_scanRegs {b : Byte} {n : Nat} {s t : State} (h : dispatchByte b n s = .next t) :
    scanRegs t = scanRegs s := by
  unfold dispatchByte at h
  split at h <;> cases h <;> rfl

theorem dispatchMarker_scanRegs {m : Marker} {row : State → Res Unit} {s t : State} (hs : s.st.inScan = true)
    (h : dispatchMarker m row s = .next t) : scanRegs t = scanRegs s := by
  unfold dispatchMarker at h
  cases hst : s.st with
  | decodingMCUs =>
    rw [hst] at h
    exact (settle_scanRegs h).trans (markerInEntropy_scanRegs m (beginDecode s))
  | restartBoundary =>
    rw [hst] at h
    exact (settle_scanRegs h).trans (boundaryMarker_scanRegs m (consumeMarker m s))
  | awaitSOI | frameTables | awaitingSOS | scanHeader | scanComplete | done | error =>
    rw [hst] at hs
    cases hs

theorem symbolAt_scanRegs {p : UnitPos} {body : State → Res Unit} {s t : State}
    (hbody : scanRegs (body s).final = scanRegs s) (h : symbolAt p body s = .next t) : scanRegs t = scanRegs s := by
  unfold symbolAt at h
  split at h
  · split at h
    · exact (settle_scanRegs h).trans hbody
    · cases h
  all_goals cases h <;> rfl

theorem exec_scanRegs {i : Instr} {s t : State} (hs : s.st.inScan = true) (h : exec i s = .next t) :
    scanRegs t = scanRegs s := by
  cases hi : i.markerCode with
  | some c =>
    rw [exec_marker hi] at h
    exact dispatchMarker_scanRegs hs h
  | none =>
    cases i with
    | data b => exact dispatchByte_scanRegs h
    | stuffed => exact dispatchByte_scanRegs h
    | dcSize n => exact symbolAt_scanRegs (dcStep_scanRegs n.toNat s) h
    | eob r => exact symbolAt_scanRegs (endOfBlock_scanRegs s) h
    | zrl => exact symbolAt_scanRegs (zrlStep_scanRegs s) h
    | acCoef r z => exact symbolAt_scanRegs (coefStep_scanRegs r.toNat z.toNat s) h
    | _ => cases hi

/-! ## The frame header in a header region -/

theorem RegionFrame.frameRegs {P : MiscTables → MiscTables → Prop} {s t : State} (h : RegionFrame P s t) :
    frameRegs t = Sys2Proof.Machine.frameRegs s := by
  obtain ⟨p, l, a, b, o, rfl, -⟩ := h
  rfl

theorem emitAux_frameRegs (r : AuxRec) (s : State) : frameRegs (emitAux r s) = frameRegs s := by
  unfold emitAux
  split <;> rfl

theorem skipSegment_frameRegs (m : Marker) (s : State) : frameRegs (skipSegment m s).final = frameRegs s := by
  rcases skipSegment_frame m s with hf | ⟨u, bytes, hf, e⟩
  · exact frameRegs_of_scanRegs hf.scanRegs
  · rw [e]
    exact (emitAux_frameRegs _ u).trans (frameRegs_of_scanRegs hf.scanRegs)

theorem readScanHeader_frameRegs (s : State) : frameRegs (readScanHeader s).final = frameRegs s := by
  cases hr : readScanHeader s with
  | ok a t =>
    obtain ⟨u, sh, hf, -, -, -, -, rfl⟩ := readScanHeader_ok hr
    exact (frameRegs_of_scanRegs hf.scanRegs :)
  | stop c t => exact frameRegs_of_scanRegs (readScanHeader_stop hr).scanRegs

theorem bindLoop_frameRegs (scs : List ScanComp) (j : Nat) (s : State) :
    frameRegs (bindLoop j scs s).final = frameRegs s := by
  induction scs generalizing j s with
  | nil => rfl
  | cons sc scs ih =>
    unfold bindLoop
    split
    · rfl
    · rename_i b _
      exact ih (j + 1) { s with bind := bindSet s.bind j b }

theorem bindComponents_frameRegs (s : State) : frameRegs (bindComponents s).final = frameRegs s := by
  refine Res.final_bind_eq frameRegs (bindLoop_frameRegs _ _ s) fun _ t _ => ?_
  dsimp only
  split
  · split <;> rfl
  · split <;> rfl

theorem scanHeaderPhase_frameRegs (s : State) : frameRegs (scanHeaderPhase s).final = frameRegs s := by
  unfold scanHeaderPhase
  split
  · rfl
  · exact Res.final_bind_eq frameRegs (readScanHeader_frameRegs s) fun _ t _ =>
      Res.final_bind_eq frameRegs (bindComponents_frameRegs { t with eff := cascade t.base t.ovl }) fun _ _ _ => rfl

/-- Only a SOFn row writes the frame header, and only in `FrameTables` (46_top_level.md R295). -/
theorem markerRow_frameRegs (i : Instr) (m : Marker) {s : State} (hs : s.st ≠ .frameTables) :
    frameRegs (markerRow i m s).final = frameRegs s := by
  rcases markerRow_cases i m with e | e | e | e | e | e | e | e | e | e | e <;> rw [e]
  · exact (readDQT_frame s).frameRegs
  · exact (readDHT_frame s).frameRegs
  · exact (readDRI_frame s).frameRegs
  · exact frameRegs_of_scanRegs (readDNLbody_scanRegs s)
  · rfl
  · rw [eoiRow, if_neg hs]
    rfl
  · rw [sosRow, if_neg hs]
    exact scanHeaderPhase_frameRegs { s with st := .scanHeader }
  · rfl
  · rw [frameRow, if_neg hs]
    rfl
  · exact skipSegment_frameRegs m s
  · rfl

/-! ## The frame header over a step -/

theorem settle_frameRegs {r : Res Unit} {s t : State} (hr : frameRegs r.final = frameRegs s) (h : settle r = .next t) :
    frameRegs t = frameRegs s := (frameRegs_of_scanRegs (settle_scanRegs h)).trans hr

theorem dispatchMarker_frameRegs {i : Instr} {m : Marker} {s t : State} (hs : s.st ≠ .frameTables)
    (h : dispatchMarker m (markerRow i m) s = .next t) : frameRegs t = frameRegs s := by
  cases hst : s.st with
  | decodingMCUs | restartBoundary => exact frameRegs_of_scanRegs (dispatchMarker_scanRegs (by rw [hst]; rfl) h)
  | awaitSOI =>
    rw [dispatchMarker, hst] at h
    refine settle_frameRegs ?_ h
    unfold awaitSOIMarker
    split <;> rfl
  | frameTables => exact absurd hst hs
  | awaitingSOS =>
    rw [dispatchMarker, hst] at h
    have consumed : (nextMarker m s).st = s.st ∧ frameRegs (nextMarker m s) = frameRegs s := by
      unfold nextMarker
      split <;> exact ⟨rfl, rfl⟩
    refine settle_frameRegs ((markerRow_frameRegs i m ?_).trans consumed.2) h
    rwa [consumed.1]
  | scanHeader | scanComplete =>
    rw [dispatchMarker, hst] at h
    cases h
  | done | error =>
    rw [dispatchMarker, hst] at h
    cases h
    rfl

theorem fetchFrom_frameRegs {l : List Byte} {s t : State} (hs : s.st ≠ .frameTables)
    (h : (fetchFrom l s).outcome = .next t) : frameRegs t = frameRegs s := by
  unfold fetchFrom at h
  cases hd : decode .token l with
  | error e =>
    rw [hd] at h
    exact settle_frameRegs (r := exhausted s) rfl h
  | ok found =>
    obtain ⟨i, rest⟩ := found
    rw [hd] at h
    have hx : exec i s = .next t := h
    rcases decodeToken_ok hd with ⟨b, n, -, -, hexec⟩ | ⟨c, -, -, hi⟩
    · rw [hexec] at hx
      exact frameRegs_of_scanRegs (dispatchByte_scanRegs hx)
    · rw [exec_marker hi] at hx
      exact dispatchMarker_frameRegs hs hx

theorem fetchSymbol_frameRegs {s t : State} (hs : s.st = .decodingMCUs) (h : (fetchSymbol s).outcome = .next t) :
    frameRegs t = frameRegs s := by
  cases hb : currentBinding s with
  | none =>
    rw [fetchSymbol, hb] at h
    cases h
  | some b =>
    rcases fetchSymbol_cases hb with ⟨y, u, hr, e⟩ | ⟨c, u, hr, e⟩ <;> rw [e] at h
    · have keep := (decodeSymbol_ok_frame hr).1.keep
      have hu : u.st = s.st := (congrArg State.st keep :)
      exact frameRegs_of_scanRegs ((exec_scanRegs (by rw [hu, hs]; rfl) h).trans (congrArg scanRegs keep :))
    · rcases decodeSymbol_stop_frame hr with ⟨f, rfl⟩ | hf
      · cases h
      · exact settle_frameRegs (r := .stop c u) (congrArg frameRegs hf.keep :) h

/-- Only a step from `FrameTables` writes the frame header. -/
theorem step_frameRegs {s t : State} (hs : s.st ≠ .frameTables) (h : step s = .next t) : frameRegs t = frameRegs s := by
  rw [step_eq_outcome, fetch] at h
  cases hst : s.st with
  | awaitSOI | restartBoundary | awaitingSOS =>
    rw [hst] at h
    exact fetchFrom_frameRegs hs h
  | frameTables => exact absurd hst hs
  | decodingMCUs =>
    rw [hst] at h
    dsimp only at h
    split at h
    · split at h
      · exact settle_frameRegs (r := exhausted (beginDecode s)) rfl h
      · exact fetchFrom_frameRegs hs h
    · exact fetchSymbol_frameRegs hst h
  | scanHeader =>
    rw [hst] at h
    exact settle_frameRegs (scanHeaderPhase_frameRegs s) h
  | scanComplete | done | error =>
    rw [hst] at h
    cases h
    rfl

/-- Settles O50: no operation inside a scan writes a register of `scanRegs`; and a frame header held under the invariant is
held outside `FrameTables`, from where alone a step writes it. -/
theorem scanConstants : Obligations.ScanConstants := by
  refine ⟨fun i s t hs h => fields_of_scanRegs (exec_scanRegs hs h), fun s t hinv hv h => ?_⟩
  have hs : s.st ≠ .frameTables := fun e => Bool.false_ne_true ((hinv.notHeld (.inr e)).symm.trans hv)
  obtain ⟨hv', hfh⟩ := Prod.mk.inj (step_frameRegs hs h)
  exact ⟨hv'.trans hv, hfh⟩

end Sys2Proof.Machine
end

section
/-! SUPPORT. The decoder and the encoder (30_encoding.md R91, R95, R112, R113): what `decode` answers at each form of the
bytes, and that the two undo each other. -/

namespace Sys2Proof.Machine

/-! ## Tokens (R91, R95) -/

@[simp] theorem decode_token_nil : decode .token [] = .error .exhausted := rfl

@[simp] theorem decode_token_lone_ff : decode .token [0xFF#8] = .error .exhausted := rfl

@[simp] theorem decode_token_data {b : Byte} (h : b ≠ 0xFF#8) (rest : List Byte) :
    decode .token (b :: rest) = .ok (.data b, rest) := by
  simp [decode, decodeToken, h]

@[simp] theorem decode_token_stuffed (rest : List Byte) :
    decode .token (0xFF#8 :: 0x00#8 :: rest) = .ok (.stuffed, rest) := by
  simp [decode, decodeToken]

theorem decode_token_marker {i : Instr} {c : Byte} (h : i.markerCode = some c) (rest : List Byte) :
    decode .token (0xFF#8 :: c :: rest) = .ok (i, rest) := by
  simp [decode, decodeToken, markerCode_ne_zero h, (markerCode_instrOfCode h).1]

theorem exists_marker {c : Byte} (h : c ≠ 0x00#8) : ∃ i : Instr, i.markerCode = some c := by
  obtain ⟨i, hi⟩ := instrOfCode_isSome h
  exact ⟨i, instrOfCode_markerCode hi⟩

/-- The forms the head of the stream can have. -/
theorem token_forms (bytes : List Byte) :
    bytes = [] ∨ bytes = [0xFF#8] ∨ (∃ b rest, b ≠ 0xFF#8 ∧ bytes = b :: rest) ∨
    (∃ rest, bytes = 0xFF#8 :: 0x00#8 :: rest) ∨ ∃ c rest, c ≠ 0x00#8 ∧ bytes = 0xFF#8 :: c :: rest := by
  rcases bytes with _ | ⟨b, rest⟩
  · exact .inl rfl
  by_cases hb : b = 0xFF#8
  · subst hb
    rcases rest with _ | ⟨c, rest⟩
    · exact .inr (.inl rfl)
    by_cases hc : c = 0x00#8
    · exact .inr (.inr (.inr (.inl ⟨rest, by rw [hc]⟩)))
    · exact .inr (.inr (.inr (.inr ⟨c, rest, hc, rfl⟩)))
  · exact .inr (.inr (.inl ⟨b, rest, hb, rfl⟩))

theorem markerCode_level {i : Instr} {c : Byte} (h : i.markerCode = some c) : i.level = .token := by
  cases i <;> cases h <;> rfl

theorem markerCode_wellFormed {i : Instr} {c : Byte} (h : i.markerCode = some c) : i.wellFormed = true := by
  cases i <;> cases h <;> rfl

/-! ## AC symbols (R113) -/

theorem decodeAcSymbol_append (r s : BitVec 4) :
    decodeAcSymbol (r ++ s) = if s = 0#4 then (if r = 15#4 then .zrl else .eob r) else .acCoef r s := by
  have hr : (r ++ s).extractLsb' 4 4 = r := BitVec.extractLsb'_append_eq_left
  have hs : (r ++ s).extractLsb' 0 4 = s := BitVec.extractLsb'_append_eq_right
  simp only [decodeAcSymbol, hr, hs]

theorem exists_nibbles (b : Byte) : ∃ r s : BitVec 4, b = r ++ s :=
  ⟨b.extractLsb' 4 4, b.extractLsb' 0 4, by
    rw [BitVec.extractLsb'_append_extractLsb'_eq_extractLsb' (show 4 = 0 + 4 from rfl), BitVec.extractLsb'_eq_self]⟩

theorem decodeAcSymbol_faithful (b : Byte) :
    (decodeAcSymbol b).wellFormed = true ∧ (decodeAcSymbol b).level = .ac ∧ encode (decodeAcSymbol b) = [b] := by
  obtain ⟨r, s, rfl⟩ := exists_nibbles b
  rw [decodeAcSymbol_append]
  by_cases hs : s = 0#4
  · subst hs
    by_cases hr : r = 15#4
    · subst hr
      exact ⟨rfl, rfl, rfl⟩
    · rw [if_pos rfl, if_neg hr]
      exact ⟨bne_iff_ne.2 hr, rfl, rfl⟩
  · rw [if_neg hs]
    exact ⟨bne_iff_ne.2 hs, rfl, rfl⟩

/-! ## The round trips -/

/-- Settles O1: a marker is read back by its code, each other instruction by the equation of its form. -/
theorem decodeInvertsEncode : Obligations.DecodeInvertsEncode := by
  intro i rest h
  cases hc : i.markerCode with
  | some c =>
    rw [markerCode_level hc, (markerCode_instrOfCode hc).2]
    exact decode_token_marker hc rest
  | none =>
    cases i with
    | data b => exact decode_token_data (bne_iff_ne.1 h) rest
    | stuffed => exact decode_token_stuffed rest
    | dcSize t => rfl
    | eob r =>
      change Except.ok (decodeAcSymbol (r ++ 0#4), rest) = _
      rw [decodeAcSymbol_append, if_pos rfl, if_neg (bne_iff_ne.1 h)]
    | zrl => rfl
    | acCoef r s =>
      change Except.ok (decodeAcSymbol (r ++ s), rest) = _
      rw [decodeAcSymbol_append, if_neg (bne_iff_ne.1 h)]
    | _ => cases hc

/-- Settles O2: at the byte level by the forms of the stream's head, at the bit level by the symbol's byte. -/
theorem decodeIsFaithful : Obligations.DecodeIsFaithful := by
  intro level bytes i rest h
  cases level with
  | token =>
    obtain rfl | rfl | ⟨b, l, hb, rfl⟩ | ⟨l, rfl⟩ | ⟨c, l, hc, rfl⟩ := token_forms bytes
    · cases h
    · cases h
    · rw [decode_token_data hb] at h
      cases h
      exact ⟨bne_iff_ne.2 hb, rfl, rfl⟩
    · rw [decode_token_stuffed] at h
      cases h
      exact ⟨rfl, rfl, rfl⟩
    · obtain ⟨j, hj⟩ := exists_marker hc
      rw [decode_token_marker hj] at h
      cases h
      exact ⟨markerCode_wellFormed hj, markerCode_level hj, by rw [(markerCode_instrOfCode hj).2]; rfl⟩
  | dc =>
    cases bytes with
    | nil => cases h
    | cons b l =>
      cases h
      exact ⟨rfl, rfl, rfl⟩
  | ac =>
    cases bytes with
    | nil => cases h
    | cons b l =>
      cases h
      obtain ⟨hwf, hlevel, henc⟩ := decodeAcSymbol_faithful b
      exact ⟨hwf, hlevel, by rw [henc]; rfl⟩

/-- Settles O3: the equations of the token formats. -/
theorem tokenFormats : Obligations.TokenFormats := by
  refine ⟨fun b rest hb => ⟨peekToken_cons_data hb rest, decode_token_data hb rest⟩,
    fun rest => ⟨peekToken_stuffed rest, decode_token_stuffed rest⟩,
    fun c rest hc => ⟨peekToken_cons_marker hc rest, ?_⟩, ⟨rfl, decode_token_lone_ff⟩, rfl, decode_token_nil⟩
  obtain ⟨i, hi⟩ := exists_marker hc
  exact ⟨i, decode_token_marker hi rest, hi⟩

/-- Settles O5: a token word by the equation of its format, a symbol computed from its byte. -/
theorem sampleWords : Obligations.SampleWords :=
  ⟨decode_token_data (by decide) _, decode_token_stuffed _, decode_token_marker rfl _, decode_token_marker rfl _,
    decode_token_marker rfl _, decode_token_marker rfl _, decode_token_marker rfl _, decode_token_marker rfl _,
    decode_token_marker rfl _, decode_token_marker rfl _, rfl, rfl, rfl, rfl, rfl⟩

/-! ## The marker catalog (R94, R95) -/

theorem instrOfCode_eq_some {c : Byte} {i : Instr} : instrOfCode c = some i ↔ i.markerCode = some c :=
  ⟨instrOfCode_markerCode, fun h => (markerCode_instrOfCode h).1⟩

theorem toNat_markerOf (c : Byte) : (markerOf c).toNat = 0xFF00 + c.toNat := toNat_be16 0xFF#8 c

theorem markerOf_inj {c d : Byte} : markerOf c = markerOf d ↔ c = d :=
  ⟨fun h => by rw [← markerLow_markerOf c, h, markerLow_markerOf], congrArg markerOf⟩

theorem isFrame_markerOf (c : Byte) : isFrame (markerOf c) = true ↔
    0xC0 ≤ c.toNat ∧ c.toNat ≤ 0xCF ∧ c ≠ 0xC4#8 ∧ c ≠ 0xC8#8 ∧ c ≠ 0xCC#8 := by
  have ne (d : Byte) : markerOf c ≠ markerOf d ↔ c ≠ d := not_congr markerOf_inj
  simp only [isFrame, Bool.and_eq_true, decide_eq_true_eq, bne_iff_ne, toNat_markerOf, and_assoc]
  exact and_congr (by omega) (and_congr (by omega) (and_congr (ne 0xC4#8) (and_congr (ne 0xC8#8) (ne 0xCC#8))))

/-- The mask `& 7` of R94 keeps the three low bits. -/
theorem extractLsb'_eq_and_seven (m : Marker) : m.extractLsb' 0 3 = (m &&& 7#16).setWidth 3 := by
  have mask : (7#16).setWidth 3 = BitVec.allOnes 3 := rfl
  rw [BitVec.setWidth_and, mask, BitVec.and_allOnes, BitVec.setWidth_eq_extractLsb' (by decide)]

theorem rstIndex_markerOf {c : Byte} {n : BitVec 3} : rstIndex (markerOf c) = some n ↔ 0b11010#5 ++ n = c := by
  have code : (0b11010#5 ++ n).toNat = 0xD0 + n.toNat := by
    rw [BitVec.toNat_append, ← Nat.shiftLeft_add_eq_or_of_lt n.isLt]
    rfl
  have low : (markerOf c).extractLsb' 0 3 = n ↔ (0xFF00 + c.toNat) % 8 = n.toNat := by
    rw [BitVec.toNat_eq, BitVec.extractLsb'_toNat, toNat_markerOf]
    rfl
  rw [rstIndex, toNat_markerOf, BitVec.toNat_eq, code, Option.ite_none_right_eq_some, Option.some.injEq, low]
  omega

/-- Settles O4: `isFrame` and `rstIndex` on the marker of second byte `c`, and the marker map by the codes it inverts. -/
theorem markerCatalog : Obligations.MarkerCatalog := by
  refine ⟨fun m => ?_, isFrame_markerOf, fun c => ?_, fun c n => ?_⟩
  · rw [rstIndex, extractLsb'_eq_and_seven]
  · rw [isFrame_markerOf]
    simp only [List.mem_cons, List.not_mem_nil, or_false, instrOfCode_eq_some, Instr.markerCode, Option.some.injEq]
    bv_omega
  · rw [instrOfCode_eq_some, Instr.markerCode, Option.some.injEq]
    exact rstIndex_markerOf

end Sys2Proof.Machine
end

section
/-! SUPPORT. The value functions (30_encoding.md R118, R120, R122; 45_scan_engine.md R261): their ranges and what pins them. -/

namespace Sys2Proof.Machine

/-- The two ranges of `extend` (R118): the negative values and the positive ones, the magnitude having `t` bits. -/
theorem extend_ranges {v t : Nat} (ht : 1 ≤ t) (hv : v < 2 ^ t) :
    (-(2 ^ t - 1 : Int) ≤ extend v t ∧ extend v t ≤ -(2 ^ (t - 1) : Int)) ∨
      ((2 ^ (t - 1) : Int) ≤ extend v t ∧ extend v t ≤ 2 ^ t - 1) := by
  obtain ⟨-, hlo, hhi⟩ := extend_range ht hv
  obtain ⟨hge, hle⟩ := abs_le.1 hhi
  rcases le_abs.1 hlo with h | h
  · exact .inr ⟨h, hle⟩
  · exact .inl ⟨hge, by omega⟩

theorem extend_ne_zero {v t : Nat} (ht : 1 ≤ t) (hv : v < 2 ^ t) : extend v t ≠ 0 := by
  have half : (0 : Int) < 2 ^ (t - 1) := by positivity
  exact abs_pos.1 (half.trans_le (extend_range ht hv).2.1)

theorem le_padding {unit : Nat} (hu : 0 < unit) (n : Nat) : n ≤ padding unit n := by
  have := (ceilDiv_le_iff (a := n) hu).1 le_rfl
  rwa [Nat.mul_comm] at this

/-- `padding` is the least (R120). -/
theorem padding_le {unit n m : Nat} (hu : 0 < unit) (hd : unit ∣ m) (h : n ≤ m) : padding unit n ≤ m := by
  obtain ⟨k, rfl⟩ := hd
  rw [padding, Nat.mul_comm]
  exact Nat.mul_le_mul_left unit ((ceilDiv_le_iff hu).2 h)

theorem levelShift_eq (p : Nat) (t : Int) :
    (levelShift p t : Int) = (if t ≤ -(2 ^ (p - 1) : Int) then 0 else if (2 ^ (p - 1) : Int) ≤ t then 2 * 2 ^ (p - 1) - 1
      else t + 2 ^ (p - 1)) := by
  have hs : (0 : Int) < 2 ^ (p - 1) := by positivity
  unfold levelShift
  dsimp only
  generalize (2 : Int) ^ (p - 1) = s at hs ⊢
  split
  · rfl
  · split <;> exact Int.toNat_of_nonneg (by omega)

/-- Settles O39: ranges of `extend`, minimality of `padding`, and the three cases of the level shift. -/
theorem valueFunctions : Obligations.ValueFunctions :=
  ⟨fun _ _ ht hv => ⟨rfl, extend_ne_zero ht hv, extend_ranges ht hv⟩,
    fun _ n hu => ⟨Nat.dvd_mul_left _ _, le_padding hu n, fun _ => padding_le hu, rfl⟩,
    fun p t hp => ⟨levelShift_eq p t, levelShift_lt hp t⟩⟩

/-- 64 places without repetition, all below 64, are all of them. -/
theorem zigzag_perm_range : zigzag.Perm (List.range 64) :=
  (List.subperm_of_subset zigzag_nodup fun p hp => List.mem_range.2 (zigzag_lt p hp)).perm_of_length_le le_rfl

/-- Settles O45: the permutation by counting, the walk computed diagonal by diagonal. -/
theorem zigzagOrder : Obligations.ZigzagOrder := ⟨zigzag_length, zigzag_perm_range, by decide⟩

end Sys2Proof.Machine
end

section
/-! SUPPORT. The token reads and pushback (40_bytestream.md R142, R143, R146, R149): what `readByte` and `readMarker` answer for
each kind of token, and what `unread` does after a read. -/

namespace Sys2Proof.Machine

/-! ## The token reads, by the token that comes next (R142, R143) -/

theorem readByte_of_marker {s : State} {m : Marker} (h : peekToken (remaining s) = .marker m) :
    readByte s = raise .unexpectedMarker (some (.marker m)) s := by
  rw [readByte, h]

theorem readByte_of_byte {s : State} {b : Byte} {n : Nat} (h : peekToken (remaining s) = .byte b n) :
    readByte s = .ok b (consumeByte n s) := by
  rw [readByte, h]

theorem readMarker_of_exhausted {s : State} (h : peekToken (remaining s) = .exhausted) : readMarker s = exhausted s := by
  rw [readMarker, h]

theorem readMarker_of_byte {s : State} {b : Byte} {n : Nat} (h : peekToken (remaining s) = .byte b n) :
    readMarker s = raise .unexpectedByte (some (.byte b)) s := by
  rw [readMarker, h]

theorem readMarker_of_marker {s : State} {m : Marker} (h : peekToken (remaining s) = .marker m) :
    readMarker s = .ok m (consumeMarker m s) := by
  rw [readMarker, h]

theorem readMarker_forward (s : State) : Forward s (readMarker s).final := by
  cases h : peekToken (remaining s) with
  | exhausted => rw [readMarker_of_exhausted h]; exact (StreamFrame.exhausted s).silent.toForward
  | byte b n => rw [readMarker_of_byte h]; exact (Silent.refl s).toForward
  | marker m => rw [readMarker_of_marker h]; exact (consumeMarker_silent h).toForward

theorem readMarker_atEnd (s : State) : (readMarker s).AtEnd := by
  unfold readMarker
  split
  · exact .exhausted _
  · exact .raise (by decide) _ _
  · exact .ok _ _

/-- An operation that writes no input ends at the end of that input when it raises StreamExhausted (R149). -/
theorem Res.AtEnd.pos_eq {α : Type} {s : State} {r : Res α} (hr : r.AtEnd) (hf : Forward s r.final) (i : Option Info) (t : State)
    (h : r = .stop (.raise .streamExhausted i) t) : t.pos = s.input.length := by
  subst h
  rw [hr i t rfl]
  exact congrArg List.length (input_of_opKeep hf.keep)

/-- A token read that fails moves `POS` at most. -/
theorem readByte_eq_stop {s t : State} {c : Stop} (h : readByte s = .stop c t) : ∃ p, t = { s with pos := p } := by
  unfold readByte at h
  split at h <;> cases h
  · exact ⟨_, rfl⟩
  · exact ⟨_, rfl⟩

theorem readMarker_eq_stop {s t : State} {c : Stop} (h : readMarker s = .stop c t) : ∃ p, t = { s with pos := p } := by
  unfold readMarker at h
  split at h <;> cases h
  · exact ⟨_, rfl⟩
  · exact ⟨_, rfl⟩

theorem readByte_ok_not_marker {s t : State} {b : Byte} (h : readByte s = .ok b t) (m : Marker) :
    peekToken (remaining s) ≠ .marker m := by
  obtain ⟨n, -, hp⟩ := readByte_eq_ok h
  rw [hp]
  exact nofun

/-- One of the two token reads succeeds, and only that one (R149). -/
theorem one_token_read_succeeds {s : State} (h : peekToken (remaining s) ≠ .exhausted) :
    ((∃ b t, readByte s = .ok b t) ∧ ¬∃ m t, readMarker s = .ok m t) ∨
      ((∃ m t, readMarker s = .ok m t) ∧ ¬∃ b t, readByte s = .ok b t) := by
  cases hp : peekToken (remaining s) with
  | exhausted => exact absurd hp h
  | byte b n =>
    refine .inl ⟨⟨b, _, readByte_of_byte hp⟩, fun ⟨m, t, hm⟩ => ?_⟩
    rw [readMarker_of_byte hp] at hm
    cases hm
  | marker m =>
    exact .inr ⟨⟨m, _, readMarker_of_marker hp⟩, fun ⟨b, t, hb⟩ => readByte_ok_not_marker hb m hp⟩

/-! ## Pushback (R146) -/

theorem unread_of_armed {s : State} (h : s.pbArmed = true) : unread s = { s with pos := s.lastpos, pbArmed := false } :=
  if_pos h

theorem unread_of_not_armed {s : State} (h : s.pbArmed = false) : unread s = s :=
  if_neg (by simp [h])

/-- The state `u`, after an `unread`, has the token back that came next in `s`, and a second `unread` does nothing (R146). -/
def GivesBack (s u : State) : Prop :=
  u.pos = s.pos ∧ peekToken (remaining u) = peekToken (remaining s) ∧ unread u = u

theorem unread_gives_back {s t : State} (armed : t.pbArmed = true) (last : t.lastpos = s.pos) (input : t.input = s.input) :
    GivesBack s (unread t) := by
  rw [unread_of_armed armed]
  refine ⟨last, ?_, unread_of_not_armed rfl⟩
  simp only [remaining, input, last]

theorem unread_readByte {s t : State} {b : Byte} (h : readByte s = .ok b t) : GivesBack s (unread t) := by
  obtain ⟨n, rfl, -⟩ := readByte_eq_ok h
  exact unread_gives_back rfl rfl rfl

theorem unread_readMarker {s t : State} {m : Marker} (h : readMarker s = .ok m t) : GivesBack s (unread t) := by
  obtain ⟨rfl, -⟩ := readMarker_eq_ok h
  exact unread_gives_back rfl rfl rfl

theorem raw_final_pbArmed (n : Nat) (s : State) : (raw n s).final.pbArmed = false := by
  unfold raw
  split <;> rfl

theorem readBytes_final_pbArmed (n : Nat) (s : State) : (readBytes n s).final.pbArmed = false := by
  unfold readBytes
  split
  · exact raw_final_pbArmed n s
  · rw [Res.final_disarm]

theorem readUint16_final (s : State) : (readUint16 s).final = (readBytes 2 s).final := by
  unfold readUint16
  cases readBytes 2 s <;> rfl

/-- A failed token read leaves pushback as it was (R142, R143). -/
theorem token_read_stop_keeps_pushback {s t : State} {c : Stop} (h : readByte s = .stop c t ∨ readMarker s = .stop c t) :
    t.pbArmed = s.pbArmed ∧ t.lastpos = s.lastpos := by
  obtain ⟨p, rfl⟩ := h.elim readByte_eq_stop readMarker_eq_stop
  exact ⟨rfl, rfl⟩

/-! ## The statements -/

/-- Settles O6: each clause is the lemma about its read, the token reads taken by the kind of token that comes next. -/
theorem byteStreamProperties : Obligations.ByteStreamProperties := by
  intro s hs
  have byte := (readByte_frame s).silent.toForward
  have bytes := fun n => (readBytes_frame n s).silent.toForward
  have uint16 := (readUint16_frame s).silent.toForward
  have marker := readMarker_forward s
  exact ⟨⟨(byte.pos hs).1, (marker.pos hs).1, fun n => ((bytes n).pos hs).1, (uint16.pos hs).1,
      fun b t h => (unread_readByte h).1, fun m t h => (unread_readMarker h).1⟩,
    ⟨fun m => readByte_of_marker, fun b n => readMarker_of_byte⟩,
    ⟨(readByte_atEnd s).pos_eq byte, (readMarker_atEnd s).pos_eq marker, fun n => (readBytes_atEnd n s).pos_eq (bytes n),
      (readUint16_atEnd s).pos_eq uint16⟩,
    fun b t m h => readByte_ok_not_marker h m, one_token_read_succeeds⟩

/-- Settles O7: a successful token read arms pushback at the position before it, every segment read disarms it, and a failed
token read leaves it alone. -/
theorem unread_pushback : Obligations.Unread := by
  refine ⟨fun s => rfl, fun s t b => unread_readByte, fun s t m => unread_readMarker,
    fun s n => unread_of_not_armed (readBytes_final_pbArmed n s), fun s => unread_of_not_armed ?_, fun s t c h => ?_,
    unread_of_not_armed rfl⟩
  · rw [readUint16_final]
    exact readBytes_final_pbArmed 2 s
  · obtain ⟨armed, last⟩ := token_read_stop_keeps_pushback h
    exact ⟨armed, last, fun hs => unread_of_not_armed (armed.trans hs)⟩

end Sys2Proof.Machine
end

section
/-! SUPPORT. The bit reader (41_bitreader.md R161 to R169): the bit deliveries as they stand ahead, and what `refill` answers
by the token that comes next. -/

namespace Sys2Proof.Machine

/-! ## Bits delivered and bits run out (R162, R167) -/

/-- `nextBit` takes the first of the bits ahead and no other. -/
theorem nextBit_takes_one {s : State} {b : Bool} {l : List Bool} (h8 : s.bitcnt ≤ 8) (h : s.bitsAhead = b :: l) :
    ∃ u, nextBit s = .ok b u ∧ BitsTaken [b] s u := by
  obtain ⟨u, hu, -, -, taken⟩ := nextBit_taken h8 h
  exact ⟨u, hu, taken [] u (.refl u)⟩

/-- Settles O10: the two deliveries by their lemmas, the bound because `bitsValue` writes `l.length` bits. -/
theorem receiveDeliversBits : Obligations.ReceiveDeliversBits := by
  intro s l rest h8 h
  refine ⟨receive_taken h8 h, bitsValue_lt l, ?_⟩
  rintro b l' rfl
  exact nextBit_takes_one h8 h

/-- Settles O11: by induction on the bits asked for, each one delivered until `nextBit` has to refill. -/
theorem receiveRunsOut : Obligations.ReceiveRunsOut :=
  fun _ _ h8 h => receive_runsOut h8 h

/-! ## The refill that meets no data byte (R161, R164) -/

theorem refill_of_exhausted {s : State} (h : peekToken (remaining s) = .exhausted) : refill s = exhausted s := by
  rw [refill, h]

theorem refill_of_marker {s : State} {m : Marker} (h : peekToken (remaining s) = .marker m) :
    refill s = markerInEntropy m s := by
  rw [refill, h]

theorem markerInEntropy_of_ne_dnl {α : Type} {m : Marker} (hm : m ≠ 0xFFDC#16) (s : State) :
    (markerInEntropy m s : Res α) =
      .stop (.signal (.markerFound m)) { consumeMarker m s with pendmk := m, pendmkV := true } :=
  if_neg hm

theorem markerInEntropy_dnl {α : Type} (s : State) :
    (markerInEntropy 0xFFDC#16 s : Res α) =
      (readDNLbody (consumeMarker 0xFFDC#16 s)).bind fun _ t => .stop (.signal .endOfScan) t := by
  rw [markerInEntropy, if_pos rfl]

/-- A DNL segment has length 4 (R164). -/
theorem readDNLbody_of_bad_length {s : State} {ld : BitVec 16} (hld : ld ≠ 4#16) (h : s.ahead (bytes16 ld)) :
    readDNLbody s = raise .malformedSegment none (afterBytes (bytes16 ld) s) := by
  rw [readDNLbody, readUint16_ahead h, Res.bind_ok, if_pos hld]

/-- Settles O12: a refill that meets no data byte by the token it meets, and a DNL segment by how `readDNLbody` ends. -/
theorem refillStops : Obligations.RefillStops := by
  refine fun s => ⟨refill_of_exhausted,
    fun m hm ne => (refill_of_marker hm).trans (markerInEntropy_of_ne_dnl ne s), fun hdnl ld nl => ?_⟩
  rw [refill_of_marker hdnl, markerInEntropy_dnl]
  refine ⟨fun hld ahead => ?malformed, fun short => ?cutShort, fun ahead => ?whole⟩
  case malformed => exact congrArg (Res.bind · _) (readDNLbody_of_bad_length hld ahead)
  case cutShort => exact (readDNLbody_cutShort short).bind _
  case whole => exact congrArg (Res.bind · _) (readDNLbody_ahead ahead)

end Sys2Proof.Machine
end

section
/-! SUPPORT. The markers of a header region (46_top_level.md R294): each runs its row, and a segment of tables is read by a
loop of which one turn is one table (42_tablestore.md R175, R180, R185). -/

namespace Sys2Proof.Machine

/-! ## A marker in a header region runs its row -/

theorem exec_inHeader {i : Instr} {c : Byte} {s : State} (hi : i.markerCode = some c) (hs : s.inHeader) :
    exec i s = settle (markerRow i (markerOf c) (nextMarker (markerOf c) s)) := by
  rw [exec_marker hi, dispatchMarker]
  rcases hs with e | e <;> rw [e]

theorem exec_dqt {s : State} (hs : s.inHeader) : exec .dqt s = settle (readDQT (nextMarker 0xFFDB#16 s)) :=
  exec_inHeader (i := .dqt) (c := 0xDB#8) rfl hs

theorem exec_dht {s : State} (hs : s.inHeader) : exec .dht s = settle (readDHT (nextMarker 0xFFC4#16 s)) :=
  exec_inHeader (i := .dht) (c := 0xC4#8) rfl hs

@[simp] theorem nextMarker_fields (m : Marker) (s : State) :
    (nextMarker m s).params = s.params ∧ (nextMarker m s).st = s.st ∧ (nextMarker m s).base = s.base ∧
    (nextMarker m s).ovl = s.ovl ∧ (nextMarker m s).aux = s.aux := by
  unfold nextMarker
  split <;> exact ⟨rfl, rfl, rfl, rfl, rfl⟩

/-- A raise without info latches its code with `LASTMK` (60_exceptions.md R335). -/
theorem settle_raise_none (e : ErrKind) (s : State) :
    settle (raise e none s) = .next (State.latched e.code s.lastmk s) := rfl

/-! ## The length of a segment (R175) -/

theorem readLength_below_two {s : State} {w : BitVec 16} (hw : w.toNat < 2) (h : s.ahead (bytes16 w)) :
    readLength s = raise .malformedSegment none (afterBytes (bytes16 w) s) := by
  rw [readLength, readUint16_ahead h, Res.bind_ok, if_pos hw]

theorem readLength_of_two_le {s : State} {w : BitVec 16} (hw : 2 ≤ w.toNat) (h : s.ahead (bytes16 w)) :
    readLength s = .ok w.toNat (afterBytes (bytes16 w) s) := by
  rw [readLength, readUint16_ahead h, Res.bind_ok, if_neg (by omega)]

/-! ## Stores into the region (20_memory.md R70) -/

theorem regionUpdate_eq_update (f : MiscTables → MiscTables) (s : State) :
    regionUpdate f s = { s with
      base := if s.st = .frameTables then f s.base else s.base
      ovl := if s.st = .frameTables then s.ovl else f s.ovl } := by
  unfold regionUpdate
  split <;> rfl

/-- A store after the bytes of a segment: the snapshots are those before its marker. -/
theorem regionUpdate_after_marker (f : MiscTables → MiscTables) (l : List Byte) (m : Marker) (s : State) :
    regionUpdate f (afterBytes l (nextMarker m s)) = { afterBytes l (nextMarker m s) with
      base := if s.st = .frameTables then f s.base else s.base
      ovl := if s.st = .frameTables then s.ovl else f s.ovl } := by
  unfold nextMarker
  split <;> exact regionUpdate_eq_update _ _

@[simp] theorem regionUpdate_lastmk (f : MiscTables → MiscTables) (s : State) : (regionUpdate f s).lastmk = s.lastmk := by
  unfold regionUpdate
  split <;> rfl

@[simp] theorem regionUpdate_ahead (f : MiscTables → MiscTables) (s : State) (l : List Byte) :
    (regionUpdate f s).ahead l ↔ s.ahead l := by
  obtain ⟨hi, hp, hm, -⟩ := regionUpdate_stream f s
  exact ahead_congr hi hp hm

@[simp] theorem regionUpdate_cutShort (f : MiscTables → MiscTables) (s : State) (l : List Byte) :
    (regionUpdate f s).cutShort l ↔ s.cutShort l := by
  obtain ⟨hi, hp, hm, -⟩ := regionUpdate_stream f s
  exact cutShort_congr hi hp hm

theorem State.cutShort_of_append {s : State} {l m : List Byte} (ha : s.ahead l) (h : s.cutShort (l ++ m)) :
    (afterBytes l s).cutShort m := by
  rcases State.cutShort_append h with ⟨hp, hne⟩ | ⟨-, h⟩
  · exact absurd (hp.eq_of_length (Nat.le_antisymm hp.length_le ha.length_le)) hne
  · exact h

/-! ## After bytes read and tables stored -/

section
variable {f : MiscTables → MiscTables} {l m : List Byte} {s : State}

theorem ahead_after_stores (h : s.ahead (l ++ m)) : (regionUpdate f (afterBytes l s)).ahead m :=
  (regionUpdate_ahead f _ m).2 (State.ahead_append h).2

theorem cutShort_after_stores (ha : s.ahead l) (h : s.cutShort (l ++ m)) : (regionUpdate f (afterBytes l s)).cutShort m :=
  (regionUpdate_cutShort f _ m).2 (State.cutShort_of_append ha h)

/-- A read after stores into the region ran out: the stores stand, and only the stream's registers moved besides. -/
theorem Res.RanOut.of_regionUpdate {α : Type} {r : Res α} (h : r.RanOut (regionUpdate f (afterBytes l s))) :
    r.RanOut (regionUpdate f s) := by
  rw [← regionUpdate_afterBytes] at h
  exact h.of_afterBytes

/-- A raise after stores into the region, as it is latched: the stores stand (60_exceptions.md R336). -/
theorem settle_raise_after_stores (e : ErrKind) :
    settle (raise e none (regionUpdate f (afterBytes l s))) =
      .next (State.latched e.code s.lastmk (regionUpdate f (afterBytes l s))) := by
  rw [settle_raise_none, regionUpdate_lastmk]
  rfl

/-- The same, after further bytes `m` are read. -/
theorem settle_raise_after_bytes (e : ErrKind) :
    settle (raise e none (afterBytes m (regionUpdate f (afterBytes l s)))) =
      .next (State.latched e.code s.lastmk (regionUpdate f (afterBytes (l ++ m) s))) := by
  rw [regionUpdate_afterBytes, afterBytes_append, settle_raise_after_stores]

end

/-! ## Writes one after the other -/

/-- In a list of writes, the last one to a place is what stands there. -/
theorem foldl_write {σ α β : Type} {read : σ → Option β} {write : σ → α → σ} {hits : α → Bool} {val : α → β}
    (h : ∀ m a, read (write m a) = if hits a then some (val a) else read m) (l : List α) (m : σ) :
    read (l.foldl write m) = ((l.reverse.find? hits).map val).or (read m) := by
  induction l generalizing m with
  | nil => rfl
  | cons a l ih =>
    rw [List.foldl_cons, ih, h, List.reverse_cons, List.find?_append]
    cases l.reverse.find? hits with
    | some b => rfl
    | none =>
      cases ha : hits a with
      | true => simp [ha]
      | false => simp [ha]

/-- Writes that leave a register alone leave it alone together. -/
theorem foldl_keeps {σ α γ : Type} {read : σ → γ} {write : σ → α → σ} (h : ∀ m a, read (write m a) = read m) (l : List α)
    (m : σ) : read (l.foldl write m) = read m := by
  induction l generalizing m with
  | nil => rfl
  | cons a l ih => rw [List.foldl_cons, ih, h]

/-! ## A segment of tables -/

/-- The tables of a segment stored one after the other. -/
def storeAll {α : Type} (store : α → MiscTables → MiscTables) (tables : List α) (m : MiscTables) : MiscTables :=
  tables.foldl (fun m t => store t m) m

/-- A table loop under the parameters `p`: one turn reads the bytes of one table and stores it. -/
structure ReadsTables {α : Type} (p : Params) (loop : Nat → Nat → State → Res Unit) (bytes : α → List Byte)
    (store : α → MiscTables → MiscTables) (good : α → Prop) : Prop where
  nonempty : ∀ t, bytes t ≠ []
  turn : ∀ t fuel left s, good t → s.params = p → s.ahead (bytes t) →
    loop (fuel + 1) ((bytes t).length + left) s = loop fuel left (regionUpdate (store t) (afterBytes (bytes t) s))

section
variable {α : Type} {p : Params} {loop : Nat → Nat → State → Res Unit} {bytes : α → List Byte}
  {store : α → MiscTables → MiscTables} {good : α → Prop}

theorem ReadsTables.length_le (h : ReadsTables p loop bytes store good) (tables : List α) :
    tables.length ≤ (tables.flatMap bytes).length := by
  induction tables with
  | nil => simp
  | cons t tables ih =>
    have := List.length_pos_iff.2 (h.nonempty t)
    simp only [List.flatMap_cons, List.length_append, List.length_cons]
    omega

/-- The loop over whole tables, of which `f` are the stores before. -/
theorem ReadsTables.loop_eq (h : ReadsTables p loop bytes store good) (tables : List α) (fuel left : Nat) (s : State)
    (pre : List Byte) (f : MiscTables → MiscTables) (hg : ∀ t ∈ tables, good t) (hp : s.params = p)
    (ha : (afterBytes pre s).ahead (tables.flatMap bytes)) :
    loop (tables.length + fuel) ((tables.flatMap bytes).length + left) (regionUpdate f (afterBytes pre s)) =
      loop fuel left (regionUpdate (storeAll store tables ∘ f) (afterBytes (pre ++ tables.flatMap bytes) s)) := by
  induction tables generalizing pre f with
  | nil =>
    simp only [List.flatMap_nil, List.length_nil, Nat.zero_add, List.append_nil]
    rfl
  | cons t tables ih =>
    rw [List.flatMap_cons] at ha ⊢
    obtain ⟨h1, h2⟩ := State.ahead_append ha
    have htail := ih (pre ++ bytes t) (store t ∘ f) (fun t ht => hg t (List.mem_cons_of_mem _ ht))
      (by rwa [← afterBytes_append])
    calc
      _ = loop (tables.length + fuel + 1) ((bytes t).length + ((tables.flatMap bytes).length + left))
            (regionUpdate f (afterBytes pre s)) := by
        rw [List.length_cons, List.length_append]
        congr 1 <;> omega
      _ = loop (tables.length + fuel) ((tables.flatMap bytes).length + left)
            (regionUpdate (store t ∘ f) (afterBytes (pre ++ bytes t) s)) := by
        rw [h.turn t _ _ _ (hg t List.mem_cons_self) (by simp [hp]) (by simpa using h1), regionUpdate_afterBytes,
          regionUpdate_comp, afterBytes_append]
      _ = _ := by
        rw [htail, List.append_assoc]
        rfl

/-- The segment up to a point where its length asks for more: what the loop then does decides. -/
theorem ReadsTables.segment_eq (h : ReadsTables p loop bytes store good) {tables : List α} {len : BitVec 16} {s : State}
    (hg : ∀ t ∈ tables, good t) (hp : s.params = p) (hlen : 2 + (tables.flatMap bytes).length < len.toNat)
    (ha : s.ahead (bytes16 len ++ tables.flatMap bytes)) :
    ∃ fuel, ((readLength s).bind fun l s => loop (l - 2) (l - 2) s) =
      loop (fuel + 1) (len.toNat - 2 - (tables.flatMap bytes).length)
        (regionUpdate (storeAll store tables) (afterBytes (bytes16 len ++ tables.flatMap bytes) s)) := by
  obtain ⟨h1, h2⟩ := State.ahead_append ha
  have hle := h.length_le tables
  have turns : tables.length + (len.toNat - 2 - tables.length - 1 + 1) = len.toNat - 2 := by omega
  have bytesLeft : (tables.flatMap bytes).length + (len.toNat - 2 - (tables.flatMap bytes).length) = len.toNat - 2 := by omega
  have e := h.loop_eq tables (len.toNat - 2 - tables.length - 1 + 1) (len.toNat - 2 - (tables.flatMap bytes).length) s
    (bytes16 len) (fun m => m) hg hp h2
  rw [turns, bytesLeft, regionUpdate_id] at e
  rw [readLength_of_two_le (by omega) h1, Res.bind_ok]
  exact ⟨_, e⟩

end

end Sys2Proof.Machine
end

section
/-! SUPPORT. The DQT segment (42_tablestore.md R180, R181): one turn of its loop, by what the turn meets. -/

namespace Sys2Proof.Machine

/-! ## The packed first byte of a table (30_encoding.md R93) -/

theorem toNat_highNibble (b : Byte) : (highNibble b).toNat = (b >>> 4).toNat := by
  have := b.isLt
  simp only [highNibble, BitVec.extractLsb'_toNat, BitVec.toNat_ushiftRight, Nat.shiftRight_eq_div_pow]
  omega

theorem toNat_lowNibble (b : Byte) : (lowNibble b).toNat = (b &&& 15#8).toNat := by
  simp only [lowNibble, BitVec.extractLsb'_toNat, BitVec.toNat_and, BitVec.toNat_ofNat, Nat.shiftRight_zero]
  exact (Nat.and_two_pow_sub_one_eq_mod _ 4).symm

/-! ## One turn -/

/-- What a turn of the DQT loop does once the first byte of its table is read. -/
def dqtTable (fuel left : Nat) (b : Byte) (s : State) : Res Unit :=
  if (highNibble b).toNat > 1 ∨ (lowNibble b).toNat > 3 then raise .malformedSegment none s
  else if left < 1 + 64 * (1 + (highNibble b).toNat) then raise .malformedSegment none s
  else
    (readEntries (highNibble b != 0#4) 64 s).bind fun q s =>
      readDQTLoop fuel (left - (1 + 64 * (1 + (highNibble b).toNat)))
        (regionUpdate (storeQuant ⟨(highNibble b).setWidth 1, (lowNibble b).setWidth 2, q⟩) s)

theorem readDQTLoop_succ {left : Nat} (h : 0 < left) (fuel : Nat) (s : State) :
    readDQTLoop (fuel + 1) left s = (readField s).bind (dqtTable fuel left) := by
  rw [readDQTLoop, if_neg (by omega)]
  rfl

theorem dqtTable_malformed {left : Nat} {b : Byte}
    (h : (b >>> 4).toNat > 1 ∨ (b &&& 15#8).toNat > 3 ∨ left < 1 + 64 * (1 + (b >>> 4).toNat)) (fuel : Nat) (s : State) :
    dqtTable fuel left b s = raise .malformedSegment none s := by
  rw [← toNat_highNibble, ← toNat_lowNibble, ← or_assoc] at h
  unfold dqtTable
  split
  · rfl
  · rename_i hslot
    rw [if_pos (h.resolve_left hslot)]

/-- The first byte of a table that fits: its entries come next. -/
theorem dqtTable_good {t : QuantTable} {left : Nat} (h : t.good) (hl : (quantBytes t).length ≤ left) (fuel : Nat)
    (s : State) :
    dqtTable fuel left ((0#3 ++ t.pq) ++ (0#2 ++ t.tq) : BitVec 8) s =
      (readEntries (!decide (t.pq = 0#1)) t.q.length s).bind fun q s =>
        readDQTLoop fuel (left - (quantBytes t).length) (regionUpdate (storeQuant ⟨t.pq, t.tq, q⟩) s) := by
  obtain ⟨high, low, pq, tq, pqWidth, tqWidth, wide⟩ := packed_nibbles t.pq t.tq
  have := t.pq.isLt
  have := t.tq.isLt
  rw [quantBytes_length h] at hl ⊢
  rw [dqtTable, high, low, pq, tq, if_neg (by omega), if_neg (by omega), wide, pqWidth, tqWidth, h.1]

/-- A table is its first byte and its entries. -/
theorem quantBytes_eq (t : QuantTable) :
    quantBytes t = [((0#3 ++ t.pq) ++ (0#2 ++ t.tq) : BitVec 8)] ++
      t.q.flatMap fun e => if decide (t.pq = 0#1) then [BitVec.ofNat 8 e] else bytes16 (BitVec.ofNat 16 e) := by
  simp [quantBytes]

theorem readsTables_dqt (p : Params) : ReadsTables p readDQTLoop quantBytes storeQuant QuantTable.good where
  nonempty t := by simp [quantBytes]
  turn t fuel left s hg _ ha := by
    rw [quantBytes_eq] at ha
    obtain ⟨h1, h2⟩ := State.ahead_append ha
    have hq := readEntries_ahead _ t.q _ rfl (by simpa using hg.2) h2
    rw [readDQTLoop_succ (by rw [quantBytes_length hg]; omega), readField_ahead h1, Res.bind_ok,
      dqtTable_good hg (Nat.le_add_right _ _), hq, Res.bind_ok, Nat.add_sub_cancel_left, afterBytes_append, ← quantBytes_eq]

/-- The segment up to a table that its length still asks for. -/
theorem readDQT_after_tables {tables : List QuantTable} {lq : BitVec 16} {u : State} (hg : ∀ t ∈ tables, t.good)
    (hlen : 2 + (tables.flatMap quantBytes).length < lq.toNat) (ha : u.ahead (bytes16 lq ++ tables.flatMap quantBytes)) :
    ∃ fuel, readDQT u = readDQTLoop (fuel + 1) (lq.toNat - 2 - (tables.flatMap quantBytes).length)
      (regionUpdate (storeAll storeQuant tables) (afterBytes (bytes16 lq ++ tables.flatMap quantBytes) u)) :=
  (readsTables_dqt u.params).segment_eq hg rfl hlen ha

/-- The input ends before the first byte of a table, or inside a table that fits what is left of the segment. -/
theorem readDQTLoop_cutShort {left : Nat} {l : List Byte} {s : State} (fuel : Nat) (hleft : 0 < left)
    (hl : l.length = 1 ∨ ∃ next : QuantTable, next.good ∧ l = quantBytes next ∧ l.length ≤ left) (h : s.cutShort l) :
    (readDQTLoop (fuel + 1) left s).RanOut s := by
  rw [readDQTLoop_succ hleft]
  rcases hl with h1 | ⟨t, hg, rfl, hfit⟩
  · obtain ⟨b, rfl⟩ := List.length_eq_one_iff.1 h1
    exact (readField_cutShort h).bind _
  · rw [quantBytes_eq] at h
    rcases State.cutShort_append h with h | ⟨ha, h⟩
    · exact (readField_cutShort h).bind _
    · rw [readField_ahead ha, Res.bind_ok, dqtTable_good hg hfit]
      exact ((readEntries_cutShort _ t.q h).bind _).of_afterBytes

/-! ## The statements -/

theorem slotGet_storeQuant (m : MiscTables) (q : QuantTable) (t : BitVec 2) :
    slotGet (storeQuant q m).quant t = if q.tq == t then some q else slotGet m.quant t := by
  simp only [storeQuant, slotGet_slotSet, beq_iff_eq, eq_comm (a := t)]

/-- Settles O28: a turn of the loop reads and stores one table; of the stores to one slot the last stands. -/
theorem dqtStores : Obligations.DqtStores := by
  refine ⟨fun s tables hs hg hn ha => ?_, fun m tables t => ⟨?_, ?_, ?_, ?_⟩⟩
  · rw [exec_dqt hs, readDQT_ahead tables _ hg hn ha, settle, regionUpdate_after_marker]
  · rw [foldl_write (read := fun m => slotGet m.quant t) (hits := fun q => q.tq == t) (val := id)
      fun m q => slotGet_storeQuant m q t, Option.map_id_fun, id]
  · exact foldl_keeps (read := MiscTables.dc) (write := fun m t => storeQuant t m) (fun _ _ => rfl) tables m
  · exact foldl_keeps (read := MiscTables.ac) (write := fun m t => storeQuant t m) (fun _ _ => rfl) tables m
  · exact foldl_keeps (read := MiscTables.interval) (write := fun m t => storeQuant t m) (fun _ _ => rfl) tables m

/-- Settles O29: after the good tables the loop stands at a table, of which the first byte decides. -/
theorem dqtRefused : Obligations.DqtRefused := by
  intro s lq hs u
  rw [exec_dqt hs]
  refine ⟨fun hlq ha => ?_, fun h => ?_, ?_, ?_⟩
  · rw [readDQT, readLength_below_two hlq ha]
    rfl
  · exact ((readLength_cutShort h).bind _).settle
  · intro tables l hg start hlen hl ha h
    obtain ⟨fuel, e⟩ := readDQT_after_tables hg hlen ha
    rw [e]
    have hl' : l.length = 1 ∨ ∃ next : QuantTable, next.good ∧ l = quantBytes next ∧
        l.length ≤ lq.toNat - 2 - (tables.flatMap quantBytes).length :=
      hl.imp_right fun ⟨next, hnext, el, hfit⟩ => ⟨next, hnext, el, by omega⟩
    exact (readDQTLoop_cutShort fuel (by omega) hl' (cutShort_after_stores ha h)).of_regionUpdate.settle
  · intro tables b hg body left hlen hb ha
    obtain ⟨fuel, e⟩ := readDQT_after_tables hg hlen (State.ahead_append ha).1
    rw [e, readDQTLoop_succ (by omega), readField_ahead (ahead_after_stores ha), Res.bind_ok,
      dqtTable_malformed hb]
    exact settle_raise_after_bytes .malformedSegment

end Sys2Proof.Machine
end

section
/-! SUPPORT. The DHT segment (42_tablestore.md R185 to R187): one turn of its loop, by what the turn meets. -/

namespace Sys2Proof.Machine

/-! ## One turn, in its three parts -/

/-- What a turn of the DHT loop does once the counts of its table are read. -/
def dhtValues (fuel left : Nat) (b : Byte) (counts : List Byte) (s : State) : Res Unit :=
  if (counts.map BitVec.toNat).sum > s.params.huffvalMax then raise .capacityExceeded none s
  else if left < 17 + (counts.map BitVec.toNat).sum then raise .malformedSegment none s
  else
    (readBytes (counts.map BitVec.toNat).sum s).bind fun huffval s =>
      readDHTLoop fuel (left - (17 + (counts.map BitVec.toNat).sum))
        (regionUpdate (storeHuff (buildHuffman ((highNibble b).setWidth 1) ((lowNibble b).setWidth 2)
          (counts.map BitVec.toNat) huffval)) s)

/-- What a turn does once the first byte of its table is read. -/
def dhtTable (fuel left : Nat) (b : Byte) (s : State) : Res Unit :=
  if (highNibble b).toNat > 1 ∨ (lowNibble b).toNat > 3 then raise .malformedSegment none s
  else (readBytes 16 s).bind (dhtValues fuel left b)

theorem readDHTLoop_succ {left : Nat} (h : 17 ≤ left) (fuel : Nat) (s : State) :
    readDHTLoop (fuel + 1) left s = (readField s).bind (dhtTable fuel left) := by
  rw [readDHTLoop, if_neg (by omega), if_neg (by omega)]
  rfl

theorem readDHTLoop_too_few {left : Nat} (h0 : 0 < left) (h : left < 17) (fuel : Nat) (s : State) :
    readDHTLoop (fuel + 1) left s = raise .malformedSegment none s := by
  rw [readDHTLoop, if_neg (by omega), if_pos h]

theorem dhtTable_bad_slot {b : Byte} (h : (b >>> 4).toNat > 1 ∨ (b &&& 15#8).toNat > 3) (fuel left : Nat) (s : State) :
    dhtTable fuel left b s = raise .malformedSegment none s := by
  rw [← toNat_highNibble, ← toNat_lowNibble] at h
  exact if_pos h

theorem dhtTable_of_slot {b : Byte} (h1 : (b >>> 4).toNat ≤ 1) (h2 : (b &&& 15#8).toNat ≤ 3) (fuel left : Nat) (s : State) :
    dhtTable fuel left b s = (readBytes 16 s).bind (dhtValues fuel left b) := by
  rw [← toNat_highNibble] at h1
  rw [← toNat_lowNibble] at h2
  exact if_neg (by omega)

section
variable {fuel left : Nat} {b : Byte} {counts : List Byte} {s : State}

theorem dhtValues_over_capacity (h : (counts.map BitVec.toNat).sum > s.params.huffvalMax) :
    dhtValues fuel left b counts s = raise .capacityExceeded none s := if_pos h

theorem dhtValues_too_long (h : (counts.map BitVec.toNat).sum ≤ s.params.huffvalMax)
    (hl : left < 17 + (counts.map BitVec.toNat).sum) :
    dhtValues fuel left b counts s = raise .malformedSegment none s := by
  rw [dhtValues, if_neg (by omega), if_pos hl]

theorem dhtValues_of_fits (h : (counts.map BitVec.toNat).sum ≤ s.params.huffvalMax)
    (hl : 17 + (counts.map BitVec.toNat).sum ≤ left) :
    dhtValues fuel left b counts s = (readBytes (counts.map BitVec.toNat).sum s).bind fun huffval s =>
      readDHTLoop fuel (left - (17 + (counts.map BitVec.toNat).sum))
        (regionUpdate (storeHuff (buildHuffman ((highNibble b).setWidth 1) ((lowNibble b).setWidth 2)
          (counts.map BitVec.toNat) huffval)) s) := by
  rw [dhtValues, if_neg (by omega), if_neg (by omega)]

/-- The first byte and the counts of a table are read: the checks on the counts come next. -/
theorem readDHTLoop_counts (h17 : 17 ≤ left) (hc : (b >>> 4).toNat ≤ 1) (ht : (b &&& 15#8).toNat ≤ 3)
    (h16 : counts.length = 16) (h : s.ahead ([b] ++ counts)) :
    readDHTLoop (fuel + 1) left s = dhtValues fuel left b counts (afterBytes ([b] ++ counts) s) := by
  obtain ⟨h1, h2⟩ := State.ahead_append h
  rw [readDHTLoop_succ h17, readField_ahead h1, Res.bind_ok, dhtTable_of_slot hc ht, ← h16, readBytes_ahead h2, Res.bind_ok,
    afterBytes_append]

theorem readDHTLoop_cutShort_first (h17 : 17 ≤ left) (h : s.cutShort [b]) : (readDHTLoop (fuel + 1) left s).RanOut s := by
  rw [readDHTLoop_succ h17]
  exact (readField_cutShort h).bind _

theorem readDHTLoop_cutShort_counts (h17 : 17 ≤ left) (hc : (b >>> 4).toNat ≤ 1) (ht : (b &&& 15#8).toNat ≤ 3)
    (h16 : counts.length = 16) (h : s.cutShort ([b] ++ counts)) : (readDHTLoop (fuel + 1) left s).RanOut s := by
  rcases State.cutShort_append h with h | ⟨ha, h⟩
  · exact readDHTLoop_cutShort_first h17 h
  · rw [readDHTLoop_succ h17, readField_ahead ha, Res.bind_ok, dhtTable_of_slot hc ht, ← h16]
    exact ((readBytes_cutShort h).bind _).of_afterBytes

theorem dhtValues_cutShort {vals : List Byte} (h : (counts.map BitVec.toNat).sum ≤ s.params.huffvalMax)
    (hl : 17 + (counts.map BitVec.toNat).sum ≤ left) (hv : vals.length = (counts.map BitVec.toNat).sum)
    (hs : s.cutShort vals) : (dhtValues fuel left b counts s).RanOut s := by
  rw [dhtValues_of_fits h hl, ← hv]
  exact (readBytes_cutShort hs).bind _

end

/-! ## A good table -/

theorem HuffSpec.bytes_length {h : HuffSpec} (hg : h.good) : h.bytes.length = 17 + h.bits.sum := by
  obtain ⟨hc, hv⟩ := hg
  simp only [HuffSpec.bytes, List.length_cons, List.length_append, hc, hv]
  omega

/-- A good table is its first byte, its counts and its values. -/
theorem HuffSpec.bytes_eq (h : HuffSpec) :
    h.bytes = ([((0#3 ++ h.tc) ++ (0#2 ++ h.th) : BitVec 8)] ++ h.counts) ++ h.huffval := rfl

/-- The first byte of a good table passes the checks on it. -/
theorem HuffSpec.first_byte_ok (t : HuffSpec) :
    (((0#3 ++ t.tc) ++ (0#2 ++ t.th) : BitVec 8) >>> 4).toNat ≤ 1 ∧
    (((0#3 ++ t.tc) ++ (0#2 ++ t.th) : BitVec 8) &&& 15#8).toNat ≤ 3 := by
  obtain ⟨high, low, tcVal, thVal, -⟩ := packed_nibbles t.tc t.th
  rw [← toNat_highNibble, ← toNat_lowNibble, high, low, tcVal, thVal]
  exact ⟨Nat.le_of_lt_succ t.tc.isLt, Nat.le_of_lt_succ t.th.isLt⟩

/-- The counts of a good table that fits pass the checks on them: its values come next. -/
theorem dhtValues_good {t : HuffSpec} {left : Nat} {s : State} (h : t.good) (hmax : t.bits.sum ≤ s.params.huffvalMax)
    (hl : t.bytes.length ≤ left) (fuel : Nat) :
    dhtValues fuel left ((0#3 ++ t.tc) ++ (0#2 ++ t.th) : BitVec 8) t.counts s =
      (readBytes t.huffval.length s).bind fun huffval s =>
        readDHTLoop fuel (left - t.bytes.length) (regionUpdate (storeHuff (buildHuffman t.tc t.th t.bits huffval)) s) := by
  obtain ⟨high, low, -, -, tcWidth, thWidth, -⟩ := packed_nibbles t.tc t.th
  rw [HuffSpec.bytes_length h] at hl ⊢
  rw [dhtValues_of_fits hmax hl, high, low, tcWidth, thWidth, h.2]
  rfl

theorem readsTables_dht (p : Params) :
    ReadsTables p readDHTLoop HuffSpec.bytes (fun t => storeHuff t.table) fun t => t.good ∧ t.bits.sum ≤ p.huffvalMax where
  nonempty t := by simp [HuffSpec.bytes]
  turn t fuel left s hg hp ha := by
    obtain ⟨hgood, hmax⟩ := hg
    obtain ⟨hc, ht⟩ := t.first_byte_ok
    rw [HuffSpec.bytes_eq] at ha
    obtain ⟨h1, h2⟩ := State.ahead_append ha
    have h17 : 17 ≤ t.bytes.length + left := by rw [HuffSpec.bytes_length hgood]; omega
    rw [readDHTLoop_counts h17 hc ht hgood.1 h1, dhtValues_good hgood (by simpa [hp] using hmax) (Nat.le_add_right _ _),
      readBytes_ahead h2, Res.bind_ok, Nat.add_sub_cancel_left, afterBytes_append, ← HuffSpec.bytes_eq]
    rfl

/-- The segment up to a table that its length still asks for. -/
theorem readDHT_after_tables {tables : List HuffSpec} {lh : BitVec 16} {u : State}
    (hg : ∀ t ∈ tables, t.good ∧ t.bits.sum ≤ u.params.huffvalMax)
    (hlen : 2 + (tables.flatMap HuffSpec.bytes).length < lh.toNat)
    (ha : u.ahead (bytes16 lh ++ tables.flatMap HuffSpec.bytes)) :
    ∃ fuel, readDHT u = readDHTLoop (fuel + 1) (lh.toNat - 2 - (tables.flatMap HuffSpec.bytes).length)
      (regionUpdate (storeAll (fun t => storeHuff t.table) tables)
        (afterBytes (bytes16 lh ++ tables.flatMap HuffSpec.bytes) u)) :=
  (readsTables_dht u.params).segment_eq hg rfl hlen ha

/-! ## The statements -/

theorem slotGet_dc_storeHuff (m : MiscTables) (h : HuffSpec) (t : BitVec 2) :
    slotGet (storeHuff h.table m).dc t =
      if (h.tc == 0#1 && h.th == t) = true then some h.table else slotGet m.dc t := by
  rcases bit_cases h.tc with hc | hc
  · simp [storeHuff, HuffSpec.table, hc, eq_comm (a := t)]
  · simp [storeHuff, HuffSpec.table, hc]

theorem slotGet_ac_storeHuff (m : MiscTables) (h : HuffSpec) (t : BitVec 2) :
    slotGet (storeHuff h.table m).ac t =
      if (h.tc == 1#1 && h.th == t) = true then some h.table else slotGet m.ac t := by
  rcases bit_cases h.tc with hc | hc
  · simp [storeHuff, HuffSpec.table, hc]
  · simp [storeHuff, HuffSpec.table, hc, eq_comm (a := t)]

theorem storeHuff_quant_interval (h : HuffTable) (m : MiscTables) :
    (storeHuff h m).quant = m.quant ∧ (storeHuff h m).interval = m.interval := by
  unfold storeHuff
  split <;> exact ⟨rfl, rfl⟩

/-- Settles O30: a turn of the loop builds and stores one table; of the stores to one slot of one class the last stands. -/
theorem dhtStores : Obligations.DhtStores := by
  refine ⟨fun s tables hs hg hn ha => ?_, fun m tables t => ⟨?_, ?_, ?_, ?_⟩⟩
  · rw [exec_dht hs, readDHT_ahead tables _ (by simpa using hg) hn ha, settle, regionUpdate_after_marker]
  · exact foldl_write (read := fun m => slotGet m.dc t) (write := fun m h => storeHuff h.table m)
      (fun m h => slotGet_dc_storeHuff m h t) tables m
  · exact foldl_write (read := fun m => slotGet m.ac t) (write := fun m h => storeHuff h.table m)
      (fun m h => slotGet_ac_storeHuff m h t) tables m
  · exact foldl_keeps (read := MiscTables.quant) (write := fun m h => storeHuff h.table m)
      (fun m h => (storeHuff_quant_interval h.table m).1) tables m
  · exact foldl_keeps (read := MiscTables.interval) (write := fun m h => storeHuff h.table m)
      (fun m h => (storeHuff_quant_interval h.table m).2) tables m

/-- Settles O31: after the good tables the loop stands at a table, which it takes in three parts, each checked in turn. -/
theorem dhtRefused : Obligations.DhtRefused := by
  intro s lh hs u
  rw [exec_dht hs]
  refine ⟨fun hlh ha => ?_, fun h => ?_, ?_⟩
  · rw [readDHT, readLength_below_two hlh ha]
    rfl
  · exact ((readLength_cutShort h).bind _).settle
  intro tables hg start left stop runsOut hlen
  have huffvalMax : u.params.huffvalMax = s.params.huffvalMax := by simp [u]
  rw [← huffvalMax] at hg ⊢
  refine ⟨fun h17 ha => ?_, fun h17 ha b => ?_⟩
  · obtain ⟨fuel, e⟩ := readDHT_after_tables hg hlen ha
    have h0 : 0 < left := by omega
    change settle (readDHT u) = _
    rw [e, readDHTLoop_too_few h0 h17]
    exact settle_raise_after_stores .malformedSegment
  obtain ⟨fuel, e⟩ := readDHT_after_tables hg hlen ha
  -- what the turn meets, and how it ends, stands for the whole segment
  set v := regionUpdate (storeAll (fun t => storeHuff t.table) tables) (afterBytes start u) with hv
  have ahead : ∀ {m}, u.ahead (start ++ m) → v.ahead m := ahead_after_stores
  have cutShort : ∀ {m}, u.cutShort (start ++ m) → v.cutShort m := cutShort_after_stores ha
  have ends : (readDHTLoop (fuel + 1) left v).RanOut v → runsOut := fun h => by
    change endsExhausted _ (settle (readDHT u))
    rw [e]
    exact h.of_regionUpdate.settle
  have raises : ∀ err {m}, readDHTLoop (fuel + 1) left v = raise err none (afterBytes m v) → stop err.code (start ++ m) :=
    fun err _ h => by
      change settle (readDHT u) = _
      rw [e, h]
      exact settle_raise_after_bytes err
  have capacity : ∀ m, (afterBytes m v).params.huffvalMax = u.params.huffvalMax := fun m => by simp [hv]
  refine ⟨fun h => ends (readDHTLoop_cutShort_first h17 (cutShort h)), fun hslot h => raises .malformedSegment ?_,
    fun hc ht counts h16 => ?_⟩
  · rw [readDHTLoop_succ h17, readField_ahead (ahead h), Res.bind_ok, dhtTable_bad_slot hslot]
  rw [List.append_assoc start]
  refine ⟨fun h => ends (readDHTLoop_cutShort_counts h17 hc ht h16 (cutShort h)), fun h => ?_⟩
  have turn := readDHTLoop_counts (fuel := fuel) h17 hc ht h16 (ahead h)
  rw [← capacity ([b] ++ counts)]
  refine ⟨fun hmax => raises .capacityExceeded (turn.trans (dhtValues_over_capacity hmax)), fun hmax => ⟨fun hlong =>
    raises .malformedSegment (turn.trans (dhtValues_too_long hmax hlong)), fun hfits vals hvals hcut => ends ?_⟩⟩
  rw [List.append_assoc start] at hcut
  rw [turn]
  exact (dhtValues_cutShort hmax hfits hvals (State.cutShort_of_append (ahead h) (cutShort hcut))).of_afterBytes

end Sys2Proof.Machine
end

section
/-! SUPPORT. The skipped segments (42_tablestore.md R195): what they record. -/

namespace Sys2Proof.Machine

theorem markerRow_of_isSkipped {i : Instr} (h : isSkipped i = true) (m : Marker) : markerRow i m = skipSegment m := by
  cases i with
  | res02 | res04 | res08 | res10 | res20 | res40 | res80 | jpg | dhp | exp | app | jpg0 | jpg8 | jpg12 | com | mffff => rfl
  | _ => cases h

theorem emitAux_eq_update (r : AuxRec) (s : State) :
    emitAux r s = { s with aux := if s.params.auxRecord = true then s.aux ++ [r] else s.aux } := by
  unfold emitAux
  split <;> rfl

/-- A record after the bytes of a segment follows the records before its marker. -/
theorem emitAux_after_marker (r : AuxRec) (l : List Byte) (m : Marker) (s : State) :
    emitAux r (afterBytes l (nextMarker m s)) = { afterBytes l (nextMarker m s) with
      aux := if s.params.auxRecord = true then s.aux ++ [r] else s.aux } := by
  unfold nextMarker
  split <;> exact emitAux_eq_update _ _

/-- Settles O33: the row of a skipped marker is `skipSegment`, whose reads decide. -/
theorem skippedSegments : Obligations.SkippedSegments := by
  intro i c s hskip hc hs u
  rw [exec_inHeader hc hs, markerRow_of_isSkipped hskip]
  refine ⟨?_, fun len hlen ha => ?_, fun len h => ?_, fun len bytes hlen h => ?_⟩
  · intro bytes hn body ha
    rw [skipSegment_ahead hn ha, settle, emitAux_after_marker]
  · rw [skipSegment, readLength_below_two hlen ha]
    rfl
  · exact ((readLength_cutShort h).bind _).settle
  · exact (skipSegment_cutShort hlen h).settle

end Sys2Proof.Machine
end

section
/-! SUPPORT. The cascade of two snapshots (42_tablestore.md R200), slot by slot. -/

namespace Sys2Proof.Machine

theorem Slots.ext_get {α : Type} {a b : Slots α} (h : ∀ t, slotGet a t = slotGet b t) : a = b := by
  have h0 := h 0#2
  have h1 := h 1#2
  have h2 := h 2#2
  have h3 := h 3#2
  cases a
  cases b
  simp_all [slotGet]

theorem cascadeSlots_empty {α : Type} (b : Slots α) : cascadeSlots b Slots.empty = b :=
  Slots.ext_get fun t => by rw [slotGet_cascadeSlots, slotGet_empty]; rfl

theorem empty_cascadeSlots {α : Type} (o : Slots α) : cascadeSlots Slots.empty o = o :=
  Slots.ext_get fun t => by rw [slotGet_cascadeSlots, slotGet_empty]; cases slotGet o t <;> rfl

theorem cascadeSlots_assoc {α : Type} (a b c : Slots α) :
    cascadeSlots (cascadeSlots a b) c = cascadeSlots a (cascadeSlots b c) :=
  Slots.ext_get fun t => by simp only [slotGet_cascadeSlots]; cases slotGet c t <;> rfl

theorem slotGet_cascadeSlots_eq_ite {α : Type} (b o : Slots α) (t : BitVec 2) [Decidable (slotGet o t ≠ none)] :
    slotGet (cascadeSlots b o) t = if slotGet o t ≠ none then slotGet o t else slotGet b t := by
  rw [slotGet_cascadeSlots]
  by_cases h : slotGet o t ≠ none
  · obtain ⟨x, hx⟩ := Option.ne_none_iff_exists'.1 h
    rw [if_pos h, hx]
    rfl
  · rw [if_neg h, not_not.1 h]
    rfl

/-- Settles O34: slot by slot it is the cascade of two optional tables, of which `none` is neutral. -/
theorem cascade_slotwise : Obligations.Cascade := by
  refine ⟨fun b o t => ⟨?_, ?_, ?_, rfl⟩, fun m => ⟨?_, ?_⟩, fun a b c => ?_⟩
  · exact slotGet_cascadeSlots_eq_ite _ _ t
  · exact slotGet_cascadeSlots_eq_ite _ _ t
  · exact slotGet_cascadeSlots_eq_ite _ _ t
  · simp only [cascade, MiscTables.empty, cascadeSlots_empty]
    rfl
  · simp only [cascade, MiscTables.empty, empty_cascadeSlots]
    cases m
    simp only [MiscTables.mk.injEq, true_and]
    split_ifs <;> omega
  · simp only [cascade, cascadeSlots_assoc, MiscTables.mk.injEq, true_and]
    split_ifs <;> simp_all

end Sys2Proof.Machine
end

section
/-! SUPPORT. The canonical Huffman builder (42_tablestore.md R188, R189): HUFFSIZE, HUFFCODE and the codes of one used length
from those of the used length before. -/

namespace Sys2Proof.Machine

theorem huffSizes_length (first : Nat) (bits : List Nat) : (huffSizes first bits).length = bits.sum := by
  induction bits generalizing first with
  | nil => rfl
  | cons b bs ih => simp [huffSizes, ih]

/-- HUFFCODE counts up within a length and is shifted left once per length step. -/
theorem huffCodes_succ (sizes : List Nat) (si code k : Nat) {a b c : Nat} (ha : sizes[k]? = some a)
    (hb : sizes[k + 1]? = some b) (hc : (huffCodes si code sizes)[k]? = some c) :
    (huffCodes si code sizes)[k + 1]? = some ((c + 1) * 2 ^ (b - a)) := by
  induction sizes generalizing si code k with
  | nil => cases ha
  | cons l ls ih =>
    rw [huffCodes] at hc ⊢
    cases k with
    | zero =>
      cases ls with
      | nil => cases hb
      | cons l' ls => cases ha; cases hb; cases hc; rfl
    | succ k => exact ih _ _ _ ha hb hc

theorem assignCodes_zero {sizes : List Nat} (h : sizes ≠ []) : (assignCodes sizes)[0]? = some 0 := by
  cases sizes with
  | nil => exact absurd rfl h
  | cons l ls => simp [assignCodes, huffCodes]

theorem firstCode_eq_zero {bits : List Nat} {i : Nat} (h : (bits.take i).sum = 0) : firstCode bits i = 0 := by
  induction i with
  | zero => rfl
  | succ i ih =>
    rw [List.take_add_one, List.sum_append] at h
    have hi : bits.getD i 0 = 0 := by
      rw [List.getD_eq_getElem?_getD]
      cases hb : bits[i]? with
      | none => rfl
      | some b => simp [hb] at h; simp [h.2]
    rw [firstCode, ih (by omega), hi]

/-- From one used length to the next: the code after the last, shifted left once per length between. -/
theorem firstCode_next_used {bits : List Nat} {i' i : Nat} (hi : i' < i) (h : ∀ j, i' < j → j < i → bits.getD j 0 = 0) :
    firstCode bits i = (firstCode bits i' + bits.getD i' 0) * 2 ^ (i - i') := by
  induction i, hi using Nat.le_induction with
  | base => rw [firstCode, Nat.succ_eq_add_one, Nat.add_sub_cancel_left, pow_one, Nat.mul_comm]
  | succ i hi ih =>
    rw [firstCode, h i hi (Nat.lt_succ_self i), ih fun j h1 h2 => h j h1 (Nat.lt_succ_of_lt h2), Nat.succ_sub (by omega),
      Nat.pow_succ]
    ring

section
variable {tc : BitVec 1} {th : BitVec 2} {bits : List Nat} {vals : List Byte} {i : Nat}

/-- The last code of a used length (R188). -/
theorem build_maxcode_used (hi : i < bits.length) (h : bits.getD i 0 ≠ 0) :
    (buildHuffman tc th bits vals).maxcode[i]? = some ((firstCode bits i + bits.getD i 0 - 1 : Nat) : Int) := by
  rw [build_maxcode hi, if_neg h]
  congr 1
  omega

end

/-- Settles O35: the codes of a length are consecutive from its first code, which the lengths before it determine. -/
theorem buildHuffman_canonical : Obligations.BuildHuffman := by
  intro tc th bits huffval h16 _ h
  have codeCount : h.huffcode.length = bits.sum := by
    rw [build_entries.2.2.2, canonCodes_length]
  refine ⟨⟨rfl, rfl, rfl, rfl, rfl⟩, ⟨huffSizes_length 1 bits, fun i j hj => ?_⟩, ⟨codeCount, fun hpos => ?_, ?_⟩,
    fun i hi => ⟨fun h0 => ?_, fun h0 => ?_⟩⟩
  · rw [Nat.add_comm i 1]
    exact huffSizes_getElem? bits 1 i j hj
  · exact assignCodes_zero (List.length_pos_iff.1 (by rwa [huffSizes_length]))
  · intro k a b c
    exact huffCodes_succ _ _ _ k
  · rw [build_maxcode (h16 ▸ hi), if_pos h0]
  · have hpos : 0 < bits.getD i 0 := Nat.pos_of_ne_zero h0
    refine ⟨firstCode bits i, firstCode bits i + bits.getD i 0 - 1, ?_, build_huffcode hpos, ?_, ?_,
      build_maxcode_used (h16 ▸ hi) h0, rfl, fun j hj => build_huffcode hj, firstCode_eq_zero, fun i' hi' h0' hbetween => ?_⟩
    · rw [build_valptr (h16 ▸ hi), if_neg h0]
    · rw [build_mincode (h16 ▸ hi), if_neg h0]
    · have := build_huffcode (tc := tc) (th := th) (vals := huffval) (Nat.sub_lt hpos Nat.one_pos)
      rwa [← Nat.add_sub_assoc hpos, ← Nat.add_sub_assoc hpos] at this
    · refine ⟨_, build_maxcode_used (by omega) h0', ?_⟩
      rw [firstCode_next_used hi' hbetween]
      congr 1
      omega

end Sys2Proof.Machine
end

section
/-! SUPPORT. What a marker in a header region that opens no header may change (42_tablestore.md R180, R185, R192, R195;
46_top_level.md R297 to R299): said of its row, kept by the end of the step. -/

namespace Sys2Proof.Machine

/-- The fields of a snapshot the segment of `i` does not name. -/
structure TablesKept (i : Instr) (m m' : MiscTables) : Prop where
  quant : i ≠ .dqt → m'.quant = m.quant
  huff : i ≠ .dht → m'.dc = m.dc ∧ m'.ac = m.ac
  interval : i ≠ .dri → m'.interval = m.interval

/-- The state without the registers a marker that opens no header may change. -/
def headerKeep (s : State) : State :=
  { s with
    pos := 0, lastpos := 0, pbArmed := false, lastmk := 0#16, base := MiscTables.empty, ovl := MiscTables.empty, aux := []
    dnlSeen := false, dnlNl := 0#16, st := .awaitSOI, errCode := 0#4, errMarker := 0#16, errPos := 0, errState := 0#4 }

theorem eq_of_headerKeep {s t : State} (h : headerKeep t = headerKeep s) :
    t = { s with
      pos := t.pos, lastpos := t.lastpos, pbArmed := t.pbArmed, lastmk := t.lastmk
      base := t.base, ovl := t.ovl, aux := t.aux, dnlSeen := t.dnlSeen, dnlNl := t.dnlNl, st := t.st
      errCode := t.errCode, errMarker := t.errMarker, errPos := t.errPos, errState := t.errState } := by
  cases s; cases t; simp_all [headerKeep]

/-- What the marker `i` may change. -/
structure MarkerFrame (i : Instr) (s t : State) : Prop where
  keep : headerKeep t = headerKeep s
  base : TablesKept i s.base t.base
  ovl : TablesKept i s.ovl t.ovl
  region : if s.st = .frameTables then t.ovl = s.ovl else t.base = s.base
  aux : isSkipped i = false → t.aux = s.aux
  dnl : i ≠ .dnl → t.dnlSeen = s.dnlSeen ∧ t.dnlNl = s.dnlNl
  st : t.st = s.st ∨ t.st = .error ∨ i = .eoi ∧ t.st = .done

theorem TablesKept.refl (i : Instr) (m : MiscTables) : TablesKept i m m := ⟨fun _ => rfl, fun _ => ⟨rfl, rfl⟩, fun _ => rfl⟩

theorem TablesKept.eq {i : Instr} {m m' : MiscTables} (h : TablesKept i m m') (h1 : i ≠ .dqt) (h2 : i ≠ .dht)
    (h3 : i ≠ .dri) : m' = m := by
  obtain ⟨hq, hh, hi⟩ := h
  obtain ⟨hdc, hac⟩ := hh h2
  cases m
  cases m'
  simp_all

theorem MarkerFrame.refl (i : Instr) (s : State) : MarkerFrame i s s where
  keep := rfl
  base := .refl i s.base
  ovl := .refl i s.ovl
  region := by split <;> rfl
  aux _ := rfl
  dnl _ := ⟨rfl, rfl⟩
  st := .inl rfl

/-! ## The rows -/

theorem MarkerFrame.of_region {i : Instr} {P : MiscTables → MiscTables → Prop} (hP : ∀ m m', P m m' → TablesKept i m m')
    {s t : State} (h : RegionFrame P s t) : MarkerFrame i s t := by
  obtain ⟨p, l, a, b, o, rfl, -, hb⟩ := h
  by_cases hs : s.st = .frameTables
  · rw [if_pos hs] at hb
    obtain ⟨hb, rfl⟩ := hb
    exact { MarkerFrame.refl i s with keep := rfl, base := hP _ _ hb, region := by rw [if_pos hs] }
  · rw [if_neg hs] at hb
    obtain ⟨rfl, ho⟩ := hb
    exact { MarkerFrame.refl i s with keep := rfl, ovl := hP _ _ ho, region := by rw [if_neg hs] }

theorem MarkerFrame.of_stream {i : Instr} {s t : State} (h : StreamFrame s t) : MarkerFrame i s t := by
  obtain ⟨p, l, b, rfl, -⟩ := h
  exact { MarkerFrame.refl i s with keep := rfl }

theorem readDQT_markerFrame (s : State) : MarkerFrame .dqt s (readDQT s).final :=
  .of_region (fun _ _ ⟨hdc, hac, hint, _⟩ => ⟨fun h => absurd rfl h, fun _ => ⟨hdc, hac⟩, fun _ => hint⟩) (readDQT_frame s)

theorem readDHT_markerFrame (s : State) : MarkerFrame .dht s (readDHT s).final :=
  .of_region (fun _ _ ⟨hq, hint, _⟩ => ⟨fun _ => hq, fun h => absurd rfl h, fun _ => hint⟩) (readDHT_frame s)

theorem readDRI_markerFrame (s : State) : MarkerFrame .dri s (readDRI s).final :=
  .of_region (fun _ _ ⟨hq, hdc, hac, _⟩ => ⟨fun _ => hq, fun _ => ⟨hdc, hac⟩, fun h => absurd rfl h⟩) (readDRI_frame s)

theorem readDNLbody_markerFrame (s : State) : MarkerFrame .dnl s (readDNLbody s).final := by
  cases hr : readDNLbody s with
  | stop c t => exact .of_stream (readDNLbody_stop hr).1
  | ok a t =>
    obtain ⟨u, nl, ⟨p, l, b, rfl, -⟩, -, rfl⟩ := readDNLbody_ok hr
    exact { MarkerFrame.refl .dnl s with keep := rfl, dnl := fun h => absurd rfl h }

theorem skipSegment_markerFrame {i : Instr} (hi : isSkipped i = true) (m : Marker) (s : State) :
    MarkerFrame i s (skipSegment m s).final := by
  rcases skipSegment_frame m s with hf | ⟨u, bytes, ⟨p, l, b, rfl, -⟩, e⟩
  · exact .of_stream hf
  · rw [e, emitAux_eq_update]
    exact { MarkerFrame.refl i s with keep := rfl, aux := fun h => by rw [hi] at h; cases h }

theorem eoiRow_markerFrame (m : Marker) (s : State) : MarkerFrame .eoi s (eoiRow m s).final := by
  unfold eoiRow
  split
  · exact .refl _ s
  · exact { MarkerFrame.refl .eoi s with keep := rfl, st := .inr (.inr ⟨rfl, rfl⟩) }

theorem eoiRow_raises (m : Marker) (s : State) : (eoiRow m s).Raises := by
  unfold eoiRow
  split
  · exact .raise _ _ s
  · exact .ok _ _

/-- Every row but those of SOFn and SOS: its frame, and that it stops by a raise only. -/
theorem markerRow_markerFrame {i : Instr} {c : Byte} (hc : i.markerCode = some c) (hframe : isFrame (markerOf c) = false)
    (hsos : i ≠ .sos) (s : State) :
    MarkerFrame i s (markerRow i (markerOf c) s).final ∧ (markerRow i (markerOf c) s).Raises := by
  cases i with
  | dqt => exact ⟨readDQT_markerFrame s, readDQT_raises s⟩
  | dht => exact ⟨readDHT_markerFrame s, readDHT_raises s⟩
  | dri => exact ⟨readDRI_markerFrame s, readDRI_raises s⟩
  | dnl => exact ⟨readDNLbody_markerFrame s, readDNLbody_raises s⟩
  | eoi => exact ⟨eoiRow_markerFrame _ s, eoiRow_raises _ s⟩
  | tem | soi | rst | dac => exact ⟨.refl _ s, .raise _ _ s⟩
  | res02 | res04 | res08 | res10 | res20 | res40 | res80 | jpg | dhp | exp | app | jpg0 | jpg8 | jpg12 | com | mffff =>
    exact ⟨skipSegment_markerFrame rfl _ s, skipSegment_raises _ s⟩
  | sos => exact absurd rfl hsos
  | sof0 | sof1 | sof2 | sof3 | sof5 | sof6 | sof7 | sof9 | sof10 | sof11 | sof13 | sof14 | sof15 =>
    cases hc
    exact absurd hframe (by decide)
  | data | stuffed | dcSize | eob | zrl | acCoef => cases hc

/-! ## The whole step -/

/-- The end of a row answers, or takes an error, which writes the error registers and `STATE` (60_exceptions.md R335). -/
theorem MarkerFrame.settle {i : Instr} {s t : State} {r : Res Unit} (h : MarkerFrame i s r.final) (hr : r.Raises)
    (ht : Sys2Proof.Machine.settle r = .next t) : MarkerFrame i s t := by
  cases r with
  | ok a u =>
    cases ht
    exact h
  | stop d u =>
    obtain ⟨e, info, rfl⟩ := hr d rfl
    cases ht
    exact { h with keep := h.keep, st := .inr (.inl rfl) }

/-- Reading the marker moves the stream and takes the pending bit, whose marker was consumed before (R293). -/
theorem MarkerFrame.of_nextMarker {i : Instr} {m : Marker} {s t : State} (h : MarkerFrame i (nextMarker m s) t) :
    MarkerFrame i { s with pendmkV := false } t := by
  unfold nextMarker at h
  split at h
  · exact h
  · rename_i hp
    have fresh : headerKeep (consumeMarker m s) = headerKeep { s with pendmkV := false } := by
      rw [← Bool.eq_false_of_not_eq_true hp]
      rfl
    exact { h with keep := h.keep.trans fresh }

/-- Settles O52: the frame of its row is the frame of the marker. -/
theorem headerMarkerFrame : Obligations.HeaderMarkerFrame := by
  intro i c s t hc hframe hsos hs hexec
  rw [exec_inHeader hc hs] at hexec
  obtain ⟨hrow, hraises⟩ := markerRow_markerFrame hc hframe hsos (nextMarker (markerOf c) s)
  obtain ⟨keep, base, ovl, region, aux, dnl, st⟩ := (hrow.settle hraises hexec).of_nextMarker
  refine ⟨eq_of_headerKeep keep, fun h1 h2 h3 => ⟨base.eq h1 h2 h3, ovl.eq h1 h2 h3⟩, fun e => ?_, fun e => ?_, ?_, ?_, ?_,
    aux, dnl, st⟩
  · exact (if_pos e).mp region
  · exact (if_neg (by simp [e])).mp region
  · rintro rfl
    exact ⟨(base.huff nofun).1, (base.huff nofun).2, base.interval nofun, (ovl.huff nofun).1, (ovl.huff nofun).2,
      ovl.interval nofun⟩
  · rintro rfl
    exact ⟨base.quant nofun, base.interval nofun, ovl.quant nofun, ovl.interval nofun⟩
  · rintro rfl
    exact ⟨base.quant nofun, (base.huff nofun).1, (base.huff nofun).2, ovl.quant nofun, (ovl.huff nofun).1,
      (ovl.huff nofun).2⟩

end Sys2Proof.Machine
end

section
/-! SUPPORT. The entries of a built table (42_tablestore.md R188): where their code words stand, that one turn of `decode`
goes on or answers, and that what it answers is an entry (43_huffman_decode.md R211, R213). -/

namespace Sys2Proof.Machine

section
variable {tc : BitVec 1} {th : BitVec 2} {bits : List Nat} {vals : List Byte}

theorem build_huffsize {i j : Nat} (hj : j < bits.getD i 0) :
    (buildHuffman tc th bits vals).huffsize[(bits.take i).sum + j]? = some (i + 1) := by
  rw [Nat.add_comm i 1]
  exact huffSizes_getElem? bits 1 i j hj

/-- The code word of entry `k` is the one at some place `j` among the codes of its length. -/
theorem entry_place {k size code : Nat} (hsize : (buildHuffman tc th bits vals).huffsize[k]? = some size)
    (hcode : (buildHuffman tc th bits vals).huffcode[k]? = some code) :
    ∃ i j, i < bits.length ∧ j < bits.getD i 0 ∧ k = (bits.take i).sum + j ∧ size = i + 1 ∧
      code = firstCode bits i + j := by
  have hk : k < bits.sum := huffSizes_length 1 bits ▸ (List.getElem?_eq_some_iff.1 hsize).1
  obtain ⟨i, j, hj, rfl, hi⟩ := exists_length_place bits k hk
  rw [build_huffsize hj] at hsize
  rw [build_huffcode hj] at hcode
  cases hsize
  cases hcode
  exact ⟨i, j, hi, hj, rfl, rfl, rfl⟩

/-- A turn of the loop that ends in a symbol: the bit makes a code of at most 16 bits, which is looked up if it is not above
the last of its length, and lengthened if it is (43_huffman_decode.md R211). -/
theorem decodeLoop_succ_ok {h : HuffTable} {fuel : Nat} {s t : State} {v : Byte}
    (hd : decodeLoop h (fuel + 1) s = .ok v t) :
    ∃ s' : State, (∃ b : Bool, s'.code = 2 * s.code + b.toNat) ∧ s'.len = s.len + 1 ∧ s'.len ≤ 16 ∧
      (if (s'.code : Int) ≤ (byLength h.maxcode s'.len).getD (-1) then tableSymbol h s'.code s'.len s'
        else decodeLoop h fuel s') = .ok v t := by
  unfold decodeLoop at hd
  cases hn : nextBit s with
  | stop c u => rw [hn] at hd; cases hd
  | ok b u =>
    have hk := (nextBit_ok hn).1.keep
    have e1 : u.code = s.code := (congrArg State.code hk :)
    have e2 : u.len = s.len := (congrArg State.len hk :)
    simp only [hn, Res.bind_ok] at hd
    split at hd
    · cases hd
    · rename_i h16
      exact ⟨{ u with code := 2 * u.code + b.toNat, len := u.len + 1 }, ⟨b, by rw [e1]⟩, by rw [e2], not_lt.1 h16, hd⟩

/-- The symbol of a decode is that of a code word of the table, which `CODE` and `LEN` then hold. The code of every turn is
not below the first of its length, since it was above the last of the length before. -/
theorem decodeLoop_entry (h16 : bits.length = 16) (hv : vals.length = bits.sum) {fuel : Nat} {s t : State} {v : Byte}
    (hc : firstCode bits s.len ≤ 2 * s.code) (hd : decodeLoop (buildHuffman tc th bits vals) fuel s = .ok v t) :
    ∃ i j, j < bits.getD i 0 ∧ vals[(bits.take i).sum + j]? = some v ∧ t.len = i + 1 ∧ t.code = firstCode bits i + j := by
  induction fuel generalizing s with
  | zero => cases hd
  | succ fuel ih =>
    obtain ⟨s', ⟨b, hcode⟩, hlen, hle, hturn⟩ := decodeLoop_succ_ok hd
    have hi : s.len < bits.length := by omega
    have hge : firstCode bits s.len ≤ s'.code := by omega
    rw [hlen] at hturn
    split at hturn
    · rename_i hm
      have hlt := (build_match hi hge).1 hm
      obtain ⟨v', hv', hsym⟩ := build_symbol s' hi hge hlt hv
      obtain ⟨rfl, rfl⟩ := Res.ok.inj (hsym.symm.trans hturn)
      exact ⟨s.len, s'.code - firstCode bits s.len, by omega, hv', hlen, by omega⟩
    · rename_i hm
      have hlast := mt (build_match hi hge).2 hm
      exact ih (by rw [hlen, firstCode]; omega) hturn

end

/-- Settles O36: the code word of entry `k` is that of a length and a place, and fits its length by the Kraft sum. -/
theorem decodeInvertsCodes : Obligations.DecodeInvertsCodes := by
  intro tc th bits huffval h16 hv hkraft h k size code v hsize hcode hval s rest h8 ha
  obtain ⟨i, j, hi, hj, rfl, rfl, rfl⟩ := entry_place hsize hcode
  rw [h16] at hi
  have hfit : firstCode bits i + j < 2 ^ (i + 1) := by
    have := firstCode_kraft hi hkraft
    omega
  obtain ⟨v', u, hval', htaken, hdec⟩ := decodeSymbol_code h16 hv hi hj hfit h8 ha
  cases hval.symm.trans hval'
  exact ⟨u, htaken, hdec⟩

/-- Settles O37: the code word at each place of a length is that of an entry, so none begins the bits ahead. -/
theorem decodeFails : Obligations.DecodeFails := by
  intro tc th bits huffval h16 _ h s l h8 hno
  exact decodeSymbol_fails h16 h8 fun i j hj => hno _ _ _ (build_huffsize hj) (build_huffcode hj)

/-- Settles O38: a built table answers with an entry, and a decode against it stops by no fault. -/
theorem decodeAnswersEntries : Obligations.DecodeAnswersEntries := by
  intro h s hg
  refine ⟨fun v t hd => ?_, fun f t hd => ?_⟩
  · obtain ⟨hb, h16, hv⟩ := hg
    rw [hb] at hd ⊢
    obtain ⟨i, j, hj, hval, hlen, hcode⟩ := decodeLoop_entry h16 hv (Nat.zero_le _) hd
    exact ⟨_, hval, by rw [hlen, build_huffsize hj], by rw [hcode, build_huffcode hj]⟩
  · exact (decodeSymbol_stop hg hd).1.noFault f rfl

end Sys2Proof.Machine
end

section
/-! SUPPORT. The derived sizes of a frame header (44_headers.md R221, R223): the MCU grid a component's own size spans. -/

namespace Sys2Proof.Machine

/-- A derived size spans as many units of `8` times its own factor as the frame's size spans of `8` times the largest. -/
theorem ceilDiv_derived_size {x w : Nat} {a m : BitVec 4} (ha : a ≠ 0#4) (hle : a.toNat ≤ m.toNat)
    (hw : w = ceilDiv (x * a.toNat) m.toNat) : ceilDiv w (8 * a.toNat) = ceilDiv x (8 * m.toNat) := by
  have ha0 := BitVec.toNat_pos_of_ne_zero ha
  rw [hw, ceilDiv_derived ha0 (ha0.trans_le hle)]

/-- Settles O27: both derived sizes span the frame's own grid, and padding does not change how many units a size spans. -/
theorem mcuCountsAgree : Obligations.McuCountsAgree := by
  intro params f hf c hc
  obtain ⟨hh, hv⟩ := hf.factors c hc
  obtain ⟨hwidth, hheight⟩ := hf.sizes c hc
  have w := ceilDiv_derived_size hh (hf.hmax.2 _ (List.mem_map_of_mem hc)) hwidth
  have h := ceilDiv_derived_size hv (hf.vmax.2 _ (List.mem_map_of_mem hc)) hheight
  have hh0 := BitVec.toNat_pos_of_ne_zero hh
  have hv0 := BitVec.toNat_pos_of_ne_zero hv
  exact ⟨w, h, by rw [padding_div (by omega), padding_div (by omega), w, h]⟩

end Sys2Proof.Machine
end

section
/-! SUPPORT. A read of given bytes: what it answers when they stand ahead, and that it runs out when the input ends inside
them (20_memory.md R67, 60_exceptions.md R324). A header is such reads one after the other. -/

namespace Sys2Proof.Machine

/-- The operation reads the bytes `l`, of which it answers `a`. -/
structure Reads {α : Type} (r : State → Res α) (l : List Byte) (a : α) : Prop where
  ok : ∀ {s : State}, s.ahead l → r s = .ok a (afterBytes l s)
  short : ∀ {s : State}, s.cutShort l → (r s).RanOut s

theorem reads_bytes {n : Nat} {l : List Byte} (h : l.length = n) : Reads (readBytes n) l l := by
  rw [← h]
  exact ⟨readBytes_ahead, readBytes_cutShort⟩

theorem reads_field (b : Byte) : Reads readField [b] b := ⟨readField_ahead, readField_cutShort⟩
theorem reads_uint16 (w : BitVec 16) : Reads readUint16 (bytes16 w) w := ⟨readUint16_ahead, readUint16_cutShort⟩

section
variable {α β : Type} {r : State → Res α} {l m : List Byte} {a : α} {s : State} {f : α → State → Res β}

/-- The bytes of the first read stand ahead: the second goes on after them. -/
theorem Reads.bind_ahead (h : Reads r l a) (ha : s.ahead l) : (r s).bind f = f a (afterBytes l s) := by
  rw [h.ok ha, Res.bind_ok]

/-- Two reads run out where the input ends inside the bytes of both. -/
theorem Reads.bind_short (h : Reads r l a) (hf : ∀ {t : State}, t.cutShort m → (f a t).RanOut t)
    (hs : s.cutShort (l ++ m)) : ((r s).bind f).RanOut s := by
  rcases State.cutShort_append hs with hs | ⟨ha, hs⟩
  · exact (h.short hs).bind f
  · rw [h.bind_ahead ha]
    exact (hf hs).of_afterBytes

end

end Sys2Proof.Machine
end

section
/-! SUPPORT. The frame header (44_headers.md R221, R222): its fields, the checks on them, its components one after the
other. -/

namespace Sys2Proof.Machine

/-! ## The row of a frame marker (46_top_level.md R295) -/

theorem markerRow_of_isFrame {i : Instr} {c : Byte} (hi : i.markerCode = some c) (hf : isFrame (markerOf c) = true)
    (m : Marker) : markerRow i m = frameRow m := by
  cases i with
  | sof0 | sof1 | sof2 | sof3 | sof5 | sof6 | sof7 | sof9 | sof10 | sof11 | sof13 | sof14 | sof15 => rfl
  | res02 n | res04 n | res08 n | res10 n | res20 n | res40 n | res80 n | rst n | app n | jpg0 n | jpg8 n | jpg12 n =>
    cases hi
    exact absurd hf (by decide +revert)
  | tem | dht | jpg | dac | soi | eoi | sos | dqt | dnl | dri | dhp | exp | com | mffff =>
    cases hi
    exact absurd hf (by decide)
  | data | stuffed | dcSize | eob | zrl | acCoef => cases hi

/-- A frame marker that is accepted, in `FrameTables`: its header decides. -/
theorem exec_frame {i : Instr} {c : Byte} {s : State} (hi : i.markerCode = some c) (hf : isFrame (markerOf c) = true)
    (hs : s.st = .frameTables) (hm : markerOf c ∈ s.params.sofAccept) :
    exec i s = settle ((readFrameHeader (markerOf c) (nextMarker (markerOf c) s)).bind fun _ t =>
      .ok () { t with ovl := MiscTables.empty, st := .awaitingSOS }) := by
  rw [exec_inHeader hi (.inl hs), markerRow_of_isFrame hi hf, frameRow, if_pos (by simpa using hs), if_neg (by simpa using hm)]

/-! ## The fields and the checks on them -/

/-- What `readFrameHeader` does once the fields before the components are read. -/
def frameChecks (m : Marker) (lf : BitVec 16) (p : Byte) (y x : BitVec 16) (nf : Byte) (s : State) : Res Unit :=
  if nf.toNat < 1 ∨ lf.toNat ≠ 8 + 3 * nf.toNat then raise .malformedSegment none s
  else if nf.toNat > s.params.ncompMax then raise .capacityExceeded none s
  else if p.toNat ∉ s.params.precisions then raise .unsupportedFeature (some (.marker m)) s
  else
    (readFrameComps nf.toNat s).bind fun comps s =>
      .ok () { s with fh := frameHeaderOf m p y x nf comps, fhV := true }

section
variable {m : Marker} {lf : BitVec 16} {p : Byte} {y x : BitVec 16} {nf : Byte} {s : State}

theorem readFrameHeader_fields (h : s.ahead (bytes16 lf ++ [p] ++ bytes16 y ++ bytes16 x ++ [nf])) :
    readFrameHeader m s =
      frameChecks m lf p y x nf (afterBytes (bytes16 lf ++ [p] ++ bytes16 y ++ bytes16 x ++ [nf]) s) := by
  obtain ⟨h, h5⟩ := State.ahead_append h
  obtain ⟨h, h4⟩ := State.ahead_append h
  obtain ⟨h, h3⟩ := State.ahead_append h
  obtain ⟨h, h2⟩ := State.ahead_append h
  simp only [← afterBytes_append] at h3 h4 h5 ⊢
  rw [readFrameHeader, (reads_uint16 lf).bind_ahead h, (reads_field p).bind_ahead h2, (reads_uint16 y).bind_ahead h3,
    (reads_uint16 x).bind_ahead h4, (reads_field nf).bind_ahead h5, frameChecks]

theorem readFrameHeader_fields_short (h : s.cutShort (bytes16 lf ++ [p] ++ bytes16 y ++ bytes16 x ++ [nf])) :
    (readFrameHeader m s).RanOut s := by
  simp only [List.append_assoc] at h
  exact (reads_uint16 lf).bind_short ((reads_field p).bind_short ((reads_uint16 y).bind_short ((reads_uint16 x).bind_short
    fun h => ((reads_field nf).short h).bind _))) h

theorem frameChecks_malformed (h : nf.toNat < 1 ∨ lf.toNat ≠ 8 + 3 * nf.toNat) :
    frameChecks m lf p y x nf s = raise .malformedSegment none s := if_pos h

theorem frameChecks_over_capacity (h1 : 1 ≤ nf.toNat) (hl : lf.toNat = 8 + 3 * nf.toNat) (h : nf.toNat > s.params.ncompMax) :
    frameChecks m lf p y x nf s = raise .capacityExceeded none s := by
  rw [frameChecks, if_neg (by omega), if_pos h]

theorem frameChecks_precision (h1 : 1 ≤ nf.toNat) (hl : lf.toNat = 8 + 3 * nf.toNat) (hn : nf.toNat ≤ s.params.ncompMax)
    (h : p.toNat ∉ s.params.precisions) :
    frameChecks m lf p y x nf s = raise .unsupportedFeature (some (.marker m)) s := by
  rw [frameChecks, if_neg (by omega), if_neg (by omega), if_pos h]

theorem frameChecks_passed (h1 : 1 ≤ nf.toNat) (hl : lf.toNat = 8 + 3 * nf.toNat) (hn : nf.toNat ≤ s.params.ncompMax)
    (hp : p.toNat ∈ s.params.precisions) :
    frameChecks m lf p y x nf s = (readFrameComps nf.toNat s).bind fun comps s =>
      .ok () { s with fh := frameHeaderOf m p y x nf comps, fhV := true } := by
  rw [frameChecks, if_neg (by omega), if_neg (by omega), if_neg (not_not.2 hp)]

end

/-! ## The components -/

theorem FrameComp.bytes_length (k : FrameComp) : k.bytes.length = 3 := rfl

/-- What the component loop does with the three bytes of a component. -/
def frameComp (n : Nat) (k : FrameComp) (s : State) : Res (List FrameComp) :=
  if k.h = 0#4 ∨ k.v = 0#4 then raise .malformedSegment none s
  else (readFrameComps n s).bind fun cs t => .ok ({ k with width := 0, height := 0 } :: cs) t

theorem readFrameComps_succ_ahead {k : FrameComp} {s : State} (n : Nat) (h : s.ahead k.bytes) :
    readFrameComps (n + 1) s = frameComp n k (afterBytes k.bytes s) := by
  rw [readFrameComps, (reads_bytes k.bytes_length).bind_ahead h]
  simp only [FrameComp.bytes, List.getD_cons_zero, List.getD_cons_succ, (nibbles_append k.h k.v).1,
    (nibbles_append k.h k.v).2]
  rfl

theorem frameComp_good {k : FrameComp} (h : k.h ≠ 0#4 ∧ k.v ≠ 0#4) (n : Nat) (s : State) :
    frameComp n k s = (readFrameComps n s).bind fun cs t => .ok ({ k with width := 0, height := 0 } :: cs) t :=
  if_neg (not_or.2 h)

/-- The first component with a zero factor, after good ones, ends the header after its three bytes. -/
theorem readFrameComps_bad {comps : List FrameComp} {k : FrameComp} {n : Nat} {s : State}
    (hc : ∀ k ∈ comps, k.h ≠ 0#4 ∧ k.v ≠ 0#4) (hk : k.h = 0#4 ∨ k.v = 0#4) (hn : comps.length < n)
    (h : s.ahead (comps.flatMap FrameComp.bytes ++ k.bytes)) :
    readFrameComps n s = raise .malformedSegment none (afterBytes (comps.flatMap FrameComp.bytes ++ k.bytes) s) := by
  induction comps generalizing n s with
  | nil =>
    obtain ⟨n, rfl⟩ := Nat.exists_eq_add_one_of_ne_zero (Nat.ne_zero_of_lt hn)
    rw [List.flatMap_nil, List.nil_append] at h ⊢
    rw [readFrameComps_succ_ahead n h, frameComp, if_pos hk]
  | cons c comps ih =>
    obtain ⟨hgood, hc⟩ := List.forall_mem_cons.1 hc
    rw [List.flatMap_cons, List.append_assoc] at h ⊢
    obtain ⟨h1, h2⟩ := State.ahead_append h
    obtain ⟨n, rfl⟩ := Nat.exists_eq_add_one_of_ne_zero (Nat.ne_zero_of_lt hn)
    have hn' : comps.length < n := Nat.lt_of_succ_lt_succ hn
    rw [readFrameComps_succ_ahead _ h1, frameComp_good hgood, ih hc hn' h2, afterBytes_append]
    rfl

/-- The input ends inside good components or the one after them. -/
theorem readFrameComps_short {comps : List FrameComp} {k : FrameComp} {n : Nat} {s : State}
    (hc : ∀ k ∈ comps, k.h ≠ 0#4 ∧ k.v ≠ 0#4) (hn : comps.length < n)
    (h : s.cutShort (comps.flatMap FrameComp.bytes ++ k.bytes)) : (readFrameComps n s).RanOut s := by
  induction comps generalizing n s with
  | nil =>
    obtain ⟨n, rfl⟩ := Nat.exists_eq_add_one_of_ne_zero (Nat.ne_zero_of_lt hn)
    exact ((reads_bytes k.bytes_length).short h).bind _
  | cons c comps ih =>
    obtain ⟨hgood, hc⟩ := List.forall_mem_cons.1 hc
    rw [List.flatMap_cons, List.append_assoc] at h
    obtain ⟨n, rfl⟩ := Nat.exists_eq_add_one_of_ne_zero (Nat.ne_zero_of_lt hn)
    have hn' : comps.length < n := Nat.lt_of_succ_lt_succ hn
    rcases State.cutShort_append h with h | ⟨ha, h⟩
    · exact ((reads_bytes c.bytes_length).short h).bind _
    · rw [readFrameComps_succ_ahead _ ha, frameComp_good hgood]
      exact ((ih hc hn' h).bind _).of_afterBytes

/-! ## The statements -/

/-- Settles O23: the header is read whole, and the row of the marker then opens the scan-level header region. -/
theorem frameHeaderStored : Obligations.FrameHeaderStored := by
  intro i c s p y x comps hmax vmax hi hf hs hm h1 h255 hn hp hc hh hv ha
  rw [exec_frame hi hf hs hm, readFrameHeader_ahead h1 h255 (by simpa using hn) (by simpa using hp) hc hh hv ha]
  rfl

/-- Settles O24: once the fields are read the checks decide in their order, and then the first component that ends the
header. -/
theorem frameHeaderRefused : Obligations.FrameHeaderRefused := by
  intro i c s lf p y x nf hi hf hs hm u fields
  have params : (afterBytes fields u).params = s.params := by simp [u]
  rw [exec_frame hi hf hs hm, ← params]
  refine ⟨fun h => ((readFrameHeader_fields_short h).bind _).settle, fun ha => ?_⟩
  rw [readFrameHeader_fields ha]
  refine ⟨fun h => ?_, fun h1 hl => ⟨fun h => ?_, fun hn => ⟨fun h => ?_, fun hp comps k => ?_⟩⟩⟩
  · rw [frameChecks_malformed h]
    rfl
  · rw [frameChecks_over_capacity h1 hl h]
    rfl
  · rw [frameChecks_precision h1 hl hn h]
    rfl
  · intro body hlen hc
    rw [frameChecks_passed h1 hl hn hp]
    have hbody : body = fields ++ (comps.flatMap FrameComp.bytes ++ k.bytes) := List.append_assoc ..
    rw [hbody]
    refine ⟨fun hk h => ?_, fun h => ?_⟩
    · rw [readFrameComps_bad hc hk hlen (State.ahead_append h).2, afterBytes_append]
      rfl
    · exact (((readFrameComps_short hc hlen (State.cutShort_of_append ha h)).bind _).bind _).of_afterBytes.settle

end Sys2Proof.Machine
end

section
/-! SUPPORT. The scan header (44_headers.md R226, R227) and the binding of its selectors (R231, R232). -/

namespace Sys2Proof.Machine

/-! ## Reading the header -/

/-- What `readScanHeader` does once the length and the count are read. -/
def scanChecks (ls : BitVec 16) (ns : Byte) (s : State) : Res Unit :=
  if ns.toNat < 1 ∨ ls.toNat ≠ 6 + 2 * ns.toNat then raise .malformedSegment none s
  else if ns.toNat > s.params.ncompMax then raise .capacityExceeded none s
  else
    (readScanComps ns.toNat s).bind fun comps s =>
    (readBytes 3 s).bind fun l s =>
      .ok () { s with sh := ⟨ns, comps, l.getD 0 0#8, l.getD 1 0#8, highNibble (l.getD 2 0#8), lowNibble (l.getD 2 0#8)⟩ }

section
variable {ls : BitVec 16} {ns : Byte} {s : State}

theorem readScanHeader_start (h : s.ahead (bytes16 ls ++ [ns])) :
    readScanHeader s = scanChecks ls ns (afterBytes (bytes16 ls ++ [ns]) s) := by
  obtain ⟨h1, h2⟩ := State.ahead_append h
  rw [readScanHeader, (reads_uint16 ls).bind_ahead h1, (reads_field ns).bind_ahead h2, afterBytes_append, scanChecks]

theorem readScanHeader_start_short (h : s.cutShort (bytes16 ls ++ [ns])) : (readScanHeader s).RanOut s :=
  (reads_uint16 ls).bind_short (fun h => ((reads_field ns).short h).bind _) h

theorem scanChecks_malformed (h : ns.toNat < 1 ∨ ls.toNat ≠ 6 + 2 * ns.toNat) :
    scanChecks ls ns s = raise .malformedSegment none s := if_pos h

theorem scanChecks_over_capacity (h1 : 1 ≤ ns.toNat) (hl : ls.toNat = 6 + 2 * ns.toNat) (h : ns.toNat > s.params.ncompMax) :
    scanChecks ls ns s = raise .capacityExceeded none s := by
  rw [scanChecks, if_neg (by omega), if_pos h]

end

theorem readScanComps_short {comps : List ScanComp} {s : State}
    (h : s.cutShort (comps.flatMap fun c => [c.cs, c.td ++ c.ta])) : (readScanComps comps.length s).RanOut s := by
  induction comps generalizing s with
  | nil =>
    obtain ⟨hp, hne⟩ := h
    exact absurd (List.prefix_nil.1 (by simpa using hp)) (by simpa using hne)
  | cons c comps ih =>
    exact (reads_bytes (l := [c.cs, c.td ++ c.ta]) rfl).bind_short (fun h => (ih h).bind _) h

/-- The input ends inside a scan header that passes the checks. -/
theorem readScanHeader_short {comps : List ScanComp} {ss se : Byte} {ah al : BitVec 4} {s : State} (h1 : 1 ≤ comps.length)
    (h255 : comps.length ≤ 255) (hn : comps.length ≤ s.params.ncompMax) (h : s.cutShort (scanBytes comps ss se ah al)) :
    (readScanHeader s).RanOut s := by
  rw [scanBytes, List.append_assoc] at h
  rcases State.cutShort_append h with h | ⟨ha, h⟩
  · exact readScanHeader_start_short h
  have count : (BitVec.ofNat 8 comps.length).toNat = comps.length := by simp; omega
  have len : (BitVec.ofNat 16 (6 + 2 * comps.length)).toNat = 6 + 2 * comps.length := by simp; omega
  rw [readScanHeader_start ha, scanChecks, count, len, if_neg (by omega), if_neg (by simpa using hn)]
  refine Res.RanOut.of_afterBytes (l := bytes16 (BitVec.ofNat 16 (6 + 2 * comps.length)) ++ [BitVec.ofNat 8 comps.length]) ?_
  rcases State.cutShort_append h with h | ⟨ha, h⟩
  · exact (readScanComps_short h).bind _
  · rw [readScanComps_ahead comps _ rfl ha, Res.bind_ok]
    exact (((reads_bytes (l := [ss, se, ah ++ al]) rfl).short h).bind _).of_afterBytes

/-! ## Binding -/

/-- The component a selector means is the first one with its id. -/
theorem find?_id_eq_some {comps : List FrameComp} {id : Byte} {f : FrameComp} :
    comps.find? (fun c => c.id == id) = some f ↔
      ∃ i : Nat, comps[i]? = some f ∧ f.id = id ∧ ∀ i' < i, ∀ f' : FrameComp, comps[i']? = some f' → f'.id ≠ id := by
  rw [List.find?_eq_some_iff_getElem]
  simp only [beq_iff_eq, Bool.not_eq_true', beq_eq_false_iff_ne]
  constructor
  · rintro ⟨hid, i, hi, rfl, hfirst⟩
    refine ⟨i, List.getElem?_eq_getElem hi, hid, fun i' hi' f' hf' => ?_⟩
    obtain ⟨_, rfl⟩ := List.getElem?_eq_some_iff.1 hf'
    exact hfirst i' hi'
  · rintro ⟨i, hf, hid, hfirst⟩
    obtain ⟨hi, rfl⟩ := List.getElem?_eq_some_iff.1 hf
    exact ⟨hid, i, hi, rfl, fun j hj => hfirst j hj _ (List.getElem?_eq_getElem (hj.trans hi))⟩

theorem slotAt_toNat_eq_some {α : Type} {s : Slots α} {w : Nat} {t : BitVec w} {x : α} :
    slotAt s t.toNat = some x ↔ t.toNat ≤ 3 ∧ slotGet s (t.setWidth 2) = some x := by
  rw [slotAt_eq_some, BitVec.ofNat_toNat]

theorem bindOne_eq_some {fh : FrameHeader} {eff : MiscTables} {sc : ScanComp} {b : Binding} :
    bindOne fh eff sc = some b ↔ ∃ f q dc ac, fh.comp.find? (fun c => c.id == sc.cs) = some f ∧
      slotAt eff.quant f.tq.toNat = some q ∧ slotAt eff.dc sc.td.toNat = some dc ∧ slotAt eff.ac sc.ta.toNat = some ac ∧
      b = ⟨f.id, f.h, f.v, f.width, f.height, f.h.toNat * f.v.toNat, q, dc, ac⟩ := by
  constructor
  · intro h
    unfold bindOne at h
    split at h
    · cases h
    · split at h
      · cases h
        exact ⟨_, _, _, _, ‹_›, ‹_›, ‹_›, ‹_›, rfl⟩
      · cases h
  · rintro ⟨f, q, dc, ac, hf, hq, hdc, hac, rfl⟩
    simp only [bindOne, hf, hq, hdc, hac]

/-- What a selector binds to is what `bindOne` answers, where the scan has not one component only. -/
theorem binds_iff_bindOne {fh : FrameHeader} {eff : MiscTables} {n : Nat} {sc : ScanComp} {b : Binding} (hn : n ≠ 1) :
    Binds fh eff n sc b ↔ bindOne fh eff sc = some b := by
  simp only [bindOne_eq_some, find?_id_eq_some, slotAt_toNat_eq_some, Binds, if_neg hn]
  constructor
  · rintro ⟨i, f, q, dc, ac, hf, hid, hfirst, hq3, hd3, ha3, hq, hdc, hac, rfl⟩
    exact ⟨f, q, dc, ac, ⟨i, hf, hid, hfirst⟩, ⟨hq3, hq⟩, ⟨hd3, hdc⟩, ⟨ha3, hac⟩, rfl⟩
  · rintro ⟨f, q, dc, ac, ⟨i, hf, hid, hfirst⟩, ⟨hq3, hq⟩, ⟨hd3, hdc⟩, ⟨ha3, hac⟩, rfl⟩
    exact ⟨i, f, q, dc, ac, hf, hid, hfirst, hq3, hd3, ha3, hq, hdc, hac, rfl⟩

theorem bindLoop_append (l m : List ScanComp) (j : Nat) (s : State) :
    bindLoop j (l ++ m) s = (bindLoop j l s).bind fun _ t => bindLoop (j + l.length) m t := by
  induction l generalizing j s with
  | nil => rfl
  | cons sc l ih =>
    rw [List.cons_append, bindLoop, bindLoop]
    cases bindOne s.fh s.eff sc with
    | none => rfl
    | some b =>
      rw [List.length_cons, ← Nat.add_assoc, Nat.add_right_comm]
      exact ih (j + 1) _

/-- The first selector that binds to nothing ends the binding; those before it are bound (44_headers.md R232). -/
theorem bindComponents_fails {s : State} {pre post : List ScanComp} {bad : ScanComp} {bs : List Binding}
    (hcomp : s.sh.comp = pre ++ bad :: post) (hpre : bindAll s.fh s.eff pre = some bs)
    (hbad : bindOne s.fh s.eff bad = none) :
    bindComponents s = raise .bindFailure none { s with bind := bs ++ s.bind.drop pre.length } := by
  rw [bindComponents, hcomp, bindLoop_append, bindLoop_ok pre 0 s (Nat.zero_le _) hpre, Res.bind_ok, bindLoop]
  simp only [hbad, bindAll_length hpre, List.take_zero, List.nil_append, Nat.zero_add]
  rfl

/-! ## The row of SOS (46_top_level.md R296) -/

theorem nextMarker_scanRegs (m : Marker) (s : State) : scanRegs (nextMarker m s) = scanRegs s := by
  unfold nextMarker
  split <;> rfl

theorem exec_sos {s : State} (hs : s.st = .awaitingSOS) (hv : s.fhV = true) :
    exec .sos s = settle ((readScanHeader { nextMarker 0xFFDA#16 s with st := .scanHeader }).bind fun _ t =>
      (bindComponents { t with eff := cascade t.base t.ovl }).bind fun _ t =>
        .ok () (beginMCU { scanStart t with st := .decodingMCUs })) := by
  have hst : (nextMarker 0xFFDA#16 s).st ≠ .frameTables := by simp [hs]
  obtain ⟨-, -, -, -, -, -, -, -, fhV, -⟩ := fields_of_scanRegs (nextMarker_scanRegs 0xFFDA#16 s)
  rw [exec_inHeader (i := .sos) (c := 0xDA#8) rfl (.inr hs)]
  change settle (sosRow 0xFFDA#16 (nextMarker 0xFFDA#16 s)) = _
  rw [sosRow, if_neg hst, scanHeaderPhase, if_neg (by simp [fhV, hv])]

/-- The marker of a scan header is the last one read, fresh or pending (10_state.md R32, R47). -/
theorem nextMarker_lastmk {s : State} {m : Marker} (h : s.Inv) (hp : s.pendmkV = true → s.pendmk = m) :
    (nextMarker m s).lastmk = m := by
  unfold nextMarker
  split
  · rename_i hv
    obtain ⟨⟨_, _, _, hlast⟩, -⟩ := h.pending hv
    exact hlast.trans (hp hv)
  · rfl

/-- Settles O26: the header is cut short, refused by a check on its count, or read whole; then the first selector that
binds to nothing ends the binding. -/
theorem scanHeaderRefused : Obligations.ScanHeaderRefused := by
  intro s hs hv u
  rw [exec_sos hs hv]
  have params : u.params = s.params := (nextMarker_fields _ s).1
  refine ⟨nextMarker_lastmk, fun ls ns h => ?_, fun comps ss se ah al h1 h255 hn h => ?_,
    fun ls ns ha => ⟨fun h => ?_, fun h1 hl h => ?_⟩, fun pre post bad ss se ah al bs => ?_⟩
  · exact ((readScanHeader_start_short (s := { u with st := .scanHeader }) h).bind _).settle
  · exact ((readScanHeader_short (s := { u with st := .scanHeader }) h1 h255 (params ▸ hn) h).bind _).settle
  · rw [readScanHeader_start (s := { u with st := .scanHeader }) ha, scanChecks_malformed h]
    rfl
  · rw [readScanHeader_start (s := { u with st := .scanHeader }) ha, scanChecks_over_capacity h1 hl (params ▸ h)]
    rfl
  · intro comps h255 hn hpre hbad ha
    have h1 : 1 ≤ comps.length := List.length_pos_of_mem (List.mem_append_right pre List.mem_cons_self)
    have same : ∀ {sc b}, Binds s.fh (cascade s.base s.ovl) 0 sc b ↔ bindOne s.fh (cascade s.base s.ovl) sc = some b :=
      binds_iff_bindOne Nat.zero_ne_one
    have unbound : bindOne s.fh (cascade s.base s.ovl) bad = none :=
      Option.eq_none_iff_forall_ne_some.2 fun b hb => hbad ⟨b, same.2 hb⟩
    obtain ⟨base, ovl, -, -, bind, -, -, fh, -⟩ := fields_of_scanRegs (nextMarker_scanRegs 0xFFDA#16 s)
    have hbound : bindAll s.fh (cascade s.base s.ovl) pre = some bs := bindAll_eq_some.2 (hpre.imp fun _ _ => same.1)
    rw [← fh, ← base, ← ovl] at hbound unbound
    rw [readScanHeader_ahead (s := { u with st := .scanHeader }) h1 h255 (params ▸ hn) ha, Res.bind_ok,
      bindComponents_fails rfl hbound unbound, ← bind, ← base, ← ovl]
    rfl

end Sys2Proof.Machine
end

section
/-! SUPPORT. What SOFn and SOS in a header region may change (44_headers.md R220, R221, R226, R231; 45_scan_engine.md R271):
said of the row, kept by the end of the step. -/

namespace Sys2Proof.Machine

/-- The state without the stream and error registers and `STATE`. -/
def streamKeep (s : State) : State :=
  { s with
    pos := 0, lastpos := 0, pbArmed := false, lastmk := 0#16, st := .awaitSOI
    errCode := 0#4, errMarker := 0#16, errPos := 0, errState := 0#4 }

/-- The state without these, the frame header and `OVL`: what a SOFn leaves alone. -/
def frameKeep (s : State) : State :=
  { streamKeep s with fh := State.reset.fh, fhV := false, ovl := MiscTables.empty }

/-- The state without the stream and error registers, `STATE` and the registers of a scan's header and start: what SOS leaves
alone. -/
def scanKeep (s : State) : State :=
  { streamKeep s with
    sh := State.reset.sh, eff := MiscTables.empty, nbind := 0, bind := [], mcuCount := 0
    pred := [], bitcnt := 0, rstexp := 0#3, mcuInInt := 0, mcuDone := 0, ri := 0
    atb := false, curJ := 0, curU := 0, zz := [], unitPos := .dc }

section
variable {s t : State}

theorem frameKeep_of_streamKeep (h : streamKeep t = streamKeep s) : frameKeep t = frameKeep s := by
  simp only [frameKeep, h]

theorem scanKeep_of_streamKeep (h : streamKeep t = streamKeep s) : scanKeep t = scanKeep s := by
  simp only [scanKeep, h]

theorem frameRegs_of_streamKeep (h : streamKeep t = streamKeep s) : t.fh = s.fh ∧ t.fhV = s.fhV ∧ t.ovl = s.ovl :=
  ⟨(congrArg State.fh h :), (congrArg State.fhV h :), (congrArg State.ovl h :)⟩

theorem eq_of_frameKeep (h : frameKeep t = frameKeep s) :
    t = { s with
      pos := t.pos, lastpos := t.lastpos, pbArmed := t.pbArmed, lastmk := t.lastmk
      fh := t.fh, fhV := t.fhV, ovl := t.ovl, st := t.st
      errCode := t.errCode, errMarker := t.errMarker, errPos := t.errPos, errState := t.errState } := by
  cases s; cases t; simp_all [frameKeep, streamKeep]

theorem eq_of_scanKeep (h : scanKeep t = scanKeep s) :
    t = { s with
      pos := t.pos, lastpos := t.lastpos, pbArmed := t.pbArmed, lastmk := t.lastmk
      sh := t.sh, eff := t.eff, nbind := t.nbind, bind := t.bind, mcuCount := t.mcuCount
      pred := t.pred, bitcnt := t.bitcnt, rstexp := t.rstexp, mcuInInt := t.mcuInInt, mcuDone := t.mcuDone, ri := t.ri
      atb := t.atb, curJ := t.curJ, curU := t.curU, zz := t.zz, unitPos := t.unitPos, st := t.st
      errCode := t.errCode, errMarker := t.errMarker, errPos := t.errPos, errState := t.errState } := by
  cases s; cases t; simp_all [scanKeep, streamKeep]

theorem StreamFrame.streamKeep (h : StreamFrame s t) : streamKeep t = Sys2Proof.Machine.streamKeep s := by
  obtain ⟨p, l, b, rfl, -⟩ := h
  rfl

/-- The end of an operation writes the error registers and `STATE` at most (45_scan_engine.md R270, 60_exceptions.md R335). -/
theorem settle_streamKeep {r : Res Unit} (h : settle r = .next t) : streamKeep t = streamKeep r.final := by
  cases r with
  | ok a u => cases h; rfl
  | stop c u =>
    cases c with
    | raise e i => cases h; rfl
    | fault f => cases h
    | signal g =>
      cases h
      cases g with
      | endOfScan => rfl
      | markerFound m =>
        simp only [scanSignal]
        split <;> rfl

/-- Reading the marker moves the stream and takes the pending bit, whose marker was consumed before (46_top_level.md R293). -/
theorem nextMarker_streamKeep (m : Marker) (s : State) :
    streamKeep (nextMarker m s) = streamKeep { s with pendmkV := false } := by
  unfold nextMarker
  split
  · rfl
  · rename_i hp
    rw [← Bool.eq_false_of_not_eq_true hp]
    rfl

end

/-! ## The rows -/

/-- The row of a frame marker stores a whole header, or only moves the stream. -/
theorem frameRow_cases (m : Marker) (s : State) :
    StreamFrame s (frameRow m s).final ∨ ∃ u f, StreamFrame s u ∧
      frameRow m s = .ok () { u with fh := f, fhV := true, ovl := MiscTables.empty, st := .awaitingSOS } := by
  unfold frameRow
  split
  · split
    · exact .inl (.refl s)
    · rename_i hm
      cases hr : readFrameHeader m s with
      | stop c t => exact .inl (readFrameHeader_stop hr)
      | ok a t =>
        obtain ⟨u, f, hu, -, -, rfl⟩ := readFrameHeader_ok (not_not.1 hm) hr
        exact .inr ⟨u, f, hu, rfl⟩
  · exact .inl (.refl s)

theorem readScanHeader_scanKeep (s : State) : scanKeep (readScanHeader s).final = scanKeep s := by
  cases hr : readScanHeader s with
  | ok a t =>
    obtain ⟨u, sh, hu, -, -, -, -, rfl⟩ := readScanHeader_ok hr
    exact (scanKeep_of_streamKeep hu.streamKeep :)
  | stop c t => exact scanKeep_of_streamKeep (readScanHeader_stop hr).streamKeep

theorem bindLoop_scanKeep (scs : List ScanComp) (j : Nat) (s : State) :
    scanKeep (bindLoop j scs s).final = scanKeep s := by
  induction scs generalizing j s with
  | nil => rfl
  | cons sc scs ih =>
    rw [bindLoop]
    cases bindOne s.fh s.eff sc with
    | none => rfl
    | some b => exact ih (j + 1) { s with bind := bindSet s.bind j b }

theorem bindComponents_scanKeep (s : State) : scanKeep (bindComponents s).final = scanKeep s := by
  refine Res.final_bind_eq scanKeep (bindLoop_scanKeep _ _ s) fun _ t _ => ?_
  dsimp only
  split
  · split <;> rfl
  · split <;> rfl

theorem beginMCU_scanStart_scanKeep (s : State) :
    scanKeep (beginMCU { scanStart s with st := .decodingMCUs }) = scanKeep s := by
  simp [scanKeep, streamKeep]

theorem scanHeaderPhase_scanKeep (s : State) : scanKeep (scanHeaderPhase s).final = scanKeep s := by
  unfold scanHeaderPhase
  split
  · rfl
  · refine Res.final_bind_eq scanKeep (readScanHeader_scanKeep s) fun _ t _ => ?_
    have bound : scanKeep (bindComponents { t with eff := cascade t.base t.ovl }).final = scanKeep t :=
      bindComponents_scanKeep _
    exact Res.final_bind_eq scanKeep bound fun _ u _ => beginMCU_scanStart_scanKeep u

theorem sosRow_scanKeep (m : Marker) (s : State) : scanKeep (sosRow m s).final = scanKeep s := by
  unfold sosRow
  split
  · rfl
  · exact scanHeaderPhase_scanKeep { s with st := .scanHeader }

/-! ## The statement -/

/-- What a frame marker leaves alone, and what it leaves alone when it fails. -/
theorem frameRow_frame {m : Marker} {s t : State} (h : settle (frameRow m s) = .next t) :
    frameKeep t = frameKeep s ∧ (t.st = .error → t.fh = s.fh ∧ t.fhV = s.fhV ∧ t.ovl = s.ovl) := by
  rcases frameRow_cases m s with hf | ⟨u, f, hu, e⟩
  · have hkeep := (settle_streamKeep h).trans hf.streamKeep
    exact ⟨frameKeep_of_streamKeep hkeep, fun _ => frameRegs_of_streamKeep hkeep⟩
  · rw [e] at h
    cases h
    exact ⟨(frameKeep_of_streamKeep hu.streamKeep :), nofun⟩

/-- Settles O53: the frame of its row is the frame of the marker. -/
theorem headerFrame : Obligations.HeaderFrame := by
  intro i c s t hi hs hexec
  rw [exec_inHeader hi hs] at hexec
  have marker := nextMarker_streamKeep (markerOf c) s
  refine ⟨fun hframe => ?_, ?_⟩
  · rw [markerRow_of_isFrame hi hframe] at hexec
    obtain ⟨keep, onError⟩ := frameRow_frame hexec
    obtain ⟨fh, fhV, ovl⟩ := frameRegs_of_streamKeep marker
    rw [fh, fhV, ovl] at onError
    exact ⟨eq_of_frameKeep (keep.trans (frameKeep_of_streamKeep marker)), onError⟩
  · rintro rfl
    have keep := scanKeep_of_streamKeep (settle_streamKeep hexec)
    have row := sosRow_scanKeep (markerOf c) (nextMarker (markerOf c) s)
    have h := keep.trans (row.trans (scanKeep_of_streamKeep marker))
    exact eq_of_scanKeep h

end Sys2Proof.Machine
end

section
/-! SUPPORT. The tokens met while a scan is decoded (45_scan_engine.md R277, R279): a marker where entropy-coded data is
wanted, and the marker at a restart boundary. -/

namespace Sys2Proof.Machine

/-! ## A marker where entropy-coded data is wanted (R277) -/

theorem exec_marker_decoding {i : Instr} {c : Byte} {s : State} (hi : i.markerCode = some c) (hs : s.st = .decodingMCUs) :
    exec i s = settle (markerInEntropy (markerOf c) (beginDecode s)) := by
  rw [exec_marker hi, dispatchMarker, hs]

/-- Any marker but DNL waits in `PENDMK`: at an MCU boundary the scan is complete, inside an MCU it is an error. -/
theorem settle_markerInEntropy {m : Marker} (hm : m ≠ 0xFFDC#16) (s : State) :
    settle (markerInEntropy m s) = .next
      (if s.atb = true then { consumeMarker m s with pendmk := m, pendmkV := true, st := .scanComplete }
      else State.latched 3#4 m { consumeMarker m s with pendmk := m, pendmkV := true }) := by
  rw [markerInEntropy_of_ne_dnl hm, settle, scanSignal]
  rfl

section
variable {s : State}

/-- A DNL segment of length 4 completes the scan and latches the line count (R277 (c), 41_bitreader.md R164). -/
theorem settle_dnl_ahead {nl : BitVec 16} (h : (consumeMarker 0xFFDC#16 s).ahead (bytes16 4#16 ++ bytes16 nl)) :
    settle (markerInEntropy 0xFFDC#16 s) = .next { afterBytes (bytes16 4#16 ++ bytes16 nl) (consumeMarker 0xFFDC#16 s) with
      dnlSeen := true, dnlNl := nl, st := .scanComplete } := by
  rw [markerInEntropy_dnl, readDNLbody_ahead h]
  rfl

theorem settle_dnl_bad_length {ld : BitVec 16} (hld : ld ≠ 4#16) (h : (consumeMarker 0xFFDC#16 s).ahead (bytes16 ld)) :
    settle (markerInEntropy 0xFFDC#16 s) =
      .next (State.latched 4#4 0xFFDC#16 (afterBytes (bytes16 ld) (consumeMarker 0xFFDC#16 s))) := by
  rw [markerInEntropy_dnl, readDNLbody_of_bad_length hld h]
  rfl

theorem settle_dnl_cutShort {ld nl : BitVec 16} (h : (consumeMarker 0xFFDC#16 s).cutShort (bytes16 ld) ∨
    (consumeMarker 0xFFDC#16 s).cutShort (bytes16 4#16 ++ bytes16 nl)) :
    endsExhausted (consumeMarker 0xFFDC#16 s) (settle (markerInEntropy 0xFFDC#16 s)) := by
  rw [markerInEntropy_dnl]
  exact ((readDNLbody_cutShort h).bind _).settle

end

/-- Settles O19: a marker but DNL by where it is met, a DNL segment by how its body ends. -/
theorem markerInEntropyData : Obligations.MarkerInEntropyData := by
  intro i c s hi hs u
  have ne (hc : c ≠ 0xDC#8) : markerOf c ≠ 0xFFDC#16 := fun h => hc (markerOf_inj.1 h)
  rw [exec_marker_decoding hi hs]
  refine ⟨fun hc hatb => ?_, fun hc hatb => ?_, ?_⟩
  · rw [settle_markerInEntropy (ne hc), if_pos (by simpa using hatb)]
    rfl
  · rw [settle_markerInEntropy (ne hc), if_neg (by simp [hatb])]
    rfl
  · rintro rfl ld nl
    exact ⟨settle_dnl_ahead (s := beginDecode s), settle_dnl_bad_length (s := beginDecode s),
      settle_dnl_cutShort (s := beginDecode s)⟩

/-! ## The restart boundary (R279) -/

theorem enterBoundary_pred_eq_zero {s : State} {j : Nat} (hj : j < s.nbind) : (enterBoundary s).pred[j]? = some 0 := by
  simp [List.getElem?_append_left, hj]

theorem exec_marker_boundary {i : Instr} {c : Byte} {s : State} (hi : i.markerCode = some c) (hs : s.st = .restartBoundary) :
    exec i s = settle (boundaryMarker (markerOf c) (consumeMarker (markerOf c) s)) := by
  rw [exec_marker hi, dispatchMarker, hs]

theorem exec_byte_boundary {s : State} (hs : s.st = .restartBoundary) (b : Byte) (n : Nat) :
    dispatchByte b n s = .next (State.latched 2#4 s.lastmk s) := by
  rw [dispatchByte, hs]
  rfl

theorem rstIndex_rst (n : BitVec 3) : rstIndex (markerOf (0b11010#5 ++ n)) = some n := rstIndex_markerOf.2 rfl

/-- A marker that is no RSTn has no restart index. -/
theorem rstIndex_eq_none {i : Instr} {c : Byte} (hi : i.markerCode = some c) (hn : ∀ n, i ≠ .rst n) :
    rstIndex (markerOf c) = none := by
  refine Option.eq_none_iff_forall_ne_some.2 fun n h => hn n ?_
  have code : (Instr.rst n).markerCode = some c := congrArg some (rstIndex_markerOf.1 h)
  exact Option.some.inj ((instrOfCode_eq_some.2 hi).symm.trans (instrOfCode_eq_some.2 code))

/-- `RSTEXP` counts modulo 8. -/
theorem rstexp_succ (n : BitVec 3) : n + 1#3 = BitVec.ofNat 3 ((n.toNat + 1) % 8) := by
  revert n
  decide

/-- The end of input where a token is wanted at `POS`. -/
theorem step_boundary_exhausted {s : State} (hs : s.st = .restartBoundary) (h : peekToken (remaining s) = .exhausted) :
    step s = .next (State.latched 1#4 s.lastmk { s with pos := s.input.length }) := by
  have hd : decode .token (remaining s) = .error .exhausted := by rw [decode, decodeToken, h]
  have hf : fetch s = .noInstr (exhausted s) := by simp only [fetch, hs, fetchFrom, hd]
  rw [step, hf]
  rfl

/-- Settles O20: on entry by what `enterBoundary` writes, there by the marker's restart index. -/
theorem restartBoundary : Obligations.RestartBoundary := by
  refine ⟨fun s => ⟨fun j => enterBoundary_pred_eq_zero, rfl, rfl, rfl⟩, fun s hs => ⟨fun n => ⟨?_, fun hn => ?_⟩,
    fun i c hi hn => ?_, fun b => exec_byte_boundary hs b 1, exec_byte_boundary hs 0xFF#8 2, step_boundary_exhausted hs⟩⟩
  · rintro rfl
    rw [exec_marker_boundary (i := .rst s.rstexp) rfl hs, boundaryMarker, rstIndex_rst, ← rstexp_succ]
    simp only [consumeMarker_fields, ne_eq, not_true_eq_false, if_false]
    rfl
  · rw [exec_marker_boundary (i := .rst n) rfl hs, boundaryMarker, rstIndex_rst]
    simp only [consumeMarker_fields, ne_eq, hn, not_false_eq_true, if_true]
    rfl
  · rw [exec_marker_boundary hi hs, boundaryMarker, rstIndex_eq_none hi hn]
    rfl

end Sys2Proof.Machine
end

section
/-! SUPPORT. The samples (45_scan_engine.md R259 to R261): one place of a block as the real inverse DCT, converted and level
shifted. -/

namespace Sys2Proof.Machine

/-- The sample at row `y`, column `x`. -/
theorem samples_at (mode : IdctInt) (p ctr : Nat) (nat : List Int) {x y : Nat} (hx : x < 8) (hy : y < 8) :
    (samples mode p ctr nat)[8 * y + x]? = some (levelShift p
      (toInt mode (Config.envelopeUp (ctr + (8 * y + x))) (idct16 (idctRows nat) y x))) := by
  have row : (8 * y + x) / 8 = y := by omega
  have col : (8 * y + x) % 8 = x := by omega
  rw [samples_getElem? mode p ctr nat (by omega), row, col]

/-- Settles O46: `idct16` is 16 times the real inverse DCT, and each mode's conversion is that of a sixteenth of it. -/
theorem inverseDct : Obligations.InverseDct := by
  intro nat p ctr x y _ hx hy real
  have hreal : (idct16 (idctRows nat) y x).real / 16 = real := idct16_real nat hx hy
  refine ⟨?_, ?_, toInt .envelope (Config.envelopeUp (ctr + (8 * y + x))) (idct16 (idctRows nat) y x), ?_, ?_⟩
  · rw [samples_at .trunc p ctr nat hx hy, toInt_trunc, hreal]
  · rw [samples_at .nearest p ctr nat hx hy, toInt_nearest, hreal]
  · rw [← hreal]
    exact toInt_envelope _ _
  · exact samples_at .envelope p ctr nat hx hy

end Sys2Proof.Machine
end

section
/-! SUPPORT. The symbols of a data unit, each with its extra bits (45_scan_engine.md R253 to R263): what its step answers when
they are all there. -/

namespace Sys2Proof.Machine

/-- A symbol where the sequencer reads it. -/
theorem symbolAt_inPlace {p : UnitPos} {body : State → Res Unit} {s : State} (hs : s.st = .decodingMCUs) (hp : s.unitPos = p) :
    symbolAt p body s = settle (body s) := by
  rw [symbolAt, hs]
  exact if_pos hp

section
variable {s : State} (hs : s.st = .decodingMCUs)
include hs

theorem exec_dcSize (hp : s.unitPos = .dc) (t : BitVec 8) : exec (.dcSize t) s = settle (dcStep t.toNat s) :=
  symbolAt_inPlace hs hp

theorem exec_eob (hp : s.unitPos = .ac) (r : BitVec 4) : exec (.eob r) s = settle (endOfBlock s) := symbolAt_inPlace hs hp

theorem exec_zrl (hp : s.unitPos = .ac) : exec .zrl s = settle (zrlStep s) := symbolAt_inPlace hs hp

theorem exec_acCoef (hp : s.unitPos = .ac) (r z : BitVec 4) :
    exec (.acCoef r z) s = settle (coefStep r.toNat z.toNat s) := symbolAt_inPlace hs hp

end

/-! ## Extra bits

A symbol's step writes `ATB` or `K` before it reads its extra bits; the bit reader looks at neither. -/

theorem nextBit_mark {s t : State} {b : Bool} (h : nextBit s = .ok b t) (a : Bool) (k : Nat) :
    nextBit { s with atb := a, k := k } = .ok b { t with atb := a, k := k } := by
  unfold nextBit at h ⊢
  split at h
  · rename_i hb
    obtain ⟨_, u, hr, h⟩ := Res.bind_eq_ok.1 h
    obtain ⟨c, n, hp, rfl⟩ := refill_ok hr
    cases h
    have hr' : refill { s with atb := a, k := k } = .ok () (loadByte c n { s with atb := a, k := k }) := by
      rw [refill, show remaining { s with atb := a, k := k } = remaining s from rfl, hp]
    rw [if_pos hb, hr']
    rfl
  · rename_i hb
    cases h
    exact if_neg hb

theorem receiveInto_mark {n v w : Nat} {s t : State} (h : receiveInto n v s = .ok w t) (a : Bool) (k : Nat) :
    receiveInto n v { s with atb := a, k := k } = .ok w { t with atb := a, k := k } := by
  induction n generalizing v s with
  | zero => cases h; rfl
  | succ n ih =>
    obtain ⟨b, u, hb, h⟩ := Res.bind_eq_ok.1 h
    rw [receiveInto, nextBit_mark hb, Res.bind_ok, ih h]

/-! ## The DC step (R253) -/

theorem dcStep_over_limit {t : Nat} {s : State} (h : s.params.dcsizeMax < t) :
    dcStep t s = raise .capacityExceeded none { s with atb := false } := if_pos h

theorem dcStep_within_limit {t : Nat} {s : State} (h : t ≤ s.params.dcsizeMax) :
    dcStep t s = (receive t { s with atb := false }).bind fun v u =>
      .ok () { u with
        pred := arraySet 0 u.pred u.curJ (u.pred.getD u.curJ 0 + dcDiff v t)
        zz := u.zz.set 0 (u.pred.getD u.curJ 0 + dcDiff v t), k := 1, unitPos := .ac } := if_neg (not_lt.2 h)

/-- The sum of the predictor and the difference of extra bits of value `v` (R253). -/
def dcValue (s : State) (v t : Nat) : Int := s.pred.getD s.curJ 0 + dcDiff v t

/-- The state after a DC symbol begun in `s`, its extra bits read in `u` and of value `v`. -/
def dcDone (s : State) (v t : Nat) (u : State) : State :=
  { u with
    atb := false, pred := arraySet 0 s.pred s.curJ (dcValue s v t), zz := s.zz.set 0 (dcValue s v t), k := 1
    unitPos := .ac }

theorem dcStep_ok {t v : Nat} {s u : State} (h : t ≤ s.params.dcsizeMax) (hr : receive t s = .ok v u) :
    dcStep t s = .ok () (dcDone s v t u) := by
  have hk := (receive_ok hr).keep
  have pred : u.pred = s.pred := (congrArg State.pred hk :)
  have curJ : u.curJ = s.curJ := (congrArg State.curJ hk :)
  have zz : u.zz = s.zz := (congrArg State.zz hk :)
  rw [dcStep_within_limit h, receive, receiveInto_mark hr false s.k, Res.bind_ok]
  simp only [dcDone, dcValue, pred, curJ, zz]

theorem getD_arraySet {α : Type} (fill : α) (l : List α) (j : Nat) (x : α) (i : Nat) :
    (arraySet fill l j x).getD i fill = if i = j then x else l.getD i fill := by
  simp only [List.getD_eq_getElem?_getD]
  unfold arraySet
  split
  · grind
  · grind

/-- Settles O40: the limit is checked before any bit is read, and within it the extra bits are the next ones ahead. -/
theorem dcStep_predicts : Obligations.DcStep := by
  intro s t hs hu
  rw [exec_dcSize hs hu]
  constructor
  · intro h
    rw [dcStep_over_limit h]
    rfl
  · intro l rest ht h8 hlen ha p
    obtain ⟨u, hr, taken⟩ := receive_taken h8 ha
    have hp : dcValue s (bitsValue l) t.toNat = p := by
      simp only [dcValue, dcDiff, p, BitVec.toNat_eq, BitVec.toNat_ofNat, Nat.zero_mod]
    rw [dcStep_ok ht (hlen ▸ hr), dcDone, hp]
    exact ⟨u, _, taken, fun j => getD_arraySet 0 s.pred s.curJ p j, rfl⟩

/-! ## The end of a data unit (R257 to R263, R270) -/

theorem nextUnit_finishUnit (b : Binding) (s : State) :
    nextUnit b (finishUnit b s) = s.unitEnds b (dequantize s.zz b.q.q) (unZigzag (dequantize s.zz b.q.q))
      (samples s.params.idctInt s.fh.p.toNat s.freeCtr (unZigzag (dequantize s.zz b.q.q))) := by
  unfold nextUnit State.unitEnds
  refine if_congr Iff.rfl rfl (if_congr Iff.rfl rfl ?_)
  unfold mcuCompleted
  exact if_congr (by simp [finishUnit]) rfl rfl

theorem dequantize_getD {zz : List Int} {q : List Nat} (hz : zz.length = 64) (hq : q.length = 64) {k : Nat} (hk : k < 64) :
    (dequantize zz q).getD k 0 = zz.getD k 0 * ((q.getD k 0 : Nat) : Int) := by
  simp only [List.getD_eq_getElem?_getD, dequantize_getElem? (hz ▸ hk) (hq ▸ hk)]
  simp [hz, hq, hk]

theorem unZigzag_getD {dq : List Int} (hd : dq.length = 64) {k : Nat} (hk : k < 64) :
    (unZigzag dq).getD (zigzag.getD k 0) 0 = dq.getD k 0 := by
  have hz : zigzag.getD k 0 = zigzag[k]'hk := List.getD_eq_getElem _ _ hk
  rw [hz, List.getD_eq_getElem?_getD, List.getD_eq_getElem?_getD, unZigzag_getElem? hd hk]

theorem endOfBlock_ok {s : State} {b : Binding} (hv : s.fhV = true) (hb : currentBinding s = some b) :
    endOfBlock s = .ok () (nextUnit b (finishUnit b s)) := by
  rw [endOfBlock, hb]
  exact if_pos hv

theorem endOfBlock_unitDone {s : State} {b : Binding} (hv : s.fhV = true) (hb : currentBinding s = some b)
    (hz : s.zz.length = 64) (hq : b.q.q.length = 64) : ∃ t, endOfBlock s = .ok () t ∧ UnitDone s b t := by
  have hd := dequantize_length hz hq
  exact ⟨_, endOfBlock_ok hv hb, _, _, hd, unZigzag_length _,
    fun k hk => ⟨dequantize_getD hz hq hk, unZigzag_getD hd hk⟩, nextUnit_finishUnit b s⟩

/-- Settles O41: the run is not looked at, and the block ends as `endOfBlock` does. -/
theorem eobStep : Obligations.EobStep := by
  intro s r b hs hu hv hb hz hq
  obtain ⟨t, ht, done⟩ := endOfBlock_unitDone hv hb hz hq
  rw [exec_eob hs hu, ht]
  exact ⟨t, rfl, done⟩

/-! ## The AC step (R255, R256) -/

theorem zrlStep_within {s : State} (h : s.k + 16 ≤ 63) : zrlStep s = .ok () { s with k := s.k + 16 } :=
  if_neg (by dsimp only; omega)

theorem zrlStep_overrun {s : State} (h : 63 < s.k + 16) :
    zrlStep s = raise .coefficientOverrun none { s with k := s.k + 16 } := if_pos h

theorem coefStep_overrun {r z : Nat} {s : State} (h : 63 < s.k + r) :
    coefStep r z s = raise .coefficientOverrun none { s with k := s.k + r } := if_pos h

/-- What the AC step does once its extra bits are read: the coefficient is stored, and at index 63 the block is complete. -/
def storeCoef (z v : Nat) (s : State) : Res Unit :=
  if s.k = 63 then endOfBlock { s with zz := s.zz.set s.k (extend v z) }
  else .ok () { s with zz := s.zz.set s.k (extend v z), k := s.k + 1 }

theorem coefStep_within {r z : Nat} {s : State} (h : s.k + r ≤ 63) :
    coefStep r z s = (receive z { s with k := s.k + r }).bind fun v u => storeCoef z v u := if_neg (not_lt.2 h)

theorem coefStep_ok {r z v : Nat} {s u : State} (h : s.k + r ≤ 63) (hr : receive z s = .ok v u) :
    coefStep r z s = storeCoef z v { u with k := s.k + r } := by
  have hatb : u.atb = s.atb := (congrArg State.atb (receive_ok hr).keep :)
  rw [coefStep_within h, receive, receiveInto_mark hr s.atb (s.k + r), Res.bind_ok, ← hatb]

theorem storeCoef_before_last {z v : Nat} {s : State} (h : s.k < 63) :
    storeCoef z v s = .ok () { s with zz := s.zz.set s.k (extend v z), k := s.k + 1 } := if_neg (by omega)

theorem storeCoef_last {z v : Nat} {s : State} (h : s.k = 63) :
    storeCoef z v s = endOfBlock { s with zz := s.zz.set s.k (extend v z) } := if_pos h

/-- Settles O42: by the index the symbol reaches. -/
theorem acStep : Obligations.AcStep := by
  intro s hs hu
  rw [exec_zrl hs hu]
  refine ⟨fun h => ?_, fun h => ?_, fun r z => ?_⟩
  · rw [zrlStep_within h]
    rfl
  · rw [zrlStep_overrun h]
    rfl
  rw [exec_acCoef hs hu]
  constructor
  · intro h
    rw [coefStep_overrun h]
    rfl
  · intro l rest h8 hlen ha zz
    obtain ⟨u, hr, taken⟩ := receive_taken h8 ha
    rw [hlen] at hr
    have hz : u.zz = s.zz := (congrArg State.zz taken.keep :)
    constructor
    · intro h
      rw [coefStep_ok h.le hr, storeCoef_before_last h, hz]
      exact ⟨u, taken, rfl⟩
    · intro h b hv hb hz64 hq
      have stored : coefStep r.toNat z.toNat s = endOfBlock { u with zz := zz, k := 63 } := by
        rw [coefStep_ok h.le hr, storeCoef_last h]
        simp only [zz, hz, h]
      have held : u.fhV = true := (congrArg State.fhV taken.keep :).trans hv
      have bound : currentBinding u = some b := (congrArg currentBinding taken.keep :).trans hb
      obtain ⟨t, ht, done⟩ := endOfBlock_unitDone (s := { u with zz := zz, k := 63 }) held bound
        (List.length_set.trans hz64) hq
      rw [stored, ht]
      exact ⟨u, t, taken, rfl, done⟩

end Sys2Proof.Machine
end

section
/-! SUPPORT. The symbols that do not end in their own step (45_scan_engine.md R270, R277; 43_huffman_decode.md R211;
60_exceptions.md R336): extra bits that run out, and a code word that is not decoded. -/

namespace Sys2Proof.Machine

/-! ## Extra bits that run out -/

theorem receiveInto_add (m n v : Nat) (s : State) :
    receiveInto (m + n) v s = (receiveInto m v s).bind fun w t => receiveInto n w t := by
  induction m generalizing v s with
  | zero => rw [Nat.zero_add]; rfl
  | succ m ih =>
    rw [Nat.add_right_comm, receiveInto, receiveInto, Res.bind_assoc]
    simp only [ih]

/-- Once all the bits ahead are taken, whatever `ATB` and `K` hold by then, a further bit is asked of a refill, which stops. -/
theorem receive_past_end {n w : Nat} {s u : State} (hr : receive s.bitsAhead.length s = .ok w u) (hu : u.bitsAhead = [])
    (hn : s.bitsAhead.length < n) (a : Bool) (k : Nat) : ∃ c t,
      refill { u with atb := a, k := k } = .stop c t ∧ receive n { s with atb := a, k := k } = .stop c t := by
  obtain ⟨m, rfl⟩ : ∃ m, n = s.bitsAhead.length + (m + 1) := ⟨n - s.bitsAhead.length - 1, by omega⟩
  obtain ⟨-, c, t, hrefill, hbit⟩ := nextBit_runsOut (s := { u with atb := a, k := k }) hu
  refine ⟨c, t, hrefill, ?_⟩
  rw [receive, receiveInto_add, receiveInto_mark hr, Res.bind_ok, receiveInto, hbit, Res.bind_stop]

theorem dcStep_stop {t : Nat} {s u : State} {c : Stop} (h : t ≤ s.params.dcsizeMax)
    (hr : receive t { s with atb := false } = .stop c u) : dcStep t s = .stop c u := by
  rw [dcStep_within_limit h, hr, Res.bind_stop]

theorem coefStep_stop {r z : Nat} {s u : State} {c : Stop} (h : s.k + r ≤ 63)
    (hr : receive z { s with k := s.k + r } = .stop c u) : coefStep r z s = .stop c u := by
  rw [coefStep_within h, hr, Res.bind_stop]

/-- Settles O43: the bits ahead are taken and the refill decides, by the token it meets. -/
theorem symbolCutShort : Obligations.SymbolCutShort := by
  intro s hs h8
  obtain ⟨u, hr, taken⟩ := receive_taken (rest := []) h8 (List.append_nil _).symm
  have drained : u.bitsAhead = [] := List.self_eq_append_right.1 taken.ahead
  refine ⟨u, taken, (nextBit_runsOut drained).1, ?_⟩
  intro i k hi v
  have refills : exec i s = settle (refill v) := by
    rcases hi with ⟨t, rfl, hu, rfl, hlimit, hlen⟩ | ⟨r, z, rfl, hu, hatb, rfl, hk, hlen⟩
    · obtain ⟨c, w, hrefill, hrec⟩ := receive_past_end hr drained hlen false s.k
      rw [exec_dcSize hs hu, dcStep_stop hlimit hrec, hrefill]
    · obtain ⟨c, w, hrefill, hrec⟩ := receive_past_end hr drained hlen s.atb (s.k + r.toNat)
      rw [exec_acCoef hs hu, coefStep_stop hk hrec, ← hrefill, hatb]
  have input : u.input = s.input := (congrArg State.input taken.keep :)
  have lastmk : u.lastmk = s.lastmk := (congrArg State.lastmk taken.keep :)
  rw [refills]
  refine ⟨fun h => ?_, fun m h hm => ?_, ?_⟩
  · rw [refill_of_exhausted (s := v) h, ← input, ← lastmk]
    rfl
  · rw [refill_of_marker (s := v) h, settle_markerInEntropy hm, if_neg Bool.false_ne_true]
    rfl
  · intro h ld nl w
    rw [refill_of_marker (s := v) h]
    exact ⟨settle_dnl_ahead (s := v), settle_dnl_bad_length (s := v), settle_dnl_cutShort (s := v)⟩

/-! ## A symbol that is not decoded -/

theorem decodeSymbol_stop_atb {h : HuffTable} {s t : State} {c : Stop} (hd : decodeSymbol h s = .stop c t) :
    (∃ f, c = .fault f) ∨ t.atb = s.atb := by
  rcases decodeSymbol_stop_frame hd with hf | hf
  · exact .inl hf
  · exact .inr (congrArg State.atb hf.keep :)

/-- Where bits are left, a step decodes a symbol. -/
theorem step_of_bits_left {s : State} (hs : s.st = .decodingMCUs) (hb : s.bitcnt ≠ 0) :
    step s = (fetchSymbol s).outcome := by
  rw [step_eq_outcome, fetch, hs]
  exact congrArg Fetched.outcome (if_neg hb)

theorem fetchSymbol_of_stop {s t : State} {b : Binding} {c : Stop} (hb : currentBinding s = some b)
    (hd : decodeSymbol (b.tableAt s.unitPos) s = .stop c t) : fetchSymbol s = .noInstr (.stop c t) := by
  rcases fetchSymbol_cases hb with ⟨y, u, hr, -⟩ | ⟨d, u, hr, e⟩
  · rw [hd] at hr
    cases hr
  · rw [hd] at hr
    cases hr
    exact e

/-- Settles O44: the step ends as the decode stopped, `ATB` being as before. -/
theorem symbolNotDecoded : Obligations.SymbolNotDecoded := by
  intro s t b c hs hb hcur hd
  have table : (if s.unitPos = .dc then b.dc else b.ac) = b.tableAt s.unitPos := by cases s.unitPos <;> rfl
  rw [table] at hd
  have ends : step s = settle (.stop c t) := by rw [step_of_bits_left hs hb, fetchSymbol_of_stop hcur hd, Fetched.outcome]
  rw [ends]
  refine ⟨?_, ?_, ?_⟩
  · rintro e i rfl
    rfl
  · rintro rfl
    rfl
  · rintro m rfl
    obtain ⟨f, hf⟩ | hatb := decodeSymbol_stop_atb hd
    · cases hf
    · rw [settle, scanSignal, hatb]
      rfl

end Sys2Proof.Machine
end

section
/-! SUPPORT. What a symbol's step may change (45_scan_engine.md R253, R255, R262, R270): how each step ends is said once, and
what each end leaves alone. -/

namespace Sys2Proof.Machine

/-! ## Registers left alone -/

/-- The state without the registers of the bit reader, those of an ending scan and those of an error. -/
def haltKeep (s : State) : State :=
  { s with
    pos := 0, lastpos := 0, pbArmed := false, bitbuf := 0#8, bitcnt := 0, lastmk := 0#16, pendmkV := false, pendmk := 0#16
    dnlSeen := false, dnlNl := 0#16, st := .awaitSOI, errCode := 0#4, errMarker := 0#16, errPos := 0, errState := 0#4 }

/-- The state without the bit reader's registers, `ZZ` and `K`: what a coefficient leaves alone. -/
def coefKeep (s : State) : State :=
  { s with pos := 0, lastpos := 0, pbArmed := false, bitbuf := 0#8, bitcnt := 0, zz := [], k := 0 }

/-- What the DC step leaves alone, `ATB` apart. -/
def dcKeep (s : State) : State := { haltKeep s with pred := [], zz := [], k := 0, unitPos := .dc }

/-- What the AC step leaves alone. -/
def acKeep (s : State) : State :=
  { haltKeep s with
    pred := [], zz := [], k := 0, unitPos := .dc, atb := false, dq := [], nat := [], samp := [], out := [], freeCtr := 0
    curJ := 0, curU := 0, mcuInInt := 0, mcuDone := 0 }

/-- The registers the end of a data unit writes and a coefficient does not. -/
def unitRegs (s : State) : State :=
  { State.reset with
    dq := s.dq, nat := s.nat, samp := s.samp, freeCtr := s.freeCtr, curJ := s.curJ, curU := s.curU, mcuInInt := s.mcuInInt
    mcuDone := s.mcuDone, pred := s.pred, unitPos := s.unitPos }

section
variable {s t : State}

theorem eq_of_dcKeep (h : dcKeep t = dcKeep s) :
    t = { s with
      pos := t.pos, lastpos := t.lastpos, pbArmed := t.pbArmed, bitbuf := t.bitbuf, bitcnt := t.bitcnt
      lastmk := t.lastmk, pendmkV := t.pendmkV, pendmk := t.pendmk, dnlSeen := t.dnlSeen, dnlNl := t.dnlNl, st := t.st
      errCode := t.errCode, errMarker := t.errMarker, errPos := t.errPos, errState := t.errState
      pred := t.pred, zz := t.zz, k := t.k, unitPos := t.unitPos } := by
  cases s; cases t; simp_all [dcKeep, haltKeep]

theorem eq_of_acKeep (h : acKeep t = acKeep s) :
    t = { s with
      pos := t.pos, lastpos := t.lastpos, pbArmed := t.pbArmed, bitbuf := t.bitbuf, bitcnt := t.bitcnt
      lastmk := t.lastmk, pendmkV := t.pendmkV, pendmk := t.pendmk, dnlSeen := t.dnlSeen, dnlNl := t.dnlNl, st := t.st
      errCode := t.errCode, errMarker := t.errMarker, errPos := t.errPos, errState := t.errState
      atb := t.atb, pred := t.pred, zz := t.zz, k := t.k, unitPos := t.unitPos
      dq := t.dq, nat := t.nat, samp := t.samp, out := t.out, freeCtr := t.freeCtr, curJ := t.curJ, curU := t.curU
      mcuInInt := t.mcuInInt, mcuDone := t.mcuDone } := by
  cases s; cases t; simp_all [acKeep, haltKeep]

theorem fields_of_unitRegs (h : unitRegs t = unitRegs s) :
    t.dq = s.dq ∧ t.nat = s.nat ∧ t.samp = s.samp ∧ t.freeCtr = s.freeCtr ∧ t.curJ = s.curJ ∧ t.curU = s.curU ∧
    t.mcuInInt = s.mcuInInt ∧ t.mcuDone = s.mcuDone ∧ t.pred = s.pred ∧ t.unitPos = s.unitPos := by
  simp only [unitRegs, State.mk.injEq] at h
  simp only [h, and_self]

theorem settle_haltKeep {r : Res Unit} (h : settle r = .next t) : haltKeep t = haltKeep r.final :=
  (congrArg haltKeep (settle_streamKeep h) :)

/-- A step that does not answer ends the scan or takes an error (R270, 60_exceptions.md R335). -/
theorem settle_st {r : Res Unit} (h : settle r = .next t) : r = .ok () t ∨ t.st = .scanComplete ∨ t.st = .error := by
  cases r with
  | ok a u => cases h; exact .inl rfl
  | stop c u =>
    cases c with
    | raise e i => cases h; exact .inr (.inr rfl)
    | fault f => cases h
    | signal g =>
      cases h
      cases g with
      | endOfScan => exact .inr (.inl rfl)
      | markerFound m =>
        simp only [scanSignal]
        split
        · exact .inr (.inl rfl)
        · exact .inr (.inr rfl)

end

/-! ## How the steps end -/

/-- How the DC step begun in `s` ends: it stops having written no more than `ATB`, or the predictor and the coefficient
become `p`. -/
inductive DcEnd (s : State) : Res Unit → Prop where
  | stop {c : Stop} {u : State} (h : haltKeep u = haltKeep { s with atb := false }) : DcEnd s (.stop c u)
  | ok {u : State} (p : Int) (h : bitKeep u = bitKeep { s with atb := false }) :
    DcEnd s (.ok () { u with pred := arraySet 0 u.pred u.curJ p, zz := u.zz.set 0 p, k := 1, unitPos := .ac })

theorem dcStep_end (t : Nat) (s : State) : DcEnd s (dcStep t s) := by
  by_cases ht : s.params.dcsizeMax < t
  · rw [dcStep_over_limit ht]
    exact .stop rfl
  · rw [dcStep_within_limit (not_lt.1 ht)]
    cases hr : receive t { s with atb := false } with
    | stop c u => exact .stop (congrArg haltKeep (receive_stop hr).keep :)
    | ok v u => exact .ok _ (receive_ok hr).keep

/-- How an AC symbol's step begun in `s` ends: it stops, or it goes on in the unit, or the data unit is complete. -/
inductive AcEnd (s : State) : Res Unit → Prop where
  | stop {c : Stop} {u : State} (k : Nat) (zz : List Int) (h : haltKeep u = haltKeep { s with k := k, zz := zz }) :
    AcEnd s (.stop c u)
  | ok {u : State} (h : coefKeep u = coefKeep s) : AcEnd s (.ok () u)
  | unit (b : Binding) {dq nat : List Int} {samp : List Nat} {u : State} (h : coefKeep u = coefKeep s) :
    AcEnd s (.ok () (u.unitEnds b dq nat samp))

theorem AcEnd.stop_of_coefKeep {s u : State} {c : Stop} (h : coefKeep u = coefKeep s) : AcEnd s (.stop c u) :=
  .stop u.k u.zz (congrArg (fun v => haltKeep { v with k := u.k, zz := u.zz }) h :)

theorem zrlStep_end (s : State) : AcEnd s (zrlStep s) := by
  by_cases h : 63 < s.k + 16
  · rw [zrlStep_overrun h]
    exact .stop_of_coefKeep rfl
  · rw [zrlStep_within (not_lt.1 h)]
    exact .ok rfl

theorem endOfBlock_end {s u : State} (h : coefKeep u = coefKeep s) : AcEnd s (endOfBlock u) := by
  cases hb : currentBinding u with
  | none =>
    rw [endOfBlock, hb]
    exact .stop_of_coefKeep h
  | some b =>
    by_cases hv : u.fhV = true
    · rw [endOfBlock_ok hv hb, nextUnit_finishUnit]
      exact .unit b h
    · rw [endOfBlock, hb]
      dsimp only
      rw [completeUnit, if_neg hv]
      exact .stop_of_coefKeep h

theorem coefStep_end (r z : Nat) (s : State) : AcEnd s (coefStep r z s) := by
  by_cases h : 63 < s.k + r
  · rw [coefStep_overrun h]
    exact .stop_of_coefKeep rfl
  · rw [coefStep_within (not_lt.1 h)]
    cases hr : receive z { s with k := s.k + r } with
    | stop c u => exact .stop (s.k + r) s.zz (congrArg haltKeep (receive_stop hr).keep :)
    | ok v u =>
      have hk : coefKeep u = coefKeep s := (congrArg coefKeep (receive_ok hr).keep :)
      rw [Res.bind_ok, storeCoef]
      split
      · exact endOfBlock_end hk
      · exact .ok hk

/-- The AC symbols: each one's step, and how it ends. -/
theorem acSymbol_body {i : Instr} (hi : i.level = .ac) :
    ∃ body : State → Res Unit, (∀ s, exec i s = symbolAt .ac body s) ∧ ∀ s, AcEnd s (body s) := by
  cases i with
  | eob r => exact ⟨endOfBlock, fun _ => rfl, fun s => endOfBlock_end rfl⟩
  | zrl => exact ⟨zrlStep, fun _ => rfl, zrlStep_end⟩
  | acCoef r z => exact ⟨coefStep r.toNat z.toNat, fun _ => rfl, coefStep_end r.toNat z.toNat⟩
  | _ => cases hi

theorem symbolAt_next {p : UnitPos} {body : State → Res Unit} {s t : State} (hs : s.st = .decodingMCUs)
    (h : symbolAt p body s = .next t) : s.unitPos = p ∧ settle (body s) = .next t := by
  rw [symbolAt, hs] at h
  dsimp only at h
  split at h
  · exact ⟨‹_›, h⟩
  · cases h

/-! ## The frames -/

theorem unitEnds_acKeep (s : State) (b : Binding) (dq nat : List Int) (samp : List Nat) :
    acKeep (s.unitEnds b dq nat samp) = acKeep s := by
  unfold State.unitEnds
  dsimp only
  split_ifs <;> rfl

theorem unitEnds_out (s : State) (b : Binding) (dq nat : List Int) (samp : List Nat) :
    (s.unitEnds b dq nat samp).out = s.out ++ [⟨s.scanIdx, b.id, samp⟩] := by
  unfold State.unitEnds
  dsimp only
  split_ifs <;> rfl

/-- The DC step changes what it names at most, and that only where it answers. -/
theorem DcEnd.frame {s t : State} {r : Res Unit} (hr : DcEnd s r) (h : settle r = .next t) :
    dcKeep t = dcKeep { s with atb := false } ∧
      (t.st ≠ s.st → t.pred = s.pred ∧ t.zz = s.zz ∧ t.k = s.k) := by
  cases hr with
  | stop hk =>
    have ht := (settle_haltKeep h).trans hk
    have pred : t.pred = s.pred := (congrArg State.pred ht :)
    have zz : t.zz = s.zz := (congrArg State.zz ht :)
    have k : t.k = s.k := (congrArg State.k ht :)
    exact ⟨(congrArg dcKeep ht :), fun _ => ⟨pred, zz, k⟩⟩
  | ok p hk =>
    cases h
    exact ⟨(congrArg dcKeep hk :), fun hst => absurd (congrArg State.st hk :) hst⟩

/-- An AC symbol changes what it names at most, and the registers of a complete unit only where a record is emitted. -/
theorem AcEnd.frame {s t : State} {r : Res Unit} (hr : AcEnd s r) (h : settle r = .next t) :
    acKeep t = acKeep s ∧ (t.out = s.out → unitRegs t = unitRegs s) := by
  cases hr with
  | stop k zz hk =>
    have ht := (settle_haltKeep h).trans hk
    exact ⟨(congrArg acKeep ht :), fun _ => (congrArg unitRegs ht :)⟩
  | ok hk =>
    cases h
    exact ⟨(congrArg acKeep hk :), fun _ => (congrArg unitRegs hk :)⟩
  | @unit b dq nat samp u hk =>
    obtain rfl : u.unitEnds b dq nat samp = t := Host.Outcome.next.inj h
    refine ⟨(unitEnds_acKeep u b dq nat samp).trans (congrArg acKeep hk :), fun hout => ?_⟩
    have out : u.out = s.out := (congrArg State.out hk :)
    rw [unitEnds_out, out] at hout
    exact absurd hout (by simp)

/-- Settles O54: the frame of each end of the step. -/
theorem symbolFrame : Obligations.SymbolFrame := by
  intro i s t hs h
  constructor
  · rintro z rfl
    obtain ⟨-, hbody⟩ := symbolAt_next hs h
    obtain ⟨keep, notAnswered⟩ := (dcStep_end z.toNat s).frame hbody
    rw [hs] at notAnswered
    exact ⟨eq_of_dcKeep keep, notAnswered⟩
  · intro hi
    obtain ⟨body, hexec, hend⟩ := acSymbol_body hi
    rw [hexec] at h
    obtain ⟨-, hbody⟩ := symbolAt_next hs h
    obtain ⟨keep, notEmitted⟩ := (hend s).frame hbody
    exact ⟨eq_of_acKeep keep, fun hout => fields_of_unitRegs (notEmitted hout)⟩

end Sys2Proof.Machine
end

section
/-! SUPPORT. When a step changes a DC predictor (45_scan_engine.md R254, R271, R279): what each operation does to `PRED` and to
where the scan stands, and the step as the end of one operation. -/

namespace Sys2Proof.Machine

/-- The ways a step may treat the predictors: they are as before, and the scan is not entered nor its boundary, but that the
marker of a boundary goes on with the scan; or one of them is written in the DC step; or those of the bound components are
cleared, where a scan starts or its boundary is entered. -/
inductive PredStep (s t : State) : Prop where
  | kept (pred : t.pred = s.pred)
    (st : t.st.inScan = true → t.st = s.st ∨ s.st = .restartBoundary ∧ t.st = .decodingMCUs)
  | predicted (p : Int) (pred : t.pred = arraySet 0 s.pred s.curJ p) (st : s.st = .decodingMCUs) (unit : s.unitPos = .dc)
    (st' : t.st = .decodingMCUs) (unit' : t.unitPos = .ac)
  | cleared (pred : t.pred = List.replicate t.nbind 0 ++ s.pred.drop t.nbind)
    (st : s.st.inScan = false ∧ t.st = .decodingMCUs ∨ s.st = .decodingMCUs ∧ t.st = .restartBoundary)

/-- The registers a `PredStep` speaks of in the state before. -/
def predRegs (s : State) : State :=
  { State.reset with pred := s.pred, curJ := s.curJ, unitPos := s.unitPos, st := s.st }

theorem PredStep.congr {s u t : State} (h : PredStep u t) (e : predRegs u = predRegs s) : PredStep s t := by
  have pred : u.pred = s.pred := (congrArg State.pred e :)
  have curJ : u.curJ = s.curJ := (congrArg State.curJ e :)
  have unitPos : u.unitPos = s.unitPos := (congrArg State.unitPos e :)
  have st : u.st = s.st := (congrArg State.st e :)
  cases h with
  | kept p h => exact .kept (p.trans pred) (st ▸ h)
  | predicted v p h1 h2 h3 h4 => exact .predicted v (by rw [p, pred, curJ]) (st ▸ h1) (unitPos ▸ h2) h3 h4
  | cleared p h => exact .cleared (by rw [p, pred]) (st ▸ h)

/-! ## Operations that leave the predictors alone -/

/-- The operation begun in `s` leaves the predictors alone, and answers with a scan only where it stood in it. -/
structure Res.KeepsPred (s : State) (r : Res Unit) : Prop where
  pred : r.final.pred = s.pred
  st : ∀ t, r = .ok () t → t.st.inScan = true → t.st = s.st

theorem settle_pred {r : Res Unit} {t : State} (h : settle r = .next t) : t.pred = r.final.pred :=
  (congrArg State.pred (settle_streamKeep h) :)

theorem settle_inScan {r : Res Unit} {t : State} (h : settle r = .next t) (ht : t.st.inScan = true) : r = .ok () t := by
  rcases settle_st h with e | e | e
  · exact e
  · rw [e] at ht; cases ht
  · rw [e] at ht; cases ht

theorem Res.KeepsPred.settle {s t : State} {r : Res Unit} (hr : r.KeepsPred s) (h : Sys2Proof.Machine.settle r = .next t) :
    PredStep s t :=
  .kept ((settle_pred h).trans hr.pred) fun ht => .inl (hr.st t (settle_inScan h ht) ht)

theorem Res.KeepsPred.stop {c : Stop} {s u : State} (h : u.pred = s.pred) : Res.KeepsPred s (.stop c u) :=
  ⟨h, fun _ ht => by cases ht⟩

theorem exhausted_keepsPred (s : State) : (exhausted s : Res Unit).KeepsPred s := .stop rfl

theorem Res.KeepsPred.ok {s u : State} (h : u.pred = s.pred) (hs : u.st.inScan = true → u.st = s.st) :
    Res.KeepsPred s (.ok () u) :=
  ⟨h, fun _ ht => by cases ht; exact hs⟩

theorem Res.KeepsPred.of_markerFrame {i : Instr} {s : State} {r : Res Unit} (h : MarkerFrame i s r.final) : r.KeepsPred s := by
  refine ⟨(congrArg State.pred h.keep :), ?_⟩
  rintro t rfl ht
  rcases h.st with e | e | ⟨-, e⟩
  · exact e
  · rw [Res.final_ok] at e; rw [e] at ht; cases ht
  · rw [Res.final_ok] at e; rw [e] at ht; cases ht

theorem Res.KeepsPred.of_stream {s : State} {r : Res Unit} (h : StreamFrame s r.final) : r.KeepsPred s :=
  .of_markerFrame (i := .dnl) (.of_stream h)

theorem frameRow_keepsPred (m : Marker) (s : State) : (frameRow m s).KeepsPred s := by
  rcases frameRow_cases m s with hf | ⟨u, f, hu, e⟩
  · exact .of_stream hf
  · rw [e]
    exact .ok (congrArg State.pred hu.streamKeep :) nofun

/-- Every row of 46_top_level.md R294 but that of SOS. -/
theorem markerRow_keepsPred {i : Instr} {c : Byte} (hi : i.markerCode = some c) (hsos : i ≠ .sos) (s : State) :
    (markerRow i (markerOf c) s).KeepsPred s := by
  by_cases hf : isFrame (markerOf c) = true
  · rw [markerRow_of_isFrame hi hf]
    exact frameRow_keepsPred _ s
  · exact .of_markerFrame (markerRow_markerFrame hi (by simpa using hf) hsos s).1

theorem awaitSOIMarker_keepsPred (m : Marker) (s : State) : (awaitSOIMarker m s).KeepsPred s := by
  unfold awaitSOIMarker
  split
  · exact .stop rfl
  · exact .ok rfl nofun

theorem markerInEntropy_keepsPred (m : Marker) (s : State) : (markerInEntropy m s : Res Unit).KeepsPred s := by
  refine ⟨?_, fun t ht => absurd ht markerInEntropy_not_ok⟩
  unfold markerInEntropy
  dsimp only
  split
  · have body : (readDNLbody (consumeMarker m s)).final.pred = s.pred :=
      (congrArg State.pred (readDNLbody_markerFrame (consumeMarker m s)).keep :)
    exact Res.final_bind_eq State.pred body fun _ _ _ => rfl
  · rfl

/-! ## Scan start and restart boundary -/

theorem readScanHeader_pred (s : State) : (readScanHeader s).final.pred = s.pred := by
  cases hr : readScanHeader s with
  | ok a t =>
    obtain ⟨u, sh, hu, -, -, -, -, rfl⟩ := readScanHeader_ok hr
    exact (congrArg State.pred hu.streamKeep :)
  | stop c t => exact (congrArg State.pred (readScanHeader_stop hr).streamKeep :)

theorem bindLoop_pred (scs : List ScanComp) (s : State) : (bindLoop 0 scs s).final.pred = s.pred := by
  cases hb : bindAll s.fh s.eff scs with
  | some bs => rw [bindLoop_ok scs 0 s (Nat.zero_le _) hb]; rfl
  | none =>
    obtain ⟨bd, e⟩ := bindLoop_stop scs 0 s hb
    rw [e]
    rfl

theorem bindComponents_pred (s : State) : (bindComponents s).final.pred = s.pred := by
  refine Res.final_bind_eq State.pred (bindLoop_pred _ s) fun _ t _ => ?_
  dsimp only
  split
  · split <;> rfl
  · split <;> rfl

/-- The scan header phase stops with the predictors as they were, or starts the scan with those of its components cleared
(R271). -/
theorem scanHeaderPhase_predStep {s u t : State} (hpred : u.pred = s.pred) (hs : s.st.inScan = false)
    (h : settle (scanHeaderPhase u) = .next t) : PredStep s t := by
  unfold scanHeaderPhase at h
  split at h
  · cases h
  have header := readScanHeader_pred u
  cases hr : readScanHeader u with
  | stop c v =>
    rw [hr] at h header
    exact (Res.KeepsPred.stop (header.trans hpred)).settle h
  | ok a v =>
    rw [hr, Res.bind_ok] at h
    rw [hr] at header
    have bound := bindComponents_pred { v with eff := cascade v.base v.ovl }
    cases hc : bindComponents { v with eff := cascade v.base v.ovl } with
    | stop c w =>
      rw [hc] at h bound
      exact (Res.KeepsPred.stop ((bound.trans header).trans hpred)).settle h
    | ok a w =>
      rw [hc, Res.bind_ok] at h
      rw [hc] at bound
      cases h
      have hw : w.pred = s.pred := (bound.trans header).trans hpred
      exact .cleared (by rw [← hw]; rfl) (.inl ⟨hs, rfl⟩)

theorem boundaryMarker_predStep {m : Marker} {s t : State} (hs : s.st = .restartBoundary)
    (h : settle (boundaryMarker m s) = .next t) : PredStep s t := by
  unfold boundaryMarker at h
  split at h
  · split at h
    · exact (Res.KeepsPred.stop rfl).settle h
    · cases h
      exact .kept rfl fun _ => .inr ⟨hs, rfl⟩
  · cases h
    exact .kept rfl nofun

/-! ## Tokens and symbols -/

theorem dispatchByte_predStep {b : Byte} {n : Nat} {s t : State} (h : dispatchByte b n s = .next t) : PredStep s t := by
  unfold dispatchByte at h
  cases hst : s.st with
  | awaitSOI | frameTables | awaitingSOS | restartBoundary =>
    rw [hst] at h
    exact (Res.KeepsPred.stop rfl).settle h
  | decodingMCUs =>
    rw [hst] at h
    cases h
    exact .kept rfl fun _ => .inl rfl
  | done | error =>
    rw [hst] at h
    cases h
    exact .kept rfl fun _ => .inl rfl
  | scanHeader | scanComplete =>
    rw [hst] at h
    cases h

theorem nextMarker_predRegs (m : Marker) (s : State) : predRegs (nextMarker m s) = predRegs s := by
  unfold nextMarker
  split <;> rfl

theorem sosRow_predStep {m : Marker} {s t : State} (hs : s.inHeader) (h : settle (sosRow m s) = .next t) : PredStep s t := by
  unfold sosRow at h
  split at h
  · exact (Res.KeepsPred.stop rfl).settle h
  · exact scanHeaderPhase_predStep (u := { s with st := .scanHeader }) rfl (by rcases hs with e | e <;> rw [e] <;> rfl) h

theorem markerRow_predStep {i : Instr} {c : Byte} {s t : State} (hi : i.markerCode = some c) (hs : s.inHeader)
    (h : settle (markerRow i (markerOf c) s) = .next t) : PredStep s t := by
  by_cases hsos : i = .sos
  · subst hsos
    exact sosRow_predStep hs h
  · exact (markerRow_keepsPred hi hsos s).settle h

theorem dispatchMarker_predStep {i : Instr} {c : Byte} {s t : State} (hi : i.markerCode = some c)
    (h : dispatchMarker (markerOf c) (markerRow i (markerOf c)) s = .next t) : PredStep s t := by
  have row (hs : s.inHeader) (h : settle (markerRow i (markerOf c) (nextMarker (markerOf c) s)) = .next t) : PredStep s t :=
    (markerRow_predStep hi (nextMarker_inHeader hs) h).congr (nextMarker_predRegs _ s)
  unfold dispatchMarker at h
  cases hst : s.st with
  | awaitSOI =>
    rw [hst] at h
    exact ((awaitSOIMarker_keepsPred _ _).settle h).congr rfl
  | frameTables =>
    rw [hst] at h
    exact row (.inl hst) h
  | awaitingSOS =>
    rw [hst] at h
    exact row (.inr hst) h
  | decodingMCUs =>
    rw [hst] at h
    exact ((markerInEntropy_keepsPred _ _).settle h).congr rfl
  | restartBoundary =>
    rw [hst] at h
    exact (boundaryMarker_predStep (s := consumeMarker (markerOf c) s) hst h).congr rfl
  | scanHeader | scanComplete =>
    rw [hst] at h
    cases h
  | done | error =>
    rw [hst] at h
    cases h
    exact .kept rfl fun _ => .inl rfl

theorem DcEnd.predStep {s t : State} {r : Res Unit} (hr : DcEnd s r) (hs : s.st = .decodingMCUs) (hu : s.unitPos = .dc)
    (h : settle r = .next t) : PredStep s t := by
  cases hr with
  | @stop c u hk =>
    have pred : u.pred = s.pred := (congrArg State.pred hk :)
    exact (Res.KeepsPred.stop pred).settle h
  | @ok u p hk =>
    cases h
    have pred : u.pred = s.pred := (congrArg State.pred hk :)
    have curJ : u.curJ = s.curJ := (congrArg State.curJ hk :)
    exact .predicted p (by rw [← pred, ← curJ]) hs hu ((congrArg State.st hk :).trans hs) rfl

theorem unitEnds_predStep {s : State} (hs : s.st = .decodingMCUs) (b : Binding) (dq nat : List Int) (samp : List Nat) :
    PredStep s (s.unitEnds b dq nat samp) := by
  unfold State.unitEnds
  dsimp only
  split
  · exact .kept rfl fun _ => .inl rfl
  · split
    · exact .kept rfl fun _ => .inl rfl
    · split
      · exact .cleared rfl (.inr ⟨hs, rfl⟩)
      · exact .kept rfl fun _ => .inl rfl

theorem AcEnd.predStep {s t : State} {r : Res Unit} (hr : AcEnd s r) (hs : s.st = .decodingMCUs)
    (h : settle r = .next t) : PredStep s t := by
  cases hr with
  | @stop c u k zz hk =>
    have pred : u.pred = s.pred := (congrArg State.pred hk :)
    exact (Res.KeepsPred.stop pred).settle h
  | ok hk =>
    cases h
    exact .kept (congrArg State.pred hk :) fun _ => .inl (congrArg State.st hk :)
  | @unit b dq nat samp u hk =>
    obtain rfl : u.unitEnds b dq nat samp = t := Host.Outcome.next.inj h
    have regs : predRegs u = predRegs s := (congrArg predRegs hk :)
    have st : u.st = s.st := (congrArg State.st hk :)
    exact (unitEnds_predStep (st.trans hs) b dq nat samp).congr regs

theorem symbolOf_predStep {y : Byte} {s t : State} (hs : s.st = .decodingMCUs)
    (h : exec (symbolOf s.unitPos y) s = .next t) : PredStep s t := by
  cases hu : s.unitPos with
  | dc =>
    rw [hu] at h
    exact (dcStep_end y.toNat s).predStep hs hu (symbolAt_next hs h).2
  | ac =>
    rw [hu] at h
    obtain ⟨body, hexec, hend⟩ := acSymbol_body (decodeAcSymbol_faithful y).2.1
    exact (hend s).predStep hs (symbolAt_next hs ((hexec s).symm.trans h)).2

/-! ## A step -/

theorem fetchFrom_predStep {l : List Byte} {s t : State} (h : (fetchFrom l s).outcome = .next t) : PredStep s t := by
  unfold fetchFrom at h
  cases hd : decode .token l with
  | error e =>
    rw [hd] at h
    exact (exhausted_keepsPred s).settle h
  | ok found =>
    obtain ⟨i, rest⟩ := found
    rw [hd] at h
    have hx : exec i s = .next t := h
    rcases decodeToken_ok hd with ⟨b, n, -, -, hexec⟩ | ⟨c, -, -, hi⟩
    · exact dispatchByte_predStep ((hexec s).symm.trans hx)
    · exact dispatchMarker_predStep hi ((exec_marker hi s).symm.trans hx)

theorem fetchSymbol_predStep {s t : State} (hs : s.st = .decodingMCUs) (h : (fetchSymbol s).outcome = .next t) :
    PredStep s t := by
  cases hb : currentBinding s with
  | none =>
    rw [fetchSymbol, hb] at h
    cases h
  | some b =>
    rcases fetchSymbol_cases hb with ⟨y, u, hr, e⟩ | ⟨c, u, hr, e⟩ <;> rw [e] at h
    · have keep := (decodeSymbol_ok_frame hr).1.keep
      have regs : predRegs u = predRegs s := (congrArg predRegs keep :)
      have st : u.st = s.st := (congrArg State.st regs :)
      have unitPos : u.unitPos = s.unitPos := (congrArg State.unitPos regs :)
      have hx : exec (symbolOf u.unitPos y) u = .next t := by rw [unitPos]; exact h
      exact (symbolOf_predStep (st.trans hs) hx).congr regs
    · rcases decodeSymbol_stop_frame hr with ⟨f, rfl⟩ | hf
      · cases h
      · have pred : u.pred = s.pred := (congrArg State.pred hf.keep :)
        have hx : settle (.stop c u) = .next t := h
        exact (Res.KeepsPred.stop pred).settle hx

theorem step_predStep {s t : State} (h : step s = .next t) : PredStep s t := by
  rw [step_eq_outcome, fetch] at h
  cases hst : s.st with
  | awaitSOI | restartBoundary | frameTables | awaitingSOS =>
    rw [hst] at h
    exact fetchFrom_predStep h
  | decodingMCUs =>
    rw [hst] at h
    dsimp only at h
    split at h
    · split at h
      · exact ((exhausted_keepsPred (beginDecode s)).settle h).congr rfl
      · exact fetchFrom_predStep h
    · exact fetchSymbol_predStep hst h
  | scanHeader =>
    rw [hst] at h
    exact scanHeaderPhase_predStep rfl (by rw [hst]; rfl) h
  | scanComplete =>
    rw [hst] at h
    cases h
    exact .kept rfl nofun
  | done | error =>
    rw [hst] at h
    cases h
    exact .kept rfl fun _ => .inl rfl

/-! ## The statement -/

theorem getD_cleared (n : Nat) (l : List Int) (j : Nat) :
    (List.replicate n 0 ++ l.drop n).getD j 0 = if j < n then 0 else l.getD j 0 := by
  simp only [List.getD_eq_getElem?_getD, List.getElem?_append, List.length_replicate, List.getElem?_replicate,
    List.getElem?_drop]
  split
  · rfl
  · rw [Nat.add_sub_cancel' (by omega)]

/-- Settles O51: by the way the step treats the predictors. -/
theorem predictors : Obligations.Predictors := by
  intro s t h
  cases step_predStep h with
  | kept pred st =>
    refine ⟨fun j hj => absurd (congrArg (List.getD · j 0) pred) hj, fun ht hs hb => ?_, fun ht hb => ?_⟩
    · rcases st (by rw [ht]; rfl) with e | ⟨e, -⟩
      · exact absurd (e.symm.trans ht) hs
      · exact absurd e hb
    · rcases st (by rw [ht]; rfl) with e | ⟨e, -⟩
      · exact absurd (e.symm.trans ht) hb
      · exact absurd e hb
  | predicted p pred st unit st' unit' =>
    refine ⟨fun j hj => .inl ⟨st, unit, ?_, unit'⟩, fun _ hs => absurd st hs, fun ht => ?_⟩
    · by_contra hne
      rw [pred, getD_arraySet, if_neg hne] at hj
      exact hj rfl
    · rw [st'] at ht
      cases ht
  | cleared pred st =>
    have zero (j : Nat) (hj : j < t.nbind) : t.pred.getD j 0 = 0 := by rw [pred, getD_cleared, if_pos hj]
    refine ⟨fun j hj => ?_, fun _ _ _ => zero, fun _ _ => zero⟩
    have hlt : j < t.nbind := by
      by_contra hge
      rw [pred, getD_cleared, if_neg hge] at hj
      exact hj rfl
    rcases st with ⟨hs, ht⟩ | ⟨hs, ht⟩
    · exact .inr (.inl ⟨fun e => (by rw [e] at hs; cases hs), ht, zero j hlt⟩)
    · exact .inr (.inr ⟨hs, ht, zero j hlt⟩)

end Sys2Proof.Machine
end

section
/-! SUPPORT. A step is `exec` of what is decoded where the sequencer stands (46_top_level.md R293, 45_scan_engine.md R253, R255),
or the act of a state that reads nothing (46_top_level.md R300, R301). -/

namespace Sys2Proof.Machine

/-! ## The decoded instruction -/

theorem step_of_fetch_instr {s u : State} {i : Instr} (h : fetch s = .instr i u) : step s = exec i u := by
  rw [step, h]

theorem step_of_fetch_noInstr {s : State} {r : Res Unit} (h : fetch s = .noInstr r) : step s = settle r := by
  rw [step, h]

theorem fetchFrom_of_ok {l rest : List Byte} {i : Instr} (h : decode .token l = .ok (i, rest)) (s : State) :
    fetchFrom l s = .instr i s := by
  rw [fetchFrom, h]

theorem fetchFrom_of_exhausted {l : List Byte} (h : peekToken l = .exhausted) (s : State) :
    fetchFrom l s = .noInstr (exhausted s) := by
  rw [fetchFrom, decode, decodeToken, h]

theorem peekToken_of_decode_ok {l rest : List Byte} {i : Instr} (h : decode .token l = .ok (i, rest)) :
    peekToken l ≠ .exhausted := by
  rcases decodeToken_ok h with ⟨b, n, hp, -⟩ | ⟨c, -, hp, -⟩ <;> rw [hp] <;> nofun

theorem fetch_inHeader {s : State} (hs : s.inHeader) : fetch s = fetchFrom (tokenSource s) s := by
  rcases hs with e | e <;> rw [fetch, e] <;> rfl

/-- In a scan with no bit left, where the input has not ended, the token at `POS` comes next. -/
theorem fetch_refill {s : State} (hs : s.st = .decodingMCUs) (hb : s.bitcnt = 0) (h : peekToken (remaining s) ≠ .exhausted) :
    fetch s = fetchFrom (remaining s) s := by
  rw [fetch, hs]
  dsimp only
  rw [if_pos hb]
  split
  · exact absurd ‹_› h
  · rfl

theorem markerBytes_markerOf (c : Byte) : markerBytes (markerOf c) = [0xFF#8, c] := by
  rw [markerBytes, markerOf, BitVec.extractLsb'_append_eq_right, BitVec.extractLsb'_append_eq_left]

theorem fetchSymbol_of_ok {s u : State} {b : Binding} {y : Byte} (hb : currentBinding s = some b)
    (hd : decodeSymbol (b.tableAt s.unitPos) s = .ok y u) : fetchSymbol s = .instr (symbolOf s.unitPos y) u := by
  rcases fetchSymbol_cases hb with ⟨_, _, hr, e⟩ | ⟨_, _, hr, -⟩ <;> rw [hd] at hr <;> cases hr
  exact e

/-- Settles O13: by what `fetch` finds in each of these states. -/
theorem stepRunsDecoded : Obligations.StepRunsDecoded := by
  refine ⟨fun s i rest hs hd => ?_, fun s i c hs hp hm hi => ?_, fun s t b sym i hs hbit hb => ?_⟩
  · refine step_of_fetch_instr (Eq.trans ?_ (fetchFrom_of_ok hd s))
    rcases hs with hs | hs | ⟨hs, hb⟩ | ⟨hs, hp⟩
    · rw [fetch, hs]
    · rw [fetch, hs]
    · exact fetch_refill hs hb (peekToken_of_decode_ok hd)
    · rw [fetch_inHeader hs, tokenSource, hp]
      rfl
  · have hd : decode .token (tokenSource s) = .ok (i, []) := by
      rw [tokenSource, if_pos hp, hm, markerBytes_markerOf]
      exact decode_token_marker (instrOfCode_eq_some.1 hi) []
    exact step_of_fetch_instr ((fetch_inHeader hs).trans (fetchFrom_of_ok hd s))
  · have runs (hd : decodeSymbol (b.tableAt s.unitPos) s = .ok sym t) : step s = exec (symbolOf s.unitPos sym) t := by
      rw [step_of_bits_left hs hbit, fetchSymbol_of_ok hb hd]
      rfl
    refine ⟨fun hu hd hi => ?_, fun hu hd hi => ?_⟩ <;> rw [hu] at runs <;> cases hi <;> exact runs hd

/-! ## The states that read nothing -/

/-- Settles O15: the act of `ScanComplete` is `afterScan`, which writes these four registers. -/
theorem afterScan_step : Obligations.AfterScan := by
  intro s hs
  have hf : fetch s = .noInstr (.ok () (afterScan s)) := by rw [fetch, hs]
  exact step_of_fetch_noInstr hf

section
variable {s : State} (hs : s.terminal)
include hs

theorem dispatchMarker_terminal (m : Marker) (row : State → Res Unit) : dispatchMarker m row s = .next s := by
  rcases hs with e | e <;> rw [dispatchMarker, e]

theorem dispatchByte_terminal (b : Byte) (n : Nat) : dispatchByte b n s = .next s := by
  rcases hs with e | e <;> rw [dispatchByte, e]

theorem symbolAt_terminal (p : UnitPos) (body : State → Res Unit) : symbolAt p body s = .next s := by
  rcases hs with e | e <;> rw [symbolAt, e]

theorem exec_terminal (i : Instr) : exec i s = .next s := by
  cases hi : i.markerCode with
  | some c => rw [exec_marker hi, dispatchMarker_terminal hs]
  | none =>
    cases i with
    | data b => exact dispatchByte_terminal hs b 1
    | stuffed => exact dispatchByte_terminal hs 0xFF#8 2
    | dcSize t => exact symbolAt_terminal hs .dc _
    | eob | zrl | acCoef => exact symbolAt_terminal hs .ac _
    | _ => cases hi

theorem step_terminal : step s = .next s := by
  have hf : fetch s = .noInstr (.ok () s) := by rcases hs with e | e <;> rw [fetch, e]
  exact step_of_fetch_noInstr hf

end

/-- Settles O16: every instruction is a dispatch, and no dispatch acts in a terminal state. -/
theorem terminalStates : Obligations.TerminalStates := fun _ hs => ⟨step_terminal hs, exec_terminal hs⟩

end Sys2Proof.Machine
end

section
/-! SUPPORT. The tokens of the sequencer outside a scan (46_top_level.md R292, R294 to R299): each by the act of its state or
by its row. -/

namespace Sys2Proof.Machine

/-! ## Before SOI (R292) -/

theorem exec_marker_awaitSOI {i : Instr} {c : Byte} {s : State} (hi : i.markerCode = some c) (hs : s.st = .awaitSOI) :
    exec i s = settle (awaitSOIMarker (markerOf c) (consumeMarker (markerOf c) s)) := by
  rw [exec_marker hi, dispatchMarker, hs]

theorem dispatchByte_awaitSOI {s : State} (hs : s.st = .awaitSOI) (b : Byte) (n : Nat) :
    dispatchByte b n s = .next (State.latched 2#4 s.lastmk s) := by
  rw [dispatchByte, hs]
  rfl

/-- Settles O17: SOI is the one marker `awaitSOIMarker` accepts, and it accepts no byte. -/
theorem awaitSoi : Obligations.AwaitSoi := by
  intro s hs
  refine ⟨?_, fun i c hi hc => ?_, fun b => dispatchByte_awaitSOI hs b 1, dispatchByte_awaitSOI hs 0xFF#8 2, fun h => ?_⟩
  · rw [exec_marker_awaitSOI (i := .soi) rfl hs]
    rfl
  · have other : markerOf c ≠ 0xFFD8#16 := fun h => hc (markerOf_inj.1 h)
    rw [exec_marker_awaitSOI hi hs, awaitSOIMarker, if_pos other]
    rfl
  · have hf : fetch s = .noInstr (exhausted s) := by rw [fetch, hs]; exact fetchFrom_of_exhausted h s
    exact step_of_fetch_noInstr hf

/-! ## Refusals in a header region (R295, R296, R298, R299) -/

section
variable {m : Marker} {s : State}

theorem eoiRow_frameTables (hs : s.st = .frameTables) : eoiRow m s = raise .unexpectedMarker (some (.marker m)) s := if_pos hs
theorem eoiRow_of_ne (hs : s.st ≠ .frameTables) : eoiRow m s = .ok () { s with st := .done } := if_neg hs
theorem sosRow_frameTables (hs : s.st = .frameTables) : sosRow m s = raise .unexpectedMarker (some (.marker m)) s := if_pos hs

theorem frameRow_not_accepted (hs : s.st = .frameTables) (hm : m ∉ s.params.sofAccept) :
    frameRow m s = raise .unsupportedFeature (some (.marker m)) s := by
  rw [frameRow, if_pos hs, if_pos hm]

theorem frameRow_second (hs : s.st ≠ .frameTables) : frameRow m s = raise .unexpectedMarker (some (.marker m)) s := if_neg hs

end

theorem exec_eoi {s : State} (hs : s.inHeader) : exec .eoi s = settle (eoiRow 0xFFD9#16 (nextMarker 0xFFD9#16 s)) :=
  exec_inHeader (i := .eoi) (c := 0xD9#8) rfl hs

/-- EOI before a frame header is refused (R298). -/
theorem exec_eoi_frameTables {s : State} (hs : s.st = .frameTables) :
    exec .eoi s = .next (State.latched 3#4 0xFFD9#16 (nextMarker 0xFFD9#16 s)) := by
  rw [exec_eoi (.inl hs), eoiRow_frameTables (by simpa using hs)]
  rfl

/-- Settles O21: the row of each of these markers raises, its marker being the info. -/
theorem headerRefusals : Obligations.HeaderRefusals := by
  intro s hs
  refine ⟨exec_inHeader (i := .tem) rfl hs, exec_inHeader (i := .soi) rfl hs, fun n => exec_inHeader (i := .rst n) rfl hs,
    exec_inHeader (i := .dac) rfl hs, fun hst => ⟨exec_eoi_frameTables hst, ?_⟩,
    fun i c hi hf => ⟨fun hst hm => ?_, fun hst => ?_⟩⟩
  · rw [exec_inHeader (i := .sos) rfl hs]
    exact congrArg settle (sosRow_frameTables (by simpa using hst))
  · rw [exec_inHeader hi hs, markerRow_of_isFrame hi hf, frameRow_not_accepted (by simpa using hst) (by simpa using hm)]
    rfl
  · rw [exec_inHeader hi hs, markerRow_of_isFrame hi hf, frameRow_second (by simp [hst])]
    rfl

/-- Settles O22: the row of EOI ends the decode where the frame header has been read. -/
theorem eoiEndsDecode : Obligations.EoiEndsDecode := by
  refine fun s => ⟨fun hs => ?_, exec_eoi_frameTables⟩
  rw [exec_eoi (.inr hs), eoiRow_of_ne (by simp [hs])]
  rfl

/-! ## DRI and DNL (R297) -/

theorem exec_dri {s : State} (hs : s.inHeader) : exec .dri s = settle (readDRI (nextMarker 0xFFDD#16 s)) :=
  exec_inHeader (i := .dri) (c := 0xDD#8) rfl hs

theorem exec_dnl {s : State} (hs : s.inHeader) : exec .dnl s = settle (readDNLbody (nextMarker 0xFFDC#16 s)) :=
  exec_inHeader (i := .dnl) (c := 0xDC#8) rfl hs

/-- A DRI segment of another length than 4: only the length is read. -/
theorem readDRI_of_bad_length {s : State} {len : BitVec 16} (hlen : len ≠ 4#16) (h : s.ahead (bytes16 len)) :
    readDRI s = raise .malformedSegment none (afterBytes (bytes16 len) s) := by
  rw [readDRI, readUint16_ahead h, Res.bind_ok, if_pos hlen]

/-- Settles O32: the two segments by what their reads answer. -/
theorem driAndDnl : Obligations.DriAndDnl := by
  intro s len v hs
  dsimp only
  rw [exec_dri hs, exec_dnl hs]
  refine ⟨⟨fun h => ?_, fun hlen h => ?_, fun h => (readDRI_cutShort h).settle⟩,
    ⟨fun h => ?_, fun hlen h => ?_, fun h => (readDNLbody_cutShort h).settle⟩⟩
  · rw [readDRI_ahead h, settle, regionUpdate_after_marker]
  · rw [readDRI_of_bad_length hlen h]
    rfl
  · rw [readDNLbody_ahead h]
    rfl
  · rw [readDNLbody_of_bad_length hlen h]
    rfl

end Sys2Proof.Machine
end

section
/-! SUPPORT. A scan header whose selectors all bind (44_headers.md R226, R231; 45_scan_engine.md R271): what the binding leaves,
and the start of the scan. -/

namespace Sys2Proof.Machine

/-! ## A binding and what `bindOne` answers -/

section
variable {fh : FrameHeader} {eff : MiscTables} {n : Nat} {sc : ScanComp} {b : Binding}

/-- What a selector binds to is what `bindOne` answers, one data unit being the MCU in a scan of one component. -/
theorem Binds.bindOne_eq (h : Binds fh eff n sc b) :
    ∃ b', bindOne fh eff sc = some b' ∧ b = if n = 1 then { b' with units := 1 } else b' := by
  obtain ⟨i, f, q, dc, ac, hf, hid, hfirst, hq3, hd3, ha3, hq, hdc, hac, rfl⟩ := h
  refine ⟨⟨f.id, f.h, f.v, f.width, f.height, f.h.toNat * f.v.toNat, q, dc, ac⟩,
    bindOne_eq_some.2 ⟨f, q, dc, ac, find?_id_eq_some.2 ⟨i, hf, hid, hfirst⟩, slotAt_toNat_eq_some.2 ⟨hq3, hq⟩,
      slotAt_toNat_eq_some.2 ⟨hd3, hdc⟩, slotAt_toNat_eq_some.2 ⟨ha3, hac⟩, rfl⟩, ?_⟩
  split <;> rfl

theorem bindOne_component (h : bindOne fh eff sc = some b) :
    ∃ c ∈ fh.comp, c.id = b.id ∧ c.h = b.h ∧ c.v = b.v ∧ c.width = b.width ∧ c.height = b.height := by
  obtain ⟨f, q, dc, ac, hf, -, -, -, rfl⟩ := bindOne_eq_some.1 h
  exact ⟨f, List.mem_of_find?_eq_some hf, rfl, rfl, rfl, rfl, rfl⟩

end

/-! ## Binding every selector (R231) -/

theorem scanMcuCount_of_ne_one (fh : FrameHeader) {bs : List Binding} (h : bs.length ≠ 1) :
    scanMcuCount fh bs = ceilDiv fh.x.toNat (8 * fh.hmax.toNat) * ceilDiv fh.y.toNat (8 * fh.vmax.toNat) := by
  unfold scanMcuCount
  split
  · exact absurd rfl h
  · rfl

section
variable {s : State} {comps : List ScanComp} {bs : List Binding}

/-- The one selector of a scan of one component is bound, the count being that of its own blocks. -/
theorem bindComponents_one {sc : ScanComp} {b : Binding} (hcomp : s.sh.comp = [sc]) (hn : s.sh.ns.toNat = 1)
    (hb : Binds s.fh s.eff 1 sc b) :
    bindComponents s = .ok () { s with nbind := 1, bind := [b] ++ s.bind.drop 1, mcuCount := scanMcuCount s.fh [b] } := by
  obtain ⟨b', hb', rfl⟩ := hb.bindOne_eq
  have hall : bindAll s.fh s.eff [sc] = some [b'] := bindAll_eq_some.2 (.cons hb' .nil)
  rw [bindComponents, hcomp, bindLoop_ok [sc] 0 s (Nat.zero_le _) hall, Res.bind_ok]
  simp only [hn]
  rfl

/-- The selectors of a scan of several components are bound in order, their MCU count being common (R233). -/
theorem bindComponents_several {params : Params} (hf : s.fh.Good params) (hcomp : s.sh.comp = comps)
    (hn : s.sh.ns.toNat = comps.length) (h1 : 1 ≤ comps.length) (hne : comps.length ≠ 1)
    (hb : List.Forall₂ (Binds s.fh s.eff comps.length) comps bs) :
    bindComponents s = .ok () { s with
      nbind := comps.length, bind := bs ++ s.bind.drop comps.length, mcuCount := scanMcuCount s.fh bs } := by
  have hlen : comps.length = bs.length := hb.length_eq
  have hall : bindAll s.fh s.eff comps = some bs := bindAll_eq_some.2 (hb.imp fun _ _ => (binds_iff_bindOne hne).1)
  have hcount := commonCount_eq hf (List.ne_nil_of_length_pos (hlen ▸ h1)) (bindAll_forall (fun _ _ => bindOne_component) hall)
  rw [hlen] at hn hne ⊢
  rw [bindComponents, hcomp, bindLoop_ok comps 0 s (Nat.zero_le _) hall, Res.bind_ok, scanMcuCount_of_ne_one s.fh hne]
  simp only [hn, if_neg hne, List.take_zero, List.nil_append, Nat.zero_add, List.take_left, hcount]

/-- A scan header whose selectors all bind (44_headers.md R231). -/
theorem bindComponents_binds {params : Params} (hf : s.fh.Good params) (hcomp : s.sh.comp = comps)
    (hn : s.sh.ns.toNat = comps.length) (h1 : 1 ≤ comps.length)
    (hb : List.Forall₂ (Binds s.fh s.eff comps.length) comps bs) :
    bindComponents s = .ok () { s with
      nbind := comps.length, bind := bs ++ s.bind.drop comps.length, mcuCount := scanMcuCount s.fh bs } := by
  by_cases hone : comps.length = 1
  · obtain ⟨sc, rfl⟩ := List.length_eq_one_iff.1 hone
    cases hb with
    | cons hb hnil =>
      cases hnil
      exact bindComponents_one hcomp hn hb
  · exact bindComponents_several hf hcomp hn h1 hone hb

end

/-! ## The start of the scan (46_top_level.md R296) -/

theorem nextMarker_pred (m : Marker) (s : State) : (nextMarker m s).pred = s.pred :=
  (congrArg State.pred (nextMarker_predRegs m s) :)

/-- The state in which the scan header read from `u` on is bound: it is stored, and the tables in force are the cascade. -/
def scanHeaderRead (comps : List ScanComp) (ss se : Byte) (ah al : BitVec 4) (u : State) : State :=
  { afterBytes (scanBytes comps ss se ah al) { u with st := .scanHeader } with
    sh := ⟨BitVec.ofNat 8 comps.length, comps, ss, se, ah, al⟩, eff := cascade u.base u.ovl }

/-- Settles O25: the header is read whole, its selectors bind, and `scanStart` and the first MCU write the rest. -/
theorem scanStarts : Obligations.ScanStarts := by
  intro s comps ss se ah al bs hs hv hf h1 h255 hn hb ha
  obtain ⟨params, -, base, ovl, -⟩ := nextMarker_fields 0xFFDA#16 s
  obtain ⟨-, -, -, -, bind, -, -, fh, -⟩ := fields_of_scanRegs (nextMarker_scanRegs 0xFFDA#16 s)
  have pred := nextMarker_pred 0xFFDA#16 s
  rw [exec_sos hs hv]
  generalize nextMarker 0xFFDA#16 s = u at *
  rw [← fh] at hf
  rw [← fh, ← base, ← ovl] at hb
  have ns : (BitVec.ofNat 8 comps.length).toNat = comps.length := Nat.mod_eq_of_lt (by omega)
  have bound := bindComponents_binds (s := scanHeaderRead comps ss se ah al u) hf rfl ns h1 hb
  rw [readScanHeader_ahead (s := { u with st := .scanHeader }) h1 h255 (params ▸ hn) ha, Res.bind_ok]
  change settle ((bindComponents (scanHeaderRead comps ss se ah al u)).bind _) = _
  rw [bound, ← fh, ← base, ← ovl, ← bind, ← pred]
  rfl

end Sys2Proof.Machine
end

section
/-! SUPPORT. Every step gets on (46_top_level.md R302): it ends the decode, or it takes from the input or from the bit buffer, or
it does an act that waits: `afterScan`, or the row of a pending marker. What is left of all three is a natural. -/

namespace Sys2Proof.Machine

/-! ## What is left to do -/

/-- The acts that wait and read nothing: the pending marker, and `afterScan` in `ScanComplete`. -/
def waiting (s : State) : Nat := s.pendmkV.toNat + if s.st = .scanComplete then 1 else 0

/-- What is left of a run: what the bit reader can still deliver first, then the acts that wait. -/
def workLeft (s : State) : Nat := 3 * bitsLeft s + waiting s

theorem waiting_le_two (s : State) : waiting s ≤ 2 := by
  unfold waiting
  have := s.pendmkV.toNat_le
  split <;> omega

/-- How a step from `s` to `t` gets on. -/
inductive Progress (s t : State) : Prop where
  | ends (h : t.terminal)
  | reads (h : bitsLeft t < bitsLeft s)
  | acts (bits : bitsLeft t ≤ bitsLeft s) (h : waiting t < waiting s)

theorem Progress.workLeft_lt {s t : State} (h : Progress s t) : t.terminal ∨ workLeft t < workLeft s := by
  have := waiting_le_two t
  unfold workLeft
  cases h with
  | ends h => exact .inl h
  | reads h => exact .inr (by omega)
  | acts bits h => exact .inr (by omega)

/-- A byte read outweighs any refill of the bit buffer. -/
theorem Progress.of_pos {s t : State} (ht : t.Inv) (hi : t.input = s.input) (h : s.pos < t.pos) : Progress s t := by
  have hpos := ht.pos
  have hcnt := ht.bitcnt
  rw [hi] at hpos
  refine .reads ?_
  simp only [bitsLeft, hi]
  omega

theorem Progress.of_error {s t : State} (h : t.st = .error) : Progress s t := .ends (.inr h)

/-! ## The end of an operation takes nothing and gives nothing back -/

theorem settle_final {r : Res Unit} {t : State} (h : settle r = .next t) :
    t.pos = r.final.pos ∧ bitsLeft t = bitsLeft r.final := by
  cases r with
  | ok a u => cases h; exact ⟨rfl, rfl⟩
  | stop c u =>
    cases c with
    | raise e i => cases h; exact ⟨rfl, rfl⟩
    | fault f => cases h
    | signal g =>
      cases h
      cases g with
      | endOfScan => exact ⟨rfl, rfl⟩
      | markerFound m =>
        unfold scanSignal
        dsimp only
        split <;> exact ⟨rfl, rfl⟩

theorem settle_raise_st {e : ErrKind} {i : Option Info} {u t : State}
    (h : settle (.stop (.raise e i) u) = .next t) : t.st = .error := by
  cases h
  rfl

theorem Res.Runs.pos_le {s t : State} {r : Res Unit} (hr : r.Runs s) (hs : s.pos ≤ s.input.length)
    (h : settle r = .next t) : s.pos ≤ t.pos := by
  rw [(settle_final h).1]
  cases hr with
  | ok emits => exact (emits.pos hs).1
  | stop silent _ => exact (silent.pos hs).1

/-! ## Tokens -/

/-- A byte is an error or is read. -/
theorem dispatchByte_reads {b : Byte} {n : Nat} {s t : State} (hn : 1 ≤ n) (hs : ¬s.terminal)
    (h : dispatchByte b n s = .next t) : t.st = .error ∨ s.pos < t.pos := by
  unfold dispatchByte at h
  cases hst : s.st with
  | awaitSOI | frameTables | awaitingSOS | restartBoundary =>
    rw [hst] at h
    exact .inl (settle_raise_st h)
  | decodingMCUs =>
    rw [hst] at h
    cases h
    exact .inr (Nat.lt_add_of_pos_right hn)
  | scanHeader | scanComplete => rw [hst] at h; cases h
  | done => exact absurd (.inl hst) hs
  | error => exact absurd (.inr hst) hs

theorem awaitSOIMarker_pos (m : Marker) (s : State) : (awaitSOIMarker m s).final.pos = s.pos := by
  unfold awaitSOIMarker
  split <;> rfl

theorem markerInEntropy_pos_le (m : Marker) {s : State} (hs : s.pos + 2 ≤ s.input.length) :
    s.pos + 2 ≤ (markerInEntropy m s : Res Unit).final.pos := by
  unfold markerInEntropy
  dsimp only
  split
  · have body := ((readDNLbody_silent (consumeMarker m s)).pos hs).1
    cases hr : readDNLbody (consumeMarker m s) <;> rw [hr] at body <;> exact body
  · exact le_rfl

/-- A marker read from the stream, wherever tokens are read. -/
theorem fresh_marker_reads {i : Instr} {c : Byte} {s t : State} (hi : i.markerCode = some c) (hs : ¬s.terminal)
    (hv : s.pendmkV = false) (hp : s.pos + 2 ≤ s.input.length) (h : exec i s = .next t) : s.pos < t.pos := by
  suffices s.pos + 2 ≤ t.pos by omega
  rw [exec_marker hi, dispatchMarker] at h
  have row (hh : s.inHeader) (h : settle (markerRow i (markerOf c) (nextMarker (markerOf c) s)) = .next t) :
      s.pos + 2 ≤ t.pos := by
    have fresh : nextMarker (markerOf c) s = consumeMarker (markerOf c) s := if_neg (by simp [hv])
    have runs := markerRow_runs i (markerOf c) (nextMarker_inHeader (m := markerOf c) hh)
    rw [fresh] at h runs
    exact runs.pos_le hp h
  cases hst : s.st with
  | awaitSOI =>
    rw [hst] at h
    exact ((settle_final h).1.trans (awaitSOIMarker_pos _ _)).ge
  | frameTables => rw [hst] at h; exact row (.inl hst) h
  | awaitingSOS => rw [hst] at h; exact row (.inr hst) h
  | decodingMCUs =>
    rw [hst] at h
    exact (markerInEntropy_pos_le _ (s := beginDecode s) hp).trans (settle_final h).1.ge
  | restartBoundary =>
    rw [hst] at h
    exact (boundaryMarker_runs (markerOf c) (consumeMarker (markerOf c) s)).pos_le hp h
  | scanHeader | scanComplete => rw [hst] at h; cases h
  | done => exact absurd (.inl hst) hs
  | error => exact absurd (.inr hst) hs

/-- The work of `ScanHeader` reads the header or takes an error. -/
theorem scanHeaderPhase_reads {s t : State} (hs : s.pos ≤ s.input.length) (h : settle (scanHeaderPhase s) = .next t) :
    t.st = .error ∨ s.pos < t.pos := by
  unfold scanHeaderPhase at h
  split at h
  · cases h
  cases hr : readScanHeader s with
  | stop c u =>
    obtain ⟨e, i, rfl⟩ := readScanHeader_raises s c (by rw [hr]; rfl)
    rw [hr] at h
    exact .inl (settle_raise_st h)
  | ok a u =>
    obtain ⟨w, sh, hf, hpos, -, -, -, rfl⟩ := readScanHeader_ok hr
    rw [hr, Res.bind_ok] at h
    have bound := bindComponents_silent { w with sh := sh, eff := cascade w.base w.ovl }
    cases hc : bindComponents { w with sh := sh, eff := cascade w.base w.ovl } with
    | stop c v =>
      obtain ⟨⟨e, i, rfl⟩, -⟩ := bindComponents_keeps_stop hc
      rw [hc] at h
      exact .inl (settle_raise_st h)
    | ok a v =>
      rw [hc] at h bound
      cases h
      have le := (bound.pos (hf.mono hs).2).1
      have := hpos hs
      exact .inr (by simp at le ⊢; omega)

/-! ## Symbols -/

/-- The operation begun in `s` raises, or it gives no bit back. -/
def Res.Spends (s : State) (r : Res Unit) : Prop := (∃ e i u, r = .stop (.raise e i) u) ∨ bitsLeft r.final ≤ bitsLeft s

theorem Res.Spends.settle {s t : State} {r : Res Unit} (hr : r.Spends s) (h : Sys2Proof.Machine.settle r = .next t) :
    t.st = .error ∨ bitsLeft t ≤ bitsLeft s := by
  rcases hr with ⟨e, i, u, rfl⟩ | hr
  · exact .inl (settle_raise_st h)
  · exact .inr ((settle_final h).2.trans_le hr)

theorem Res.Spends.raise (e : ErrKind) (i : Option Info) (s u : State) : Res.Spends s (Sys2Proof.Machine.raise e i u) :=
  .inl ⟨e, i, u, rfl⟩

/-- Extra bits and what follows them. -/
theorem receive_bind_spends {n : Nat} {s u : State} {f : Nat → State → Res Unit} (hs : s.pos ≤ s.input.length)
    (hu : bitsLeft s ≤ bitsLeft u) (hf : ∀ v w, (f v w).Spends w) : ((receive n s).bind f).Spends u := by
  cases hr : receive n s with
  | ok v w =>
    rcases hf v w with hx | hx
    · exact .inl hx
    · exact .inr (hx.trans (((receive_ok hr).left hs).trans hu))
  | stop c w =>
    have hw := receive_stop hr
    cases c with
    | raise e i => exact .inl ⟨e, i, w, rfl⟩
    | signal g =>
      have := hw.left hs g rfl
      exact .inr (by simp; omega)
    | fault f => exact absurd rfl (hw.noFault f)

theorem unitEnds_bitsLeft (s : State) (b : Binding) (dq nat : List Int) (samp : List Nat) :
    bitsLeft (s.unitEnds b dq nat samp) ≤ bitsLeft s := by
  unfold State.unitEnds
  dsimp only
  split_ifs <;> simp [bitsLeft]

theorem endOfBlock_spends (s : State) : (endOfBlock s).Spends s := by
  cases hb : currentBinding s with
  | none =>
    rw [endOfBlock, hb]
    exact .inr le_rfl
  | some b =>
    by_cases hv : s.fhV = true
    · rw [endOfBlock_ok hv hb, nextUnit_finishUnit]
      exact .inr (unitEnds_bitsLeft s b _ _ _)
    · rw [endOfBlock, hb]
      dsimp only
      rw [completeUnit, if_neg hv]
      exact .inr le_rfl

theorem dcStep_spends (t : Nat) {s : State} (hs : s.pos ≤ s.input.length) : (dcStep t s).Spends s := by
  by_cases ht : s.params.dcsizeMax < t
  · rw [dcStep_over_limit ht]
    exact .raise _ _ _ _
  · rw [dcStep_within_limit (not_lt.1 ht)]
    exact receive_bind_spends (s := { s with atb := false }) hs le_rfl fun _ _ => .inr le_rfl

theorem zrlStep_spends (s : State) : (zrlStep s).Spends s := by
  unfold zrlStep
  dsimp only
  split
  · exact .raise _ _ _ _
  · exact .inr le_rfl

theorem storeCoef_spends (z v : Nat) (s : State) : (storeCoef z v s).Spends s := by
  unfold storeCoef
  split
  · exact endOfBlock_spends _
  · exact .inr le_rfl

theorem coefStep_spends (r z : Nat) {s : State} (hs : s.pos ≤ s.input.length) : (coefStep r z s).Spends s := by
  by_cases h : 63 < s.k + r
  · rw [coefStep_overrun h]
    exact .raise _ _ _ _
  · rw [coefStep_within (not_lt.1 h)]
    exact receive_bind_spends (s := { s with k := s.k + r }) hs le_rfl (storeCoef_spends z)

theorem symbolOf_spends {p : UnitPos} {y : Byte} {s t : State} (hs : s.st = .decodingMCUs) (hp : s.pos ≤ s.input.length)
    (h : exec (symbolOf p y) s = .next t) : t.st = .error ∨ bitsLeft t ≤ bitsLeft s := by
  cases p with
  | dc => exact (dcStep_spends y.toNat hp).settle (symbolAt_next hs h).2
  | ac =>
    rcases decodeAcSymbol_cases y with ⟨r, -, e⟩ | e | ⟨r, z, -, e⟩ <;> rw [symbolOf, e] at h
    · exact (endOfBlock_spends s).settle (symbolAt_next hs h).2
    · exact (zrlStep_spends s).settle (symbolAt_next hs h).2
    · exact (coefStep_spends r.toNat z.toNat hp).settle (symbolAt_next hs h).2

/-- A symbol takes a bit at least, or an error is taken. -/
theorem fetchSymbol_takes {s t : State} {b : Binding} (hs : s.st = .decodingMCUs) (hp : s.pos ≤ s.input.length)
    (hb : currentBinding s = some b) (h : (fetchSymbol s).outcome = .next t) : t.st = .error ∨ bitsLeft t < bitsLeft s := by
  rcases fetchSymbol_cases hb with ⟨y, u, hr, e⟩ | ⟨c, u, hr, e⟩ <;> rw [e] at h
  · obtain ⟨frame, taken⟩ := decodeSymbol_ok_frame hr
    have st : u.st = s.st := (congrArg State.st frame.keep :)
    have input : u.input = s.input := frame.input
    have pos : u.pos ≤ u.input.length := input ▸ (frame.pos hp).2
    exact (symbolOf_spends (st.trans hs) pos h).imp_right fun le => le.trans_lt (taken hp)
  · rcases decodeSymbol_stop_frame hr with ⟨f, rfl⟩ | frame
    · cases h
    cases c with
    | raise e i => exact .inl (settle_raise_st h)
    | fault f => cases h
    | signal g =>
      have left : bitsLeft u + 2 ≤ bitsLeft s := frame.left hp g rfl
      have final : bitsLeft t = bitsLeft u := (settle_final (r := .stop (.signal g) u) h).2
      exact .inr (by omega)

/-! ## A step, a run -/

theorem waiting_afterScan {s : State} (hs : s.st = .scanComplete) : waiting (afterScan s) < waiting s := by
  simp [waiting, afterScan, hs]

section
variable {s t : State} (hs : s.Inv) (ht : t.Inv) (hin : t.input = s.input) (hpos : s.pos ≤ t.pos)
include hs ht hin hpos

/-- The row of a pending marker: an error or the end of the decode, a header read, or else the marker no longer waits. -/
theorem pending_marker_progress {i : Instr} {c : Byte} (hi : i.markerCode = some c) (hst : s.st = .awaitingSOS)
    (hv : s.pendmkV = true) (h : exec i s = .next t) : Progress s t := by
  by_cases hframe : isFrame (markerOf c) = true
  · obtain ⟨-, -, -, -, -, frame⟩ := headerRefusals s (.inr hst)
    rw [(frame i c hi hframe).2 hst] at h
    cases h
    exact .of_error rfl
  by_cases hsos : i = .sos
  · subst hsos
    rw [exec_inHeader (i := .sos) rfl (.inr hst)] at h
    have region : ¬(nextMarker (markerOf 0xDA#8) s).st = .frameTables := by simp [hst]
    change settle (sosRow (markerOf 0xDA#8) (nextMarker (markerOf 0xDA#8) s)) = .next t at h
    rw [sosRow, if_neg region, nextMarker, if_pos hv] at h
    rcases scanHeaderPhase_reads (s := { s with pendmkV := false, st := .scanHeader }) hs.pos h with e | e
    · exact .of_error e
    · exact .of_pos ht hin e
  · obtain ⟨keep, -, -, -, -, -, -, -, -, st⟩ := headerMarkerFrame i c s t hi (by simpa using hframe) hsos (.inr hst) h
    have bitcnt : t.bitcnt = s.bitcnt := (congrArg State.bitcnt keep :)
    have taken : t.pendmkV = false := (congrArg State.pendmkV keep :)
    rcases st with e | e | ⟨-, e⟩
    · refine .acts ?_ (by simp [waiting, taken, e, hst, hv])
      simp only [bitsLeft, hin, bitcnt]
      omega
    · exact .of_error e
    · exact .ends (.inl e)

/-- A token found under the invariant: read from the stream, or the marker that waited for the header region. -/
theorem token_progress {i : Instr} {rest : List Byte} (hst : ¬s.terminal) (hsrc : s.st ≠ .scanComplete)
    (hd : decode .token (tokenSource s) = .ok (i, rest)) (h : exec i s = .next t) : Progress s t := by
  rcases decodeToken_ok hd with ⟨b, n, hp, -, hexec⟩ | ⟨c, -, hp, hi⟩
  · rw [hexec] at h
    rcases dispatchByte_reads (peekToken_byte_rawLen hp).1 hst h with e | e
    · exact .of_error e
    · exact .of_pos ht hin e
  · by_cases hv : s.pendmkV = true
    · have hregion : s.st = .awaitingSOS := by
        rcases (hs.pending hv).2 with e | e | e
        · exact absurd e hsrc
        · exact e
        · exact absurd (.inr e) hst
      exact pending_marker_progress hs ht hin hpos hi hregion hv h
    · rw [tokenSource, if_neg hv] at hp
      exact .of_pos ht hin (fresh_marker_reads hi hst (by simpa using hv) (consumeMarker_pos_le hp) h)

end

/-- A step under the invariant gets on, unless the decode has ended. -/
theorem step_progress {s t : State} (hs : s.Inv) (hst : ¬s.terminal) (h : step s = .next t) : Progress s t := by
  have ht : t.Inv := stepKeepsInv s t hs h
  obtain ⟨hin, -, hpos, -⟩ := streamOnlyMovesOn s t h hs.pos
  rw [step_eq_outcome] at h
  rcases fetch_cases hs with ⟨hterm, -⟩ | ⟨hc, hf⟩ | ⟨-, hf⟩ | ⟨hsrc, ⟨i, rest, hd, hf⟩ | ⟨-, hf⟩⟩ | ⟨hm, -, b, hb, hf⟩
  · exact absurd hterm hst
  · rw [hf] at h
    cases h
    exact .acts le_rfl (waiting_afterScan hc)
  · rw [hf] at h
    rcases scanHeaderPhase_reads hs.pos h with e | e
    · exact .of_error e
    · exact .of_pos ht hin e
  · rw [hf] at h
    exact token_progress hs ht hin hpos hst (fun e => by simp [e] at hsrc) hd h
  · rw [hf] at h
    exact .of_error (settle_raise_st h)
  · rw [hf] at h
    rcases fetchSymbol_takes hm hs.pos hb h with e | e
    · exact .of_error e
    · exact .reads e

/-- Settles O58: `step_keeps` answers more. -/
theorem stepAnswers : Obligations.StepAnswers := by
  intro s hs
  obtain ⟨t, h, -⟩ := step_keeps hs
  exact ⟨t, h⟩

theorem run_succ {M : Host.Core} {s t : M.State} (h : M.step s = .next t) (n : Nat) : M.run (n + 1) s = M.run n t := by
  rw [Host.Core.run, h]

/-- Settles O59: by induction on what is left to do, which every step lowers until it ends the decode. -/
theorem runTerminates : Obligations.RunTerminates := by
  intro s hs
  induction hw : workLeft s using Nat.strong_induction_on generalizing s with
  | _ w ih =>
    by_cases hst : s.terminal
    · exact ⟨0, s, rfl, hst⟩
    obtain ⟨t, h, ht⟩ := step_keeps hs
    rcases (step_progress hs hst h).workLeft_lt with e | e
    · exact ⟨1, t, run_succ (M := Sys2Proof.core) h 0, e⟩
    · obtain ⟨n, u, hn, hu⟩ := ih (workLeft t) (hw ▸ e) t ht rfl
      exact ⟨n + 1, u, (run_succ (M := Sys2Proof.core) h n).trans hn, hu⟩

end Sys2Proof.Machine
end

section
/-! SUPPORT. Where the image assembler places blocks (47_image_assembler.md R311, R314): every place is aligned to 8 samples and
inside the plane, and no two blocks of one scan share one. And what a sample, a plane and the image hold (R310, R312, R313). -/

namespace Sys2Proof.Machine

/-! ## The size of a plane (R312, R313) -/

/-- One side of a plane, from the frame's size and the largest factor. -/
theorem padding_mul_div {x a m : Nat} (hm : 0 < m) : padding (8 * m) x * a / m = ceilDiv x (8 * m) * 8 * a := by
  rw [padding, show ceilDiv x (8 * m) * (8 * m) * a = ceilDiv x (8 * m) * 8 * a * m by ring, Nat.mul_div_cancel _ hm]

/-- A component's side is inside its plane. -/
theorem ceilDiv_le_plane {x a m : Nat} (hm : 0 < m) : ceilDiv (x * a) m ≤ ceilDiv x (8 * m) * 8 * a := by
  rw [ceilDiv_le_iff hm, show m * (ceilDiv x (8 * m) * 8 * a) = 8 * m * ceilDiv x (8 * m) * a by ring]
  exact Nat.mul_le_mul_right a ((ceilDiv_le_iff (by omega)).1 le_rfl)

section
variable {params : Params} {f : FrameHeader} {c : FrameComp}

/-- The largest factors are not 0: no factor is. -/
theorem FrameHeader.Good.max_pos (hf : f.Good params) : 0 < f.hmax.toNat ∧ 0 < f.vmax.toNat := by
  obtain ⟨a, ha, hh⟩ := List.mem_map.1 hf.hmax.1
  obtain ⟨b, hb, hv⟩ := List.mem_map.1 hf.vmax.1
  exact ⟨hh ▸ BitVec.toNat_pos_of_ne_zero (hf.factors a ha).1, hv ▸ BitVec.toNat_pos_of_ne_zero (hf.factors b hb).2⟩

theorem planeSize_eq (hf : f.Good params) (c : FrameComp) :
    planeSize f c = (mcusPerRow f * 8 * c.h.toNat, mcuRows f * 8 * c.v.toNat) := by
  obtain ⟨hh, hv⟩ := hf.max_pos
  rw [planeSize, padding_mul_div hh, padding_mul_div hv, mcusPerRow, mcuRows]

theorem crop_le_planeSize (hf : f.Good params) (hc : c ∈ f.comp) :
    c.width ≤ (planeSize f c).1 ∧ c.height ≤ (planeSize f c).2 := by
  obtain ⟨hh, hv⟩ := hf.max_pos
  obtain ⟨hwidth, hheight⟩ := hf.sizes c hc
  rw [planeSize_eq hf, hwidth, hheight]
  exact ⟨ceilDiv_le_plane hh, ceilDiv_le_plane hv⟩

end

/-! ## The places of blocks (R311, R314) -/

/-- The two digits of a number in base `h`. -/
theorem digits_unique {h a b i j : Nat} (hi : i < h) (hj : j < h) (e : a * h + i = b * h + j) : a = b ∧ i = j := by
  have hab := congrArg (· / h) e
  have hij := congrArg (· % h) e
  simpa [Nat.add_comm, Nat.add_mul_div_right, Nat.div_eq_of_lt, Nat.mod_eq_of_lt, hi, hj, Nat.zero_lt_of_lt hi]
    using And.intro hab hij

/-- A number of two digits in base `h`, the high one below `r`. -/
theorem digits_lt {h r a i : Nat} (ha : a < r) (hi : i < h) : a * h + i < r * h := by
  calc a * h + i < (a + 1) * h := by rw [Nat.add_mul]; omega
    _ ≤ r * h := Nat.mul_le_mul_right h ha

/-- Column and row of cell `n` of a grid of `w` by `h` cells. -/
theorem grid_lt {w h n : Nat} (hn : n < w * h) : n % w < w ∧ n / w < h :=
  ⟨Nat.mod_lt _ (Nat.pos_of_mul_pos_right (Nat.zero_lt_of_lt hn)), Nat.div_lt_of_lt_mul hn⟩

/-- The bounds on the digits of a block that has a place in the MCU grid. -/
theorem interleaved_digits_lt {w h a b n : Nat} (hn : n < w * h * (a * b)) :
    n / (a * b) % w < w ∧ n / (a * b) / w < h ∧ n % (a * b) % a < a ∧ n % (a * b) / a < b := by
  rw [Nat.mul_comm] at hn
  obtain ⟨hu, hm⟩ := grid_lt hn
  exact ⟨(grid_lt hm).1, (grid_lt hm).2, (grid_lt hu).1, (grid_lt hu).2⟩

/-- A place counted in blocks: digits in the bases `H` and `V`, the MCU's column and row the high ones. -/
theorem interleavedOrigin_eq (f : FrameHeader) (c : FrameComp) (n : Nat) :
    interleavedOrigin f c n =
      (8 * (n / (c.h.toNat * c.v.toNat) % mcusPerRow f * c.h.toNat + n % (c.h.toNat * c.v.toNat) % c.h.toNat),
       8 * (n / (c.h.toNat * c.v.toNat) / mcusPerRow f * c.v.toNat + n % (c.h.toNat * c.v.toNat) / c.h.toNat)) := by
  rw [interleavedOrigin]
  ext <;> ring

/-- Unit `(i, j)` of MCU `m` is block `m·H·V + i·H + j`. -/
theorem interleavedOrigin_unit (f : FrameHeader) {c : FrameComp} {i j : Nat} (m : Nat) (hi : i < c.v.toNat)
    (hj : j < c.h.toNat) : interleavedOrigin f c (m * (c.h.toNat * c.v.toNat) + i * c.h.toNat + j) =
      (m % mcusPerRow f * 8 * c.h.toNat + 8 * j, m / mcusPerRow f * 8 * c.v.toNat + 8 * i) := by
  have hu : i * c.h.toNat + j < c.h.toNat * c.v.toNat := Nat.mul_comm c.v.toNat _ ▸ digits_lt hi hj
  rw [interleavedOrigin, Nat.add_assoc, Nat.mul_comm m, Nat.mul_comm i]
  simp only [Nat.mul_add_div (Nat.zero_lt_of_lt hu), Nat.mul_add_div (Nat.zero_lt_of_lt hj), Nat.mul_add_mod,
    Nat.mod_eq_of_lt, Nat.div_eq_of_lt, hj, Nat.mul_comm c.h.toNat i ▸ hu, Nat.add_zero]

section
variable {ns n n' : Nat} {f : FrameHeader} {c : FrameComp} {o : Nat × Nat}

theorem blockOrigin_eq_some : blockOrigin ns f c n = some o ↔
    n < blockCapacity ns f c ∧ (if ns = 1 then soloOrigin c n else interleavedOrigin f c n) = o := by
  simp [blockOrigin]

theorem blockOrigin_solo : blockOrigin 1 f c n = some o ↔
    n < ceilDiv c.width 8 * ceilDiv c.height 8 ∧ soloOrigin c n = o := by
  simp [blockOrigin, blockCapacity]

theorem blockOrigin_interleaved (hns : ns ≠ 1) : blockOrigin ns f c n = some o ↔
    n < mcusPerRow f * mcuRows f * (c.h.toNat * c.v.toNat) ∧ interleavedOrigin f c n = o := by
  simp [blockOrigin, blockCapacity, hns]

/-- A block has its own place in its scan. -/
theorem blockOrigin_injective (h : blockOrigin ns f c n = some o) (h' : blockOrigin ns f c n' = some o) : n = n' := by
  by_cases hns : ns = 1
  · subst hns
    obtain ⟨-, rfl⟩ := blockOrigin_solo.1 h
    obtain ⟨-, e⟩ := blockOrigin_solo.1 h'
    obtain ⟨ex, ey⟩ := Prod.ext_iff.1 e
    simp only [soloOrigin] at ex ey
    exact (Nat.ext_div_mod (Nat.eq_of_mul_eq_mul_right (by decide) ey)
      (Nat.eq_of_mul_eq_mul_right (by decide) ex)).symm
  · obtain ⟨hn, rfl⟩ := (blockOrigin_interleaved hns).1 h
    obtain ⟨hn', e⟩ := (blockOrigin_interleaved hns).1 h'
    obtain ⟨-, -, hj, hi⟩ := interleaved_digits_lt hn
    obtain ⟨-, -, hj', hi'⟩ := interleaved_digits_lt hn'
    rw [interleavedOrigin_eq, interleavedOrigin_eq, Prod.mk.injEq] at e
    obtain ⟨hcol, hx⟩ := digits_unique hj' hj (Nat.eq_of_mul_eq_mul_left (by decide) e.1)
    obtain ⟨hrow, hy⟩ := digits_unique hi' hi (Nat.eq_of_mul_eq_mul_left (by decide) e.2)
    exact Nat.ext_div_mod (Nat.ext_div_mod hrow hcol).symm (Nat.ext_div_mod hy hx).symm

theorem blockOrigin_aligned (h : blockOrigin ns f c n = some o) : 8 ∣ o.1 ∧ 8 ∣ o.2 := by
  obtain ⟨-, rfl⟩ := blockOrigin_eq_some.1 h
  split
  · exact ⟨Nat.dvd_mul_left .., Nat.dvd_mul_left ..⟩
  · rw [interleavedOrigin_eq]
    exact ⟨Nat.dvd_mul_right .., Nat.dvd_mul_right ..⟩

/-- A block's place is inside the plane. -/
theorem blockOrigin_inside {params : Params} (hf : f.Good params) (hc : c ∈ f.comp) (h : blockOrigin ns f c n = some o) :
    o.1 + 8 ≤ (planeSize f c).1 ∧ o.2 + 8 ≤ (planeSize f c).2 := by
  by_cases hns : ns = 1
  · subst hns
    obtain ⟨hn, rfl⟩ := blockOrigin_solo.1 h
    obtain ⟨hx, hy⟩ := crop_le_planeSize hf hc
    rw [planeSize_eq hf] at hx hy ⊢
    have hw : ceilDiv c.width 8 ≤ mcusPerRow f * c.h.toNat := (ceilDiv_le_iff (by decide)).2 (by linarith)
    have hh : ceilDiv c.height 8 ≤ mcuRows f * c.v.toNat := (ceilDiv_le_iff (by decide)).2 (by linarith)
    obtain ⟨hcol, hrow⟩ := grid_lt hn
    exact ⟨by simp only [soloOrigin]; linarith, by simp only [soloOrigin]; linarith⟩
  · obtain ⟨hn, rfl⟩ := (blockOrigin_interleaved hns).1 h
    obtain ⟨hcol, hrow, hj, hi⟩ := interleaved_digits_lt hn
    have hx := digits_lt hcol hj
    have hy := digits_lt hrow hi
    rw [planeSize_eq hf, interleavedOrigin_eq]
    exact ⟨by linarith, by linarith⟩

end

/-! ## The samples of a plane (R311) -/

theorem PlacedBlock.covers_iff {b : PlacedBlock} {x y : Nat} :
    b.covers x y = true ↔ b.x ≤ x ∧ x < b.x + 8 ∧ b.y ≤ y ∧ y < b.y + 8 := decide_eq_true_iff

section
variable {ns : Nat → Nat} {f : FrameHeader} {c : FrameComp}

theorem placeRecord_eq_some {seen : List OutRec} {r : OutRec} {b : PlacedBlock} : placeRecord ns f c seen r = some b ↔
    blockOrigin (ns r.scan) f c (seen.countP fun q => q.scan == r.scan) = some (b.x, b.y) ∧ r.samples = b.samples := by
  obtain ⟨x, y, samples⟩ := b
  simp [placeRecord]

theorem placeRecords_append (seen l rs : List OutRec) :
    placeRecords ns f c seen (l ++ rs) = placeRecords ns f c seen l ++ placeRecords ns f c (l.reverse ++ seen) rs := by
  induction l generalizing seen with
  | nil => rfl
  | cons r l ih => simp [placeRecords, ih]

/-- A placed block is that of a record, numbered after the records of its scan that stand before. -/
theorem origin_of_mem_placeRecords {seen rs : List OutRec} {b : PlacedBlock} (hb : b ∈ placeRecords ns f c seen rs) :
    ∃ r ∈ rs, ∃ n, (seen.countP fun q => q.scan == r.scan) ≤ n ∧ blockOrigin (ns r.scan) f c n = some (b.x, b.y) := by
  induction rs generalizing seen with
  | nil => simp [placeRecords] at hb
  | cons r rs ih =>
    rw [placeRecords, List.mem_append, Option.mem_toList] at hb
    rcases hb with hb | hb
    · exact ⟨r, List.mem_cons_self, _, le_rfl, (placeRecord_eq_some.1 hb).1⟩
    · obtain ⟨q, hq, n, hn, ho⟩ := ih hb
      exact ⟨q, List.mem_cons_of_mem r hq, n, le_trans (by rw [List.countP_cons]; omega) hn, ho⟩

/-- The last block that covers a sample gives it. -/
theorem planeSample_of_last {l rs : List OutRec} {r : OutRec} {b : PlacedBlock} {x y : Nat}
    (hb : placeRecord ns f c l.reverse r = some b) (hcov : b.covers x y = true)
    (hlater : ∀ q ∈ placeRecords ns f c (r :: l.reverse) rs, ¬q.covers x y = true) :
    planeSample ns f c (l ++ r :: rs) x y = b.sample x y := by
  have hnone : ((placeRecords ns f c (r :: l.reverse) rs).reverse.find? fun q => q.covers x y) = none :=
    List.find?_eq_none.2 fun q hq => hlater q (List.mem_reverse.1 hq)
  simp [planeSample, placeRecords_append, placeRecords, hb, hnone, hcov]

/-- No block covers a sample outside the plane. -/
theorem planeSample_outside {params : Params} (hf : f.Good params) (hc : c ∈ f.comp) {x y : Nat} (recs : List OutRec)
    (h : (planeSize f c).1 ≤ x ∨ (planeSize f c).2 ≤ y) : planeSample ns f c recs x y = none := by
  rw [planeSample, List.find?_eq_none.2, Option.bind_none]
  intro b hb hcov
  obtain ⟨r, -, n, -, ho⟩ := origin_of_mem_placeRecords (List.mem_reverse.1 hb)
  obtain ⟨hx, hy⟩ := blockOrigin_inside hf hc ho
  rw [PlacedBlock.covers_iff] at hcov
  omega

/-- A block's number in its scan: what stands before the scan does not count. -/
theorem countP_scan {before blocks : List OutRec} {k n : Nat} (hbefore : ∀ q ∈ before, q.scan ≠ k)
    (hblocks : ∀ q ∈ blocks, q.scan = k) (hn : n ≤ blocks.length) :
    ((before ++ blocks.take n).reverse.countP fun q => q.scan == k) = n := by
  have hother : (before.countP fun q => q.scan == k) = 0 := List.countP_eq_zero.2 (by simpa using hbefore)
  have hall : ((blocks.take n).countP fun q => q.scan == k) = (blocks.take n).length :=
    List.countP_eq_length.2 fun q hq => beq_iff_eq.2 (hblocks q (List.mem_of_mem_take hq))
  rw [List.countP_reverse, List.countP_append, hother, hall, Nat.zero_add, List.length_take_of_le hn]

/-- Block `n` of scan `k` gives the samples at its place, row-major: what stands before is of other scans, and what comes after
it in its own scan goes elsewhere. -/
theorem planeSample_block {before blocks : List OutRec} {k n ox oy bx by' : Nat} {r : OutRec}
    (hbefore : ∀ q ∈ before, q.scan ≠ k) (hblocks : ∀ q ∈ blocks, q.scan = k) (hx : bx < 8) (hy : by' < 8)
    (hr : blocks[n]? = some r) (ho : blockOrigin (ns k) f c n = some (ox, oy)) :
    planeSample ns f c (before ++ blocks) (ox + bx) (oy + by') = r.samples[8 * by' + bx]? := by
  obtain ⟨hn, rfl⟩ := List.getElem?_eq_some_iff.1 hr
  have hscan : (blocks[n]).scan = k := hblocks _ (List.getElem_mem hn)
  have hcount := countP_scan hbefore hblocks hn.le
  have hsplit : before ++ blocks = (before ++ blocks.take n) ++ blocks[n] :: blocks.drop (n + 1) := by
    rw [List.append_assoc, List.getElem_cons_drop, List.take_append_drop]
  have hplace : placeRecord ns f c (before ++ blocks.take n).reverse blocks[n] = some ⟨ox, oy, (blocks[n]).samples⟩ :=
    placeRecord_eq_some.2 ⟨by rw [hscan, hcount, ho], rfl⟩
  rw [hsplit, planeSample_of_last hplace (PlacedBlock.covers_iff.2 (by simpa using ⟨hx, hy⟩))]
  · simp [PlacedBlock.sample]
  · intro q hq hcov
    obtain ⟨p, hp, m, hm, hq⟩ := origin_of_mem_placeRecords hq
    rw [hblocks p (List.mem_of_mem_drop hp)] at hm hq
    rw [List.countP_cons_of_pos (by simpa using hscan), hcount] at hm
    have hsame : q.x = ox ∧ q.y = oy := by
      have halign := blockOrigin_aligned ho
      have halign' := blockOrigin_aligned hq
      rw [PlacedBlock.covers_iff] at hcov
      omega
    have := blockOrigin_injective ho (hsame.1 ▸ hsame.2 ▸ hq)
    omega

/-- Unit `(i, j)` of MCU `m` in an interleaved scan (R311). -/
theorem blockOrigin_unit {n m i j : Nat} (hns : n ≠ 1) (hm : m < mcusPerRow f * mcuRows f) (hi : i < c.v.toNat)
    (hj : j < c.h.toNat) : blockOrigin n f c (m * (c.h.toNat * c.v.toNat) + i * c.h.toNat + j) =
      some (m % mcusPerRow f * 8 * c.h.toNat + 8 * j, m / mcusPerRow f * 8 * c.v.toNat + 8 * i) := by
  have hu : i * c.h.toNat + j < c.h.toNat * c.v.toNat := Nat.mul_comm c.v.toNat _ ▸ digits_lt hi hj
  exact (blockOrigin_interleaved hns).2 ⟨Nat.add_assoc .. ▸ digits_lt hm hu, interleavedOrigin_unit f m hi hj⟩

end

/-! ## The planes and the image (R310, R313, R315) -/

section
variable {ns : Nat → Nat} {f : FrameHeader} {c : FrameComp} {recs : List OutRec} {y : Nat}

theorem componentPlane_row (hy : y < (planeSize f c).2) : (componentPlane ns f c recs).rows[y]? =
    some ((List.range (planeSize f c).1).map fun x => planeSample ns f c recs x y) := by
  simp [componentPlane, hy]

theorem componentPlane_cropped_row (hw : c.width ≤ (planeSize f c).1) (hh : c.height ≤ (planeSize f c).2)
    (hy : y < c.height) : (componentPlane ns f c recs).cropped[y]? =
      some ((List.range c.width).map fun x => planeSample ns f c recs x y) := by
  have hrow : ((componentPlane ns f c recs).rows.take c.height)[y]? = _ :=
    (List.getElem?_take_of_lt hy).trans (componentPlane_row (hy.trans_le hh))
  calc (componentPlane ns f c recs).cropped[y]?
      = (((componentPlane ns f c recs).rows.take c.height)[y]?).map (List.take c.width) := List.getElem?_map
    _ = some ((List.range c.width).map fun x => planeSample ns f c recs x y) := by
      rw [hrow, Option.map_some, ← List.map_take, List.take_range, Nat.min_eq_left hw]

theorem componentPlane_cropped_length (hh : c.height ≤ (planeSize f c).2) :
    (componentPlane ns f c recs).cropped.length = c.height := by
  simpa [ComponentPlane.cropped, componentPlane] using hh

end

/-- A row given sample by sample. -/
theorem exists_row {α : Type} {rows : List (List α)} {y w : Nat} {g : Nat → α}
    (h : rows[y]? = some ((List.range w).map g)) :
    ∃ row, rows[y]? = some row ∧ row.length = w ∧ ∀ x < w, row[x]? = some (g x) :=
  ⟨_, h, by simp, fun x hx => by simp [hx]⟩

theorem assemble_eq_none {ns : Nat → Nat} {f : FrameHeader} {out : List OutRec} (h : f.x = 0#16 ∨ f.y = 0#16) :
    assemble ns f out = none := if_pos h

theorem assemble_eq_some (ns : Nat → Nat) {f : FrameHeader} (out : List OutRec) (hx : f.x ≠ 0#16) (hy : f.y ≠ 0#16) :
    assemble ns f out = some ⟨f.x.toNat, f.y.toNat,
      f.comp.map fun c => componentPlane ns f c (componentRecords c.id out)⟩ := if_neg (not_or.2 ⟨hx, hy⟩)

/-- Settles O60: the sizes and the crop by `planeSize_eq`, the placement by `planeSample_block`, the image by its rows. -/
theorem blockPlacement : Obligations.BlockPlacement := by
  intro params f c ns hf hc
  obtain ⟨hw, hh⟩ := crop_le_planeSize hf hc
  refine ⟨planeSize_eq hf c, hw, hh, fun recs x y => planeSample_outside hf hc recs, ?_, fun out => ⟨assemble_eq_none, ?_⟩⟩
  · intro k before blocks bx by' hbefore hblocks hbx hby
    refine ⟨fun hns m i j r hm hi hj hr => ?_, fun hns n r hn hr => ?_⟩
    · exact planeSample_block hbefore hblocks hbx hby hr (blockOrigin_unit hns hm hi hj)
    · exact planeSample_block hbefore hblocks hbx hby hr (hns ▸ blockOrigin_solo.2 ⟨hn, rfl⟩)
  · intro hx hy
    refine ⟨_, assemble_eq_some ns out hx hy, rfl, rfl, List.map_map, componentPlane ns f c (componentRecords c.id out),
      List.mem_map_of_mem hc, rfl, rfl, rfl, rfl, rfl, ?_, ?_, ?_, ?_⟩
    · exact List.length_map .. |>.trans List.length_range
    · exact fun y hy => exists_row (componentPlane_row hy)
    · exact componentPlane_cropped_length hh
    · exact fun y hy => exists_row (componentPlane_cropped_row hw hh hy)

end Sys2Proof.Machine
end

section
/-! SUPPORT. Where a token is wanted and none can be read (40_bytestream.md R141, 60_exceptions.md R324), what a data byte does
in each state (60_exceptions.md R326, 41_bitreader.md R161), the wires once an error is taken (60_exceptions.md R335), and
reset (70_reset_and_hazards.md R361). -/

namespace Sys2Proof.Machine

/-! ## The end of input (R141, R324) -/

theorem peekToken_eq_exhausted {l : List Byte} : peekToken l = .exhausted ↔ l = [] ∨ l = [0xFF#8] := by
  match l with
  | [] => simp [peekToken]
  | [b] => by_cases hb : b = 0xFF#8 <;> simp [peekToken, hb]
  | b :: c :: l =>
    by_cases hb : b = 0xFF#8
    · by_cases hc : c = 0#8 <;> simp [hb, hc]
    · simp [hb]

/-- Outside a scan, where no marker is pending, the token at `POS` comes next. -/
theorem fetch_at_pos {s : State}
    (hs : (s.inHeader ∧ s.pendmkV = false) ∨ s.st = .awaitSOI ∨ s.st = .restartBoundary) :
    fetch s = fetchFrom (remaining s) s := by
  rcases hs with ⟨hs, hp⟩ | hs | hs
  · rw [fetch_inHeader hs, tokenSource, hp]
    rfl
  · rw [fetch, hs]
  · rw [fetch, hs]

/-- In a scan the symbol decode has begun when the refill finds no byte (log 7). -/
theorem fetch_decoding_exhausted {s : State} (hs : s.st = .decodingMCUs) (hb : s.bitcnt = 0)
    (h : peekToken (remaining s) = .exhausted) : fetch s = .noInstr (exhausted (beginDecode s)) := by
  rw [fetch, hs]
  dsimp only
  rw [if_pos hb, h]

theorem settle_exhausted (s : State) :
    settle (exhausted s) = .next (State.latched 1#4 s.lastmk { s with pos := s.input.length }) := rfl

/-- Settles O14: the token at `POS` by the shape of the bytes left, and what `fetch` finds when it is none. -/
theorem inputEnds : Obligations.InputEnds := by
  refine ⟨fun l => peekToken_eq_exhausted, fun s hs h => ?_, fun s hs hb h => ?_⟩
  · have hf : fetch s = .noInstr (exhausted s) := (fetch_at_pos hs).trans (fetchFrom_of_exhausted h s)
    exact (step_of_fetch_noInstr hf).trans (settle_exhausted s)
  · exact (step_of_fetch_noInstr (fetch_decoding_exhausted hs hb h)).trans (settle_exhausted (beginDecode s))

/-! ## Data bytes (R161, R326) -/

theorem dispatchByte_marker_wanted {s : State} (hs : s.st = .awaitSOI ∨ s.inHeader ∨ s.st = .restartBoundary)
    (b : Byte) (n : Nat) : dispatchByte b n s = .next (State.latched 2#4 s.lastmk s) := by
  rcases hs with hs | (hs | hs) | hs
  · exact dispatchByte_awaitSOI hs b n
  · rw [dispatchByte, hs]
    rfl
  · rw [dispatchByte, hs]
    rfl
  · exact exec_byte_boundary hs b n

theorem dispatchByte_decoding {s : State} (hs : s.st = .decodingMCUs) (b : Byte) (n : Nat) :
    dispatchByte b n s = .next (loadByte b n (beginDecode s)) := by
  rw [dispatchByte, hs]

/-- Settles O18: both tokens are dispatched as the byte they stand for, with its one or two raw bytes. -/
theorem dataTokens : Obligations.DataTokens := by
  refine fun s b => ⟨fun hs => ?_, fun hs => ?_, fun hs => ?_⟩
  · exact ⟨dispatchByte_marker_wanted hs b 1, dispatchByte_marker_wanted hs 0xFF#8 2⟩
  · exact ⟨dispatchByte_decoding hs b 1, dispatchByte_decoding hs 0xFF#8 2⟩
  · exact ⟨exec_terminal hs (.data b), exec_terminal hs .stuffed⟩

/-! ## Taking an error (R335) -/

@[simp] theorem errorWire_trapEntry (e : ErrKind) (i : Option Info) (s : State) : errorWire (trapEntry e i s) = true := by
  simp [errorWire]

@[simp] theorem doneWire_trapEntry (e : ErrKind) (i : Option Info) (s : State) : doneWire (trapEntry e i s) = false := by
  simp [doneWire]

/-- Settles O47: `trapEntry` writes five registers, the marker by `errorMarker`, and the wires tell `STATE`. -/
theorem trapEntry_latches : Obligations.TrapEntry :=
  ⟨fun e _ s => ⟨rfl, fun _ => rfl, rfl, fun i => ⟨errorWire_trapEntry e i s, doneWire_trapEntry e i s⟩⟩, by decide⟩

/-! ## Reset (R361, 10_state.md R45) -/

/-- The reset state is what the host's reset leaves of it, and a loaded stream is a new input. -/
theorem load_eq_hostReset (bytes : List Byte) : State.load bytes = hostReset bytes State.reset := rfl

theorem reset_eq_hostReset : State.reset = hostReset [] State.reset := rfl

theorem slotGet_miscTables_empty (i : BitVec 2) : slotGet MiscTables.empty.quant i = none ∧
    slotGet MiscTables.empty.dc i = none ∧ slotGet MiscTables.empty.ac i = none :=
  ⟨slotGet_empty i, slotGet_empty i, slotGet_empty i⟩

/-- The three snapshots are `EMPTY` after reset. -/
theorem eq_empty_of_mem_hostReset {bytes : List Byte} {s : State} {m : MiscTables}
    (hm : m ∈ [(hostReset bytes s).base, (hostReset bytes s).ovl, (hostReset bytes s).eff]) : m = MiscTables.empty :=
  List.eq_of_mem_replicate (n := 3) hm

/-- Settles O55: the registers are written out in `State.reset`, and every slot of `EMPTY` is none. -/
theorem resetValues : Obligations.ResetValues := by
  unfold Obligations.ResetValues
  intro given
  have values (bytes : List Byte) (s : State) : given (hostReset bytes s) := by
    refine ⟨rfl, rfl, rfl, rfl, rfl, rfl, rfl, rfl, rfl, rfl, rfl, rfl, rfl, rfl, rfl, fun m hm => ?_⟩
    obtain rfl := eq_empty_of_mem_hostReset hm
    exact ⟨rfl, slotGet_miscTables_empty⟩
  exact ⟨fun bytes s => ⟨values bytes s, rfl, rfl⟩, reset_eq_hostReset ▸ values [] State.reset⟩

/-- The host's reset reaches the invariant from any state, whatever it held, if the parameters admit precisions only. -/
theorem hostReset_inv {s : State} (hs : ∀ p ∈ s.params.precisions, 1 ≤ p ∧ p ≤ 16) (bytes : List Byte) :
    (hostReset bytes s).Inv where
  params := hs
  pos := Nat.zero_le _
  bitcnt := Nat.zero_le _
  len := Nat.zero_le _
  k := Nat.zero_le _
  blocks := ⟨zeroBlock_length, zeroBlock_length, zeroBlock_length, List.length_replicate⟩
  pending h := by cases h
  errors := ⟨rfl, rfl, rfl, rfl⟩
  base := MiscTables.good_empty
  ovl := MiscTables.good_empty
  eff := MiscTables.good_empty
  held h := by cases h
  notHeld _ := rfl
  header h := by cases h
  bound h := by cases h
  place h := by cases h
  boundary h := by cases h
  complete h := by cases h
  records r h := by cases h

/-- Settles O56: the reset state and every loaded one are left by the host's reset, under the used parameters. -/
theorem resetInv : Obligations.ResetInv := by
  have used : ∀ p ∈ State.reset.params.precisions, 1 ≤ p ∧ p ≤ 16 := by decide
  exact ⟨reset_eq_hostReset ▸ hostReset_inv used [], fun bytes => load_eq_hostReset bytes ▸ hostReset_inv used bytes⟩

end Sys2Proof.Machine
end
